-- ==== Sys2Proof/Word.lean ====
section
/-!
DEFINITION. The word types of the block: the 32-bit interface registers of rule R20 (10_state.md) and the bytes of the
two streams of rule R60 (20_memory.md). Their arithmetic is `BitVec`'s and `Nat`'s own (00_scope.md rule R9: every value
is a natural number; a register of width w holds a value below 2^w).
-/
namespace Sys2Proof

/-- A 32-bit interface value: CMD, DATA, R0 to R3, STATUS (10_state.md rule R20), moved whole (20_memory.md rule R64). -/
abbrev Word := BitVec 32

/-- One byte of the source, the sink, a channel buffer or a dictionary string (00_scope.md rule R10). -/
abbrev Byte := BitVec 8

/-- A code of the LZW dictionary: 23 bits hold 0..LZW_CAP = 2^22 (10_state.md rule R37). -/
abbrev Code := BitVec 23

end Sys2Proof
end

