-- ==== Sys2Proof/Config.lean ====
section
/-!
DEFINITION. The implementation parameters of 00_scope.md rule R7, at this hardware's values, and the constants of the
coder (42_arith_coder.md rule R171). No parameter is left without a value here: the spec's open parameters `sourceDraw`
and `sinkDraw` (92_eei_decisions.md D36, D37) are inputs and stand in the state (Machine/State.lean, `Source`, `Sink`).
-/
namespace Sys2Proof.Config

/-- MAX_CODE = 2^17 - 1, the top of the code range (00_scope.md rule R7; 42_arith_coder.md rule R171). -/
abbrev maxCode : Nat := 131071

/-- ONE_FOURTH = 2^15, written Q in 42_arith_coder.md (rule R171). -/
abbrev oneFourth : Nat := 32768

/-- ONE_HALF = 2^16, written H in 42_arith_coder.md (rule R171). -/
abbrev oneHalf : Nat := 65536

/-- THREE_FOURTHS = 3 * 2^15, written T in 42_arith_coder.md (rule R171). -/
abbrev threeFourths : Nat := 98304

/-- FREQ_CAP = 2^15 - 1, the total at which the model freezes (00_scope.md rule R7; 41_freq_model.md rule R142). -/
abbrev freqCap : Nat := 32767

/-- EOF_SYM, the end-of-stream sentinel symbol (00_scope.md rule R7). -/
abbrev eofSym : Nat := 256

/-- CUM_ENTRIES, the number of entries of the cumulative table, indices 0..257 (00_scope.md rule R7). -/
abbrev cumEntries : Nat := 258

/-- BUF_BYTES = 128 KiB, the capacity of each channel buffer (00_scope.md rule R7). -/
abbrev bufBytes : Nat := 131072

/-- RW_MAX_BITS, the largest width of one bit read or write (00_scope.md rule R7). -/
abbrev rwMaxBits : Nat := 32

/-- LZW_INIT_WIDTH, the code width after LzwReset (00_scope.md rule R7). -/
abbrev lzwInitWidth : Nat := 8

/-- LZW_INIT_MAXCODE, the highest assigned code after LzwReset (00_scope.md rule R7). -/
abbrev lzwInitMaxcode : Nat := 255

/-- LZW_CAP = 2^22, the highest LZW code (00_scope.md rule R7; 43_lzw.md rule R222). -/
abbrev lzwCap : Nat := 4194304

/-- The largest value of the 32-bit PENDING counter (00_scope.md rule R7, PENDING_WIDTH; 42_arith_coder.md rule R174). -/
abbrev pendingMax : Nat := 4294967295

/-- DEC_TAIL_FILL, the bit the arithmetic decoder takes past the end of its input (40_bit_channel.md rule R109). -/
abbrev decTailFill : Bool := false

end Sys2Proof.Config
end

