-- ==== Sys2Proof/Machine/State.lean ====
section
/-!
DEFINITION. The state of the block, field by field from 10_state.md rules R20 to R39, and beside it the host side of the
streams (20_memory.md rule R71) and the host's coming actions, which are inputs and not state of the block (rule R40).
`State.reset` is the table of rule R41. STATUS is a view, computed in Machine/Flags.lean (rule R26).
-/
namespace Sys2Proof.Machine

open Sys2Proof

/-- Why the model stops where the spec's machine does not end its command. -/
inductive Fault where
  /-- Raised by AESYM and ADSYM when the renormalization loop (42_arith_coder.md rules R174, R175) has not ended after
  every pass it can need for LOW <= HIGH. It takes a state with LOW > HIGH, which rule R182 rules out. Safe: the model
  stops and claims nothing (notes/assumptions/5.md). -/
  | renormUnending
  /-- Raised by LEBYTE and LDSTEP when their pseudocode (43_lzw.md rules R225, R229) reads the string of a code that DICT does
  not define, or the code of a match that S does not hold. It takes a state that 10_state.md rules R37 and R38 rule out.
  Safe: the model stops and claims nothing (notes/assumptions/5.md). -/
  | undefinedString
deriving DecidableEq, Repr

/-- Why the model gives an instruction no meaning. -/
inductive Refusal where
  /-- Raised by `exec` for an instruction without a meaning; no instruction of this model is one. Safe. -/
  | notModelled (mnemonic : String)
deriving DecidableEq, Repr

/-- AC_MODE (10_state.md rule R35) and LZ_MODE (rule R37). -/
inductive Mode where
  /-- No encode or decode is under way. -/
  | idle
  /-- Encoding. -/
  | enc
  /-- Decoding. -/
  | dec
deriving DecidableEq, Repr

/-- What the host draws for one SourceRead (20_memory.md rule R71; 92_eei_decisions.md D36, parameter `sourceDraw`). The
answer End is no draw: it is given exactly when the bound input has no more bytes. -/
inductive SourceDraw where
  /-- Data with this many bytes, brought into the range the rule allows. -/
  | data (count : Nat)
  /-- Fail: the source is unusable. -/
  | fail
deriving DecidableEq, Repr

/-- The host's answer to one SinkWrite (20_memory.md rule R71; 92_eei_decisions.md D37, parameter `sinkDraw`). -/
inductive SinkAnswer where
  /-- The bytes are appended to the output. -/
  | ok
  /-- The sink is unusable. -/
  | fail
deriving DecidableEq, Repr

/-- The source the host has bound (20_memory.md rule R71): a host-side agent, an input of the model (10_state.md rule R40). -/
structure Source where
  /-- The bytes of the input that no SourceRead has delivered yet, in order. -/
  input : List Byte
  /-- The draws for the coming SourceRead calls, in order; after the last one the source is well-behaved (D36). -/
  draws : List SourceDraw
deriving DecidableEq, Repr

/-- The sink the host has bound (20_memory.md rule R71): a host-side agent, not state of the block (10_state.md rule R40). -/
structure Sink where
  /-- The loads delivered to the sink, in call order: the bytes of each SinkWrite that it answered with Ok. -/
  loads : List (List Byte)
  /-- The answers to the coming SinkWrite calls, in order; after the last one the sink is well-behaved (D37). -/
  draws : List SinkAnswer
deriving DecidableEq, Repr

/-- What the host, or the platform, does between commands. -/
inductive HostAction where
  /-- Write a command word to CMD (10_state.md rule R20). -/
  | writeCmd (w : Word)
  /-- Write DATA (10_state.md rule R22). -/
  | writeData (v : Word)
  /-- Bind a source, which is no command (20_memory.md rule R71). -/
  | bindSource (source : Source)
  /-- Bind a sink, which is no command (20_memory.md rule R71). -/
  | bindSink (sink : Sink)
  /-- Power-on reset, applied by the platform (70_reset_and_hazards.md rule R300). -/
  | powerOn
deriving DecidableEq, Repr

/-- The state of the block and of the host's side of it. -/
structure State where
  /-- CMD (rule R20): the word the host has written, until the command it starts has ended; `none` while the block waits. -/
  cmd : Option Word
  /-- DATA (rule R22). -/
  data : Word
  /-- R0, a result register (rule R23). -/
  r0 : Word
  /-- R1, a result register (rule R23). -/
  r1 : Word
  /-- R2, a result register (rule R23). -/
  r2 : Word
  /-- R3, a result register (rule R23). -/
  r3 : Word
  /-- STATUS.FAULT (rule R24): a fault has been recorded. -/
  fault : Bool
  /-- STATUS.END (rule R24): the last accepted command met the end of its stream. -/
  ended : Bool
  /-- STATUS.FCODE (rule R24): the condition or fault code. -/
  fcode : BitVec 4
  /-- STATUS.IOSINK (rule R24): the sink has failed since the last reset. -/
  ioSink : Bool
  /-- W_OPEN (rule R27): a write stream is open. -/
  wOpen : Bool
  /-- W_BUF (rule R27): complete bytes not yet delivered to the sink. -/
  wBuf : List Byte
  /-- W_ACC (rule R27): the partially filled boundary byte. -/
  wAcc : Byte
  /-- W_NBITS (rule R27): how many bits of W_ACC are valid, 0 to 7. -/
  wNbits : Fin 8
  /-- R_OPEN (rule R30): a read stream is open. -/
  rOpen : Bool
  /-- R_BUF (rule R30): bytes fetched from the source and not yet discarded. -/
  rBuf : List Byte
  /-- R_BITPOS (rule R30): how many bits of R_BUF have been consumed. -/
  rBitpos : Nat
  /-- R_SRC_END (rule R30): the source has reported its end. -/
  rSrcEnd : Bool
  /-- CUM[0..257] (rule R32): the cumulative counts, in index order. -/
  cum : List Nat
  /-- FROZEN (rule R32): updates no longer change the table. -/
  frozen : Bool
  /-- LOW (rule R34). -/
  low : BitVec 17
  /-- HIGH (rule R34). -/
  high : BitVec 17
  /-- VALUE (rule R34). -/
  value : BitVec 17
  /-- PENDING (rule R34). -/
  pending : BitVec 32
  /-- AC_MODE (rule R35). -/
  acMode : Mode
  /-- DICT (rule R37): the string of each code in code order. A string is non-empty where the map is defined, so the empty
  list stands for an undefined code, as every index past the end of the list does. -/
  dict : List (List Byte)
  /-- MAXCODE (rule R37): the highest assigned code. -/
  maxcode : Code
  /-- CODELEN (rule R37): the current code width. -/
  codelen : BitVec 5
  /-- S (rule R37): the encoder's current match, `none` for the empty string. -/
  sCode : Option Code
  /-- PREV (rule R37): the decoder's previous code. -/
  prev : Code
  /-- LZ_MODE (rule R37). -/
  lzMode : Mode
  /-- The host's coming actions, in order (the model's own field: an input). -/
  host : List HostAction
  /-- The bound source (the model's own field: host side, 20_memory.md rule R71). -/
  source : Source
  /-- The bound sink (the model's own field: host side, 20_memory.md rule R71). -/
  sink : Sink
deriving DecidableEq, Repr

/-- The identity ramp, CUM[i] = i for i in 0..257 (10_state.md rule R41; 41_freq_model.md rule R147). -/
def identityRamp : List Nat := (List.range Config.cumEntries).map fun i => i

/-- The dictionary of the 256 one-byte strings (10_state.md rules R39, R41). -/
def initialDict : List (List Byte) := (List.range 256).map fun c => [BitVec.ofNat 8 c]

/-- The state right after reset: the table of 10_state.md rule R41. The four fields that are not in it are inputs: no word is
in CMD (70_reset_and_hazards.md rule R302), the host has nothing more to do, and nothing is bound (notes/assumptions/3.md). -/
def State.reset : State where
  cmd := none
  data := 0
  r0 := 0
  r1 := 0
  r2 := 0
  r3 := 0
  fault := false
  ended := false
  fcode := 0
  ioSink := false
  wOpen := false
  wBuf := []
  wAcc := 0
  wNbits := 0
  rOpen := false
  rBuf := []
  rBitpos := 0
  rSrcEnd := false
  cum := identityRamp
  frozen := false
  low := 0
  high := BitVec.ofNat 17 Config.maxCode
  value := 0
  pending := 0
  acMode := .idle
  dict := initialDict
  maxcode := BitVec.ofNat 23 Config.lzwInitMaxcode
  codelen := BitVec.ofNat 5 Config.lzwInitWidth
  sCode := none
  prev := 0
  lzMode := .idle
  host := []
  source := ⟨[], []⟩
  sink := ⟨[], []⟩

end Sys2Proof.Machine
end

