-- ==== Sys2Proof/Machine/Flags.lean ====
section
/-!
DEFINITION. STATUS: the codes of 60_exceptions.md rule R271, the writes of its stored fields (rules R272 and R276, and step 2
of 44_control.md rule R260), and the STATUS word as the host reads it (10_state.md rules R24, R26).
-/
namespace Sys2Proof.Machine

/-- The fault kinds of 60_exceptions.md rule R271; IoFailure by the side that failed. -/
inductive FaultKind where
  /-- IoFailure(source): the source answered Fail to SourceRead. -/
  | ioFailureSource
  /-- IoFailure(sink): the sink answered Fail to SinkWrite. -/
  | ioFailureSink
  /-- InvariantViolation: SymbolSearch found no symbol. -/
  | invariantViolation
  /-- IllegalCommand: the command word selects no command. -/
  | illegalCommand
  /-- BadOperand: the operand is outside its legal range. -/
  | badOperand
  /-- BadState: the command's stream or mode is wrong. -/
  | badState
  /-- PendingOverflow: PENDING would pass 2^32 - 1. -/
  | pendingOverflow
  /-- LzwBadCode: an LZW code read is above MAXCODE + 1. -/
  | lzwBadCode
deriving DecidableEq, Repr

/-- FCODE of a fault (60_exceptions.md rule R271). -/
def faultCode : FaultKind → BitVec 4
  | .ioFailureSource => 2
  | .ioFailureSink => 2
  | .invariantViolation => 3
  | .illegalCommand => 4
  | .badOperand => 5
  | .badState => 6
  | .pendingOverflow => 7
  | .lzwBadCode => 8

/-- FCODE of the EndOfStream condition (60_exceptions.md rule R271). -/
def endOfStreamCode : BitVec 4 := 1

/-- Step 2 of the dispatch: while FAULT = 0, an accepted command clears END and FCODE; while FAULT = 1 both stay
(44_control.md rule R260; 10_state.md rule R25). -/
def clearConditions (s : State) : State :=
  { s with ended := s.ended && s.fault, fcode := if s.fault then s.fcode else 0 }

/-- What recording a fault writes (60_exceptions.md rule R272): FAULT and FCODE if no fault is recorded yet, so that FCODE
keeps the first fault's code, and IOSINK if the sink has failed. -/
def recordFault (k : FaultKind) (s : State) : State :=
  { s with
    fault := true
    fcode := if s.fault then s.fcode else faultCode k
    ioSink := s.ioSink || (k == .ioFailureSink) }

/-- `signal EndOfStream`: END and FCODE are set, FAULT stays (60_exceptions.md rule R276). -/
def signalEndOfStream (s : State) : State :=
  { s with ended := true, fcode := endOfStreamCode }

/-- The two STATUS bits of a mode: 0 IDLE, 1 ENC, 2 DEC (10_state.md rule R24). -/
def modeBits : Mode → BitVec 2
  | .idle => 0
  | .enc => 1
  | .dec => 2

/-- STATUS as the host reads it: bits 31:17 reserved, IOSINK, FCODE, bits 11:9 reserved, LZMODE, ACMODE, FROZEN, ROPEN, WOPEN,
END, FAULT. The reserved bits read 0; the mirrors are views of the state they mirror (10_state.md rules R24, R26). -/
def statusWord (s : State) : Word :=
  0#15 ++ BitVec.ofBool s.ioSink ++ s.fcode ++ 0#3 ++ modeBits s.lzMode ++ modeBits s.acMode ++ BitVec.ofBool s.frozen
    ++ BitVec.ofBool s.rOpen ++ BitVec.ofBool s.wOpen ++ BitVec.ofBool s.ended ++ BitVec.ofBool s.fault

end Sys2Proof.Machine
end

