-- ==== Sys2Proof/Machine/Operands.lean ====
section
/-!
DEFINITION. The operands as the commands use them: each ARG field zero-extended to a natural (30_encoding.md rule R82), and
the BadOperand conditions of 44_control.md rule R264.
-/
namespace Sys2Proof.Machine

/-- The operand n of layout W (30_encoding.md rule R82). -/
def operandCount (n : BitVec 6) : Nat := n.toNat

/-- BadOperand of WBITS and RBITS: n = 0 or n > 32 (44_control.md rule R264). -/
def badCount (n : BitVec 6) : Bool := operandCount n == 0 || decide (Config.rwMaxBits < operandCount n)

/-- The operand sym of layout S (30_encoding.md rule R82). -/
def operandSymbol (sym : BitVec 9) : Nat := sym.toNat

/-- BadOperand of FMPROB and AESYM: sym > 256 (44_control.md rule R264). -/
def badSymbol (sym : BitVec 9) : Bool := decide (Config.eofSym < operandSymbol sym)

/-- The operand v of layout V (30_encoding.md rule R82); every value is legal. -/
def operandScaled (v : BitVec 24) : Nat := v.toNat

/-- The operand c of layout B (30_encoding.md rule R82); every value is legal. -/
def operandByte (c : BitVec 8) : Byte := c

end Sys2Proof.Machine
end

