-- ==== Sys2Proof/Machine/Ops.lean ====
section
/-!
DEFINITION. The shared operations: how a command's steps are chained and ended (00_scope.md rule R11), recording a fault and
the reset that clears it (60_exceptions.md rules R272, R275), the dispatch around a command (44_control.md rule R260), the
two host calls (20_memory.md rule R71), the Bit Channel's primitives (40_bit_channel.md), the table accesses of the
Frequency Model (41_freq_model.md) and of the dictionary (10_state.md rule R37, 43_lzw.md rule R221).
-/
namespace Sys2Proof.Machine

/-- How a step of a command's pseudocode ends (00_scope.md rule R11): it goes on, with its value; or a fault was recorded and
the command ends there, what it wrote so far standing (60_exceptions.md rule R273); or the model stops. -/
inductive Res (α : Type) where
  /-- The pseudocode goes on. -/
  | ok (value : α) (s : State)
  /-- A `raise` ended the command. -/
  | raised (s : State)
  /-- The model stops. -/
  | stuck (f : Fault)
deriving Repr

/-- The next step of the pseudocode, taken only if the step before it did not end the command (00_scope.md rule R11). -/
def andThen {α β : Type} (r : Res α) (f : α → State → Res β) : Res β :=
  match r with
  | .ok a s => f a s
  | .raised s => .raised s
  | .stuck e => .stuck e

/-- The end of a command: both a normal end and a recorded fault give the state the host then reads (44_control.md rule
R260; 60_exceptions.md rule R280: control stays with the host). -/
def outcomeOf (r : Res Unit) : Host.Outcome State Fault Refusal :=
  match r with
  | .ok _ s => .next s
  | .raised s => .next s
  | .stuck e => .fault e

/-! ### Taking a fault, and the return from one -/

/-- `raise F`: record the fault and end the command (60_exceptions.md rule R272). A fault transfers no control (rule R280). -/
def raiseFault {α : Type} (k : FaultKind) (s : State) : Res α := .raised (recordFault k s)

/-- ModelReset: the identity ramp, and the frozen flag clear (41_freq_model.md rule R147). -/
def modelReset (s : State) : State := { s with cum := identityRamp, frozen := false }

/-- LzwReset (10_state.md rule R39). -/
def lzwReset (s : State) : State :=
  { s with
    dict := initialDict
    maxcode := BitVec.ofNat 23 Config.lzwInitMaxcode
    codelen := BitVec.ofNat 5 Config.lzwInitWidth }

/-- ResetAll (70_reset_and_hazards.md rule R300): every piece of state of the block takes its reset value; CMD's word, the
host's coming actions and the bindings of source and sink are no state of the block and stay. It is the only return from
a recorded fault (60_exceptions.md rule R275). -/
def resetAll (s : State) : State :=
  { State.reset with cmd := s.cmd, host := s.host, source := s.source, sink := s.sink }

/-! ### The dispatch -/

/-- Steps 1, 2, 4, 5 and 6 of the dispatch for a command that decodes (44_control.md rule R260): refusal while faulted
(`whileFaulted` marks the two exempt words, rule R261), clearing of END and FCODE, the BadState check, the BadOperand check,
and the command's pseudocode. Step 3 is the decoder's, in `fetch`; no later step depends on what it reads. -/
def dispatchCommand (whileFaulted badState badOperand : Bool) (body : State → Res Unit) (s : State) :
    Host.Outcome State Fault Refusal :=
  if s.fault && !whileFaulted then .next s
  else
    let s := clearConditions s
    if badState then outcomeOf (raiseFault .badState s)
    else if badOperand then outcomeOf (raiseFault .badOperand s)
    else outcomeOf (body s)

/-- Steps 1 to 3 of the dispatch for a word that selects no command (44_control.md rules R260, R261). -/
def illegalCommand (s : State) : State :=
  if s.fault then s else recordFault .illegalCommand (clearConditions s)

/-! ### The host side of the streams -/

/-- The host's answer to a SourceRead (20_memory.md rule R71). -/
inductive SourceAnswer where
  /-- The next bytes of the input. -/
  | data (bytes : List Byte)
  /-- No more bytes exist. -/
  | ended
  /-- The source is unusable. -/
  | fail
deriving DecidableEq, Repr

/-- How many bytes a Data answer carries: the draw's count within 1..max, as far as the input goes; with no draw left, all
the input has, up to max (20_memory.md rule R71; 92_eei_decisions.md D36). -/
def dataCount (draw : Option SourceDraw) (max remaining : Nat) : Nat :=
  match draw with
  | some (.data count) => Nat.max 1 (Nat.min count (Nat.min max remaining))
  | _ => Nat.min max remaining

/-- SourceRead(max): one call of the bound source, one draw (20_memory.md rule R71). -/
def sourceRead (max : Nat) (s : State) : SourceAnswer × State :=
  let draw := s.source.draws.head?
  let left := s.source.draws.tail
  if draw = some .fail then (.fail, { s with source := ⟨s.source.input, left⟩ })
  else if s.source.input = [] then (.ended, { s with source := ⟨[], left⟩ })
  else
    let n := dataCount draw max s.source.input.length
    (.data (s.source.input.take n), { s with source := ⟨s.source.input.drop n, left⟩ })

/-- SinkWrite(bs): one call of the bound sink, one draw; the bytes reach the output exactly when the answer is Ok
(20_memory.md rule R71). -/
def sinkWrite (bs : List Byte) (s : State) : SinkAnswer × State :=
  let left := s.sink.draws.tail
  if s.sink.draws.head? = some .fail then (.fail, { s with sink := ⟨s.sink.loads, left⟩ })
  else (.ok, { s with sink := ⟨s.sink.loads ++ [bs], left⟩ })

/-- A SinkWrite whose failure is the fault IoFailure(sink) (40_bit_channel.md rules R105, R106). -/
def deliver (bs : List Byte) (s : State) : Res Unit :=
  match sinkWrite bs s with
  | (.ok, s) => .ok () s
  | (.fail, s) => raiseFault .ioFailureSink s

/-! ### The Bit Channel, write side -/

/-- FlushLoad: the load leaves W_BUF before the sink answers (40_bit_channel.md rule R105). -/
def flushLoad (s : State) : Res Unit := deliver s.wBuf { s with wBuf := [] }

/-- W_ACC with one more valid bit, MSB first (40_bit_channel.md rule R101). -/
def accWithBit (b : Bool) (s : State) : Byte :=
  BitVec.ofNat 8 (s.wAcc.toNat + b.toNat * 2 ^ (7 - s.wNbits.val))

/-- PutBit(b): append one bit to the write stream; the bit that completes a full load delivers it (40_bit_channel.md rule
R101). -/
def putBit (b : Bool) (s : State) : Res Unit :=
  if h : s.wNbits.val + 1 < 8 then
    .ok () { s with wAcc := accWithBit b s, wNbits := ⟨s.wNbits.val + 1, h⟩ }
  else
    let t := { s with wBuf := s.wBuf ++ [accWithBit b s], wAcc := 0, wNbits := 0 }
    if t.wBuf.length = Config.bufBytes then flushLoad t else .ok () t

/-- PutBits(v, n): append the low n bits of v, MSB first (40_bit_channel.md rule R102). -/
def putBits (v : Nat) : Nat → State → Res Unit
  | 0, s => .ok () s
  | n + 1, s => andThen (putBit (v.testBit n) s) fun _ s => putBits v n s

/-- One 8-bit PutBits for each byte of a string, in order (43_lzw.md rule R229). -/
def putBytes : List Byte → State → Res Unit
  | [], s => .ok () s
  | b :: bs, s => andThen (putBits b.toNat 8 s) fun _ s => putBytes bs s

/-- What WCLOSE delivers: W_BUF, and W_ACC if it holds valid bits (40_bit_channel.md rule R106). -/
def closingBytes (s : State) : List Byte := if s.wNbits.val = 0 then s.wBuf else s.wBuf ++ [s.wAcc]

/-! ### The Bit Channel, read side -/

/-- The bits of R_BUF not consumed yet (10_state.md rule R30). -/
def availBits (s : State) : Nat := 8 * s.rBuf.length - s.rBitpos

/-- Refill: drop the bytes consumed in full, then ask for as many as R_BUF has room for (40_bit_channel.md rule R107). -/
def refill (s : State) : Res Unit :=
  let s := { s with rBuf := s.rBuf.drop (s.rBitpos / 8), rBitpos := s.rBitpos % 8 }
  match sourceRead (Config.bufBytes - s.rBuf.length) s with
  | (.data bs, s) => .ok () { s with rBuf := s.rBuf ++ bs }
  | (.ended, s) => .ok () { s with rSrcEnd := true }
  | (.fail, s) => raiseFault .ioFailureSource s

/-- The refill loop of GetBits, for at most `passes` refills (40_bit_channel.md rule R108). -/
def refillUntil (n : Nat) : Nat → State → Res Unit
  | 0, s => .ok () s
  | passes + 1, s =>
    if availBits s < n && !s.rSrcEnd then andThen (refill s) fun _ s => refillUntil n passes s else .ok () s

/-- Bit k of a byte string as a stream: bit 7 - (k mod 8) of byte k / 8 (20_memory.md rule R62). -/
def streamBit (bytes : List Byte) (k : Nat) : Bool := (bytes.getD (k / 8) 0).getLsbD (7 - k % 8)

/-- The n bits of a byte string from bit position `pos` on, as a natural, MSB first, after the bits already in `v`
(40_bit_channel.md rule R108). -/
def bitsAt (bytes : List Byte) : Nat → Nat → Nat → Nat
  | 0, _, v => v
  | n + 1, pos, v => bitsAt bytes n (pos + 1) (2 * v + (streamBit bytes pos).toNat)

/-- GetBits(n), n at most 32: the next n bits, or `none` with nothing consumed when fewer remain (40_bit_channel.md rule R108).
Every Data answer brings at least one byte, so n + 1 refills give n bits or reach the source's end. -/
def getBits (n : Nat) (s : State) : Res (Option Nat) :=
  andThen (refillUntil n (n + 1) s) fun _ s =>
    if availBits s < n then .ok none s
    else .ok (some (bitsAt s.rBuf n s.rBitpos 0)) { s with rBitpos := s.rBitpos + n }

/-- GetBitOrFill: the next bit, or DEC_TAIL_FILL past the end (40_bit_channel.md rule R109). -/
def getBitOrFill (s : State) : Res Nat :=
  andThen (getBits 1 s) fun r s => .ok (r.getD Config.decTailFill.toNat) s

/-! ### The Frequency Model's table -/

/-- CUM[i] (10_state.md rule R32). -/
def cumAt (s : State) (i : Nat) : Nat := s.cum.getD i 0

/-- CountLookup(s): the symbol's interval and the total (41_freq_model.md rule R141). -/
def countLookup (sym : Nat) (s : State) : Nat × Nat × Nat := (cumAt s sym, cumAt s (sym + 1), cumAt s 257)

/-- FreqUpdate(s): every entry after the symbol's position goes up by 1, unless frozen; the update that takes the total to
FREQ_CAP freezes the table (41_freq_model.md rule R142). -/
def freqUpdate (sym : Nat) (s : State) : State :=
  if s.frozen then s
  else
    let t := { s with cum := s.cum.take (sym + 1) ++ (s.cum.drop (sym + 1)).map (· + 1) }
    { t with frozen := decide (Config.freqCap ≤ cumAt t 257) }

/-- SymbolSearch(v): the least symbol s in 0..256 with CUM[s+1] > v (41_freq_model.md rule R143). -/
def symbolSearch (v : Nat) (s : State) : Option Nat :=
  ((s.cum.drop 1).take 257).findIdx? fun c => decide (v < c)

/-- The result registers of an interval lookup: R0 = cumulative low, R1 = cumulative high, R2 = total, R3 = symbol
(10_state.md rule R23). -/
def setInterval (lo hi t sym : Nat) (s : State) : State :=
  { s with
    r0 := BitVec.ofNat 32 lo
    r1 := BitVec.ofNat 32 hi
    r2 := BitVec.ofNat 32 t
    r3 := BitVec.ofNat 32 sym }

/-! ### The dictionary -/

/-- `pow2(x)`: x is a power of two (00_scope.md rule R9). -/
def isPow2 (x : Nat) : Bool := x == 2 ^ Nat.log2 x

/-- DICT[c], the empty string where the map is not defined (10_state.md rule R37). -/
def dictAt (s : State) (c : Nat) : List Byte := s.dict.getD c []

/-- `DICT[c] <- t` (43_lzw.md rules R225, R229). -/
def dictPut (c : Nat) (t : List Byte) (s : State) : State :=
  { s with
    dict :=
      if c < s.dict.length then s.dict.set c t
      else s.dict ++ List.replicate (c - s.dict.length) [] ++ [t] }

/-- Code(t): the code k in 0..MAXCODE with DICT[k] = t, if there is one (43_lzw.md rule R221). -/
def codeOf (t : List Byte) (s : State) : Option Nat :=
  (s.dict.take (s.maxcode.toNat + 1)).findIdx? fun u => u == t

/-- The result registers of an LZW command: R0 = a count, R1 = the code, R2 = its width (92_eei_decisions.md D5). -/
def setCodes (count code width : Nat) (s : State) : State :=
  { s with
    r0 := BitVec.ofNat 32 count
    r1 := BitVec.ofNat 32 code
    r2 := BitVec.ofNat 32 width }

end Sys2Proof.Machine
end

