-- ==== Sys2Proof/Machine/ArithCoder.lean ====
section
/-!
DEFINITION. The Arithmetic Coder (42_arith_coder.md): its primitives (rules R172 to R177) and its commands (rules R176 to
R183). The registers are taken as naturals, computed with exactly, and narrowed to 17 bits when they are written
(00_scope.md rule R9).
-/
namespace Sys2Proof.Machine

/-- LOW and HIGH written from naturals (10_state.md rule R34). -/
def setBounds (lo hi : Nat) (s : State) : State :=
  { s with low := BitVec.ofNat 17 lo, high := BitVec.ofNat 17 hi }

/-- `HIGH - LOW + 1`, the range (42_arith_coder.md rules R172, R177). -/
def codeRange (s : State) : Nat := s.high.toNat - s.low.toNat + 1

/-- Narrow(lo, hi, t): both new bounds from the old LOW, each product before its quotient (42_arith_coder.md rule R172). -/
def narrow (lo hi t : Nat) (s : State) : State :=
  setBounds (s.low.toNat + codeRange s * lo / t) (s.low.toNat + codeRange s * hi / t - 1) s

/-- Write one bit value `times` times (42_arith_coder.md rule R173, the follow bits). -/
def putRepeated (b : Bool) : Nat → State → Res Unit
  | 0, s => .ok () s
  | times + 1, s => andThen (putBit b s) fun _ s => putRepeated b times s

/-- EmitBit(b), bit-plus-follow: b, then its complement PENDING times, then PENDING <- 0 (42_arith_coder.md rule R173). -/
def emitBit (b : Bool) (s : State) : Res Unit :=
  andThen (putBit b s) fun _ s =>
    andThen (putRepeated (!b) s.pending.toNat s) fun _ s => .ok () { s with pending := 0 }

/-- The renormalization case of a LOW and HIGH; the tests in the order E1, E2, E3 (42_arith_coder.md rules R174, R175). -/
inductive RenormCase where
  /-- E1: HIGH is below ONE_HALF. -/
  | e1
  /-- E2: LOW is at or above ONE_HALF. -/
  | e2
  /-- E3, underflow: LOW is at or above ONE_FOURTH and HIGH is below THREE_FOURTHS. -/
  | e3
  /-- None of the three: the loop ends. -/
  | done
deriving DecidableEq, Repr

/-- Which case the renormalization loop takes (42_arith_coder.md rules R174, R175; 92_eei_decisions.md D16). -/
def renormCase (s : State) : RenormCase :=
  if s.high.toNat < Config.oneHalf then .e1
  else if Config.oneHalf ≤ s.low.toNat then .e2
  else if Config.oneFourth ≤ s.low.toNat ∧ s.high.toNat < Config.threeFourths then .e3
  else .done

/-- Subtract `k` from both bounds, then double them: LOW <- 2 LOW and HIGH <- 2 HIGH + 1, modulo 2^17 (42_arith_coder.md rule
R174). -/
def scaleBounds (k : Nat) (s : State) : State :=
  setBounds (2 * (s.low.toNat - k)) (2 * (s.high.toNat - k) + 1) s

/-- How many passes of a renormalization loop the model makes: the 17 iterations that 42_arith_coder.md rule R174 derives for
LOW <= HIGH, and the pass that leaves the loop. -/
def renormPasses : Nat := 18

/-- EncRenorm, for at most `passes` passes of its loop (42_arith_coder.md rule R174). -/
def encRenorm : Nat → State → Res Unit
  | 0, _ => .stuck .renormUnending
  | passes + 1, s =>
    match renormCase s with
    | .e1 => andThen (emitBit false s) fun _ s => encRenorm passes (scaleBounds 0 s)
    | .e2 => andThen (emitBit true s) fun _ s => encRenorm passes (scaleBounds Config.oneHalf s)
    | .e3 =>
      if s.pending.toNat = Config.pendingMax then raiseFault .pendingOverflow s
      else encRenorm passes (scaleBounds Config.oneFourth { s with pending := s.pending + 1 })
    | .done => .ok () s

/-- One step of the decoder's loop: `k` leaves all three registers, LOW and HIGH are doubled as the encoder's are, and VALUE is
doubled with the next bit at its bottom (42_arith_coder.md rule R175). A source failure leaves VALUE undoubled. -/
def decShift (k : Nat) (s : State) : Res Unit :=
  let t := scaleBounds k { s with value := BitVec.ofNat 17 (s.value.toNat - k) }
  andThen (getBitOrFill t) fun b u => .ok () { u with value := BitVec.ofNat 17 (2 * u.value.toNat + b) }

/-- DecRenorm, for at most `passes` passes of its loop (42_arith_coder.md rule R175). -/
def decRenorm : Nat → State → Res Unit
  | 0, _ => .stuck .renormUnending
  | passes + 1, s =>
    match renormCase s with
    | .e1 => andThen (decShift 0 s) fun _ s => decRenorm passes s
    | .e2 => andThen (decShift Config.oneHalf s) fun _ s => decRenorm passes s
    | .e3 => andThen (decShift Config.oneFourth s) fun _ s => decRenorm passes s
    | .done => .ok () s

/-- ScaledValue (42_arith_coder.md rule R177). -/
def scaledValue (s : State) : Nat :=
  ((s.value.toNat - s.low.toNat + 1) * cumAt s 257 - 1) / codeRange s

/-- The start of an encode or a decode: a fresh model, the whole code range, VALUE and PENDING 0 (42_arith_coder.md rules R176,
R180). -/
def coderStart (s : State) : State :=
  { modelReset s with
    low := 0
    high := BitVec.ofNat 17 Config.maxCode
    value := 0
    pending := 0 }

/-- AEINIT (42_arith_coder.md rule R176). No BadState condition. -/
def execAeinit (s : State) : Host.Outcome State Fault Refusal :=
  dispatchCommand false false false (fun s => .ok () { coderStart s with acMode := .enc }) s

/-- The pseudocode of AESYM: the model updates after the lookup and before the narrowing, which uses the triple from before the
update (42_arith_coder.md rule R178). -/
def encodeSymbol (sym : Nat) (s : State) : Res Unit :=
  let (lo, hi, t) := countLookup sym s
  encRenorm renormPasses (narrow lo hi t (setInterval lo hi t sym (freqUpdate sym s)))

/-- AESYM s (42_arith_coder.md rule R178). BadState: AC_MODE is not ENC, or W_OPEN = 0. BadOperand: s > 256. -/
def execAesym (sym : BitVec 9) (s : State) : Host.Outcome State Fault Refusal :=
  dispatchCommand false (s.acMode != .enc || !s.wOpen) (badSymbol sym) (encodeSymbol (operandSymbol sym)) s

/-- The pseudocode of AEFIN (42_arith_coder.md rule R179). -/
def finishEncode (s : State) : Res Unit :=
  if s.pending.toNat = Config.pendingMax then raiseFault .pendingOverflow s
  else
    let b := decide (Config.oneFourth ≤ s.low.toNat)
    andThen (emitBit b { s with pending := s.pending + 1 }) fun _ s =>
      .ok () { s with r0 := BitVec.ofNat 32 b.toNat, acMode := .idle }

/-- AEFIN (42_arith_coder.md rule R179). BadState: AC_MODE is not ENC, or W_OPEN = 0. -/
def execAefin (s : State) : Host.Outcome State Fault Refusal :=
  dispatchCommand false (s.acMode != .enc || !s.wOpen) false finishEncode s

/-- Shift `times` bits of the read stream into VALUE (42_arith_coder.md rule R180). -/
def loadValue : Nat → State → Res Unit
  | 0, s => .ok () s
  | times + 1, s =>
    andThen (getBitOrFill s) fun b s => loadValue times { s with value := BitVec.ofNat 17 (2 * s.value.toNat + b) }

/-- ADINIT (42_arith_coder.md rule R180). BadState: R_OPEN = 0. -/
def execAdinit (s : State) : Host.Outcome State Fault Refusal :=
  dispatchCommand false (!s.rOpen) false
    (fun s => andThen (loadValue 17 (coderStart s)) fun _ s => .ok () { s with acMode := .dec }) s

/-- The pseudocode of ADSYM (42_arith_coder.md rule R183). -/
def decodeSymbol (s : State) : Res Unit :=
  match symbolSearch (scaledValue s) s with
  | none => raiseFault .invariantViolation s
  | some sym =>
    let (lo, hi, t) := countLookup sym s
    let s := setInterval lo hi t sym (freqUpdate sym s)
    if sym = Config.eofSym then .ok () { s with ended := true, acMode := .idle }
    else andThen (putBits sym 8 s) fun _ s => decRenorm renormPasses (narrow lo hi t s)

/-- ADSYM (42_arith_coder.md rule R183). BadState: AC_MODE is not DEC, or R_OPEN = 0, or W_OPEN = 0. -/
def execAdsym (s : State) : Host.Outcome State Fault Refusal :=
  dispatchCommand false (s.acMode != .dec || !s.rOpen || !s.wOpen) false decodeSymbol s

end Sys2Proof.Machine
end

