-- ==== Sys2Proof/Machine/BitChannel.lean ====
section
/-!
DEFINITION. The Bit Channel commands (40_bit_channel.md rules R103 to R112).
-/
namespace Sys2Proof.Machine

/-- WOPEN (40_bit_channel.md rule R103). BadState: W_OPEN = 1. -/
def execWopen (s : State) : Host.Outcome State Fault Refusal :=
  dispatchCommand false s.wOpen false
    (fun s => .ok () { s with wOpen := true, wBuf := [], wAcc := 0, wNbits := 0 }) s

/-- WBITS n (40_bit_channel.md rule R104). BadState: W_OPEN = 0. BadOperand: n outside 1..32. -/
def execWbits (n : BitVec 6) (s : State) : Host.Outcome State Fault Refusal :=
  dispatchCommand false (!s.wOpen) (badCount n) (fun s => putBits s.data.toNat (operandCount n) s) s

/-- The pseudocode of WCLOSE (40_bit_channel.md rule R106). -/
def closeWrite (s : State) : Res Unit :=
  if s.wOpen then
    let bs := closingBytes s
    let t := { s with wBuf := [], wAcc := 0, wNbits := 0, wOpen := false }
    if 0 < bs.length ∧ t.ioSink = false then deliver bs t else .ok () t
  else .ok () s

/-- WCLOSE (40_bit_channel.md rule R106). No BadState condition; accepted while FAULT = 1 (44_control.md rule R261). -/
def execWclose (s : State) : Host.Outcome State Fault Refusal :=
  dispatchCommand true false false closeWrite s

/-- ROPEN (40_bit_channel.md rule R111). BadState: R_OPEN = 1. -/
def execRopen (s : State) : Host.Outcome State Fault Refusal :=
  dispatchCommand false s.rOpen false
    (fun s => .ok () { s with rOpen := true, rBuf := [], rBitpos := 0, rSrcEnd := false }) s

/-- The pseudocode of RBITS (40_bit_channel.md rule R110). -/
def readToR0 (n : Nat) (s : State) : Res Unit :=
  andThen (getBits n s) fun r s =>
    match r with
    | none => .ok () (signalEndOfStream s)
    | some v => .ok () { s with r0 := BitVec.ofNat 32 v }

/-- RBITS n (40_bit_channel.md rule R110). BadState: R_OPEN = 0. BadOperand: n outside 1..32. -/
def execRbits (n : BitVec 6) (s : State) : Host.Outcome State Fault Refusal :=
  dispatchCommand false (!s.rOpen) (badCount n) (readToR0 (operandCount n)) s

/-- The pseudocode of RCLOSE (40_bit_channel.md rule R112). -/
def closeRead (s : State) : State :=
  if s.rOpen then { s with rOpen := false, rBuf := [], rBitpos := 0, rSrcEnd := false } else s

/-- RCLOSE (40_bit_channel.md rule R112). No BadState condition. -/
def execRclose (s : State) : Host.Outcome State Fault Refusal :=
  dispatchCommand false false false (fun s => .ok () (closeRead s)) s

end Sys2Proof.Machine
end

