-- ==== Sys2Proof/Syntax.lean ====
section
/-!
DEFINITION. The 21 commands of the opcode map (30_encoding.md rule R83; spec/opcode_table.json), one constructor each, with
the operand fields of the ARG layouts N, W, S, V and B (rule R82).
-/
namespace Sys2Proof

/-- A command of the block (30_encoding.md rule R83). An operand is the whole field of its layout (rule R82), so a value
outside the legal range, such as `wbits 0`, is a command too: it decodes, and faults when it executes. -/
inductive Instr where
  /-- 0x01 WOPEN: open the write stream (40_bit_channel.md rule R103). -/
  | wopen
  /-- 0x02 WBITS n: write the low n bits of DATA (rule R104). -/
  | wbits (n : BitVec 6)
  /-- 0x03 WCLOSE: close the write stream and deliver what it holds (rule R106). -/
  | wclose
  /-- 0x04 ROPEN: open the read stream (rule R111). -/
  | ropen
  /-- 0x05 RBITS n: read the next n bits into R0 (rule R110). -/
  | rbits (n : BitVec 6)
  /-- 0x06 RCLOSE: close the read stream (rule R112). -/
  | rclose
  /-- 0x10 FMRST: reset the frequency model (41_freq_model.md rule R148). -/
  | fmrst
  /-- 0x11 FMPROB s: look up a symbol's interval, then update (rule R144). -/
  | fmprob (sym : BitVec 9)
  /-- 0x12 FMSYM v: find the symbol of a scaled value, then update (rule R145). -/
  | fmsym (v : BitVec 24)
  /-- 0x13 FMTOT: the total count (rule R146). -/
  | fmtot
  /-- 0x20 AEINIT: start an encode (42_arith_coder.md rule R176). -/
  | aeinit
  /-- 0x21 AESYM s: encode one symbol (rule R178). -/
  | aesym (sym : BitVec 9)
  /-- 0x22 AEFIN: end an encode (rule R179). -/
  | aefin
  /-- 0x28 ADINIT: start a decode (rule R180). -/
  | adinit
  /-- 0x29 ADSYM: decode one symbol (rule R183). -/
  | adsym
  /-- 0x30 LEINIT: start an LZW encode (43_lzw.md rule R224). -/
  | leinit
  /-- 0x31 LEBYTE c: LZW encode one input byte (rule R225). -/
  | lebyte (c : BitVec 8)
  /-- 0x32 LEFIN: end an LZW encode (rule R227). -/
  | lefin
  /-- 0x38 LDINIT: LZW decode the first code (rule R228). -/
  | ldinit
  /-- 0x39 LDSTEP: LZW decode one loop iteration (rule R229). -/
  | ldstep
  /-- 0xFF SRST: soft reset (44_control.md rule R262). -/
  | srst
deriving DecidableEq, Repr

/-- The mnemonic of a command, as 30_encoding.md rule R83 spells it. -/
def Instr.mnemonic : Instr → String
  | .wopen => "WOPEN"
  | .wbits _ => "WBITS"
  | .wclose => "WCLOSE"
  | .ropen => "ROPEN"
  | .rbits _ => "RBITS"
  | .rclose => "RCLOSE"
  | .fmrst => "FMRST"
  | .fmprob _ => "FMPROB"
  | .fmsym _ => "FMSYM"
  | .fmtot => "FMTOT"
  | .aeinit => "AEINIT"
  | .aesym _ => "AESYM"
  | .aefin => "AEFIN"
  | .adinit => "ADINIT"
  | .adsym => "ADSYM"
  | .leinit => "LEINIT"
  | .lebyte _ => "LEBYTE"
  | .lefin => "LEFIN"
  | .ldinit => "LDINIT"
  | .ldstep => "LDSTEP"
  | .srst => "SRST"

end Sys2Proof
end

