-- ==== Sys2Proof/Decode.lean ====
section
/-!
DEFINITION. The command word (30_encoding.md rules R80 to R86): OPC in bits 31:24, ARG in bits 23:0. `decode` is total on
32-bit words and answers `none` for an illegal one (rules R84, R85); `encode` writes a command's word from the same map;
`opcodeTable` is rule R83's match and mask columns, kept apart from `decode` so that the two can be held against each other.
-/
namespace Sys2Proof

/-- OPC, bits 31:24 of a command word (30_encoding.md rule R80). -/
def opcOf (w : Word) : BitVec 8 := w.extractLsb' 24 8

/-- ARG, bits 23:0 of a command word (30_encoding.md rule R80). -/
def argOf (w : Word) : BitVec 24 := w.extractLsb' 0 24

/-- The operand of a layout whose field is ARG[k-1:0], if the reserved bits ARG[23:k] are all 0 (30_encoding.md rules R82,
R84). Every operand is taken as it stands: none is sign-extended, scaled or shifted. -/
def argField (k : Nat) (arg : BitVec 24) : Option (BitVec k) :=
  if arg.toNat < 2 ^ k then some (arg.setWidth k) else none

/-- A command of layout N: every bit of ARG is reserved and must be 0 (30_encoding.md rules R82, R84). -/
def noOperand (arg : BitVec 24) (i : Instr) : Option Instr :=
  if arg.toNat = 0 then some i else none

/-- The command a word selects, or `none` for an illegal word (30_encoding.md rules R83 to R86). -/
def decode (w : Word) : Option Instr :=
  match (opcOf w).toNat with
  | 0x01 => noOperand (argOf w) .wopen
  | 0x02 => (argField 6 (argOf w)).map .wbits
  | 0x03 => noOperand (argOf w) .wclose
  | 0x04 => noOperand (argOf w) .ropen
  | 0x05 => (argField 6 (argOf w)).map .rbits
  | 0x06 => noOperand (argOf w) .rclose
  | 0x10 => noOperand (argOf w) .fmrst
  | 0x11 => (argField 9 (argOf w)).map .fmprob
  | 0x12 => (argField 24 (argOf w)).map .fmsym
  | 0x13 => noOperand (argOf w) .fmtot
  | 0x20 => noOperand (argOf w) .aeinit
  | 0x21 => (argField 9 (argOf w)).map .aesym
  | 0x22 => noOperand (argOf w) .aefin
  | 0x28 => noOperand (argOf w) .adinit
  | 0x29 => noOperand (argOf w) .adsym
  | 0x30 => noOperand (argOf w) .leinit
  | 0x31 => (argField 8 (argOf w)).map .lebyte
  | 0x32 => noOperand (argOf w) .lefin
  | 0x38 => noOperand (argOf w) .ldinit
  | 0x39 => noOperand (argOf w) .ldstep
  | 0xFF => noOperand (argOf w) .srst
  | _ => none

/-- The word with the given OPC and with an operand field at the bottom of ARG, the reserved bits 0 (30_encoding.md rules
R80, R82). -/
def commandWord {k : Nat} (opc : BitVec 8) (field : BitVec k) : Word := opc ++ field.setWidth 24

/-- The word of a command (30_encoding.md rules R80 to R83). -/
def encode : Instr → Word
  | .wopen => commandWord 0x01 0#0
  | .wbits n => commandWord 0x02 n
  | .wclose => commandWord 0x03 0#0
  | .ropen => commandWord 0x04 0#0
  | .rbits n => commandWord 0x05 n
  | .rclose => commandWord 0x06 0#0
  | .fmrst => commandWord 0x10 0#0
  | .fmprob sym => commandWord 0x11 sym
  | .fmsym v => commandWord 0x12 v
  | .fmtot => commandWord 0x13 0#0
  | .aeinit => commandWord 0x20 0#0
  | .aesym sym => commandWord 0x21 sym
  | .aefin => commandWord 0x22 0#0
  | .adinit => commandWord 0x28 0#0
  | .adsym => commandWord 0x29 0#0
  | .leinit => commandWord 0x30 0#0
  | .lebyte c => commandWord 0x31 c
  | .lefin => commandWord 0x32 0#0
  | .ldinit => commandWord 0x38 0#0
  | .ldstep => commandWord 0x39 0#0
  | .srst => commandWord 0xFF 0#0

/-- The instruction read from the bits `w` of a row of spec/opcode_table.json. A command is one 32-bit word, moved whole
(30_encoding.md rule R80; 20_memory.md rule R64), so the bits are the word; those above `nbits` are 0. -/
def decodeTableWord (nbits w : Nat) : Option Instr := decode (BitVec.ofNat 32 (w % 2 ^ nbits))

/-- A row of the opcode map: a word `w` selects it when `w AND mask = pattern` (30_encoding.md rule R83). -/
structure OpcodeRow where
  /-- The row's mnemonic. -/
  mnemonic : String
  /-- The row's match column. -/
  pattern : Word
  /-- The row's mask column. -/
  mask : Word
deriving DecidableEq, Repr

/-- The match and mask columns of 30_encoding.md rule R83, row by row. -/
def opcodeTable : List OpcodeRow :=
  [ ⟨"WOPEN", 0x01000000, 0xFFFFFFFF⟩,
    ⟨"WBITS", 0x02000000, 0xFFFFFFC0⟩,
    ⟨"WCLOSE", 0x03000000, 0xFFFFFFFF⟩,
    ⟨"ROPEN", 0x04000000, 0xFFFFFFFF⟩,
    ⟨"RBITS", 0x05000000, 0xFFFFFFC0⟩,
    ⟨"RCLOSE", 0x06000000, 0xFFFFFFFF⟩,
    ⟨"FMRST", 0x10000000, 0xFFFFFFFF⟩,
    ⟨"FMPROB", 0x11000000, 0xFFFFFE00⟩,
    ⟨"FMSYM", 0x12000000, 0xFF000000⟩,
    ⟨"FMTOT", 0x13000000, 0xFFFFFFFF⟩,
    ⟨"AEINIT", 0x20000000, 0xFFFFFFFF⟩,
    ⟨"AESYM", 0x21000000, 0xFFFFFE00⟩,
    ⟨"AEFIN", 0x22000000, 0xFFFFFFFF⟩,
    ⟨"ADINIT", 0x28000000, 0xFFFFFFFF⟩,
    ⟨"ADSYM", 0x29000000, 0xFFFFFFFF⟩,
    ⟨"LEINIT", 0x30000000, 0xFFFFFFFF⟩,
    ⟨"LEBYTE", 0x31000000, 0xFFFFFF00⟩,
    ⟨"LEFIN", 0x32000000, 0xFFFFFFFF⟩,
    ⟨"LDINIT", 0x38000000, 0xFFFFFFFF⟩,
    ⟨"LDSTEP", 0x39000000, 0xFFFFFFFF⟩,
    ⟨"SRST", 0xFF000000, 0xFFFFFFFF⟩ ]

/-- The rows of the opcode map that a word selects (30_encoding.md rule R83). -/
def rowsSelected (w : Word) : List OpcodeRow := opcodeTable.filter fun r => w &&& r.mask == r.pattern

end Sys2Proof
end

