-- ==== Sys2Proof/Machine/Control.lean ====
section
/-!
DEFINITION. SRST (44_control.md rule R262), the host's actions between commands (10_state.md rules R20 to R22, 20_memory.md
rule R71, 70_reset_and_hazards.md rule R300), and the taking of a command word from CMD (44_control.md rule R260).
-/
namespace Sys2Proof.Machine

/-- SRST (44_control.md rule R262). No BadState condition; accepted while FAULT = 1 (rule R261). -/
def execSrst (s : State) : Host.Outcome State Fault Refusal :=
  dispatchCommand true false false (fun s => .ok () (resetAll s)) s

/-- What one action of the host does to the state. -/
def hostAction (a : HostAction) (s : State) : State :=
  match a with
  | .writeCmd w => { s with cmd := some w }
  | .writeData v => { s with data := v }
  | .bindSource source => { s with source := source }
  | .bindSink sink => { s with sink := sink }
  | .powerOn => resetAll s

/-- What a step finds to do. -/
inductive Fetched where
  /-- A command to run, in the state with CMD taken. -/
  | run (i : Instr) (s : State)
  /-- Nothing to run: the step is done, in this state. -/
  | done (s : State)
deriving DecidableEq, Repr

/-- The word in CMD is taken and decoded; an illegal one records IllegalCommand (44_control.md rule R260, step 3). With no word
in CMD the host's next action happens; with none of these either, the block waits (70_reset_and_hazards.md rule R302). The
host acts again only after the command has ended, since its write to CMD completes then (rule R260). -/
def fetch (s : State) : Fetched :=
  match s.cmd with
  | some w =>
    match decode w with
    | some i => .run i { s with cmd := none }
    | none => .done (illegalCommand { s with cmd := none })
  | none =>
    match s.host with
    | a :: rest => .done (hostAction a { s with host := rest })
    | [] => .done s

end Sys2Proof.Machine
end

