-- ==== Sys2Proof/Machine/FreqModel.lean ====
section
/-!
DEFINITION. The Frequency Model commands (41_freq_model.md rules R144 to R148).
-/
namespace Sys2Proof.Machine

/-- Look up a symbol's interval into R0 to R3, then update the table: what FMPROB and FMSYM do with their symbol
(41_freq_model.md rules R144, R145). -/
def reportAndUpdate (sym : Nat) (s : State) : State :=
  let (lo, hi, t) := countLookup sym s
  freqUpdate sym (setInterval lo hi t sym s)

/-- FMRST (41_freq_model.md rule R148). No BadState condition. -/
def execFmrst (s : State) : Host.Outcome State Fault Refusal :=
  dispatchCommand false false false (fun s => .ok () (modelReset s)) s

/-- FMPROB s (41_freq_model.md rule R144). No BadState condition. BadOperand: s > 256. -/
def execFmprob (sym : BitVec 9) (s : State) : Host.Outcome State Fault Refusal :=
  dispatchCommand false false (badSymbol sym) (fun s => .ok () (reportAndUpdate (operandSymbol sym) s)) s

/-- The pseudocode of FMSYM (41_freq_model.md rule R145). -/
def searchAndUpdate (v : Nat) (s : State) : Res Unit :=
  match symbolSearch v s with
  | none => raiseFault .invariantViolation s
  | some sym => .ok () (reportAndUpdate sym s)

/-- FMSYM v (41_freq_model.md rule R145). No BadState and no BadOperand condition. -/
def execFmsym (v : BitVec 24) (s : State) : Host.Outcome State Fault Refusal :=
  dispatchCommand false false false (searchAndUpdate (operandScaled v)) s

/-- FMTOT (41_freq_model.md rule R146): R2 only. No BadState condition. -/
def execFmtot (s : State) : Host.Outcome State Fault Refusal :=
  dispatchCommand false false false (fun s => .ok () { s with r2 := BitVec.ofNat 32 (cumAt s 257) }) s

end Sys2Proof.Machine
end

