-- ==== Sys2Proof/Machine/Lzw.lean ====
section
/-!
DEFINITION. The LZW Transform commands (43_lzw.md rules R224 to R229).
-/
namespace Sys2Proof.Machine

/-- MAXCODE + 1 becomes the highest code and gets the string `t` (43_lzw.md rules R225, R229: `++maxCode`). -/
def insertNext (t : List Byte) (s : State) : State :=
  let m := s.maxcode.toNat + 1
  dictPut m t { s with maxcode := BitVec.ofNat 23 m }

/-- CODELEN goes up by 1 if `x` is a power of two (43_lzw.md rules R225, R229). -/
def widenIfPow2 (x : Nat) (s : State) : State :=
  if isPow2 x then { s with codelen := BitVec.ofNat 5 (s.codelen.toNat + 1) } else s

/-- LEINIT (43_lzw.md rule R224). No BadState condition. -/
def execLeinit (s : State) : Host.Outcome State Fault Refusal :=
  dispatchCommand false false false
    (fun s => .ok () { lzwReset s with sCode := none, prev := 0, lzMode := .enc }) s

/-- LEBYTE's end at the cap, with the new one-byte match `c`: its code at the width just reached, then the dictionary starts
afresh with no match (43_lzw.md rules R222, R225). -/
def capReset (c : Byte) (s : State) : Res Unit :=
  andThen (putBits c.toNat s.codelen.toNat s) fun _ s =>
    .ok () { lzwReset (setCodes 2 c.toNat s.codelen.toNat s) with sCode := none }

/-- LEBYTE's step for a string `t` that is not in the dictionary: emit the code `e` of the match, insert the string, widen, start
a new match with the byte, and at the cap start the dictionary afresh (43_lzw.md rule R225). -/
def emitAndInsert (e : Nat) (c : Byte) (t : List Byte) (s : State) : Res Unit :=
  let w := s.codelen.toNat
  andThen (putBits e w s) fun _ s =>
    let s := insertNext t s
    let s := widenIfPow2 s.maxcode.toNat s
    let s := setCodes 1 e w { s with sCode := some (BitVec.ofNat 23 c.toNat) }
    if s.maxcode.toNat = Config.lzwCap then capReset c s else .ok () s

/-- The string is in the dictionary at code `k`: the match is extended, and no code is written (43_lzw.md rule R225). -/
def extendMatch (k : Nat) (s : State) : State := { s with sCode := some (BitVec.ofNat 23 k), r0 := 0 }

/-- The pseudocode of LEBYTE (43_lzw.md rule R225). The rule shows that a miss always has a match; a state without one, or whose
match has no string, has no meaning for it (notes/assumptions/5.md). -/
def encodeByte (c : Byte) (s : State) : Res Unit :=
  match s.sCode with
  | none =>
    match codeOf [c] s with
    | some k => .ok () (extendMatch k s)
    | none => .stuck .undefinedString
  | some e =>
    if dictAt s e.toNat = [] then .stuck .undefinedString
    else
      match codeOf (dictAt s e.toNat ++ [c]) s with
      | some k => .ok () (extendMatch k s)
      | none => emitAndInsert e.toNat c (dictAt s e.toNat ++ [c]) s

/-- LEBYTE c (43_lzw.md rule R225). BadState: LZ_MODE is not ENC, or W_OPEN = 0. -/
def execLebyte (c : BitVec 8) (s : State) : Host.Outcome State Fault Refusal :=
  dispatchCommand false (s.lzMode != .enc || !s.wOpen) false (encodeByte (operandByte c)) s

/-- The pseudocode of LEFIN (43_lzw.md rule R227). -/
def finishLzw (s : State) : Res Unit :=
  match s.sCode with
  | some k =>
    andThen (putBits k.toNat s.codelen.toNat s) fun _ s =>
      .ok () { setCodes 1 k.toNat s.codelen.toNat s with sCode := none, lzMode := .idle }
  | none => .ok () { s with r0 := 0, sCode := none, lzMode := .idle }

/-- LEFIN (43_lzw.md rule R227). BadState: LZ_MODE is not ENC, or W_OPEN = 0. -/
def execLefin (s : State) : Host.Outcome State Fault Refusal :=
  dispatchCommand false (s.lzMode != .enc || !s.wOpen) false finishLzw s

/-- The end of an LZW decode: EndOfStream is signalled, the mode is IDLE and R0 counts no byte (43_lzw.md rules R228, R229). -/
def endLzwDecode (s : State) : State := { signalEndOfStream s with lzMode := .idle, r0 := 0 }

/-- The pseudocode of LDINIT (43_lzw.md rule R228). -/
def decodeFirstCode (s : State) : Res Unit :=
  andThen (getBits 8 { lzwReset s with sCode := none }) fun r s =>
    match r with
    | none => .ok () (endLzwDecode s)
    | some v =>
      andThen (putBits v 8 s) fun _ s =>
        .ok () { setCodes 1 v 8 s with prev := BitVec.ofNat 23 v, lzMode := .dec }

/-- LDINIT (43_lzw.md rule R228). BadState: R_OPEN = 0, or W_OPEN = 0. -/
def execLdinit (s : State) : Host.Outcome State Fault Refusal :=
  dispatchCommand false (!s.rOpen || !s.wOpen) false decodeFirstCode s

/-- LDSTEP's reset step, taken when MAXCODE is at the cap: a code of 8 bits, then the dictionary starts afresh (43_lzw.md rule
R229). -/
def resetStep (s : State) : Res Unit :=
  andThen (getBits 8 { s with codelen := 8 }) fun r s =>
    match r with
    | none => .ok () (endLzwDecode s)
    | some v =>
      andThen (putBits v 8 s) fun _ s =>
        .ok () (setCodes 1 v 8 { lzwReset s with prev := BitVec.ofNat 23 v })

/-- The string `t` followed by the first byte of the string `u` (43_lzw.md rule R229). -/
def appendFirst (t u : List Byte) : List Byte := t ++ u.take 1

/-- LDSTEP's string for the code `r`: in the self-referential case PREV's string and its own first byte, else the code's own
string (43_lzw.md rule R229). -/
def stringOfCode (r : Nat) (s : State) : List Byte :=
  if r = s.maxcode.toNat + 1 then appendFirst (dictAt s s.prev.toNat) (dictAt s s.prev.toNat) else dictAt s r

/-- LDSTEP's work on the code `r` it has read: the insertion, the bytes of the code's string, and the results (43_lzw.md rule
R229). A state in which PREV or the code has no string has no meaning for the rule (notes/assumptions/5.md). -/
def decodeCode (r : Nat) (s : State) : Res Unit :=
  if s.maxcode.toNat + 1 < r then raiseFault .lzwBadCode s
  else
    let old := dictAt s s.prev.toNat
    let cur := stringOfCode r s
    if old = [] ∨ cur = [] then .stuck .undefinedString
    else
      andThen (putBytes cur (insertNext (appendFirst old cur) s)) fun _ s =>
        .ok () (setCodes cur.length r s.codelen.toNat { s with prev := BitVec.ofNat 23 r })

/-- The pseudocode of LDSTEP (43_lzw.md rule R229). -/
def decodeStep (s : State) : Res Unit :=
  if s.maxcode.toNat = Config.lzwCap then resetStep s
  else
    let s := widenIfPow2 (s.maxcode.toNat + 1) s
    andThen (getBits s.codelen.toNat s) fun r s =>
      match r with
      | none => .ok () (endLzwDecode s)
      | some v => decodeCode v s

/-- LDSTEP (43_lzw.md rule R229). BadState: LZ_MODE is not DEC, or R_OPEN = 0, or W_OPEN = 0. -/
def execLdstep (s : State) : Host.Outcome State Fault Refusal :=
  dispatchCommand false (s.lzMode != .dec || !s.rOpen || !s.wOpen) false decodeStep s

end Sys2Proof.Machine
end

