-- ==== Sys2Proof/Machine/Dispatch.lean ====
section
/-!
DEFINITION. The meaning of every command, one arm each (44_control.md rule R265).
-/
namespace Sys2Proof.Machine

def exec (i : Instr) (s : State) : Host.Outcome State Fault Refusal :=
  match i with
  | .wopen => Sys2Proof.Machine.execWopen s
  | .wbits n => Sys2Proof.Machine.execWbits n s
  | .wclose => Sys2Proof.Machine.execWclose s
  | .ropen => Sys2Proof.Machine.execRopen s
  | .rbits n => Sys2Proof.Machine.execRbits n s
  | .rclose => Sys2Proof.Machine.execRclose s
  | .fmrst => Sys2Proof.Machine.execFmrst s
  | .fmprob sym => Sys2Proof.Machine.execFmprob sym s
  | .fmsym v => Sys2Proof.Machine.execFmsym v s
  | .fmtot => Sys2Proof.Machine.execFmtot s
  | .aeinit => Sys2Proof.Machine.execAeinit s
  | .aesym sym => Sys2Proof.Machine.execAesym sym s
  | .aefin => Sys2Proof.Machine.execAefin s
  | .adinit => Sys2Proof.Machine.execAdinit s
  | .adsym => Sys2Proof.Machine.execAdsym s
  | .leinit => Sys2Proof.Machine.execLeinit s
  | .lebyte c => Sys2Proof.Machine.execLebyte c s
  | .lefin => Sys2Proof.Machine.execLefin s
  | .ldinit => Sys2Proof.Machine.execLdinit s
  | .ldstep => Sys2Proof.Machine.execLdstep s
  | .srst => Sys2Proof.Machine.execSrst s

end Sys2Proof.Machine
end

