-- ==== Sys2Proof/Machine/Step.lean ====
section
/-!
DEFINITION. One step of the machine, and where a step finds its next command.
-/
namespace Sys2Proof.Machine

/-- One step: the command in CMD is performed to completion, or the host acts, or the block waits (10_state.md rule R21;
20_memory.md rule R67; 70_reset_and_hazards.md rule R316: a command is one step). -/
def step (s : State) : Host.Outcome State Fault Refusal :=
  match fetch s with
  | .run i t => exec i t
  | .done t => .next t

/-- The state with a command word in CMD, where `step` takes its next command (notes/assumptions/1.md). A word has 32 bits;
those above `nbits` are 0. -/
def State.withFetchWord (s : State) (nbits w : Nat) : State :=
  { s with cmd := some (BitVec.ofNat 32 (w % 2 ^ nbits)) }

end Sys2Proof.Machine
end

