-- ==== Sys2Proof/Safety.lean ====
section
/-!
DEFINITION. The terms claims use: the invariants of 10_state.md (rules R28, R30, R31, R33, R36 to R38), what a step may leave in
STATUS (60_exceptions.md rules R271, R277), the bit streams behind the two channel buffers (20_memory.md rules R61, R62, R73,
R74), hosts that never fail, and the coder's renormalization as a function of LOW and HIGH alone (42_arith_coder.md).
-/
namespace Sys2Proof.Machine

/-! ### Invariants -/

/-- The write side between commands (10_state.md rule R28): the unused low bits of W_ACC are 0, W_BUF holds less than a load, and
a closed stream holds nothing. -/
def WriteSideOk (s : State) : Prop :=
  s.wAcc.toNat % 2 ^ (8 - s.wNbits.val) = 0 ∧ s.wBuf.length < Config.bufBytes ∧
  (s.wOpen = false → s.wBuf = [] ∧ s.wAcc = 0 ∧ s.wNbits = 0)

/-- The read side between commands (10_state.md rules R30, R31): R_BUF holds at most a load, no more bits are consumed than it
has, and a closed stream holds nothing. -/
def ReadSideOk (s : State) : Prop :=
  s.rBuf.length ≤ Config.bufBytes ∧ s.rBitpos ≤ 8 * s.rBuf.length ∧
  (s.rOpen = false → s.rBuf = [] ∧ s.rBitpos = 0 ∧ s.rSrcEnd = false)

/-- The frequency model at all times (10_state.md rules R32, R33): 258 counts from 0, strictly increasing, the total at most
FREQ_CAP, and frozen exactly there. -/
def ModelOk (s : State) : Prop :=
  s.cum.length = Config.cumEntries ∧ cumAt s 0 = 0 ∧ (∀ i < 257, cumAt s i < cumAt s (i + 1)) ∧
  cumAt s 257 ≤ Config.freqCap ∧ (s.frozen = true ↔ cumAt s 257 = Config.freqCap)

/-- The two forms of interval that no renormalization case applies to (10_state.md rule R36; 42_arith_coder.md rule R182). -/
def Renormalized (lo hi : Nat) : Prop :=
  lo < Config.oneFourth ∧ Config.oneHalf ≤ hi ∨ lo < Config.oneHalf ∧ Config.threeFourths ≤ hi

/-- The coder between commands while no fault is recorded (10_state.md rule R36; 42_arith_coder.md rules R181, R182). -/
def CoderOk (s : State) : Prop :=
  s.low.toNat ≤ s.high.toNat ∧ Renormalized s.low.toNat s.high.toNat ∧
  (s.acMode = .dec → s.low.toNat ≤ s.value.toNat ∧ s.value.toNat ≤ s.high.toNat)

/-- The dictionary at all times (10_state.md rules R37, R38): defined exactly on 0..MAXCODE, 255 <= MAXCODE <= LZW_CAP, the
one-byte strings at 0..255, and strings of two bytes or more above. -/
def DictOk (s : State) : Prop :=
  s.dict.length = s.maxcode.toNat + 1 ∧ Config.lzwInitMaxcode ≤ s.maxcode.toNat ∧ s.maxcode.toNat ≤ Config.lzwCap ∧
  (∀ c < 256, dictAt s c = [BitVec.ofNat 8 c]) ∧
  (∀ c, 256 ≤ c → c ≤ s.maxcode.toNat → 2 ≤ (dictAt s c).length)

/-- `bitlen(x)`, the number of bits of x in binary (00_scope.md rule R9). -/
def bitlen (x : Nat) : Nat := if x = 0 then 0 else Nat.log2 x + 1

/-- The LZW encoder between commands while no fault is recorded (10_state.md rule R38; 43_lzw.md rules R222, R226): no two codes
hold the same string, S is an assigned code, the width is bitlen(MAXCODE), and the cap is never left standing. -/
def LzwEncOk (s : State) : Prop :=
  s.dict.Nodup ∧ (∀ k, s.sCode = some k → k.toNat ≤ s.maxcode.toNat) ∧
  s.codelen.toNat = bitlen s.maxcode.toNat ∧ s.maxcode.toNat < Config.lzwCap

/-- The LZW decoder between commands while no fault is recorded (43_lzw.md rules R226, R229): PREV is an assigned code, and the
width is bitlen(MAXCODE), so that the widening before the read gives bitlen(MAXCODE + 1). -/
def LzwDecOk (s : State) : Prop :=
  s.prev.toNat ≤ s.maxcode.toNat ∧ s.codelen.toNat = bitlen s.maxcode.toNat

/-- The invariant of the whole block. A fault can leave its command's state half-updated (60_exceptions.md rule R273), so what the
coder and the LZW unit promise between commands holds while FAULT = 0; the rest holds at all times. -/
def BlockInv (s : State) : Prop :=
  WriteSideOk s ∧ ReadSideOk s ∧ ModelOk s ∧ DictOk s ∧
  (s.fault = false → CoderOk s ∧ (s.lzMode = .enc → LzwEncOk s) ∧ (s.lzMode = .dec → LzwDecOk s))

/-- What STATUS can hold between commands (10_state.md rule R25; 60_exceptions.md rules R271, R272, R277): with a fault recorded,
a fault's code and no END; with none, no code or EndOfStream's beside END, and no sink failure. -/
def StatusOk (s : State) : Prop :=
  if s.fault then 2 ≤ s.fcode.toNat ∧ s.fcode.toNat ≤ 8 ∧ s.ended = false
  else (s.fcode = 0 ∨ s.fcode = 1 ∧ s.ended = true) ∧ s.ioSink = false

/-! ### The bit streams -/

/-- The bits of a byte in stream order: bit 7 first (20_memory.md rule R62). -/
def bitsOfByte (b : Byte) : List Bool := (List.range 8).map fun j => b.getLsbD (7 - j)

/-- The bits of a byte string in stream order (20_memory.md rule R62). -/
def bitsOfBytes (bs : List Byte) : List Bool := bs.flatMap bitsOfByte

/-- The low n bits of a value, MSB first (20_memory.md rule R61). -/
def bitsOfValue (v n : Nat) : List Bool := (List.range n).map fun j => v.testBit (n - 1 - j)

/-- The value of a bit string read MSB first (20_memory.md rule R61). -/
def valueOfBits (bits : List Bool) : Nat := bits.foldl (fun v b => 2 * v + b.toNat) 0

/-- The next n bits of a stream, 0 for those past its end (40_bit_channel.md rule R109). -/
def firstBits (n : Nat) (bits : List Bool) : List Bool := (bits ++ List.replicate n false).take n

/-- The bits the write side holds: those of W_BUF, then the valid bits of W_ACC (10_state.md rule R27). -/
def heldBits (s : State) : List Bool := bitsOfBytes s.wBuf ++ (bitsOfByte s.wAcc).take s.wNbits.val

/-- The bits delivered to the sink, then those the write side holds: everything written, in order (20_memory.md rule R73). -/
def writtenBits (s : State) : List Bool := bitsOfBytes s.sink.loads.flatten ++ heldBits s

/-- The bits of the read stream not returned yet: the rest of R_BUF, then the source's bytes unless it has reported its end
(20_memory.md rule R74). -/
def unreadBits (s : State) : List Bool :=
  (bitsOfBytes s.rBuf).drop s.rBitpos ++ (if s.rSrcEnd then [] else bitsOfBytes s.source.input)

/-- The write buffer in order, whatever W_OPEN says (10_state.md rule R28). -/
def WriteBufOk (s : State) : Prop :=
  s.wAcc.toNat % 2 ^ (8 - s.wNbits.val) = 0 ∧ s.wBuf.length < Config.bufBytes

/-- Between `s` and `t` the write stream got `bits`: they follow the bits written before, the buffer stays in order, and each
SinkWrite made for it, one draw each, delivered a full load (20_memory.md rule R73; 40_bit_channel.md rule R105). -/
structure Appended (s : State) (bits : List Bool) (t : State) : Prop where
  bufOk : WriteBufOk t
  written : writtenBits t = writtenBits s ++ bits
  calls : ∃ ls, t.sink.loads = s.sink.loads ++ ls ∧ (∀ l ∈ ls, l.length = Config.bufBytes) ∧
    t.sink.draws = s.sink.draws.drop ls.length

/-- The read buffer in order, whatever R_OPEN says (10_state.md rule R30). -/
def ReadBufOk (s : State) : Prop := s.rBuf.length ≤ Config.bufBytes ∧ s.rBitpos ≤ 8 * s.rBuf.length

/-- Between `s` and `t` reads took the next `n` bits of the read stream, or all when fewer were left, the buffer stays in order,
and of the source's coming draws some are used up (20_memory.md rule R74). -/
structure Took (s : State) (n : Nat) (t : State) : Prop where
  bufOk : ReadBufOk t
  unread : unreadBits t = (unreadBits s).drop n
  draws : ∃ k, t.source.draws = s.source.draws.drop k

/-- The host answers no coming SinkWrite with Fail (92_eei_decisions.md D37). -/
def SinkNeverFails (s : State) : Prop := ∀ d ∈ s.sink.draws, d = .ok

/-- The host answers no coming SourceRead with Fail (92_eei_decisions.md D36). -/
def SourceNeverFails (s : State) : Prop := ∀ d ∈ s.source.draws, d ≠ .fail

/-! ### Hosts that fail -/

/-- How many full loads the write side hands to the sink while `n` more bits are written (40_bit_channel.md rules R101, R105). -/
def loadsFilled (s : State) (n : Nat) : Nat := (8 * s.wBuf.length + s.wNbits.val + n) / 1048576

/-- The sink answers Fail to one of the SinkWrite calls that writing `n` more bits makes (20_memory.md rule R71). -/
def SinkFailsOn (s : State) (n : Nat) : Prop := .fail ∈ s.sink.draws.take (loadsFilled s n)

/-- Between `s` and `t` the sink failed while `bits` were written: full loads reached it in order, the next one was lost, and the
write side holds nothing, so that a WCLOSE has nothing to deliver (40_bit_channel.md rules R105, R106; 60_exceptions.md rule
R273). -/
structure LostALoad (s : State) (bits : List Bool) (t : State) : Prop where
  buffer : t.wBuf = [] ∧ t.wAcc = 0 ∧ t.wNbits = 0
  calls : ∃ ls lost rest, heldBits s ++ bits = bitsOfBytes (ls.flatten ++ lost) ++ rest ∧
    (∀ l ∈ ls, l.length = 131072) ∧ lost.length = 131072 ∧ t.sink.loads = s.sink.loads ++ ls ∧
    s.sink.draws = List.replicate ls.length .ok ++ .fail :: t.sink.draws

/-- `s` with IoFailure(sink) recorded and with what the write side and the sink are in `t`: every field a command can have written
before the failure is to be named beside it (60_exceptions.md rules R272, R273). -/
def sinkFaulted (s t : State) : State :=
  { s with
    fault := true, fcode := 2, ended := false, ioSink := true
    wBuf := t.wBuf, wAcc := t.wAcc, wNbits := t.wNbits, sink := t.sink }

/-- How many bytes a source with these coming draws and this many bytes left gives before it answers Fail, if it does so before it
answers End (20_memory.md rule R71; 92_eei_decisions.md D36). The room a call leaves is not counted: a refill for a read of at most
32 bits always has room for the bytes the read still needs. -/
def bytesBeforeFail : List SourceDraw → Nat → Option Nat
  | [], _ => none
  | .fail :: _, _ => some 0
  | .data _ :: _, 0 => none
  | .data count :: draws, left + 1 =>
    (bytesBeforeFail draws (left + 1 - Nat.max 1 (Nat.min count (left + 1)))).map
      (Nat.max 1 (Nat.min count (left + 1)) + ·)

/-- How many bits of the read stream can be read before a refill meets a source that fails, if one does (40_bit_channel.md rules
R107, R108). -/
def bitsBeforeFail (s : State) : Option Nat :=
  if s.rSrcEnd then none
  else (bytesBeforeFail s.source.draws s.source.input.length).map (8 * s.rBuf.length - s.rBitpos + 8 * ·)

/-- Between `s` and `t` reads took `m` bits and then a refill met a source that fails: the bits not taken stay, and the source's end
is not reached (40_bit_channel.md rule R107; 60_exceptions.md rule R273). -/
structure LostTheSource (s : State) (m : Nat) (t : State) : Prop where
  bufOk : ReadBufOk t
  unread : unreadBits t = (unreadBits s).drop m
  srcEnd : t.rSrcEnd = false
  draws : ∃ k, (∀ d ∈ s.source.draws.take k, d ≠ .fail) ∧ s.source.draws.drop k = .fail :: t.source.draws

/-- `s` with IoFailure(source) recorded and with what the read side and the source are in `t` (60_exceptions.md rules R272,
R273). -/
def sourceFaulted (s t : State) : State :=
  { s with
    fault := true, fcode := 2, ended := false
    rBuf := t.rBuf, rBitpos := t.rBitpos, rSrcEnd := false, source := t.source }

/-! ### Renormalization as a function of the bounds -/

/-- The cases that renormalization takes from bounds `lo` and `hi`, at most `n` of them, the tests in the order E1, E2, E3
(42_arith_coder.md rule R174). -/
def renormCases : Nat → Nat → Nat → List RenormCase
  | 0, _, _ => []
  | n + 1, lo, hi =>
    if hi < 65536 then .e1 :: renormCases n (2 * lo) (2 * hi + 1)
    else if 65536 ≤ lo then .e2 :: renormCases n (2 * (lo - 65536)) (2 * (hi - 65536) + 1)
    else if 32768 ≤ lo ∧ hi < 98304 then .e3 :: renormCases n (2 * (lo - 32768)) (2 * (hi - 32768) + 1)
    else []

/-- What a case takes off the bounds before they are doubled (42_arith_coder.md rule R174). -/
def caseOffset : RenormCase → Nat
  | .e1 => 0
  | .e2 => 65536
  | .e3 => 32768
  | .done => 0

/-- LOW after a sequence of cases (42_arith_coder.md rule R174). -/
def lowAfter (cases : List RenormCase) (lo : Nat) : Nat := cases.foldl (fun lo c => 2 * (lo - caseOffset c)) lo

/-- HIGH after a sequence of cases (42_arith_coder.md rule R174). -/
def highAfter (cases : List RenormCase) (hi : Nat) : Nat := cases.foldl (fun hi c => 2 * (hi - caseOffset c) + 1) hi

/-- VALUE after a sequence of cases, each shifting in the next bit of a stream, and 0 past its end (42_arith_coder.md rule R175;
40_bit_channel.md rule R109). -/
def valueAfter : List RenormCase → List Bool → Nat → Nat
  | [], _, v => v
  | c :: cs, bits, v => valueAfter cs bits.tail (2 * (v - caseOffset c) + (bits.headD false).toNat)

/-- The bits that a sequence of cases writes when `p` bits are pending, and the bits then pending (42_arith_coder.md rules R173,
R174): E1 and E2 write their bit and its complement once for every pending bit; E3 leaves one more bit pending. -/
def bitPlusFollow : List RenormCase → Nat → List Bool × Nat
  | [], p => ([], p)
  | .e1 :: cs, p => (false :: List.replicate p true ++ (bitPlusFollow cs 0).1, (bitPlusFollow cs 0).2)
  | .e2 :: cs, p => (true :: List.replicate p false ++ (bitPlusFollow cs 0).1, (bitPlusFollow cs 0).2)
  | .e3 :: cs, p => bitPlusFollow cs (p + 1)
  | .done :: cs, p => bitPlusFollow cs p

/-- How many E3 cases stand before the first E1 or E2: the bits left pending before the first one is written (42_arith_coder.md
rule R174). -/
def leadingUnderflows (cases : List RenormCase) : Nat := (cases.takeWhile (· == .e3)).length

/-! ### Whole commands -/

/-- The word of the map selects no row: its OPC stands in no row, or it stands in one whose reserved ARG bits are not all 0
(30_encoding.md rules R84, R85). -/
def illegalWord (w : Word) : Prop :=
  (∀ r ∈ opcodeTable, opcOf w ≠ opcOf r.pattern) ∨
  (∃ r ∈ opcodeTable, opcOf w = opcOf r.pattern ∧ argOf w &&& argOf r.mask ≠ 0)

/-- The table of reset values (10_state.md rule R41). -/
def ResetTable (s : State) : Prop :=
  s.data = 0 ∧ s.r0 = 0 ∧ s.r1 = 0 ∧ s.r2 = 0 ∧ s.r3 = 0 ∧
  statusWord s = 0 ∧ s.fault = false ∧ s.ended = false ∧ s.fcode = 0 ∧ s.ioSink = false ∧
  s.wOpen = false ∧ s.wBuf = [] ∧ s.wAcc = 0 ∧ s.wNbits = 0 ∧
  s.rOpen = false ∧ s.rBuf = [] ∧ s.rBitpos = 0 ∧ s.rSrcEnd = false ∧
  s.cum.length = 258 ∧ (∀ i ≤ 257, cumAt s i = i) ∧ s.frozen = false ∧
  s.low = 0 ∧ s.high = 131071 ∧ s.value = 0 ∧ s.pending = 0 ∧ s.acMode = .idle ∧
  s.dict.length = 256 ∧ (∀ c < 256, dictAt s c = [BitVec.ofNat 8 c]) ∧ s.maxcode = 255 ∧ s.codelen = 8 ∧
  s.sCode = none ∧ s.prev = 0 ∧ s.lzMode = .idle

/-- `t` has the table of `s` after one update for a symbol: while `s` is not frozen, every count after the symbol's position is
one higher, and the table is frozen from a total of 32767 on (41_freq_model.md rule R142). -/
def CountedUp (sym : Nat) (s t : State) : Prop :=
  t.cum.length = 258 ∧
  (∀ i ≤ 257, cumAt t i = cumAt s i + if s.frozen = false ∧ sym < i then 1 else 0) ∧
  t.frozen = (s.frozen || decide (32767 ≤ cumAt t 257))

/-- The scaled value of the decoder's VALUE (42_arith_coder.md rule R177). -/
def scaledOf (s : State) : Nat :=
  ((s.value.toNat - s.low.toNat + 1) * cumAt s 257 - 1) / (s.high.toNat - s.low.toNat + 1)

/-- LOW after the narrowing to a symbol's sub-interval (42_arith_coder.md rule R172). -/
def narrowedLow (s : State) (sym : Nat) : Nat :=
  s.low.toNat + (s.high.toNat - s.low.toNat + 1) * cumAt s sym / cumAt s 257

/-- HIGH after the narrowing to a symbol's sub-interval (42_arith_coder.md rule R172). -/
def narrowedHigh (s : State) (sym : Nat) : Nat :=
  s.low.toNat + (s.high.toNat - s.low.toNat + 1) * cumAt s (sym + 1) / cumAt s 257 - 1

/-- The renormalization that follows the narrowing to a symbol's sub-interval (42_arith_coder.md rules R174, R175). -/
def symbolCases (s : State) (sym : Nat) : List RenormCase := renormCases 17 (narrowedLow s sym) (narrowedHigh s sym)

/-- The commands whose rule names R0 as a result (10_state.md rule R23). -/
def writesR0 : Instr → Bool
  | .rbits _ | .fmprob _ | .fmsym _ | .aesym _ | .aefin | .adsym | .lebyte _ | .lefin | .ldinit | .ldstep | .srst => true
  | .wopen | .wbits _ | .wclose | .ropen | .rclose | .fmrst | .fmtot | .aeinit | .adinit | .leinit => false

/-- The commands whose rule names R1 as a result (10_state.md rule R23). -/
def writesR1 : Instr → Bool
  | .fmprob _ | .fmsym _ | .aesym _ | .adsym | .lebyte _ | .lefin | .ldinit | .ldstep | .srst => true
  | .wopen | .wbits _ | .wclose | .ropen | .rbits _ | .rclose | .fmrst | .fmtot | .aeinit | .aefin | .adinit
  | .leinit => false

/-- The commands whose rule names R2 as a result (10_state.md rule R23). -/
def writesR2 : Instr → Bool
  | .fmprob _ | .fmsym _ | .fmtot | .aesym _ | .adsym | .lebyte _ | .lefin | .ldinit | .ldstep | .srst => true
  | .wopen | .wbits _ | .wclose | .ropen | .rbits _ | .rclose | .fmrst | .aeinit | .aefin | .adinit | .leinit => false

/-- The commands whose rule names R3 as a result (10_state.md rule R23). -/
def writesR3 : Instr → Bool
  | .fmprob _ | .fmsym _ | .aesym _ | .adsym | .srst => true
  | .wopen | .wbits _ | .wclose | .ropen | .rbits _ | .rclose | .fmrst | .fmtot | .aeinit | .aefin | .adinit
  | .leinit | .lebyte _ | .lefin | .ldinit | .ldstep => false

/-- The commands that reach the source (20_memory.md rule R60). -/
def readsTheSource : Instr → Bool
  | .rbits _ | .adinit | .adsym | .ldinit | .ldstep => true
  | .wopen | .wbits _ | .wclose | .ropen | .rclose | .fmrst | .fmprob _ | .fmsym _ | .fmtot | .aeinit | .aesym _ | .aefin
  | .leinit | .lebyte _ | .lefin | .srst => false

/-- The commands that reach the sink (20_memory.md rule R60). -/
def writesTheSink : Instr → Bool
  | .wbits _ | .wclose | .aesym _ | .aefin | .adsym | .lebyte _ | .lefin | .ldinit | .ldstep => true
  | .wopen | .ropen | .rbits _ | .rclose | .fmrst | .fmprob _ | .fmsym _ | .fmtot | .aeinit | .adinit | .leinit
  | .srst => false

/-- The commands that use the Frequency Model (20_memory.md rule R60; 41_freq_model.md rule R140). -/
def usesTheModel : Instr → Bool
  | .fmrst | .fmprob _ | .fmsym _ | .fmtot | .aeinit | .aesym _ | .adinit | .adsym | .srst => true
  | .wopen | .wbits _ | .wclose | .ropen | .rbits _ | .rclose | .aefin | .leinit | .lebyte _ | .lefin | .ldinit | .ldstep => false

/-- The commands of the Arithmetic Coder (44_control.md rule R265), and SRST. -/
def usesTheCoder : Instr → Bool
  | .aeinit | .aesym _ | .aefin | .adinit | .adsym | .srst => true
  | .wopen | .wbits _ | .wclose | .ropen | .rbits _ | .rclose | .fmrst | .fmprob _ | .fmsym _ | .fmtot | .leinit
  | .lebyte _ | .lefin | .ldinit | .ldstep => false

/-- The commands of the LZW Transform (44_control.md rule R265), and SRST. -/
def usesTheDictionary : Instr → Bool
  | .leinit | .lebyte _ | .lefin | .ldinit | .ldstep | .srst => true
  | .wopen | .wbits _ | .wclose | .ropen | .rbits _ | .rclose | .fmrst | .fmprob _ | .fmsym _ | .fmtot | .aeinit
  | .aesym _ | .aefin | .adinit | .adsym => false

/-- The BadState conditions of the commands (44_control.md rule R264). -/
def badStateCondition (s : State) : Instr → Prop
  | .wopen => s.wOpen = true
  | .wbits _ => s.wOpen = false
  | .ropen => s.rOpen = true
  | .rbits _ => s.rOpen = false
  | .aesym _ | .aefin => s.acMode ≠ .enc ∨ s.wOpen = false
  | .adinit => s.rOpen = false
  | .adsym => s.acMode ≠ .dec ∨ s.rOpen = false ∨ s.wOpen = false
  | .lebyte _ | .lefin => s.lzMode ≠ .enc ∨ s.wOpen = false
  | .ldinit => s.rOpen = false ∨ s.wOpen = false
  | .ldstep => s.lzMode ≠ .dec ∨ s.rOpen = false ∨ s.wOpen = false
  | .wclose | .rclose | .fmrst | .fmprob _ | .fmsym _ | .fmtot | .aeinit | .leinit | .srst => False

/-- The BadOperand conditions of the commands (44_control.md rule R264). -/
def badOperandCondition : Instr → Prop
  | .wbits n | .rbits n => n.toNat = 0 ∨ 32 < n.toNat
  | .fmprob sym | .aesym sym => 256 < sym.toNat
  | .wopen | .wclose | .ropen | .rclose | .fmrst | .fmsym _ | .fmtot | .aeinit | .aefin | .adinit | .adsym | .leinit
  | .lebyte _ | .lefin | .ldinit | .ldstep | .srst => False

/-- Where a host's sequence of commands ends when every one of them answers a next state (10_state.md rule R21). -/
def performAll : List Instr → State → Option State
  | [], s => some s
  | i :: rest, s =>
    match exec i s with
    | .next t => performAll rest t
    | .fault _ => none
    | .refused _ => none

/-- Where a sequence of writes ends: for each, the host writes DATA and gives WBITS (30_encoding.md rule R88, WBITSI). -/
def writeAll : List (Word × BitVec 6) → State → Option State
  | [], s => some s
  | (v, n) :: rest, s =>
    match exec (.wbits n) { s with data := v } with
    | .next t => writeAll rest t
    | .fault _ => none
    | .refused _ => none

/-- What the host reads after each RBITS of a sequence: R0 and STATUS (40_bit_channel.md rule R110). -/
def readAll : List (BitVec 6) → State → List (Word × Word)
  | [], _ => []
  | n :: rest, s =>
    match exec (.rbits n) s with
    | .next t => (t.r0, statusWord t) :: readAll rest t
    | .fault _ => []
    | .refused _ => []

/-- An outcome with a change made to its next state. -/
def mapNext (f : State → State) : Host.Outcome State Fault Refusal → Host.Outcome State Fault Refusal
  | .next t => .next (f t)
  | .fault e => .fault e
  | .refused r => .refused r

end Sys2Proof.Machine
end

