-- ==== Sys2Proof/Certificates/Slice0/Obligations.lean ====
section
/-!
DEFINITION. The statements for the provers. A statement about a command that completes gives its next state field by field: the
record update names every field the command writes, so every other register, flag and buffer is unchanged. A field written
`f := t.f` is described by the clauses that follow. The block has no addressable memory; its bytes are those of the two
streams, described by `Appended` and `Took` (Safety.lean).
-/

open Sys2Proof Sys2Proof.Machine

/-! ### Encoding -/

/-- Every command with every operand value is read back from its word (30_encoding.md rules R80 to R83). -/
def Obligations.DecodeOfEncodeIsTheInstruction : Prop :=
  ∀ i : Instr, decode (encode i) = some i

/-- A word that decodes is the word of what it decodes to: no bit of a command word is dropped (30_encoding.md rules R83, R84). -/
def Obligations.EncodeOfDecodedWordIsTheWord : Prop :=
  ∀ (w : Word) (i : Instr), decode w = some i → encode i = w

/-- Decoding is total: a word selects exactly one row of the opcode map, that of the command it decodes to, or it is illegal by
rule R84 or R85 and decodes to none (30_encoding.md rule R86). -/
def Obligations.WordSelectsOneRowOrIsIllegal : Prop :=
  ∀ w : Word,
    (∃ i r, decode w = some i ∧ rowsSelected w = [r] ∧ r.mnemonic = i.mnemonic ∧ ¬ illegalWord w) ∨
    (decode w = none ∧ rowsSelected w = [] ∧ illegalWord w)

/-- The words that rule R89 writes out decode as it says. -/
def Obligations.WrittenOutWordsDecode : Prop :=
  decode 0x02000009 = some (.wbits 9) ∧ decode 0x05000020 = some (.rbits 32) ∧ decode 0x11000041 = some (.fmprob 65) ∧
  decode 0x1200012C = some (.fmsym 300) ∧ decode 0x21000100 = some (.aesym 256) ∧ decode 0x31000041 = some (.lebyte 0x41) ∧
  decode 0xFF000000 = some .srst ∧ decode 0x02000000 = some (.wbits 0) ∧ decode 0x21000101 = some (.aesym 257) ∧
  decode 0x00000000 = none ∧ decode 0x02000049 = none ∧ decode 0x21000200 = none

/-! ### The machine -/

/-- A step runs the command that the word written to CMD decodes to (44_control.md rule R260; 10_state.md rule R21). That a step takes
the word from an optional CMD, that CMD is empty then, and that `withFetchWord` places the word are the model's choice
(notes/assumptions/1.md). -/
def Obligations.StepRunsTheDecodedCommand : Prop :=
  ∀ (s : State) (w : Word) (i : Instr), decode w = some i →
    (s.cmd = some w → step s = exec i { s with cmd := none }) ∧
    step (s.withFetchWord 32 w.toNat) = exec i { s with cmd := none }

/-- An illegal word records IllegalCommand and performs nothing else; while a fault is recorded it is refused (30_encoding.md rules
R84, R85). -/
def Obligations.IllegalWordRecordsIllegalCommand : Prop :=
  ∀ (s : State) (w : Word), s.cmd = some w → illegalWord w →
    (s.fault = false → step s = .next { s with cmd := none, fault := true, fcode := 4, ended := false }) ∧
    (s.fault = true → step s = .next { s with cmd := none })

/-- While FAULT = 1 every word but those of SRST and WCLOSE is refused, the illegal ones too, and a refused word changes nothing;
SRST resets, and WCLOSE closes the write stream (44_control.md rule R261). -/
def Obligations.FaultRefusesAllButWcloseAndSrst : Prop :=
  ∀ (s : State) (w : Word), s.cmd = some w → s.fault = true →
    (w ≠ 0xFF000000 → w ≠ 0x03000000 → step s = .next { s with cmd := none }) ∧
    (w = 0xFF000000 → step s = .next { State.reset with host := s.host, source := s.source, sink := s.sink }) ∧
    (w = 0x03000000 → ∃ t, step s = .next t ∧ t.wOpen = false ∧ (s.wOpen = true → t.wBuf = [] ∧ t.wNbits = 0) ∧
      t.fault = true ∧ t.fcode = s.fcode)

/-- With no word in CMD a step is the host's next action: a word to CMD, a value to DATA, a binding, or power-on reset (10_state.md
rules R20, R22; 20_memory.md rule R71; 70_reset_and_hazards.md rule R300). That each is a step of its own is the model's choice
(notes/assumptions/2.md), as are a binding that leaves an open stream's buffers (notes/assumptions/15.md) and a power-on reset that
happens between commands only and leaves the bindings and the host's queue (notes/assumptions/7.md, notes/assumptions/3.md). -/
def Obligations.HostActsBetweenCommands : Prop :=
  ∀ (s : State) (rest : List HostAction), s.cmd = none →
    (∀ w, s.host = .writeCmd w :: rest → step s = .next { s with host := rest, cmd := some w }) ∧
    (∀ v, s.host = .writeData v :: rest → step s = .next { s with host := rest, data := v }) ∧
    (∀ src, s.host = .bindSource src :: rest → step s = .next { s with host := rest, source := src }) ∧
    (∀ snk, s.host = .bindSink snk :: rest → step s = .next { s with host := rest, sink := snk }) ∧
    (s.host = .powerOn :: rest →
      step s = .next { State.reset with host := rest, source := s.source, sink := s.sink })

/-- With no word in CMD and nothing more for the host to do, the block waits: nothing changes (70_reset_and_hazards.md rule R302).
That waiting is a step is the model's choice (notes/assumptions/2.md). -/
def Obligations.IdleBlockWaits : Prop :=
  ∀ s : State, s.cmd = none → s.host = [] → step s = .next s

/-- With no fault recorded, a command in a wrong state records BadState, a command with a bad operand in a right state records
BadOperand, each with no other effect, and no other command records either (44_control.md rule R264). -/
def Obligations.StateAndOperandChecks : Prop :=
  ∀ (i : Instr) (s : State), s.fault = false →
    (badStateCondition s i → exec i s = .next { s with fault := true, fcode := 6, ended := false }) ∧
    (¬ badStateCondition s i → badOperandCondition i →
      exec i s = .next { s with fault := true, fcode := 5, ended := false }) ∧
    (¬ badStateCondition s i → ¬ badOperandCondition i → ∀ t, exec i s = .next t → t.fcode ≠ 5 ∧ t.fcode ≠ 6)

/-- No step takes a recorded fault away but SRST and power-on reset, and both leave the reset state (60_exceptions.md rule R275). That
power-on reset is one of the host's queued actions, taken between commands, is the model's choice (notes/assumptions/7.md,
notes/assumptions/2.md), and so is what the two resets leave of the model's own fields (notes/assumptions/3.md). -/
def Obligations.FaultEndsOnlyWithReset : Prop :=
  ∀ s t : State, s.fault = true → step s = .next t → t.fault = false →
    (s.cmd = some 0xFF000000 ∧ t = { State.reset with host := s.host, source := s.source, sink := s.sink }) ∨
    (∃ rest, s.cmd = none ∧ s.host = .powerOn :: rest ∧
      t = { State.reset with host := rest, source := s.source, sink := s.sink })

/-- While a fault stays recorded, FCODE keeps the first fault's code and END stays as it was (60_exceptions.md rules R272, R274;
10_state.md rule R25). -/
def Obligations.FirstFaultIsKept : Prop :=
  ∀ s t : State, s.fault = true → step s = .next t → t.fault = true → t.fcode = s.fcode ∧ t.ended = s.ended

/-- After an accepted command END = 1 only if it was an RBITS, LDINIT or LDSTEP that met the end of its stream (FCODE 1) or an ADSYM
that decoded the EOF symbol (FCODE 0), with the mode that rule R277 of 60_exceptions.md gives. -/
def Obligations.EndOnlyByTheFourEvents : Prop :=
  ∀ (i : Instr) (s t : State), s.fault = false → exec i s = .next t → t.ended = true → t.fault = false ∧
    ((∃ n, i = .rbits n ∧ t.fcode = 1 ∧ t.acMode = s.acMode ∧ t.lzMode = s.lzMode) ∨
      (i = .ldinit ∧ t.fcode = 1 ∧ t.lzMode = .idle) ∨
      (i = .ldstep ∧ t.fcode = 1 ∧ t.lzMode = .idle) ∨
      (i = .adsym ∧ t.fcode = 0 ∧ t.acMode = .idle ∧ t.r3 = 256))

/-- STATUS shows the stored FAULT, END, FCODE and IOSINK, its reserved bits read 0, and its mirror fields equal the state they
mirror (10_state.md rules R24, R26). -/
def Obligations.StatusMirrorsTheState : Prop :=
  ∀ s : State,
    (statusWord s).getLsbD 0 = s.fault ∧ (statusWord s).getLsbD 1 = s.ended ∧
    (statusWord s).getLsbD 2 = s.wOpen ∧ (statusWord s).getLsbD 3 = s.rOpen ∧ (statusWord s).getLsbD 4 = s.frozen ∧
    (statusWord s).extractLsb' 5 2 = (match s.acMode with | .idle => 0 | .enc => 1 | .dec => 2) ∧
    (statusWord s).extractLsb' 7 2 = (match s.lzMode with | .idle => 0 | .enc => 1 | .dec => 2) ∧
    (statusWord s).extractLsb' 9 3 = 0 ∧ (statusWord s).extractLsb' 12 4 = s.fcode ∧
    (statusWord s).getLsbD 16 = s.ioSink ∧ (statusWord s).extractLsb' 17 15 = 0

/-- DATA is read by WBITS alone: whatever it holds, every other command does the same to everything else, and leaves it, SRST but
clearing it (10_state.md rule R22). -/
def Obligations.DataIsReadByWbitsAlone : Prop :=
  ∀ (i : Instr) (s : State) (v : Word), (∀ n, i ≠ .wbits n) →
    (i ≠ .srst → exec i { s with data := v } = mapNext (fun t => { t with data := v }) (exec i s)) ∧
    (i = .srst → exec i { s with data := v } = exec i s)

/-- DATA keeps its content until the host writes it or a reset clears it (10_state.md rule R22). That the host's write and power-on
reset are queued actions, taken with CMD empty, is the model's choice (notes/assumptions/7.md, notes/assumptions/2.md). -/
def Obligations.DataPersistsUntilWrittenOrReset : Prop :=
  ∀ s t : State, step s = .next t →
    t.data = s.data ∨
    (∃ v rest, s.cmd = none ∧ s.host = .writeData v :: rest ∧ t.data = v) ∨
    (t.data = 0 ∧ (s.cmd = some 0xFF000000 ∨ ∃ rest, s.cmd = none ∧ s.host = .powerOn :: rest))

/-- The state after power-on, after SRST and after a later power-on reset is the table of rule R41 of 10_state.md, and a reset makes
no host call (70_reset_and_hazards.md rule R300). That a later power-on is a queued action taken between commands is the model's
choice (notes/assumptions/7.md), and so is that CMD, the host's queue and the bindings are kept (notes/assumptions/3.md). -/
def Obligations.ResetGivesTheTable : Prop :=
  ResetTable State.reset ∧
  ∀ s : State,
    (∃ t, exec .srst s = .next t ∧ ResetTable t ∧ t.cmd = s.cmd ∧ t.host = s.host ∧ t.source = s.source ∧
      t.sink = s.sink) ∧
    (∀ rest, s.cmd = none → s.host = .powerOn :: rest →
      ∃ t, step s = .next t ∧ ResetTable t ∧ t.cmd = none ∧ t.host = rest ∧ t.source = s.source ∧ t.sink = s.sink)

/-! ### Bit Channel -/

/-- WOPEN, ROPEN and RCLOSE, in every state without a fault, and their words (40_bit_channel.md rules R103, R111, R112). -/
def Obligations.StreamsOpenAndClose : Prop :=
  encode .wopen = 0x01000000 ∧ encode .ropen = 0x04000000 ∧ encode .rclose = 0x06000000 ∧
  ∀ s : State, s.fault = false →
    (s.wOpen = false → exec .wopen s =
      .next { s with wOpen := true, wBuf := [], wAcc := 0, wNbits := 0, ended := false, fcode := 0 }) ∧
    (s.wOpen = true → exec .wopen s = .next { s with fault := true, fcode := 6, ended := false }) ∧
    (s.rOpen = false → exec .ropen s =
      .next { s with rOpen := true, rBuf := [], rBitpos := 0, rSrcEnd := false, ended := false, fcode := 0 }) ∧
    (s.rOpen = true → exec .ropen s = .next { s with fault := true, fcode := 6, ended := false }) ∧
    (s.rOpen = true → exec .rclose s =
      .next { s with rOpen := false, rBuf := [], rBitpos := 0, rSrcEnd := false, ended := false, fcode := 0 }) ∧
    (s.rOpen = false → exec .rclose s = .next { s with ended := false, fcode := 0 })

/-- WCLOSE, in every state: END and FCODE are cleared if no fault is recorded; a closed stream stays closed; an open one is closed,
and what it holds is delivered in one SinkWrite unless it holds nothing or the sink has failed; a failure is recorded
(40_bit_channel.md rule R106; 60_exceptions.md rule R272). The word of WCLOSE is written out. -/
def Obligations.WcloseResult : Prop :=
  encode .wclose = 0x03000000 ∧
  ∀ s : State,
    let accepted : State := if s.fault = true then s else { s with ended := false, fcode := 0 }
    let held : List Byte := if s.wNbits = 0 then s.wBuf else s.wBuf ++ [s.wAcc]
    let closed : State := { accepted with wOpen := false, wBuf := [], wAcc := 0, wNbits := 0 }
    (s.wOpen = false → exec .wclose s = .next accepted) ∧
    (s.wOpen = true → held = [] ∨ s.ioSink = true → exec .wclose s = .next closed) ∧
    (s.wOpen = true → held ≠ [] → s.ioSink = false → s.sink.draws.head? ≠ some .fail →
      exec .wclose s = .next { closed with sink := ⟨s.sink.loads ++ [held], s.sink.draws.tail⟩ }) ∧
    (s.wOpen = true → held ≠ [] → s.ioSink = false → s.sink.draws.head? = some .fail →
      exec .wclose s =
        .next { closed with
          sink := ⟨s.sink.loads, s.sink.draws.tail⟩
          ioSink := true
          fault := true
          fcode := if s.fault = true then s.fcode else 2 })

/-- After a WCLOSE that records no fault everything written has been delivered, padded with zero bits to whole bytes
(20_memory.md rules R73, R75). -/
def Obligations.WcloseDeliversWhatWasWritten : Prop :=
  ∀ s : State, WriteSideOk s → s.fault = false → s.ioSink = false → s.wOpen = true → SinkNeverFails s →
    ∃ t pad, exec .wclose s = .next t ∧ t.fault = false ∧ t.wOpen = false ∧ pad < 8 ∧
      bitsOfBytes t.sink.loads.flatten = writtenBits s ++ List.replicate pad false

/-- WBITS n appends the low n bits of DATA to the write stream, MSB first (40_bit_channel.md rules R102, R104). -/
def Obligations.WbitsAppendsTheLowBits : Prop :=
  ∀ (s : State) (n : BitVec 6), WriteSideOk s → s.fault = false → s.wOpen = true → 1 ≤ n.toNat → n.toNat ≤ 32 →
    SinkNeverFails s →
    ∃ t, exec (.wbits n) s = .next t ∧ Appended s (bitsOfValue s.data.toNat n.toNat) t ∧
      t = { s with
        ended := false, fcode := 0, wBuf := t.wBuf, wAcc := t.wAcc, wNbits := t.wNbits, sink := t.sink }

/-- The bit that completes the buffer's last byte delivers the load in one SinkWrite; if the sink fails the load is lost and
IoFailure(sink) is recorded (40_bit_channel.md rules R101, R105; 60_exceptions.md rule R272). -/
def Obligations.FullLoadGoesToTheSink : Prop :=
  ∀ s : State, s.fault = false → s.wOpen = true → s.wNbits = 7 → s.wBuf.length + 1 = 131072 →
    let load := s.wBuf ++ [BitVec.ofNat 8 (s.wAcc.toNat + (s.data.toNat % 2))]
    (s.sink.draws.head? ≠ some .fail → exec (.wbits 1) s =
      .next { s with
        ended := false, fcode := 0, wBuf := [], wAcc := 0, wNbits := 0
        sink := ⟨s.sink.loads ++ [load], s.sink.draws.tail⟩ }) ∧
    (s.sink.draws.head? = some .fail → exec (.wbits 1) s =
      .next { s with
        ended := false, fcode := 2, fault := true, ioSink := true, wBuf := [], wAcc := 0, wNbits := 0
        sink := ⟨s.sink.loads, s.sink.draws.tail⟩ })

/-- Whatever the widths, the sink receives the bits of a sequence of writes, in order, packed MSB first and padded with zero bits
to whole bytes, every load but the last of 131072 bytes (40_bit_channel.md rule R113; 20_memory.md rule R73). -/
def Obligations.SinkReceivesThePackedBits : Prop :=
  ∀ (s : State) (ws : List (Word × BitVec 6)), s.fault = false → s.ioSink = false → s.wOpen = false → SinkNeverFails s →
    (∀ p ∈ ws, 1 ≤ p.2.toNat ∧ p.2.toNat ≤ 32) →
    ∃ t u v ls pad, exec .wopen s = .next t ∧ writeAll ws t = some u ∧ exec .wclose u = .next v ∧ v.fault = false ∧
      v.sink.loads = s.sink.loads ++ ls ∧ pad < 8 ∧
      bitsOfBytes ls.flatten = (ws.flatMap fun p => bitsOfValue p.1.toNat p.2.toNat) ++ List.replicate pad false ∧
      (∀ l ∈ ls, 1 ≤ l.length ∧ l.length ≤ 131072) ∧ (∀ l ∈ ls.dropLast, l.length = 131072)

/-- RBITS n returns the next n bits of the read stream as an unsigned value, MSB first, and takes them; with fewer than n bits left
it signals EndOfStream and takes none (40_bit_channel.md rules R108, R110). -/
def Obligations.RbitsReturnsTheNextBits : Prop :=
  ∀ (s : State) (n : BitVec 6), ReadSideOk s → s.fault = false → s.rOpen = true → 1 ≤ n.toNat → n.toNat ≤ 32 →
    SourceNeverFails s →
    (n.toNat ≤ (unreadBits s).length →
      ∃ t, exec (.rbits n) s = .next t ∧ Took s n.toNat t ∧
        t = { s with
          r0 := BitVec.ofNat 32 (valueOfBits ((unreadBits s).take n.toNat)), ended := false, fcode := 0
          rBuf := t.rBuf, rBitpos := t.rBitpos, rSrcEnd := t.rSrcEnd, source := t.source }) ∧
    ((unreadBits s).length < n.toNat →
      ∃ t, exec (.rbits n) s = .next t ∧ Took s 0 t ∧
        t = { s with
          ended := true, fcode := 1
          rBuf := t.rBuf, rBitpos := t.rBitpos, rSrcEnd := t.rSrcEnd, source := t.source })

/-- What a sequence of RBITS shows the host does not depend on how the source splits its bytes into Data results
(40_bit_channel.md rules R108, R113). -/
def Obligations.ReadsDoNotDependOnTheDraws : Prop :=
  ∀ (ns : List (BitVec 6)) (s : State) (draws : List SourceDraw), ReadSideOk s → SourceNeverFails s →
    (∀ d ∈ draws, d ≠ .fail) →
    readAll ns { s with source := ⟨s.source.input, draws⟩ } = readAll ns s

/-- A read that needs a refill and meets a source that fails records IoFailure(source); the bytes consumed before are gone from the
buffer, and no result is written (40_bit_channel.md rules R107, R110; 60_exceptions.md rules R272, R273). -/
def Obligations.FailingSourceFaultsTheRead : Prop :=
  ∀ (s : State) (n : BitVec 6), s.fault = false → s.rOpen = true → 1 ≤ n.toNat → n.toNat ≤ 32 →
    8 * s.rBuf.length - s.rBitpos < n.toNat → s.rSrcEnd = false → s.source.draws.head? = some .fail →
    exec (.rbits n) s =
      .next { s with
        ended := false, fcode := 2, fault := true
        rBuf := s.rBuf.drop (s.rBitpos / 8), rBitpos := s.rBitpos % 8
        source := ⟨s.source.input, s.source.draws.tail⟩ }

/-- Mixed widths: reading n bits and then m bits gives the two parts of an (n + m)-bit read, and writing x in n bits and then y in m
bits writes the bits of x * 2^m + y in n + m bits, wherever the fields start (20_memory.md rule R63). -/
def Obligations.MixedWidths : Prop :=
  ∀ (s : State) (n m k : BitVec 6), 1 ≤ n.toNat → 1 ≤ m.toNat → k.toNat = n.toNat + m.toNat → k.toNat ≤ 32 →
    s.fault = false →
    (ReadSideOk s → s.rOpen = true → SourceNeverFails s → k.toNat ≤ (unreadBits s).length →
      ∃ t u v, exec (.rbits n) s = .next t ∧ exec (.rbits m) t = .next u ∧ exec (.rbits k) s = .next v ∧
        v.r0.toNat = t.r0.toNat * 2 ^ m.toNat + u.r0.toNat ∧ unreadBits v = unreadBits u) ∧
    (∀ x y z : Word, WriteSideOk s → s.wOpen = true → SinkNeverFails s → y.toNat < 2 ^ m.toNat →
      z.toNat = (x.toNat * 2 ^ m.toNat + y.toNat) % 2 ^ k.toNat →
      ∃ t u v, exec (.wbits n) { s with data := x } = .next t ∧ exec (.wbits m) { t with data := y } = .next u ∧
        exec (.wbits k) { s with data := z } = .next v ∧ writtenBits v = writtenBits u)

/-! ### Frequency Model -/

/-- FMRST restores the identity ramp and clears FROZEN; FMTOT gives the total count in R2, which is in 257..32767;
and their words (41_freq_model.md rules R146, R148). -/
def Obligations.FmrstAndFmtotResults : Prop :=
  encode .fmrst = 0x10000000 ∧ encode .fmtot = 0x13000000 ∧
  ∀ s : State, s.fault = false →
    exec .fmrst s = .next { s with cum := List.range 258, frozen := false, ended := false, fcode := 0 } ∧
    exec .fmtot s = .next { s with r2 := BitVec.ofNat 32 (cumAt s 257), ended := false, fcode := 0 } ∧
    (ModelOk s → 257 ≤ (BitVec.ofNat 32 (cumAt s 257)).toNat ∧ (BitVec.ofNat 32 (cumAt s 257)).toNat ≤ 32767)

/-- FMPROB s gives the symbol's interval and the total from before the update, and counts the symbol once; an s above 256 is a
BadOperand; and the word of FMPROB s (41_freq_model.md rule R144). -/
def Obligations.FmprobResult : Prop :=
  (∀ sym : BitVec 9, encode (.fmprob sym) = 0x11#8 ++ sym.setWidth 24) ∧
  ∀ (s : State) (sym : BitVec 9), s.fault = false → ModelOk s →
    (sym.toNat ≤ 256 →
      ∃ t, exec (.fmprob sym) s = .next t ∧ CountedUp sym.toNat s t ∧
        t = { s with
          r0 := BitVec.ofNat 32 (cumAt s sym.toNat), r1 := BitVec.ofNat 32 (cumAt s (sym.toNat + 1))
          r2 := BitVec.ofNat 32 (cumAt s 257), r3 := BitVec.ofNat 32 sym.toNat
          cum := t.cum, frozen := t.frozen, ended := false, fcode := 0 }) ∧
    (256 < sym.toNat → exec (.fmprob sym) s = .next { s with fault := true, fcode := 5, ended := false })

/-- FMSYM v does what FMPROB does for the symbol whose interval holds v, and for a v at or above the total it records
InvariantViolation and changes nothing else; and the word of FMSYM v (41_freq_model.md rules R143, R145). -/
def Obligations.FmsymResult : Prop :=
  (∀ v : BitVec 24, encode (.fmsym v) = 0x12#8 ++ v) ∧
  ∀ (s : State) (v : BitVec 24), s.fault = false → ModelOk s →
    (v.toNat < cumAt s 257 →
      ∃ (sym : BitVec 9) (t : State), sym.toNat ≤ 256 ∧ cumAt s sym.toNat ≤ v.toNat ∧ v.toNat < cumAt s (sym.toNat + 1) ∧
        exec (.fmsym v) s = .next t ∧ CountedUp sym.toNat s t ∧
        t = { s with
          r0 := BitVec.ofNat 32 (cumAt s sym.toNat), r1 := BitVec.ofNat 32 (cumAt s (sym.toNat + 1))
          r2 := BitVec.ofNat 32 (cumAt s 257), r3 := BitVec.ofNat 32 sym.toNat
          cum := t.cum, frozen := t.frozen, ended := false, fcode := 0 }) ∧
    (cumAt s 257 ≤ v.toNat → exec (.fmsym v) s = .next { s with fault := true, fcode := 3, ended := false })

/-- From a fresh table, after any sequence of updates every symbol's frequency is 1 plus the number of its updates among the first
32510, the total is 257 plus the number of those, and the table is frozen exactly from the 32510th on (41_freq_model.md rule
R149). -/
def Obligations.FrequenciesCountTheUpdates : Prop :=
  ∀ (s : State) (syms : List (BitVec 9)), s.fault = false → s.cum = List.range 258 → s.frozen = false →
    (∀ x ∈ syms, x.toNat ≤ 256) →
    ∃ t, performAll (syms.map .fmprob) s = some t ∧ cumAt t 0 = 0 ∧
      (∀ k ≤ 256, cumAt t (k + 1) =
        cumAt t k + 1 + ((syms.take 32510).filter fun x => decide (x.toNat = k)).length) ∧
      cumAt t 257 = 257 + min syms.length 32510 ∧
      (t.frozen = true ↔ 32510 ≤ syms.length)

/-! ### Arithmetic Coder -/

/-- AEINIT, in every state without a fault, and its word (42_arith_coder.md rule R176). -/
def Obligations.AeinitResult : Prop :=
  encode .aeinit = 0x20000000 ∧
  ∀ s : State, s.fault = false →
    exec .aeinit s =
      .next { s with
        cum := List.range 258, frozen := false, low := 0, high := 131071, value := 0, pending := 0
        acMode := .enc, ended := false, fcode := 0 }

/-- AESYM s: R0 to R3 give the interval from before the update, the table counts the symbol, LOW and HIGH are narrowed to its
sub-interval and renormalized, and the bits of the renormalization are written by bit-plus-follow. PENDING passes its largest value
on no E3 case: that is when PENDING and the E3 cases before the first E1 or E2 together do not, since E1 and E2 clear it
(42_arith_coder.md rules R172, R173, R174, R178). -/
def Obligations.AesymEncodesTheSymbol : Prop :=
  ∀ (s : State) (sym : BitVec 9), BlockInv s → s.fault = false → s.acMode = .enc → s.wOpen = true → sym.toNat ≤ 256 →
    SinkNeverFails s → s.pending.toNat + leadingUnderflows (symbolCases s sym.toNat) ≤ 4294967295 →
    ∃ t, exec (.aesym sym) s = .next t ∧ CountedUp sym.toNat s t ∧
      t.low.toNat = lowAfter (symbolCases s sym.toNat) (narrowedLow s sym.toNat) ∧
      t.high.toNat = highAfter (symbolCases s sym.toNat) (narrowedHigh s sym.toNat) ∧
      t.pending.toNat = (bitPlusFollow (symbolCases s sym.toNat) s.pending.toNat).2 ∧
      Appended s (bitPlusFollow (symbolCases s sym.toNat) s.pending.toNat).1 t ∧
      Renormalized t.low.toNat t.high.toNat ∧
      t = { s with
        r0 := BitVec.ofNat 32 (cumAt s sym.toNat), r1 := BitVec.ofNat 32 (cumAt s (sym.toNat + 1))
        r2 := BitVec.ofNat 32 (cumAt s 257), r3 := BitVec.ofNat 32 sym.toNat
        cum := t.cum, frozen := t.frozen, low := t.low, high := t.high, pending := t.pending
        wBuf := t.wBuf, wAcc := t.wAcc, wNbits := t.wNbits, sink := t.sink, ended := false, fcode := 0 }

/-- AESYM when PENDING and the E3 cases before the first E1 or E2 together pass the largest value of PENDING: the E3 cases that fit
are taken, and the next records PendingOverflow with PENDING, LOW and HIGH as the fitting ones left them. What AESYM wrote before
stands, the results and the table, and no bit is written (42_arith_coder.md rules R174, R178; 60_exceptions.md rule R273). -/
def Obligations.AesymPendingOverflow : Prop :=
  ∀ (s : State) (sym : BitVec 9), BlockInv s → s.fault = false → s.acMode = .enc → s.wOpen = true → sym.toNat ≤ 256 →
    4294967295 < s.pending.toNat + leadingUnderflows (symbolCases s sym.toNat) →
    let fitting := List.replicate (4294967295 - s.pending.toNat) RenormCase.e3
    ∃ t, exec (.aesym sym) s = .next t ∧ CountedUp sym.toNat s t ∧
      t = { s with
        r0 := BitVec.ofNat 32 (cumAt s sym.toNat), r1 := BitVec.ofNat 32 (cumAt s (sym.toNat + 1))
        r2 := BitVec.ofNat 32 (cumAt s 257), r3 := BitVec.ofNat 32 sym.toNat
        cum := t.cum, frozen := t.frozen
        low := BitVec.ofNat 17 (lowAfter fitting (narrowedLow s sym.toNat))
        high := BitVec.ofNat 17 (highAfter fitting (narrowedHigh s sym.toNat))
        pending := 4294967295, fault := true, fcode := 7, ended := false }

/-- AEFIN writes the termination bit, 0 if LOW < ONE_FOURTH and else 1, then its complement PENDING + 1 times, gives the bit in R0 and
ends the encode; with PENDING at its largest value it records PendingOverflow and changes nothing else (42_arith_coder.md rule
R179). -/
def Obligations.AefinResult : Prop :=
  ∀ s : State, WriteSideOk s → s.fault = false → s.acMode = .enc → s.wOpen = true →
    (s.pending ≠ 4294967295 → SinkNeverFails s →
      let b := decide (32768 ≤ s.low.toNat)
      ∃ t, exec .aefin s = .next t ∧ Appended s (b :: List.replicate (s.pending.toNat + 1) (!b)) t ∧
        t = { s with
          r0 := if s.low.toNat < 32768 then 0 else 1, pending := 0, acMode := .idle
          wBuf := t.wBuf, wAcc := t.wAcc, wNbits := t.wNbits, sink := t.sink, ended := false, fcode := 0 }) ∧
    (s.pending = 4294967295 → exec .aefin s = .next { s with fault := true, fcode := 7, ended := false })

/-- ADINIT starts with a fresh model and the whole code range, and reads 17 bits into VALUE, 0 for those past the end
(42_arith_coder.md rule R180). -/
def Obligations.AdinitResult : Prop :=
  ∀ s : State, ReadSideOk s → s.fault = false → s.rOpen = true → SourceNeverFails s →
    ∃ t, exec .adinit s = .next t ∧ Took s 17 t ∧ t.value.toNat = valueOfBits (firstBits 17 (unreadBits s)) ∧
      t = { s with
        cum := List.range 258, frozen := false, low := 0, high := 131071, value := t.value, pending := 0
        acMode := .dec, rBuf := t.rBuf, rBitpos := t.rBitpos, rSrcEnd := t.rSrcEnd, source := t.source
        ended := false, fcode := 0 }

/-- ADSYM on a byte symbol: the symbol is the one whose interval holds the scaled value; it is reported, counted and written as one
byte, and LOW, HIGH and VALUE are narrowed and renormalized, one bit of the read stream for each case (42_arith_coder.md rules
R172, R175, R177, R183). -/
def Obligations.AdsymDecodesAByte : Prop :=
  ∀ (s : State) (sym : Nat), BlockInv s → s.fault = false → s.acMode = .dec → s.rOpen = true → s.wOpen = true →
    sym ≤ 255 → cumAt s sym ≤ scaledOf s → scaledOf s < cumAt s (sym + 1) → SinkNeverFails s → SourceNeverFails s →
    ∃ t, exec .adsym s = .next t ∧ CountedUp sym s t ∧ Appended s (bitsOfValue sym 8) t ∧
      Took s (symbolCases s sym).length t ∧
      t.low.toNat = lowAfter (symbolCases s sym) (narrowedLow s sym) ∧
      t.high.toNat = highAfter (symbolCases s sym) (narrowedHigh s sym) ∧
      t.value.toNat = valueAfter (symbolCases s sym) (unreadBits s) s.value.toNat ∧
      t.low.toNat ≤ t.value.toNat ∧ t.value.toNat ≤ t.high.toNat ∧
      t = { s with
        r0 := BitVec.ofNat 32 (cumAt s sym), r1 := BitVec.ofNat 32 (cumAt s (sym + 1))
        r2 := BitVec.ofNat 32 (cumAt s 257), r3 := BitVec.ofNat 32 sym
        cum := t.cum, frozen := t.frozen, low := t.low, high := t.high, value := t.value
        wBuf := t.wBuf, wAcc := t.wAcc, wNbits := t.wNbits, sink := t.sink
        rBuf := t.rBuf, rBitpos := t.rBitpos, rSrcEnd := t.rSrcEnd, source := t.source
        ended := false, fcode := 0 }

/-- ADSYM on the EOF symbol: it is reported and counted, END is set with FCODE 0, and the decode ends; nothing is written or read
(42_arith_coder.md rule R183; 60_exceptions.md rule R277). -/
def Obligations.AdsymDecodesTheEnd : Prop :=
  ∀ s : State, BlockInv s → s.fault = false → s.acMode = .dec → s.rOpen = true → s.wOpen = true →
    cumAt s 256 ≤ scaledOf s →
    ∃ t, exec .adsym s = .next t ∧ CountedUp 256 s t ∧
      t = { s with
        r0 := BitVec.ofNat 32 (cumAt s 256), r1 := BitVec.ofNat 32 (cumAt s 257), r2 := BitVec.ofNat 32 (cumAt s 257)
        r3 := 256, cum := t.cum, frozen := t.frozen, ended := true, fcode := 0, acMode := .idle }

/-- The decoder's scaled value is always below the total, so it lies in some symbol's interval, and ADSYM never records
InvariantViolation (42_arith_coder.md rules R177, R181). -/
def Obligations.DecoderAlwaysFindsASymbol : Prop :=
  ∀ s : State, BlockInv s → s.fault = false → s.acMode = .dec →
    scaledOf s < cumAt s 257 ∧
    (∃ sym ≤ 256, cumAt s sym ≤ scaledOf s ∧ scaledOf s < cumAt s (sym + 1)) ∧
    ∀ t, exec .adsym s = .next t → t.fcode ≠ 3

/-- An encoder and a decoder that hold the same LOW, HIGH and table hold the same again after the encoder codes a byte and the
decoder decodes it, and report the same interval (42_arith_coder.md rules R175, R182). -/
def Obligations.CodersStayInStep : Prop :=
  ∀ (e d e' d' : State) (sym : BitVec 9), BlockInv e → BlockInv d → e.fault = false → d.fault = false →
    e.acMode = .enc → d.acMode = .dec → e.low = d.low → e.high = d.high → e.cum = d.cum → e.frozen = d.frozen →
    exec (.aesym sym) e = .next e' → exec .adsym d = .next d' → e'.fault = false → d'.fault = false →
    sym.toNat ≤ 255 → d'.r3.toNat = sym.toNat →
    e'.low = d'.low ∧ e'.high = d'.high ∧ e'.cum = d'.cum ∧ e'.frozen = d'.frozen ∧
      e'.r0 = d'.r0 ∧ e'.r1 = d'.r1 ∧ e'.r2 = d'.r2 ∧ e'.r3 = d'.r3

/-! ### LZW Transform -/

/-- LEINIT, in every state without a fault, and its word (43_lzw.md rule R224). -/
def Obligations.LeinitResult : Prop :=
  encode .leinit = 0x30000000 ∧
  ∀ s : State, s.fault = false →
    exec .leinit s =
      .next { s with
        dict := (List.range 256).map fun c => [BitVec.ofNat 8 c], maxcode := 255, codelen := 8, sCode := none, prev := 0
        lzMode := .enc, ended := false, fcode := 0 }

/-- LEBYTE c extends the match when the string is in the dictionary, and a byte without a match always is (43_lzw.md rule R225). -/
def Obligations.LebyteExtendsTheMatch : Prop :=
  ∀ (s : State) (c : BitVec 8), BlockInv s → s.fault = false → s.lzMode = .enc → s.wOpen = true →
    (s.sCode = none → exec (.lebyte c) s =
      .next { s with sCode := some (c.setWidth 23), r0 := 0, ended := false, fcode := 0 }) ∧
    (∀ e k : Code, s.sCode = some e → k.toNat ≤ s.maxcode.toNat → dictAt s k.toNat = dictAt s e.toNat ++ [c] →
      exec (.lebyte c) s = .next { s with sCode := some k, r0 := 0, ended := false, fcode := 0 })

/-- LEBYTE c when the string is not in the dictionary, below the cap: the match's code is written at the width of MAXCODE, the string
becomes the next code, the width follows, and the byte is the new match (43_lzw.md rules R225, R226). -/
def Obligations.LebyteEmitsOnAMiss : Prop :=
  ∀ (s : State) (c : BitVec 8) (e : Code), BlockInv s → s.fault = false → s.lzMode = .enc → s.wOpen = true →
    s.sCode = some e → dictAt s e.toNat ++ [c] ∉ s.dict → s.maxcode.toNat + 1 < 4194304 → SinkNeverFails s →
    ∃ t, exec (.lebyte c) s = .next t ∧ Appended s (bitsOfValue e.toNat (bitlen s.maxcode.toNat)) t ∧
      t = { s with
        r0 := 1, r1 := BitVec.ofNat 32 e.toNat, r2 := BitVec.ofNat 32 (bitlen s.maxcode.toNat)
        dict := s.dict ++ [dictAt s e.toNat ++ [c]], maxcode := s.maxcode + 1
        codelen := BitVec.ofNat 5 (bitlen (s.maxcode.toNat + 1)), sCode := some (c.setWidth 23)
        wBuf := t.wBuf, wAcc := t.wAcc, wNbits := t.wNbits, sink := t.sink, ended := false, fcode := 0 }

/-- LEBYTE c when its insertion reaches the cap: the code of the byte follows at 23 bits, and the dictionary starts afresh with no
match (43_lzw.md rules R222, R225). -/
def Obligations.LebyteResetsAtTheCap : Prop :=
  ∀ (s : State) (c : BitVec 8) (e : Code), BlockInv s → s.fault = false → s.lzMode = .enc → s.wOpen = true →
    s.sCode = some e → dictAt s e.toNat ++ [c] ∉ s.dict → s.maxcode.toNat + 1 = 4194304 → SinkNeverFails s →
    ∃ t, exec (.lebyte c) s = .next t ∧ Appended s (bitsOfValue e.toNat 22 ++ bitsOfValue c.toNat 23) t ∧
      t = { s with
        r0 := 2, r1 := BitVec.ofNat 32 c.toNat, r2 := 23
        dict := (List.range 256).map fun c => [BitVec.ofNat 8 c], maxcode := 255, codelen := 8, sCode := none
        wBuf := t.wBuf, wAcc := t.wAcc, wNbits := t.wNbits, sink := t.sink, ended := false, fcode := 0 }

/-- LEFIN writes the code of the match at the current width, if there is one, and ends the encode (43_lzw.md rule R227). -/
def Obligations.LefinResult : Prop :=
  ∀ s : State, WriteSideOk s → s.fault = false → s.lzMode = .enc → s.wOpen = true →
    (s.sCode = none → exec .lefin s = .next { s with r0 := 0, lzMode := .idle, ended := false, fcode := 0 }) ∧
    (∀ k, s.sCode = some k → SinkNeverFails s →
      ∃ t, exec .lefin s = .next t ∧ Appended s (bitsOfValue k.toNat s.codelen.toNat) t ∧
        t = { s with
          r0 := 1, r1 := BitVec.ofNat 32 k.toNat, r2 := BitVec.ofNat 32 s.codelen.toNat, sCode := none, lzMode := .idle
          wBuf := t.wBuf, wAcc := t.wAcc, wNbits := t.wNbits, sink := t.sink, ended := false, fcode := 0 })

/-- LDINIT starts with the initial dictionary, reads 8 bits and writes them as the first byte; with fewer than 8 bits left the decode
is over (43_lzw.md rule R228). -/
def Obligations.LdinitResult : Prop :=
  ∀ s : State, ReadSideOk s → WriteSideOk s → s.fault = false → s.rOpen = true → s.wOpen = true →
    SourceNeverFails s → SinkNeverFails s →
    let r := valueOfBits ((unreadBits s).take 8)
    (8 ≤ (unreadBits s).length →
      ∃ t, exec .ldinit s = .next t ∧ Took s 8 t ∧ Appended s ((unreadBits s).take 8) t ∧
        t = { s with
          r0 := 1, r1 := BitVec.ofNat 32 r, r2 := 8
          dict := (List.range 256).map fun c => [BitVec.ofNat 8 c], maxcode := 255, codelen := 8, sCode := none
          prev := BitVec.ofNat 23 r, lzMode := .dec
          wBuf := t.wBuf, wAcc := t.wAcc, wNbits := t.wNbits, sink := t.sink
          rBuf := t.rBuf, rBitpos := t.rBitpos, rSrcEnd := t.rSrcEnd, source := t.source
          ended := false, fcode := 0 }) ∧
    ((unreadBits s).length < 8 →
      ∃ t, exec .ldinit s = .next t ∧ Took s 0 t ∧
        t = { s with
          r0 := 0, ended := true, fcode := 1, lzMode := .idle
          dict := (List.range 256).map fun c => [BitVec.ofNat 8 c], maxcode := 255, codelen := 8, sCode := none
          rBuf := t.rBuf, rBitpos := t.rBitpos, rSrcEnd := t.rSrcEnd, source := t.source })

/-- LDSTEP on a code up to MAXCODE + 1, below the cap: the code is read at the width of MAXCODE + 1, its string is written, the
self-referential code MAXCODE + 1 meaning PREV's string and its first byte, and PREV's string with the first byte of the code's
becomes the next code (43_lzw.md rules R226, R229). -/
def Obligations.LdstepDecodesACode : Prop :=
  ∀ s : State, BlockInv s → s.fault = false → s.lzMode = .dec → s.rOpen = true → s.wOpen = true →
    s.maxcode.toNat < 4194304 → SourceNeverFails s → SinkNeverFails s →
    let w := bitlen (s.maxcode.toNat + 1)
    let r := valueOfBits ((unreadBits s).take w)
    let old := dictAt s s.prev.toNat
    let cur := if r = s.maxcode.toNat + 1 then old ++ old.take 1 else dictAt s r
    w ≤ (unreadBits s).length → r ≤ s.maxcode.toNat + 1 →
    ∃ t, exec .ldstep s = .next t ∧ Took s w t ∧ cur ≠ [] ∧ Appended s (bitsOfBytes cur) t ∧
      t = { s with
        r0 := BitVec.ofNat 32 cur.length, r1 := BitVec.ofNat 32 r, r2 := BitVec.ofNat 32 w
        dict := s.dict ++ [old ++ cur.take 1], maxcode := s.maxcode + 1, codelen := BitVec.ofNat 5 w
        prev := BitVec.ofNat 23 r
        wBuf := t.wBuf, wAcc := t.wAcc, wNbits := t.wNbits, sink := t.sink
        rBuf := t.rBuf, rBitpos := t.rBitpos, rSrcEnd := t.rSrcEnd, source := t.source
        ended := false, fcode := 0 }

/-- LDSTEP below the cap, when no full code is left: EndOfStream, and the decode ends; and when the code is above MAXCODE + 1:
LzwBadCode, the code's bits stay consumed, and nothing is inserted or written (43_lzw.md rule R229). -/
def Obligations.LdstepEndsOrRejects : Prop :=
  ∀ s : State, BlockInv s → s.fault = false → s.lzMode = .dec → s.rOpen = true → s.wOpen = true →
    s.maxcode.toNat < 4194304 → SourceNeverFails s →
    let w := bitlen (s.maxcode.toNat + 1)
    ((unreadBits s).length < w →
      ∃ t, exec .ldstep s = .next t ∧ Took s 0 t ∧
        t = { s with
          r0 := 0, ended := true, fcode := 1, lzMode := .idle, codelen := BitVec.ofNat 5 w
          rBuf := t.rBuf, rBitpos := t.rBitpos, rSrcEnd := t.rSrcEnd, source := t.source }) ∧
    (w ≤ (unreadBits s).length → s.maxcode.toNat + 1 < valueOfBits ((unreadBits s).take w) →
      ∃ t, exec .ldstep s = .next t ∧ Took s w t ∧
        t = { s with
          fault := true, fcode := 8, ended := false, codelen := BitVec.ofNat 5 w
          rBuf := t.rBuf, rBitpos := t.rBitpos, rSrcEnd := t.rSrcEnd, source := t.source })

/-- LDSTEP at the cap is the reset step: a code is read at 8 bits and written as a byte, and the dictionary starts afresh; with fewer
than 8 bits left the decode ends (43_lzw.md rules R222, R229). -/
def Obligations.LdstepResetsAtTheCap : Prop :=
  ∀ s : State, BlockInv s → s.fault = false → s.lzMode = .dec → s.rOpen = true → s.wOpen = true →
    s.maxcode.toNat = 4194304 → SourceNeverFails s → SinkNeverFails s →
    let r := valueOfBits ((unreadBits s).take 8)
    (8 ≤ (unreadBits s).length →
      ∃ t, exec .ldstep s = .next t ∧ Took s 8 t ∧ Appended s ((unreadBits s).take 8) t ∧
        t = { s with
          r0 := 1, r1 := BitVec.ofNat 32 r, r2 := 8
          dict := (List.range 256).map fun c => [BitVec.ofNat 8 c], maxcode := 255, codelen := 8
          prev := BitVec.ofNat 23 r
          wBuf := t.wBuf, wAcc := t.wAcc, wNbits := t.wNbits, sink := t.sink
          rBuf := t.rBuf, rBitpos := t.rBitpos, rSrcEnd := t.rSrcEnd, source := t.source
          ended := false, fcode := 0 }) ∧
    ((unreadBits s).length < 8 →
      ∃ t, exec .ldstep s = .next t ∧ Took s 0 t ∧
        t = { s with
          r0 := 0, ended := true, fcode := 1, lzMode := .idle, codelen := 8
          rBuf := t.rBuf, rBitpos := t.rBitpos, rSrcEnd := t.rSrcEnd, source := t.source })

/-- The code an encoder writes when its MAXCODE is m, and the code a decoder reads when its MAXCODE is m - 1, have the same width
(43_lzw.md rules R226, R230). -/
def Obligations.CodeWidthsAlign : Prop :=
  ∀ (e d e' d' : State) (i : Instr), BlockInv e → BlockInv d → e.fault = false → d.fault = false →
    e.lzMode = .enc → d.lzMode = .dec → d.maxcode.toNat + 1 = e.maxcode.toNat →
    (i = .lefin ∨ ∃ c, i = .lebyte c) →
    exec i e = .next e' → e'.fault = false → e'.r0 = 1 → exec .ldstep d = .next d' → d'.fault = false →
    d'.ended = false →
    e'.r2 = d'.r2 ∧ e'.r2 = BitVec.ofNat 32 (bitlen e.maxcode.toNat)

/-! ### Invariants and frames of the whole block -/

/-- The reset state has the invariant of the block (10_state.md rules R28, R31, R33, R36, R38). -/
def Obligations.BlockInvAtReset : Prop := BlockInv State.reset

/-- Every step from a state with the invariant of the block gives one (10_state.md rules R28, R31, R33, R36, R38; 42_arith_coder.md
rules R181, R182; 43_lzw.md rule R226). -/
def Obligations.EveryStepKeepsBlockInv : Prop :=
  ∀ s t : State, BlockInv s → step s = .next t → BlockInv t

/-- From a state with the invariant of the block every step gives a next state: the model's own stops are never reached, the
renormalization loops end, and every string the LZW rules read exists (42_arith_coder.md rules R174, R181; 43_lzw.md rules R225,
R229). -/
def Obligations.GoodStatesNeverStop : Prop :=
  ∀ s : State, BlockInv s → ∃ t, step s = .next t

/-- STATUS stays legal: with a fault recorded FCODE is a fault's code and END is 0, with none FCODE is 0, or 1 beside END, and the
sink has not failed; this holds at reset and every step keeps it (10_state.md rule R25; 60_exceptions.md rules R271, R272,
R277). -/
def Obligations.StatusStaysLegal : Prop :=
  StatusOk State.reset ∧ ∀ s t : State, StatusOk s → step s = .next t → StatusOk t

/-- A command writes no result register that its rule does not name (10_state.md rule R23). -/
def Obligations.ResultRegistersNamedByTheRules : Prop :=
  ∀ (i : Instr) (s t : State), exec i s = .next t →
    (writesR0 i = false → t.r0 = s.r0) ∧ (writesR1 i = false → t.r1 = s.r1) ∧
    (writesR2 i = false → t.r2 = s.r2) ∧ (writesR3 i = false → t.r3 = s.r3)

/-- A command changes only the units it uses: the model's table, the coder's registers and the LZW unit's are left alone by the
commands of the other families (41_freq_model.md rule R140; 42_arith_coder.md rule R170; 43_lzw.md rule R220). -/
def Obligations.UnitsLeaveEachOtherAlone : Prop :=
  ∀ (i : Instr) (s t : State), exec i s = .next t →
    (usesTheModel i = false → t.cum = s.cum ∧ t.frozen = s.frozen) ∧
    (usesTheCoder i = false → t.low = s.low ∧ t.high = s.high ∧ t.value = s.value ∧ t.pending = s.pending ∧
      t.acMode = s.acMode) ∧
    (usesTheDictionary i = false → t.dict = s.dict ∧ t.maxcode = s.maxcode ∧ t.codelen = s.codelen ∧
      t.sCode = s.sCode ∧ t.prev = s.prev ∧ t.lzMode = s.lzMode)

/-- The source and the read buffer are reached only through the commands that read bits, and the sink and the write buffer only
through those that write bits, opening, closing and reset of the stream apart; no command touches the host's coming actions
(20_memory.md rule R60). -/
def Obligations.StreamsReachedByTheirCommandsAlone : Prop :=
  ∀ (i : Instr) (s t : State), exec i s = .next t →
    (readsTheSource i = false → t.source = s.source) ∧
    (writesTheSink i = false → t.sink = s.sink) ∧
    (readsTheSource i = false → i ≠ .ropen → i ≠ .rclose → i ≠ .srst →
      t.rOpen = s.rOpen ∧ t.rBuf = s.rBuf ∧ t.rBitpos = s.rBitpos ∧ t.rSrcEnd = s.rSrcEnd) ∧
    (writesTheSink i = false → i ≠ .wopen → i ≠ .srst →
      t.wOpen = s.wOpen ∧ t.wBuf = s.wBuf ∧ t.wAcc = s.wAcc ∧ t.wNbits = s.wNbits) ∧
    t.cmd = s.cmd ∧ t.host = s.host

/-! ### Hosts that fail -/

/-- The commands that write bits without reading any, when the sink fails on one of the loads they fill: IoFailure(sink) is recorded,
the load is lost and the write side is left empty, and what the rule writes before the failing bit stands: for AESYM the results
and the table, its LOW, HIGH and PENDING left open here; for AEFIN at most PENDING; for LEBYTE nothing, or at the cap, when the
second code's bits fail, what the insertion wrote. The sink's failure leaves a WCLOSE nothing to deliver (40_bit_channel.md rules
R101, R104, R105; 42_arith_coder.md rules R173, R174, R178, R179; 43_lzw.md rules R225, R227; 60_exceptions.md rules R272, R273). -/
def Obligations.SinkFailureFaultsTheWriters : Prop :=
  ∀ s : State, BlockInv s → s.fault = false → s.wOpen = true →
    (∀ n : BitVec 6, 1 ≤ n.toNat → n.toNat ≤ 32 → SinkFailsOn s n.toNat →
      ∃ t, exec (.wbits n) s = .next t ∧ LostALoad s (bitsOfValue s.data.toNat n.toNat) t ∧ t = sinkFaulted s t) ∧
    (∀ sym : BitVec 9, s.acMode = .enc → sym.toNat ≤ 256 →
      s.pending.toNat + leadingUnderflows (symbolCases s sym.toNat) ≤ 4294967295 →
      let bits := (bitPlusFollow (symbolCases s sym.toNat) s.pending.toNat).1
      SinkFailsOn s bits.length →
      ∃ t, exec (.aesym sym) s = .next t ∧ LostALoad s bits t ∧ CountedUp sym.toNat s t ∧
        t = { sinkFaulted s t with
          r0 := BitVec.ofNat 32 (cumAt s sym.toNat), r1 := BitVec.ofNat 32 (cumAt s (sym.toNat + 1))
          r2 := BitVec.ofNat 32 (cumAt s 257), r3 := BitVec.ofNat 32 sym.toNat
          cum := t.cum, frozen := t.frozen, low := t.low, high := t.high, pending := t.pending }) ∧
    (s.acMode = .enc → s.pending ≠ 4294967295 → SinkFailsOn s (s.pending.toNat + 2) →
      let b := decide (32768 ≤ s.low.toNat)
      ∃ t, exec .aefin s = .next t ∧ LostALoad s (b :: List.replicate (s.pending.toNat + 1) (!b)) t ∧
        t = { sinkFaulted s t with pending := t.pending }) ∧
    (∀ (c : BitVec 8) (e : Code), s.lzMode = .enc → s.sCode = some e → dictAt s e.toNat ++ [c] ∉ s.dict →
      (SinkFailsOn s (bitlen s.maxcode.toNat) →
        ∃ t, exec (.lebyte c) s = .next t ∧ LostALoad s (bitsOfValue e.toNat (bitlen s.maxcode.toNat)) t ∧
          t = sinkFaulted s t) ∧
      (s.maxcode.toNat + 1 = 4194304 → ¬ SinkFailsOn s 22 → SinkFailsOn s 45 →
        ∃ t, exec (.lebyte c) s = .next t ∧ LostALoad s (bitsOfValue e.toNat 22 ++ bitsOfValue c.toNat 23) t ∧
          t = { sinkFaulted s t with
            r0 := 1, r1 := BitVec.ofNat 32 e.toNat, r2 := 22
            dict := s.dict ++ [dictAt s e.toNat ++ [c]], maxcode := 4194304, codelen := 23
            sCode := some (c.setWidth 23) })) ∧
    (∀ k : Code, s.lzMode = .enc → s.sCode = some k → SinkFailsOn s s.codelen.toNat →
      ∃ t, exec .lefin s = .next t ∧ LostALoad s (bitsOfValue k.toNat s.codelen.toNat) t ∧ t = sinkFaulted s t)

/-- The commands that read and write bits, when the sink fails on one of the loads they fill: IoFailure(sink) is recorded, the load
is lost and the write side is left empty, the bits read stay consumed, and what the rule writes before the failing bit stands: for
ADSYM the results and the table; for LDINIT the initial dictionary; for LDSTEP the width and the insertion, and at the cap the
width alone (40_bit_channel.md rules R101, R105; 42_arith_coder.md rule R183; 43_lzw.md rules R228, R229; 60_exceptions.md rules
R272, R273). -/
def Obligations.SinkFailureFaultsTheDecoders : Prop :=
  ∀ s : State, BlockInv s → s.fault = false → s.rOpen = true → s.wOpen = true →
    (∀ sym : Nat, s.acMode = .dec → sym ≤ 255 → cumAt s sym ≤ scaledOf s → scaledOf s < cumAt s (sym + 1) →
      SinkFailsOn s 8 →
      ∃ t, exec .adsym s = .next t ∧ LostALoad s (bitsOfValue sym 8) t ∧ CountedUp sym s t ∧
        t = { sinkFaulted s t with
          r0 := BitVec.ofNat 32 (cumAt s sym), r1 := BitVec.ofNat 32 (cumAt s (sym + 1))
          r2 := BitVec.ofNat 32 (cumAt s 257), r3 := BitVec.ofNat 32 sym, cum := t.cum, frozen := t.frozen }) ∧
    (SourceNeverFails s → 8 ≤ (unreadBits s).length → SinkFailsOn s 8 →
      ∃ t, exec .ldinit s = .next t ∧ Took s 8 t ∧ LostALoad s ((unreadBits s).take 8) t ∧
        t = { sinkFaulted s t with
          dict := (List.range 256).map fun c => [BitVec.ofNat 8 c], maxcode := 255, codelen := 8, sCode := none
          rBuf := t.rBuf, rBitpos := t.rBitpos, rSrcEnd := t.rSrcEnd, source := t.source }) ∧
    (s.lzMode = .dec → s.maxcode.toNat < 4194304 → SourceNeverFails s →
      let w := bitlen (s.maxcode.toNat + 1)
      let r := valueOfBits ((unreadBits s).take w)
      let old := dictAt s s.prev.toNat
      let cur := if r = s.maxcode.toNat + 1 then old ++ old.take 1 else dictAt s r
      w ≤ (unreadBits s).length → r ≤ s.maxcode.toNat + 1 → SinkFailsOn s (8 * cur.length) →
      ∃ t, exec .ldstep s = .next t ∧ Took s w t ∧ LostALoad s (bitsOfBytes cur) t ∧
        t = { sinkFaulted s t with
          dict := s.dict ++ [old ++ cur.take 1], maxcode := s.maxcode + 1, codelen := BitVec.ofNat 5 w
          rBuf := t.rBuf, rBitpos := t.rBitpos, rSrcEnd := t.rSrcEnd, source := t.source }) ∧
    (s.lzMode = .dec → s.maxcode.toNat = 4194304 → SourceNeverFails s → 8 ≤ (unreadBits s).length → SinkFailsOn s 8 →
      ∃ t, exec .ldstep s = .next t ∧ Took s 8 t ∧ LostALoad s ((unreadBits s).take 8) t ∧
        t = { sinkFaulted s t with
          codelen := 8
          rBuf := t.rBuf, rBitpos := t.rBitpos, rSrcEnd := t.rSrcEnd, source := t.source })

/-- The commands that read bits, when the source fails before they have the bits they need: IoFailure(source) is recorded, a whole
code or field is not taken while the coder's single bits are taken as far as they go, and what the rule writes before the failing
bit stands: for ADINIT the fresh model and bounds, and VALUE with the bits read; for ADSYM the results, the table and the decoded
byte, its LOW, HIGH and VALUE left open here; for LDINIT the initial dictionary; for LDSTEP the width. The write side, which a
later WCLOSE delivers, has ADSYM's byte and is else as it was (40_bit_channel.md rules R107, R108, R109, R110; 42_arith_coder.md
rules R175, R180, R183; 43_lzw.md rules R228, R229; 60_exceptions.md rules R272, R273). -/
def Obligations.SourceFailureFaultsTheReaders : Prop :=
  ∀ (s : State) (m : Nat), BlockInv s → s.fault = false → s.rOpen = true → bitsBeforeFail s = some m →
    (∀ n : BitVec 6, n.toNat ≤ 32 → m < n.toNat →
      ∃ t, exec (.rbits n) s = .next t ∧ LostTheSource s 0 t ∧ t = sourceFaulted s t) ∧
    (m < 17 →
      ∃ t, exec .adinit s = .next t ∧ LostTheSource s m t ∧ t.value.toNat = valueOfBits ((unreadBits s).take m) ∧
        t = { sourceFaulted s t with
          cum := List.range 258, frozen := false, low := 0, high := 131071, value := t.value, pending := 0 }) ∧
    (∀ sym : Nat, s.acMode = .dec → s.wOpen = true → sym ≤ 255 → cumAt s sym ≤ scaledOf s →
      scaledOf s < cumAt s (sym + 1) → ¬ SinkFailsOn s 8 → m < (symbolCases s sym).length →
      ∃ t, exec .adsym s = .next t ∧ LostTheSource s m t ∧ Appended s (bitsOfValue sym 8) t ∧ CountedUp sym s t ∧
        t = { sourceFaulted s t with
          r0 := BitVec.ofNat 32 (cumAt s sym), r1 := BitVec.ofNat 32 (cumAt s (sym + 1))
          r2 := BitVec.ofNat 32 (cumAt s 257), r3 := BitVec.ofNat 32 sym
          cum := t.cum, frozen := t.frozen, low := t.low, high := t.high, value := t.value
          wBuf := t.wBuf, wAcc := t.wAcc, wNbits := t.wNbits, sink := t.sink }) ∧
    (s.wOpen = true → m < 8 →
      ∃ t, exec .ldinit s = .next t ∧ LostTheSource s 0 t ∧
        t = { sourceFaulted s t with
          dict := (List.range 256).map fun c => [BitVec.ofNat 8 c], maxcode := 255, codelen := 8, sCode := none }) ∧
    (s.lzMode = .dec → s.wOpen = true → s.maxcode.toNat < 4194304 → m < bitlen (s.maxcode.toNat + 1) →
      ∃ t, exec .ldstep s = .next t ∧ LostTheSource s 0 t ∧
        t = { sourceFaulted s t with codelen := BitVec.ofNat 5 (bitlen (s.maxcode.toNat + 1)) }) ∧
    (s.lzMode = .dec → s.wOpen = true → s.maxcode.toNat = 4194304 → m < 8 →
      ∃ t, exec .ldstep s = .next t ∧ LostTheSource s 0 t ∧ t = { sourceFaulted s t with codelen := 8 })
end

