-- ==== Sys2Proof/Laws/State.lean ====
section
/-!
SUPPORT. What each named update of the state does to each field, so that no later proof unfolds a record update.
-/
namespace Sys2Proof.Machine

@[simp] theorem reset_cmd : State.reset.cmd = none := rfl
@[simp] theorem reset_data : State.reset.data = 0 := rfl
@[simp] theorem reset_r0 : State.reset.r0 = 0 := rfl
@[simp] theorem reset_r1 : State.reset.r1 = 0 := rfl
@[simp] theorem reset_r2 : State.reset.r2 = 0 := rfl
@[simp] theorem reset_r3 : State.reset.r3 = 0 := rfl
@[simp] theorem reset_fault : State.reset.fault = false := rfl
@[simp] theorem reset_ended : State.reset.ended = false := rfl
@[simp] theorem reset_fcode : State.reset.fcode = 0 := rfl
@[simp] theorem reset_ioSink : State.reset.ioSink = false := rfl
@[simp] theorem reset_wOpen : State.reset.wOpen = false := rfl
@[simp] theorem reset_wBuf : State.reset.wBuf = [] := rfl
@[simp] theorem reset_wAcc : State.reset.wAcc = 0 := rfl
@[simp] theorem reset_wNbits : State.reset.wNbits = 0 := rfl
@[simp] theorem reset_rOpen : State.reset.rOpen = false := rfl
@[simp] theorem reset_rBuf : State.reset.rBuf = [] := rfl
@[simp] theorem reset_rBitpos : State.reset.rBitpos = 0 := rfl
@[simp] theorem reset_rSrcEnd : State.reset.rSrcEnd = false := rfl
@[simp] theorem reset_cum : State.reset.cum = identityRamp := rfl
@[simp] theorem reset_frozen : State.reset.frozen = false := rfl
@[simp] theorem reset_low : State.reset.low = 0 := rfl
@[simp] theorem reset_high : State.reset.high = BitVec.ofNat 17 Config.maxCode := rfl
@[simp] theorem reset_value : State.reset.value = 0 := rfl
@[simp] theorem reset_pending : State.reset.pending = 0 := rfl
@[simp] theorem reset_acMode : State.reset.acMode = .idle := rfl
@[simp] theorem reset_dict : State.reset.dict = initialDict := rfl
@[simp] theorem reset_maxcode : State.reset.maxcode = BitVec.ofNat 23 Config.lzwInitMaxcode := rfl
@[simp] theorem reset_codelen : State.reset.codelen = BitVec.ofNat 5 Config.lzwInitWidth := rfl
@[simp] theorem reset_sCode : State.reset.sCode = none := rfl
@[simp] theorem reset_prev : State.reset.prev = 0 := rfl
@[simp] theorem reset_lzMode : State.reset.lzMode = .idle := rfl
@[simp] theorem reset_host : State.reset.host = [] := rfl
@[simp] theorem reset_source : State.reset.source = ⟨[], []⟩ := rfl
@[simp] theorem reset_sink : State.reset.sink = ⟨[], []⟩ := rfl

@[simp] theorem resetAll_cmd (s : State) : (resetAll s).cmd = s.cmd := rfl
@[simp] theorem resetAll_data (s : State) : (resetAll s).data = State.reset.data := rfl
@[simp] theorem resetAll_r0 (s : State) : (resetAll s).r0 = State.reset.r0 := rfl
@[simp] theorem resetAll_r1 (s : State) : (resetAll s).r1 = State.reset.r1 := rfl
@[simp] theorem resetAll_r2 (s : State) : (resetAll s).r2 = State.reset.r2 := rfl
@[simp] theorem resetAll_r3 (s : State) : (resetAll s).r3 = State.reset.r3 := rfl
@[simp] theorem resetAll_fault (s : State) : (resetAll s).fault = State.reset.fault := rfl
@[simp] theorem resetAll_ended (s : State) : (resetAll s).ended = State.reset.ended := rfl
@[simp] theorem resetAll_fcode (s : State) : (resetAll s).fcode = State.reset.fcode := rfl
@[simp] theorem resetAll_ioSink (s : State) : (resetAll s).ioSink = State.reset.ioSink := rfl
@[simp] theorem resetAll_wOpen (s : State) : (resetAll s).wOpen = State.reset.wOpen := rfl
@[simp] theorem resetAll_wBuf (s : State) : (resetAll s).wBuf = State.reset.wBuf := rfl
@[simp] theorem resetAll_wAcc (s : State) : (resetAll s).wAcc = State.reset.wAcc := rfl
@[simp] theorem resetAll_wNbits (s : State) : (resetAll s).wNbits = State.reset.wNbits := rfl
@[simp] theorem resetAll_rOpen (s : State) : (resetAll s).rOpen = State.reset.rOpen := rfl
@[simp] theorem resetAll_rBuf (s : State) : (resetAll s).rBuf = State.reset.rBuf := rfl
@[simp] theorem resetAll_rBitpos (s : State) : (resetAll s).rBitpos = State.reset.rBitpos := rfl
@[simp] theorem resetAll_rSrcEnd (s : State) : (resetAll s).rSrcEnd = State.reset.rSrcEnd := rfl
@[simp] theorem resetAll_cum (s : State) : (resetAll s).cum = State.reset.cum := rfl
@[simp] theorem resetAll_frozen (s : State) : (resetAll s).frozen = State.reset.frozen := rfl
@[simp] theorem resetAll_low (s : State) : (resetAll s).low = State.reset.low := rfl
@[simp] theorem resetAll_high (s : State) : (resetAll s).high = State.reset.high := rfl
@[simp] theorem resetAll_value (s : State) : (resetAll s).value = State.reset.value := rfl
@[simp] theorem resetAll_pending (s : State) : (resetAll s).pending = State.reset.pending := rfl
@[simp] theorem resetAll_acMode (s : State) : (resetAll s).acMode = State.reset.acMode := rfl
@[simp] theorem resetAll_dict (s : State) : (resetAll s).dict = State.reset.dict := rfl
@[simp] theorem resetAll_maxcode (s : State) : (resetAll s).maxcode = State.reset.maxcode := rfl
@[simp] theorem resetAll_codelen (s : State) : (resetAll s).codelen = State.reset.codelen := rfl
@[simp] theorem resetAll_sCode (s : State) : (resetAll s).sCode = State.reset.sCode := rfl
@[simp] theorem resetAll_prev (s : State) : (resetAll s).prev = State.reset.prev := rfl
@[simp] theorem resetAll_lzMode (s : State) : (resetAll s).lzMode = State.reset.lzMode := rfl
@[simp] theorem resetAll_host (s : State) : (resetAll s).host = s.host := rfl
@[simp] theorem resetAll_source (s : State) : (resetAll s).source = s.source := rfl
@[simp] theorem resetAll_sink (s : State) : (resetAll s).sink = s.sink := rfl

@[simp] theorem clearConditions_cmd (s : State) : (clearConditions s).cmd = s.cmd := rfl
@[simp] theorem clearConditions_data (s : State) : (clearConditions s).data = s.data := rfl
@[simp] theorem clearConditions_r0 (s : State) : (clearConditions s).r0 = s.r0 := rfl
@[simp] theorem clearConditions_r1 (s : State) : (clearConditions s).r1 = s.r1 := rfl
@[simp] theorem clearConditions_r2 (s : State) : (clearConditions s).r2 = s.r2 := rfl
@[simp] theorem clearConditions_r3 (s : State) : (clearConditions s).r3 = s.r3 := rfl
@[simp] theorem clearConditions_fault (s : State) : (clearConditions s).fault = s.fault := rfl
@[simp] theorem clearConditions_ended (s : State) : (clearConditions s).ended = (s.ended && s.fault) := rfl
@[simp] theorem clearConditions_fcode (s : State) : (clearConditions s).fcode = (if s.fault then s.fcode else 0) := rfl
@[simp] theorem clearConditions_ioSink (s : State) : (clearConditions s).ioSink = s.ioSink := rfl
@[simp] theorem clearConditions_wOpen (s : State) : (clearConditions s).wOpen = s.wOpen := rfl
@[simp] theorem clearConditions_wBuf (s : State) : (clearConditions s).wBuf = s.wBuf := rfl
@[simp] theorem clearConditions_wAcc (s : State) : (clearConditions s).wAcc = s.wAcc := rfl
@[simp] theorem clearConditions_wNbits (s : State) : (clearConditions s).wNbits = s.wNbits := rfl
@[simp] theorem clearConditions_rOpen (s : State) : (clearConditions s).rOpen = s.rOpen := rfl
@[simp] theorem clearConditions_rBuf (s : State) : (clearConditions s).rBuf = s.rBuf := rfl
@[simp] theorem clearConditions_rBitpos (s : State) : (clearConditions s).rBitpos = s.rBitpos := rfl
@[simp] theorem clearConditions_rSrcEnd (s : State) : (clearConditions s).rSrcEnd = s.rSrcEnd := rfl
@[simp] theorem clearConditions_cum (s : State) : (clearConditions s).cum = s.cum := rfl
@[simp] theorem clearConditions_frozen (s : State) : (clearConditions s).frozen = s.frozen := rfl
@[simp] theorem clearConditions_low (s : State) : (clearConditions s).low = s.low := rfl
@[simp] theorem clearConditions_high (s : State) : (clearConditions s).high = s.high := rfl
@[simp] theorem clearConditions_value (s : State) : (clearConditions s).value = s.value := rfl
@[simp] theorem clearConditions_pending (s : State) : (clearConditions s).pending = s.pending := rfl
@[simp] theorem clearConditions_acMode (s : State) : (clearConditions s).acMode = s.acMode := rfl
@[simp] theorem clearConditions_dict (s : State) : (clearConditions s).dict = s.dict := rfl
@[simp] theorem clearConditions_maxcode (s : State) : (clearConditions s).maxcode = s.maxcode := rfl
@[simp] theorem clearConditions_codelen (s : State) : (clearConditions s).codelen = s.codelen := rfl
@[simp] theorem clearConditions_sCode (s : State) : (clearConditions s).sCode = s.sCode := rfl
@[simp] theorem clearConditions_prev (s : State) : (clearConditions s).prev = s.prev := rfl
@[simp] theorem clearConditions_lzMode (s : State) : (clearConditions s).lzMode = s.lzMode := rfl
@[simp] theorem clearConditions_host (s : State) : (clearConditions s).host = s.host := rfl
@[simp] theorem clearConditions_source (s : State) : (clearConditions s).source = s.source := rfl
@[simp] theorem clearConditions_sink (s : State) : (clearConditions s).sink = s.sink := rfl

@[simp] theorem recordFault_cmd (k : FaultKind) (s : State) : (recordFault k s).cmd = s.cmd := rfl
@[simp] theorem recordFault_data (k : FaultKind) (s : State) : (recordFault k s).data = s.data := rfl
@[simp] theorem recordFault_r0 (k : FaultKind) (s : State) : (recordFault k s).r0 = s.r0 := rfl
@[simp] theorem recordFault_r1 (k : FaultKind) (s : State) : (recordFault k s).r1 = s.r1 := rfl
@[simp] theorem recordFault_r2 (k : FaultKind) (s : State) : (recordFault k s).r2 = s.r2 := rfl
@[simp] theorem recordFault_r3 (k : FaultKind) (s : State) : (recordFault k s).r3 = s.r3 := rfl
@[simp] theorem recordFault_fault (k : FaultKind) (s : State) : (recordFault k s).fault = true := rfl
@[simp] theorem recordFault_ended (k : FaultKind) (s : State) : (recordFault k s).ended = s.ended := rfl
@[simp] theorem recordFault_fcode (k : FaultKind) (s : State) : (recordFault k s).fcode = (if s.fault then s.fcode else faultCode k) := rfl
@[simp] theorem recordFault_ioSink (k : FaultKind) (s : State) : (recordFault k s).ioSink = (s.ioSink || (k == .ioFailureSink)) := rfl
@[simp] theorem recordFault_wOpen (k : FaultKind) (s : State) : (recordFault k s).wOpen = s.wOpen := rfl
@[simp] theorem recordFault_wBuf (k : FaultKind) (s : State) : (recordFault k s).wBuf = s.wBuf := rfl
@[simp] theorem recordFault_wAcc (k : FaultKind) (s : State) : (recordFault k s).wAcc = s.wAcc := rfl
@[simp] theorem recordFault_wNbits (k : FaultKind) (s : State) : (recordFault k s).wNbits = s.wNbits := rfl
@[simp] theorem recordFault_rOpen (k : FaultKind) (s : State) : (recordFault k s).rOpen = s.rOpen := rfl
@[simp] theorem recordFault_rBuf (k : FaultKind) (s : State) : (recordFault k s).rBuf = s.rBuf := rfl
@[simp] theorem recordFault_rBitpos (k : FaultKind) (s : State) : (recordFault k s).rBitpos = s.rBitpos := rfl
@[simp] theorem recordFault_rSrcEnd (k : FaultKind) (s : State) : (recordFault k s).rSrcEnd = s.rSrcEnd := rfl
@[simp] theorem recordFault_cum (k : FaultKind) (s : State) : (recordFault k s).cum = s.cum := rfl
@[simp] theorem recordFault_frozen (k : FaultKind) (s : State) : (recordFault k s).frozen = s.frozen := rfl
@[simp] theorem recordFault_low (k : FaultKind) (s : State) : (recordFault k s).low = s.low := rfl
@[simp] theorem recordFault_high (k : FaultKind) (s : State) : (recordFault k s).high = s.high := rfl
@[simp] theorem recordFault_value (k : FaultKind) (s : State) : (recordFault k s).value = s.value := rfl
@[simp] theorem recordFault_pending (k : FaultKind) (s : State) : (recordFault k s).pending = s.pending := rfl
@[simp] theorem recordFault_acMode (k : FaultKind) (s : State) : (recordFault k s).acMode = s.acMode := rfl
@[simp] theorem recordFault_dict (k : FaultKind) (s : State) : (recordFault k s).dict = s.dict := rfl
@[simp] theorem recordFault_maxcode (k : FaultKind) (s : State) : (recordFault k s).maxcode = s.maxcode := rfl
@[simp] theorem recordFault_codelen (k : FaultKind) (s : State) : (recordFault k s).codelen = s.codelen := rfl
@[simp] theorem recordFault_sCode (k : FaultKind) (s : State) : (recordFault k s).sCode = s.sCode := rfl
@[simp] theorem recordFault_prev (k : FaultKind) (s : State) : (recordFault k s).prev = s.prev := rfl
@[simp] theorem recordFault_lzMode (k : FaultKind) (s : State) : (recordFault k s).lzMode = s.lzMode := rfl
@[simp] theorem recordFault_host (k : FaultKind) (s : State) : (recordFault k s).host = s.host := rfl
@[simp] theorem recordFault_source (k : FaultKind) (s : State) : (recordFault k s).source = s.source := rfl
@[simp] theorem recordFault_sink (k : FaultKind) (s : State) : (recordFault k s).sink = s.sink := rfl

@[simp] theorem signalEndOfStream_cmd (s : State) : (signalEndOfStream s).cmd = s.cmd := rfl
@[simp] theorem signalEndOfStream_data (s : State) : (signalEndOfStream s).data = s.data := rfl
@[simp] theorem signalEndOfStream_r0 (s : State) : (signalEndOfStream s).r0 = s.r0 := rfl
@[simp] theorem signalEndOfStream_r1 (s : State) : (signalEndOfStream s).r1 = s.r1 := rfl
@[simp] theorem signalEndOfStream_r2 (s : State) : (signalEndOfStream s).r2 = s.r2 := rfl
@[simp] theorem signalEndOfStream_r3 (s : State) : (signalEndOfStream s).r3 = s.r3 := rfl
@[simp] theorem signalEndOfStream_fault (s : State) : (signalEndOfStream s).fault = s.fault := rfl
@[simp] theorem signalEndOfStream_ended (s : State) : (signalEndOfStream s).ended = true := rfl
@[simp] theorem signalEndOfStream_fcode (s : State) : (signalEndOfStream s).fcode = endOfStreamCode := rfl
@[simp] theorem signalEndOfStream_ioSink (s : State) : (signalEndOfStream s).ioSink = s.ioSink := rfl
@[simp] theorem signalEndOfStream_wOpen (s : State) : (signalEndOfStream s).wOpen = s.wOpen := rfl
@[simp] theorem signalEndOfStream_wBuf (s : State) : (signalEndOfStream s).wBuf = s.wBuf := rfl
@[simp] theorem signalEndOfStream_wAcc (s : State) : (signalEndOfStream s).wAcc = s.wAcc := rfl
@[simp] theorem signalEndOfStream_wNbits (s : State) : (signalEndOfStream s).wNbits = s.wNbits := rfl
@[simp] theorem signalEndOfStream_rOpen (s : State) : (signalEndOfStream s).rOpen = s.rOpen := rfl
@[simp] theorem signalEndOfStream_rBuf (s : State) : (signalEndOfStream s).rBuf = s.rBuf := rfl
@[simp] theorem signalEndOfStream_rBitpos (s : State) : (signalEndOfStream s).rBitpos = s.rBitpos := rfl
@[simp] theorem signalEndOfStream_rSrcEnd (s : State) : (signalEndOfStream s).rSrcEnd = s.rSrcEnd := rfl
@[simp] theorem signalEndOfStream_cum (s : State) : (signalEndOfStream s).cum = s.cum := rfl
@[simp] theorem signalEndOfStream_frozen (s : State) : (signalEndOfStream s).frozen = s.frozen := rfl
@[simp] theorem signalEndOfStream_low (s : State) : (signalEndOfStream s).low = s.low := rfl
@[simp] theorem signalEndOfStream_high (s : State) : (signalEndOfStream s).high = s.high := rfl
@[simp] theorem signalEndOfStream_value (s : State) : (signalEndOfStream s).value = s.value := rfl
@[simp] theorem signalEndOfStream_pending (s : State) : (signalEndOfStream s).pending = s.pending := rfl
@[simp] theorem signalEndOfStream_acMode (s : State) : (signalEndOfStream s).acMode = s.acMode := rfl
@[simp] theorem signalEndOfStream_dict (s : State) : (signalEndOfStream s).dict = s.dict := rfl
@[simp] theorem signalEndOfStream_maxcode (s : State) : (signalEndOfStream s).maxcode = s.maxcode := rfl
@[simp] theorem signalEndOfStream_codelen (s : State) : (signalEndOfStream s).codelen = s.codelen := rfl
@[simp] theorem signalEndOfStream_sCode (s : State) : (signalEndOfStream s).sCode = s.sCode := rfl
@[simp] theorem signalEndOfStream_prev (s : State) : (signalEndOfStream s).prev = s.prev := rfl
@[simp] theorem signalEndOfStream_lzMode (s : State) : (signalEndOfStream s).lzMode = s.lzMode := rfl
@[simp] theorem signalEndOfStream_host (s : State) : (signalEndOfStream s).host = s.host := rfl
@[simp] theorem signalEndOfStream_source (s : State) : (signalEndOfStream s).source = s.source := rfl
@[simp] theorem signalEndOfStream_sink (s : State) : (signalEndOfStream s).sink = s.sink := rfl

@[simp] theorem modelReset_cmd (s : State) : (modelReset s).cmd = s.cmd := rfl
@[simp] theorem modelReset_data (s : State) : (modelReset s).data = s.data := rfl
@[simp] theorem modelReset_r0 (s : State) : (modelReset s).r0 = s.r0 := rfl
@[simp] theorem modelReset_r1 (s : State) : (modelReset s).r1 = s.r1 := rfl
@[simp] theorem modelReset_r2 (s : State) : (modelReset s).r2 = s.r2 := rfl
@[simp] theorem modelReset_r3 (s : State) : (modelReset s).r3 = s.r3 := rfl
@[simp] theorem modelReset_fault (s : State) : (modelReset s).fault = s.fault := rfl
@[simp] theorem modelReset_ended (s : State) : (modelReset s).ended = s.ended := rfl
@[simp] theorem modelReset_fcode (s : State) : (modelReset s).fcode = s.fcode := rfl
@[simp] theorem modelReset_ioSink (s : State) : (modelReset s).ioSink = s.ioSink := rfl
@[simp] theorem modelReset_wOpen (s : State) : (modelReset s).wOpen = s.wOpen := rfl
@[simp] theorem modelReset_wBuf (s : State) : (modelReset s).wBuf = s.wBuf := rfl
@[simp] theorem modelReset_wAcc (s : State) : (modelReset s).wAcc = s.wAcc := rfl
@[simp] theorem modelReset_wNbits (s : State) : (modelReset s).wNbits = s.wNbits := rfl
@[simp] theorem modelReset_rOpen (s : State) : (modelReset s).rOpen = s.rOpen := rfl
@[simp] theorem modelReset_rBuf (s : State) : (modelReset s).rBuf = s.rBuf := rfl
@[simp] theorem modelReset_rBitpos (s : State) : (modelReset s).rBitpos = s.rBitpos := rfl
@[simp] theorem modelReset_rSrcEnd (s : State) : (modelReset s).rSrcEnd = s.rSrcEnd := rfl
@[simp] theorem modelReset_cum (s : State) : (modelReset s).cum = identityRamp := rfl
@[simp] theorem modelReset_frozen (s : State) : (modelReset s).frozen = false := rfl
@[simp] theorem modelReset_low (s : State) : (modelReset s).low = s.low := rfl
@[simp] theorem modelReset_high (s : State) : (modelReset s).high = s.high := rfl
@[simp] theorem modelReset_value (s : State) : (modelReset s).value = s.value := rfl
@[simp] theorem modelReset_pending (s : State) : (modelReset s).pending = s.pending := rfl
@[simp] theorem modelReset_acMode (s : State) : (modelReset s).acMode = s.acMode := rfl
@[simp] theorem modelReset_dict (s : State) : (modelReset s).dict = s.dict := rfl
@[simp] theorem modelReset_maxcode (s : State) : (modelReset s).maxcode = s.maxcode := rfl
@[simp] theorem modelReset_codelen (s : State) : (modelReset s).codelen = s.codelen := rfl
@[simp] theorem modelReset_sCode (s : State) : (modelReset s).sCode = s.sCode := rfl
@[simp] theorem modelReset_prev (s : State) : (modelReset s).prev = s.prev := rfl
@[simp] theorem modelReset_lzMode (s : State) : (modelReset s).lzMode = s.lzMode := rfl
@[simp] theorem modelReset_host (s : State) : (modelReset s).host = s.host := rfl
@[simp] theorem modelReset_source (s : State) : (modelReset s).source = s.source := rfl
@[simp] theorem modelReset_sink (s : State) : (modelReset s).sink = s.sink := rfl

@[simp] theorem lzwReset_cmd (s : State) : (lzwReset s).cmd = s.cmd := rfl
@[simp] theorem lzwReset_data (s : State) : (lzwReset s).data = s.data := rfl
@[simp] theorem lzwReset_r0 (s : State) : (lzwReset s).r0 = s.r0 := rfl
@[simp] theorem lzwReset_r1 (s : State) : (lzwReset s).r1 = s.r1 := rfl
@[simp] theorem lzwReset_r2 (s : State) : (lzwReset s).r2 = s.r2 := rfl
@[simp] theorem lzwReset_r3 (s : State) : (lzwReset s).r3 = s.r3 := rfl
@[simp] theorem lzwReset_fault (s : State) : (lzwReset s).fault = s.fault := rfl
@[simp] theorem lzwReset_ended (s : State) : (lzwReset s).ended = s.ended := rfl
@[simp] theorem lzwReset_fcode (s : State) : (lzwReset s).fcode = s.fcode := rfl
@[simp] theorem lzwReset_ioSink (s : State) : (lzwReset s).ioSink = s.ioSink := rfl
@[simp] theorem lzwReset_wOpen (s : State) : (lzwReset s).wOpen = s.wOpen := rfl
@[simp] theorem lzwReset_wBuf (s : State) : (lzwReset s).wBuf = s.wBuf := rfl
@[simp] theorem lzwReset_wAcc (s : State) : (lzwReset s).wAcc = s.wAcc := rfl
@[simp] theorem lzwReset_wNbits (s : State) : (lzwReset s).wNbits = s.wNbits := rfl
@[simp] theorem lzwReset_rOpen (s : State) : (lzwReset s).rOpen = s.rOpen := rfl
@[simp] theorem lzwReset_rBuf (s : State) : (lzwReset s).rBuf = s.rBuf := rfl
@[simp] theorem lzwReset_rBitpos (s : State) : (lzwReset s).rBitpos = s.rBitpos := rfl
@[simp] theorem lzwReset_rSrcEnd (s : State) : (lzwReset s).rSrcEnd = s.rSrcEnd := rfl
@[simp] theorem lzwReset_cum (s : State) : (lzwReset s).cum = s.cum := rfl
@[simp] theorem lzwReset_frozen (s : State) : (lzwReset s).frozen = s.frozen := rfl
@[simp] theorem lzwReset_low (s : State) : (lzwReset s).low = s.low := rfl
@[simp] theorem lzwReset_high (s : State) : (lzwReset s).high = s.high := rfl
@[simp] theorem lzwReset_value (s : State) : (lzwReset s).value = s.value := rfl
@[simp] theorem lzwReset_pending (s : State) : (lzwReset s).pending = s.pending := rfl
@[simp] theorem lzwReset_acMode (s : State) : (lzwReset s).acMode = s.acMode := rfl
@[simp] theorem lzwReset_dict (s : State) : (lzwReset s).dict = initialDict := rfl
@[simp] theorem lzwReset_maxcode (s : State) : (lzwReset s).maxcode = 255 := rfl
@[simp] theorem lzwReset_codelen (s : State) : (lzwReset s).codelen = 8 := rfl
@[simp] theorem lzwReset_sCode (s : State) : (lzwReset s).sCode = s.sCode := rfl
@[simp] theorem lzwReset_prev (s : State) : (lzwReset s).prev = s.prev := rfl
@[simp] theorem lzwReset_lzMode (s : State) : (lzwReset s).lzMode = s.lzMode := rfl
@[simp] theorem lzwReset_host (s : State) : (lzwReset s).host = s.host := rfl
@[simp] theorem lzwReset_source (s : State) : (lzwReset s).source = s.source := rfl
@[simp] theorem lzwReset_sink (s : State) : (lzwReset s).sink = s.sink := rfl

@[simp] theorem setInterval_cmd (lo hi t sym : Nat) (s : State) : (setInterval lo hi t sym s).cmd = s.cmd := rfl
@[simp] theorem setInterval_data (lo hi t sym : Nat) (s : State) : (setInterval lo hi t sym s).data = s.data := rfl
@[simp] theorem setInterval_r0 (lo hi t sym : Nat) (s : State) : (setInterval lo hi t sym s).r0 = BitVec.ofNat 32 lo := rfl
@[simp] theorem setInterval_r1 (lo hi t sym : Nat) (s : State) : (setInterval lo hi t sym s).r1 = BitVec.ofNat 32 hi := rfl
@[simp] theorem setInterval_r2 (lo hi t sym : Nat) (s : State) : (setInterval lo hi t sym s).r2 = BitVec.ofNat 32 t := rfl
@[simp] theorem setInterval_r3 (lo hi t sym : Nat) (s : State) : (setInterval lo hi t sym s).r3 = BitVec.ofNat 32 sym := rfl
@[simp] theorem setInterval_fault (lo hi t sym : Nat) (s : State) : (setInterval lo hi t sym s).fault = s.fault := rfl
@[simp] theorem setInterval_ended (lo hi t sym : Nat) (s : State) : (setInterval lo hi t sym s).ended = s.ended := rfl
@[simp] theorem setInterval_fcode (lo hi t sym : Nat) (s : State) : (setInterval lo hi t sym s).fcode = s.fcode := rfl
@[simp] theorem setInterval_ioSink (lo hi t sym : Nat) (s : State) : (setInterval lo hi t sym s).ioSink = s.ioSink := rfl
@[simp] theorem setInterval_wOpen (lo hi t sym : Nat) (s : State) : (setInterval lo hi t sym s).wOpen = s.wOpen := rfl
@[simp] theorem setInterval_wBuf (lo hi t sym : Nat) (s : State) : (setInterval lo hi t sym s).wBuf = s.wBuf := rfl
@[simp] theorem setInterval_wAcc (lo hi t sym : Nat) (s : State) : (setInterval lo hi t sym s).wAcc = s.wAcc := rfl
@[simp] theorem setInterval_wNbits (lo hi t sym : Nat) (s : State) : (setInterval lo hi t sym s).wNbits = s.wNbits := rfl
@[simp] theorem setInterval_rOpen (lo hi t sym : Nat) (s : State) : (setInterval lo hi t sym s).rOpen = s.rOpen := rfl
@[simp] theorem setInterval_rBuf (lo hi t sym : Nat) (s : State) : (setInterval lo hi t sym s).rBuf = s.rBuf := rfl
@[simp] theorem setInterval_rBitpos (lo hi t sym : Nat) (s : State) : (setInterval lo hi t sym s).rBitpos = s.rBitpos := rfl
@[simp] theorem setInterval_rSrcEnd (lo hi t sym : Nat) (s : State) : (setInterval lo hi t sym s).rSrcEnd = s.rSrcEnd := rfl
@[simp] theorem setInterval_cum (lo hi t sym : Nat) (s : State) : (setInterval lo hi t sym s).cum = s.cum := rfl
@[simp] theorem setInterval_frozen (lo hi t sym : Nat) (s : State) : (setInterval lo hi t sym s).frozen = s.frozen := rfl
@[simp] theorem setInterval_low (lo hi t sym : Nat) (s : State) : (setInterval lo hi t sym s).low = s.low := rfl
@[simp] theorem setInterval_high (lo hi t sym : Nat) (s : State) : (setInterval lo hi t sym s).high = s.high := rfl
@[simp] theorem setInterval_value (lo hi t sym : Nat) (s : State) : (setInterval lo hi t sym s).value = s.value := rfl
@[simp] theorem setInterval_pending (lo hi t sym : Nat) (s : State) : (setInterval lo hi t sym s).pending = s.pending := rfl
@[simp] theorem setInterval_acMode (lo hi t sym : Nat) (s : State) : (setInterval lo hi t sym s).acMode = s.acMode := rfl
@[simp] theorem setInterval_dict (lo hi t sym : Nat) (s : State) : (setInterval lo hi t sym s).dict = s.dict := rfl
@[simp] theorem setInterval_maxcode (lo hi t sym : Nat) (s : State) : (setInterval lo hi t sym s).maxcode = s.maxcode := rfl
@[simp] theorem setInterval_codelen (lo hi t sym : Nat) (s : State) : (setInterval lo hi t sym s).codelen = s.codelen := rfl
@[simp] theorem setInterval_sCode (lo hi t sym : Nat) (s : State) : (setInterval lo hi t sym s).sCode = s.sCode := rfl
@[simp] theorem setInterval_prev (lo hi t sym : Nat) (s : State) : (setInterval lo hi t sym s).prev = s.prev := rfl
@[simp] theorem setInterval_lzMode (lo hi t sym : Nat) (s : State) : (setInterval lo hi t sym s).lzMode = s.lzMode := rfl
@[simp] theorem setInterval_host (lo hi t sym : Nat) (s : State) : (setInterval lo hi t sym s).host = s.host := rfl
@[simp] theorem setInterval_source (lo hi t sym : Nat) (s : State) : (setInterval lo hi t sym s).source = s.source := rfl
@[simp] theorem setInterval_sink (lo hi t sym : Nat) (s : State) : (setInterval lo hi t sym s).sink = s.sink := rfl

@[simp] theorem setCodes_cmd (count code width : Nat) (s : State) : (setCodes count code width s).cmd = s.cmd := rfl
@[simp] theorem setCodes_data (count code width : Nat) (s : State) : (setCodes count code width s).data = s.data := rfl
@[simp] theorem setCodes_r0 (count code width : Nat) (s : State) : (setCodes count code width s).r0 = BitVec.ofNat 32 count := rfl
@[simp] theorem setCodes_r1 (count code width : Nat) (s : State) : (setCodes count code width s).r1 = BitVec.ofNat 32 code := rfl
@[simp] theorem setCodes_r2 (count code width : Nat) (s : State) : (setCodes count code width s).r2 = BitVec.ofNat 32 width := rfl
@[simp] theorem setCodes_r3 (count code width : Nat) (s : State) : (setCodes count code width s).r3 = s.r3 := rfl
@[simp] theorem setCodes_fault (count code width : Nat) (s : State) : (setCodes count code width s).fault = s.fault := rfl
@[simp] theorem setCodes_ended (count code width : Nat) (s : State) : (setCodes count code width s).ended = s.ended := rfl
@[simp] theorem setCodes_fcode (count code width : Nat) (s : State) : (setCodes count code width s).fcode = s.fcode := rfl
@[simp] theorem setCodes_ioSink (count code width : Nat) (s : State) : (setCodes count code width s).ioSink = s.ioSink := rfl
@[simp] theorem setCodes_wOpen (count code width : Nat) (s : State) : (setCodes count code width s).wOpen = s.wOpen := rfl
@[simp] theorem setCodes_wBuf (count code width : Nat) (s : State) : (setCodes count code width s).wBuf = s.wBuf := rfl
@[simp] theorem setCodes_wAcc (count code width : Nat) (s : State) : (setCodes count code width s).wAcc = s.wAcc := rfl
@[simp] theorem setCodes_wNbits (count code width : Nat) (s : State) : (setCodes count code width s).wNbits = s.wNbits := rfl
@[simp] theorem setCodes_rOpen (count code width : Nat) (s : State) : (setCodes count code width s).rOpen = s.rOpen := rfl
@[simp] theorem setCodes_rBuf (count code width : Nat) (s : State) : (setCodes count code width s).rBuf = s.rBuf := rfl
@[simp] theorem setCodes_rBitpos (count code width : Nat) (s : State) : (setCodes count code width s).rBitpos = s.rBitpos := rfl
@[simp] theorem setCodes_rSrcEnd (count code width : Nat) (s : State) : (setCodes count code width s).rSrcEnd = s.rSrcEnd := rfl
@[simp] theorem setCodes_cum (count code width : Nat) (s : State) : (setCodes count code width s).cum = s.cum := rfl
@[simp] theorem setCodes_frozen (count code width : Nat) (s : State) : (setCodes count code width s).frozen = s.frozen := rfl
@[simp] theorem setCodes_low (count code width : Nat) (s : State) : (setCodes count code width s).low = s.low := rfl
@[simp] theorem setCodes_high (count code width : Nat) (s : State) : (setCodes count code width s).high = s.high := rfl
@[simp] theorem setCodes_value (count code width : Nat) (s : State) : (setCodes count code width s).value = s.value := rfl
@[simp] theorem setCodes_pending (count code width : Nat) (s : State) : (setCodes count code width s).pending = s.pending := rfl
@[simp] theorem setCodes_acMode (count code width : Nat) (s : State) : (setCodes count code width s).acMode = s.acMode := rfl
@[simp] theorem setCodes_dict (count code width : Nat) (s : State) : (setCodes count code width s).dict = s.dict := rfl
@[simp] theorem setCodes_maxcode (count code width : Nat) (s : State) : (setCodes count code width s).maxcode = s.maxcode := rfl
@[simp] theorem setCodes_codelen (count code width : Nat) (s : State) : (setCodes count code width s).codelen = s.codelen := rfl
@[simp] theorem setCodes_sCode (count code width : Nat) (s : State) : (setCodes count code width s).sCode = s.sCode := rfl
@[simp] theorem setCodes_prev (count code width : Nat) (s : State) : (setCodes count code width s).prev = s.prev := rfl
@[simp] theorem setCodes_lzMode (count code width : Nat) (s : State) : (setCodes count code width s).lzMode = s.lzMode := rfl
@[simp] theorem setCodes_host (count code width : Nat) (s : State) : (setCodes count code width s).host = s.host := rfl
@[simp] theorem setCodes_source (count code width : Nat) (s : State) : (setCodes count code width s).source = s.source := rfl
@[simp] theorem setCodes_sink (count code width : Nat) (s : State) : (setCodes count code width s).sink = s.sink := rfl

@[simp] theorem setBounds_cmd (lo hi : Nat) (s : State) : (setBounds lo hi s).cmd = s.cmd := rfl
@[simp] theorem setBounds_data (lo hi : Nat) (s : State) : (setBounds lo hi s).data = s.data := rfl
@[simp] theorem setBounds_r0 (lo hi : Nat) (s : State) : (setBounds lo hi s).r0 = s.r0 := rfl
@[simp] theorem setBounds_r1 (lo hi : Nat) (s : State) : (setBounds lo hi s).r1 = s.r1 := rfl
@[simp] theorem setBounds_r2 (lo hi : Nat) (s : State) : (setBounds lo hi s).r2 = s.r2 := rfl
@[simp] theorem setBounds_r3 (lo hi : Nat) (s : State) : (setBounds lo hi s).r3 = s.r3 := rfl
@[simp] theorem setBounds_fault (lo hi : Nat) (s : State) : (setBounds lo hi s).fault = s.fault := rfl
@[simp] theorem setBounds_ended (lo hi : Nat) (s : State) : (setBounds lo hi s).ended = s.ended := rfl
@[simp] theorem setBounds_fcode (lo hi : Nat) (s : State) : (setBounds lo hi s).fcode = s.fcode := rfl
@[simp] theorem setBounds_ioSink (lo hi : Nat) (s : State) : (setBounds lo hi s).ioSink = s.ioSink := rfl
@[simp] theorem setBounds_wOpen (lo hi : Nat) (s : State) : (setBounds lo hi s).wOpen = s.wOpen := rfl
@[simp] theorem setBounds_wBuf (lo hi : Nat) (s : State) : (setBounds lo hi s).wBuf = s.wBuf := rfl
@[simp] theorem setBounds_wAcc (lo hi : Nat) (s : State) : (setBounds lo hi s).wAcc = s.wAcc := rfl
@[simp] theorem setBounds_wNbits (lo hi : Nat) (s : State) : (setBounds lo hi s).wNbits = s.wNbits := rfl
@[simp] theorem setBounds_rOpen (lo hi : Nat) (s : State) : (setBounds lo hi s).rOpen = s.rOpen := rfl
@[simp] theorem setBounds_rBuf (lo hi : Nat) (s : State) : (setBounds lo hi s).rBuf = s.rBuf := rfl
@[simp] theorem setBounds_rBitpos (lo hi : Nat) (s : State) : (setBounds lo hi s).rBitpos = s.rBitpos := rfl
@[simp] theorem setBounds_rSrcEnd (lo hi : Nat) (s : State) : (setBounds lo hi s).rSrcEnd = s.rSrcEnd := rfl
@[simp] theorem setBounds_cum (lo hi : Nat) (s : State) : (setBounds lo hi s).cum = s.cum := rfl
@[simp] theorem setBounds_frozen (lo hi : Nat) (s : State) : (setBounds lo hi s).frozen = s.frozen := rfl
@[simp] theorem setBounds_low (lo hi : Nat) (s : State) : (setBounds lo hi s).low = BitVec.ofNat 17 lo := rfl
@[simp] theorem setBounds_high (lo hi : Nat) (s : State) : (setBounds lo hi s).high = BitVec.ofNat 17 hi := rfl
@[simp] theorem setBounds_value (lo hi : Nat) (s : State) : (setBounds lo hi s).value = s.value := rfl
@[simp] theorem setBounds_pending (lo hi : Nat) (s : State) : (setBounds lo hi s).pending = s.pending := rfl
@[simp] theorem setBounds_acMode (lo hi : Nat) (s : State) : (setBounds lo hi s).acMode = s.acMode := rfl
@[simp] theorem setBounds_dict (lo hi : Nat) (s : State) : (setBounds lo hi s).dict = s.dict := rfl
@[simp] theorem setBounds_maxcode (lo hi : Nat) (s : State) : (setBounds lo hi s).maxcode = s.maxcode := rfl
@[simp] theorem setBounds_codelen (lo hi : Nat) (s : State) : (setBounds lo hi s).codelen = s.codelen := rfl
@[simp] theorem setBounds_sCode (lo hi : Nat) (s : State) : (setBounds lo hi s).sCode = s.sCode := rfl
@[simp] theorem setBounds_prev (lo hi : Nat) (s : State) : (setBounds lo hi s).prev = s.prev := rfl
@[simp] theorem setBounds_lzMode (lo hi : Nat) (s : State) : (setBounds lo hi s).lzMode = s.lzMode := rfl
@[simp] theorem setBounds_host (lo hi : Nat) (s : State) : (setBounds lo hi s).host = s.host := rfl
@[simp] theorem setBounds_source (lo hi : Nat) (s : State) : (setBounds lo hi s).source = s.source := rfl
@[simp] theorem setBounds_sink (lo hi : Nat) (s : State) : (setBounds lo hi s).sink = s.sink := rfl

@[simp] theorem coderStart_cmd (s : State) : (coderStart s).cmd = s.cmd := rfl
@[simp] theorem coderStart_data (s : State) : (coderStart s).data = s.data := rfl
@[simp] theorem coderStart_r0 (s : State) : (coderStart s).r0 = s.r0 := rfl
@[simp] theorem coderStart_r1 (s : State) : (coderStart s).r1 = s.r1 := rfl
@[simp] theorem coderStart_r2 (s : State) : (coderStart s).r2 = s.r2 := rfl
@[simp] theorem coderStart_r3 (s : State) : (coderStart s).r3 = s.r3 := rfl
@[simp] theorem coderStart_fault (s : State) : (coderStart s).fault = s.fault := rfl
@[simp] theorem coderStart_ended (s : State) : (coderStart s).ended = s.ended := rfl
@[simp] theorem coderStart_fcode (s : State) : (coderStart s).fcode = s.fcode := rfl
@[simp] theorem coderStart_ioSink (s : State) : (coderStart s).ioSink = s.ioSink := rfl
@[simp] theorem coderStart_wOpen (s : State) : (coderStart s).wOpen = s.wOpen := rfl
@[simp] theorem coderStart_wBuf (s : State) : (coderStart s).wBuf = s.wBuf := rfl
@[simp] theorem coderStart_wAcc (s : State) : (coderStart s).wAcc = s.wAcc := rfl
@[simp] theorem coderStart_wNbits (s : State) : (coderStart s).wNbits = s.wNbits := rfl
@[simp] theorem coderStart_rOpen (s : State) : (coderStart s).rOpen = s.rOpen := rfl
@[simp] theorem coderStart_rBuf (s : State) : (coderStart s).rBuf = s.rBuf := rfl
@[simp] theorem coderStart_rBitpos (s : State) : (coderStart s).rBitpos = s.rBitpos := rfl
@[simp] theorem coderStart_rSrcEnd (s : State) : (coderStart s).rSrcEnd = s.rSrcEnd := rfl
@[simp] theorem coderStart_cum (s : State) : (coderStart s).cum = identityRamp := rfl
@[simp] theorem coderStart_frozen (s : State) : (coderStart s).frozen = false := rfl
@[simp] theorem coderStart_low (s : State) : (coderStart s).low = 0 := rfl
@[simp] theorem coderStart_high (s : State) : (coderStart s).high = BitVec.ofNat 17 Config.maxCode := rfl
@[simp] theorem coderStart_value (s : State) : (coderStart s).value = 0 := rfl
@[simp] theorem coderStart_pending (s : State) : (coderStart s).pending = 0 := rfl
@[simp] theorem coderStart_acMode (s : State) : (coderStart s).acMode = s.acMode := rfl
@[simp] theorem coderStart_dict (s : State) : (coderStart s).dict = s.dict := rfl
@[simp] theorem coderStart_maxcode (s : State) : (coderStart s).maxcode = s.maxcode := rfl
@[simp] theorem coderStart_codelen (s : State) : (coderStart s).codelen = s.codelen := rfl
@[simp] theorem coderStart_sCode (s : State) : (coderStart s).sCode = s.sCode := rfl
@[simp] theorem coderStart_prev (s : State) : (coderStart s).prev = s.prev := rfl
@[simp] theorem coderStart_lzMode (s : State) : (coderStart s).lzMode = s.lzMode := rfl
@[simp] theorem coderStart_host (s : State) : (coderStart s).host = s.host := rfl
@[simp] theorem coderStart_source (s : State) : (coderStart s).source = s.source := rfl
@[simp] theorem coderStart_sink (s : State) : (coderStart s).sink = s.sink := rfl

@[simp] theorem insertNext_cmd (t : List Byte) (s : State) : (insertNext t s).cmd = s.cmd := rfl
@[simp] theorem insertNext_data (t : List Byte) (s : State) : (insertNext t s).data = s.data := rfl
@[simp] theorem insertNext_r0 (t : List Byte) (s : State) : (insertNext t s).r0 = s.r0 := rfl
@[simp] theorem insertNext_r1 (t : List Byte) (s : State) : (insertNext t s).r1 = s.r1 := rfl
@[simp] theorem insertNext_r2 (t : List Byte) (s : State) : (insertNext t s).r2 = s.r2 := rfl
@[simp] theorem insertNext_r3 (t : List Byte) (s : State) : (insertNext t s).r3 = s.r3 := rfl
@[simp] theorem insertNext_fault (t : List Byte) (s : State) : (insertNext t s).fault = s.fault := rfl
@[simp] theorem insertNext_ended (t : List Byte) (s : State) : (insertNext t s).ended = s.ended := rfl
@[simp] theorem insertNext_fcode (t : List Byte) (s : State) : (insertNext t s).fcode = s.fcode := rfl
@[simp] theorem insertNext_ioSink (t : List Byte) (s : State) : (insertNext t s).ioSink = s.ioSink := rfl
@[simp] theorem insertNext_wOpen (t : List Byte) (s : State) : (insertNext t s).wOpen = s.wOpen := rfl
@[simp] theorem insertNext_wBuf (t : List Byte) (s : State) : (insertNext t s).wBuf = s.wBuf := rfl
@[simp] theorem insertNext_wAcc (t : List Byte) (s : State) : (insertNext t s).wAcc = s.wAcc := rfl
@[simp] theorem insertNext_wNbits (t : List Byte) (s : State) : (insertNext t s).wNbits = s.wNbits := rfl
@[simp] theorem insertNext_rOpen (t : List Byte) (s : State) : (insertNext t s).rOpen = s.rOpen := rfl
@[simp] theorem insertNext_rBuf (t : List Byte) (s : State) : (insertNext t s).rBuf = s.rBuf := rfl
@[simp] theorem insertNext_rBitpos (t : List Byte) (s : State) : (insertNext t s).rBitpos = s.rBitpos := rfl
@[simp] theorem insertNext_rSrcEnd (t : List Byte) (s : State) : (insertNext t s).rSrcEnd = s.rSrcEnd := rfl
@[simp] theorem insertNext_cum (t : List Byte) (s : State) : (insertNext t s).cum = s.cum := rfl
@[simp] theorem insertNext_frozen (t : List Byte) (s : State) : (insertNext t s).frozen = s.frozen := rfl
@[simp] theorem insertNext_low (t : List Byte) (s : State) : (insertNext t s).low = s.low := rfl
@[simp] theorem insertNext_high (t : List Byte) (s : State) : (insertNext t s).high = s.high := rfl
@[simp] theorem insertNext_value (t : List Byte) (s : State) : (insertNext t s).value = s.value := rfl
@[simp] theorem insertNext_pending (t : List Byte) (s : State) : (insertNext t s).pending = s.pending := rfl
@[simp] theorem insertNext_acMode (t : List Byte) (s : State) : (insertNext t s).acMode = s.acMode := rfl
@[simp] theorem insertNext_maxcode (t : List Byte) (s : State) : (insertNext t s).maxcode = BitVec.ofNat 23 (s.maxcode.toNat + 1) := rfl
@[simp] theorem insertNext_codelen (t : List Byte) (s : State) : (insertNext t s).codelen = s.codelen := rfl
@[simp] theorem insertNext_sCode (t : List Byte) (s : State) : (insertNext t s).sCode = s.sCode := rfl
@[simp] theorem insertNext_prev (t : List Byte) (s : State) : (insertNext t s).prev = s.prev := rfl
@[simp] theorem insertNext_lzMode (t : List Byte) (s : State) : (insertNext t s).lzMode = s.lzMode := rfl
@[simp] theorem insertNext_host (t : List Byte) (s : State) : (insertNext t s).host = s.host := rfl
@[simp] theorem insertNext_source (t : List Byte) (s : State) : (insertNext t s).source = s.source := rfl
@[simp] theorem insertNext_sink (t : List Byte) (s : State) : (insertNext t s).sink = s.sink := rfl

@[simp] theorem dictPut_cmd (c : Nat) (t : List Byte) (s : State) : (dictPut c t s).cmd = s.cmd := rfl
@[simp] theorem dictPut_data (c : Nat) (t : List Byte) (s : State) : (dictPut c t s).data = s.data := rfl
@[simp] theorem dictPut_r0 (c : Nat) (t : List Byte) (s : State) : (dictPut c t s).r0 = s.r0 := rfl
@[simp] theorem dictPut_r1 (c : Nat) (t : List Byte) (s : State) : (dictPut c t s).r1 = s.r1 := rfl
@[simp] theorem dictPut_r2 (c : Nat) (t : List Byte) (s : State) : (dictPut c t s).r2 = s.r2 := rfl
@[simp] theorem dictPut_r3 (c : Nat) (t : List Byte) (s : State) : (dictPut c t s).r3 = s.r3 := rfl
@[simp] theorem dictPut_fault (c : Nat) (t : List Byte) (s : State) : (dictPut c t s).fault = s.fault := rfl
@[simp] theorem dictPut_ended (c : Nat) (t : List Byte) (s : State) : (dictPut c t s).ended = s.ended := rfl
@[simp] theorem dictPut_fcode (c : Nat) (t : List Byte) (s : State) : (dictPut c t s).fcode = s.fcode := rfl
@[simp] theorem dictPut_ioSink (c : Nat) (t : List Byte) (s : State) : (dictPut c t s).ioSink = s.ioSink := rfl
@[simp] theorem dictPut_wOpen (c : Nat) (t : List Byte) (s : State) : (dictPut c t s).wOpen = s.wOpen := rfl
@[simp] theorem dictPut_wBuf (c : Nat) (t : List Byte) (s : State) : (dictPut c t s).wBuf = s.wBuf := rfl
@[simp] theorem dictPut_wAcc (c : Nat) (t : List Byte) (s : State) : (dictPut c t s).wAcc = s.wAcc := rfl
@[simp] theorem dictPut_wNbits (c : Nat) (t : List Byte) (s : State) : (dictPut c t s).wNbits = s.wNbits := rfl
@[simp] theorem dictPut_rOpen (c : Nat) (t : List Byte) (s : State) : (dictPut c t s).rOpen = s.rOpen := rfl
@[simp] theorem dictPut_rBuf (c : Nat) (t : List Byte) (s : State) : (dictPut c t s).rBuf = s.rBuf := rfl
@[simp] theorem dictPut_rBitpos (c : Nat) (t : List Byte) (s : State) : (dictPut c t s).rBitpos = s.rBitpos := rfl
@[simp] theorem dictPut_rSrcEnd (c : Nat) (t : List Byte) (s : State) : (dictPut c t s).rSrcEnd = s.rSrcEnd := rfl
@[simp] theorem dictPut_cum (c : Nat) (t : List Byte) (s : State) : (dictPut c t s).cum = s.cum := rfl
@[simp] theorem dictPut_frozen (c : Nat) (t : List Byte) (s : State) : (dictPut c t s).frozen = s.frozen := rfl
@[simp] theorem dictPut_low (c : Nat) (t : List Byte) (s : State) : (dictPut c t s).low = s.low := rfl
@[simp] theorem dictPut_high (c : Nat) (t : List Byte) (s : State) : (dictPut c t s).high = s.high := rfl
@[simp] theorem dictPut_value (c : Nat) (t : List Byte) (s : State) : (dictPut c t s).value = s.value := rfl
@[simp] theorem dictPut_pending (c : Nat) (t : List Byte) (s : State) : (dictPut c t s).pending = s.pending := rfl
@[simp] theorem dictPut_acMode (c : Nat) (t : List Byte) (s : State) : (dictPut c t s).acMode = s.acMode := rfl
@[simp] theorem dictPut_maxcode (c : Nat) (t : List Byte) (s : State) : (dictPut c t s).maxcode = s.maxcode := rfl
@[simp] theorem dictPut_codelen (c : Nat) (t : List Byte) (s : State) : (dictPut c t s).codelen = s.codelen := rfl
@[simp] theorem dictPut_sCode (c : Nat) (t : List Byte) (s : State) : (dictPut c t s).sCode = s.sCode := rfl
@[simp] theorem dictPut_prev (c : Nat) (t : List Byte) (s : State) : (dictPut c t s).prev = s.prev := rfl
@[simp] theorem dictPut_lzMode (c : Nat) (t : List Byte) (s : State) : (dictPut c t s).lzMode = s.lzMode := rfl
@[simp] theorem dictPut_host (c : Nat) (t : List Byte) (s : State) : (dictPut c t s).host = s.host := rfl
@[simp] theorem dictPut_source (c : Nat) (t : List Byte) (s : State) : (dictPut c t s).source = s.source := rfl
@[simp] theorem dictPut_sink (c : Nat) (t : List Byte) (s : State) : (dictPut c t s).sink = s.sink := rfl

@[simp] theorem extendMatch_cmd (k : Nat) (s : State) : (extendMatch k s).cmd = s.cmd := rfl
@[simp] theorem extendMatch_data (k : Nat) (s : State) : (extendMatch k s).data = s.data := rfl
@[simp] theorem extendMatch_r0 (k : Nat) (s : State) : (extendMatch k s).r0 = 0 := rfl
@[simp] theorem extendMatch_r1 (k : Nat) (s : State) : (extendMatch k s).r1 = s.r1 := rfl
@[simp] theorem extendMatch_r2 (k : Nat) (s : State) : (extendMatch k s).r2 = s.r2 := rfl
@[simp] theorem extendMatch_r3 (k : Nat) (s : State) : (extendMatch k s).r3 = s.r3 := rfl
@[simp] theorem extendMatch_fault (k : Nat) (s : State) : (extendMatch k s).fault = s.fault := rfl
@[simp] theorem extendMatch_ended (k : Nat) (s : State) : (extendMatch k s).ended = s.ended := rfl
@[simp] theorem extendMatch_fcode (k : Nat) (s : State) : (extendMatch k s).fcode = s.fcode := rfl
@[simp] theorem extendMatch_ioSink (k : Nat) (s : State) : (extendMatch k s).ioSink = s.ioSink := rfl
@[simp] theorem extendMatch_wOpen (k : Nat) (s : State) : (extendMatch k s).wOpen = s.wOpen := rfl
@[simp] theorem extendMatch_wBuf (k : Nat) (s : State) : (extendMatch k s).wBuf = s.wBuf := rfl
@[simp] theorem extendMatch_wAcc (k : Nat) (s : State) : (extendMatch k s).wAcc = s.wAcc := rfl
@[simp] theorem extendMatch_wNbits (k : Nat) (s : State) : (extendMatch k s).wNbits = s.wNbits := rfl
@[simp] theorem extendMatch_rOpen (k : Nat) (s : State) : (extendMatch k s).rOpen = s.rOpen := rfl
@[simp] theorem extendMatch_rBuf (k : Nat) (s : State) : (extendMatch k s).rBuf = s.rBuf := rfl
@[simp] theorem extendMatch_rBitpos (k : Nat) (s : State) : (extendMatch k s).rBitpos = s.rBitpos := rfl
@[simp] theorem extendMatch_rSrcEnd (k : Nat) (s : State) : (extendMatch k s).rSrcEnd = s.rSrcEnd := rfl
@[simp] theorem extendMatch_cum (k : Nat) (s : State) : (extendMatch k s).cum = s.cum := rfl
@[simp] theorem extendMatch_frozen (k : Nat) (s : State) : (extendMatch k s).frozen = s.frozen := rfl
@[simp] theorem extendMatch_low (k : Nat) (s : State) : (extendMatch k s).low = s.low := rfl
@[simp] theorem extendMatch_high (k : Nat) (s : State) : (extendMatch k s).high = s.high := rfl
@[simp] theorem extendMatch_value (k : Nat) (s : State) : (extendMatch k s).value = s.value := rfl
@[simp] theorem extendMatch_pending (k : Nat) (s : State) : (extendMatch k s).pending = s.pending := rfl
@[simp] theorem extendMatch_acMode (k : Nat) (s : State) : (extendMatch k s).acMode = s.acMode := rfl
@[simp] theorem extendMatch_dict (k : Nat) (s : State) : (extendMatch k s).dict = s.dict := rfl
@[simp] theorem extendMatch_maxcode (k : Nat) (s : State) : (extendMatch k s).maxcode = s.maxcode := rfl
@[simp] theorem extendMatch_codelen (k : Nat) (s : State) : (extendMatch k s).codelen = s.codelen := rfl
@[simp] theorem extendMatch_sCode (k : Nat) (s : State) : (extendMatch k s).sCode = some (BitVec.ofNat 23 k) := rfl
@[simp] theorem extendMatch_prev (k : Nat) (s : State) : (extendMatch k s).prev = s.prev := rfl
@[simp] theorem extendMatch_lzMode (k : Nat) (s : State) : (extendMatch k s).lzMode = s.lzMode := rfl
@[simp] theorem extendMatch_host (k : Nat) (s : State) : (extendMatch k s).host = s.host := rfl
@[simp] theorem extendMatch_source (k : Nat) (s : State) : (extendMatch k s).source = s.source := rfl
@[simp] theorem extendMatch_sink (k : Nat) (s : State) : (extendMatch k s).sink = s.sink := rfl

@[simp] theorem endLzwDecode_cmd (s : State) : (endLzwDecode s).cmd = s.cmd := rfl
@[simp] theorem endLzwDecode_data (s : State) : (endLzwDecode s).data = s.data := rfl
@[simp] theorem endLzwDecode_r0 (s : State) : (endLzwDecode s).r0 = 0 := rfl
@[simp] theorem endLzwDecode_r1 (s : State) : (endLzwDecode s).r1 = s.r1 := rfl
@[simp] theorem endLzwDecode_r2 (s : State) : (endLzwDecode s).r2 = s.r2 := rfl
@[simp] theorem endLzwDecode_r3 (s : State) : (endLzwDecode s).r3 = s.r3 := rfl
@[simp] theorem endLzwDecode_fault (s : State) : (endLzwDecode s).fault = s.fault := rfl
@[simp] theorem endLzwDecode_ended (s : State) : (endLzwDecode s).ended = true := rfl
@[simp] theorem endLzwDecode_fcode (s : State) : (endLzwDecode s).fcode = endOfStreamCode := rfl
@[simp] theorem endLzwDecode_ioSink (s : State) : (endLzwDecode s).ioSink = s.ioSink := rfl
@[simp] theorem endLzwDecode_wOpen (s : State) : (endLzwDecode s).wOpen = s.wOpen := rfl
@[simp] theorem endLzwDecode_wBuf (s : State) : (endLzwDecode s).wBuf = s.wBuf := rfl
@[simp] theorem endLzwDecode_wAcc (s : State) : (endLzwDecode s).wAcc = s.wAcc := rfl
@[simp] theorem endLzwDecode_wNbits (s : State) : (endLzwDecode s).wNbits = s.wNbits := rfl
@[simp] theorem endLzwDecode_rOpen (s : State) : (endLzwDecode s).rOpen = s.rOpen := rfl
@[simp] theorem endLzwDecode_rBuf (s : State) : (endLzwDecode s).rBuf = s.rBuf := rfl
@[simp] theorem endLzwDecode_rBitpos (s : State) : (endLzwDecode s).rBitpos = s.rBitpos := rfl
@[simp] theorem endLzwDecode_rSrcEnd (s : State) : (endLzwDecode s).rSrcEnd = s.rSrcEnd := rfl
@[simp] theorem endLzwDecode_cum (s : State) : (endLzwDecode s).cum = s.cum := rfl
@[simp] theorem endLzwDecode_frozen (s : State) : (endLzwDecode s).frozen = s.frozen := rfl
@[simp] theorem endLzwDecode_low (s : State) : (endLzwDecode s).low = s.low := rfl
@[simp] theorem endLzwDecode_high (s : State) : (endLzwDecode s).high = s.high := rfl
@[simp] theorem endLzwDecode_value (s : State) : (endLzwDecode s).value = s.value := rfl
@[simp] theorem endLzwDecode_pending (s : State) : (endLzwDecode s).pending = s.pending := rfl
@[simp] theorem endLzwDecode_acMode (s : State) : (endLzwDecode s).acMode = s.acMode := rfl
@[simp] theorem endLzwDecode_dict (s : State) : (endLzwDecode s).dict = s.dict := rfl
@[simp] theorem endLzwDecode_maxcode (s : State) : (endLzwDecode s).maxcode = s.maxcode := rfl
@[simp] theorem endLzwDecode_codelen (s : State) : (endLzwDecode s).codelen = s.codelen := rfl
@[simp] theorem endLzwDecode_sCode (s : State) : (endLzwDecode s).sCode = s.sCode := rfl
@[simp] theorem endLzwDecode_prev (s : State) : (endLzwDecode s).prev = s.prev := rfl
@[simp] theorem endLzwDecode_lzMode (s : State) : (endLzwDecode s).lzMode = .idle := rfl
@[simp] theorem endLzwDecode_host (s : State) : (endLzwDecode s).host = s.host := rfl
@[simp] theorem endLzwDecode_source (s : State) : (endLzwDecode s).source = s.source := rfl
@[simp] theorem endLzwDecode_sink (s : State) : (endLzwDecode s).sink = s.sink := rfl

end Sys2Proof.Machine
end

