-- ==== Sys2Proof/Laws/Results.lean ====
section
/-!
SUPPORT. How steps chain and commands end: one rule for `andThen`, one for `dispatchCommand`, so that later proofs reason about
what each step can do and unfold neither.
-/
namespace Sys2Proof.Machine

/-- The step `r` is never stuck; going on it meets `P`, and ended by a fault it meets `R`. -/
def Ends {α : Type} (r : Res α) (P : α → State → Prop) (R : State → Prop) : Prop :=
  match r with
  | .ok a s => P a s
  | .raised s => R s
  | .stuck _ => False

@[simp] theorem ends_ok {α : Type} (a : α) (s : State) (P : α → State → Prop) (R : State → Prop) :
    Ends (.ok a s) P R ↔ P a s := Iff.rfl

@[simp] theorem ends_raised {α : Type} (s : State) (P : α → State → Prop) (R : State → Prop) :
    Ends (.raised s) P R ↔ R s := Iff.rfl

@[simp] theorem ends_stuck {α : Type} (f : Fault) (P : α → State → Prop) (R : State → Prop) :
    ¬ Ends (.stuck f) P R := id

@[simp] theorem ends_raiseFault {α : Type} (k : FaultKind) (s : State) (P : α → State → Prop) (R : State → Prop) :
    Ends (raiseFault k s) P R ↔ R (recordFault k s) := Iff.rfl

theorem Ends.mono {α : Type} {r : Res α} {P P' : α → State → Prop} {R R' : State → Prop} (h : Ends r P R)
    (hP : ∀ a s, P a s → P' a s) (hR : ∀ s, R s → R' s) : Ends r P' R' := by
  cases r with
  | ok a s => exact hP a s h
  | raised s => exact hR s h
  | stuck f => exact h.elim

theorem Ends.and {α : Type} {r : Res α} {P P' : α → State → Prop} {R R' : State → Prop} (h : Ends r P R)
    (h' : Ends r P' R') : Ends r (fun a s => P a s ∧ P' a s) (fun s => R s ∧ R' s) := by
  cases r with
  | ok a s => exact ⟨h, h'⟩
  | raised s => exact ⟨h, h'⟩
  | stuck f => exact h.elim

@[simp] theorem andThen_ok {α β : Type} (a : α) (s : State) (f : α → State → Res β) : andThen (.ok a s) f = f a s := rfl

@[simp] theorem andThen_raised {α β : Type} (s : State) (f : α → State → Res β) :
    andThen (.raised s) f = .raised s := rfl

@[simp] theorem andThen_stuck {α β : Type} (e : Fault) (f : α → State → Res β) :
    andThen (.stuck e) f = .stuck e := rfl

@[simp] theorem andThen_raiseFault {α β : Type} (k : FaultKind) (s : State) (f : α → State → Res β) :
    andThen (raiseFault k s) f = raiseFault k s := rfl

theorem andThen_assoc {α β γ : Type} (r : Res α) (f : α → State → Res β) (g : β → State → Res γ) :
    andThen (andThen r f) g = andThen r fun a s => andThen (f a s) g := by
  cases r <;> rfl

/-- What a chain of two steps can do: the second step starts where the first went on to. -/
theorem Ends.andThen {α β : Type} {r : Res α} {f : α → State → Res β} {P : α → State → Prop} {Q : β → State → Prop}
    {R : State → Prop} (h : Ends r P R) (hf : ∀ a s, P a s → Ends (f a s) Q R) : Ends (andThen r f) Q R := by
  cases r with
  | ok a s => exact hf a s h
  | raised s => exact h
  | stuck e => exact h.elim

/-- A chain goes on to `b` and `t` exactly when both its steps go on. -/
theorem andThen_eq_ok {α β : Type} {r : Res α} {f : α → State → Res β} {b : β} {t : State} :
    andThen r f = .ok b t ↔ ∃ a u, r = .ok a u ∧ f a u = .ok b t := by
  cases r <;> simp [Machine.andThen]

theorem outcomeOf_eq_next {r : Res Unit} {t : State} : outcomeOf r = .next t ↔ r = .ok () t ∨ r = .raised t := by
  cases r <;> simp [outcomeOf]

/-- A step that is never stuck ends its command in a next state. -/
theorem Ends.outcome {r : Res Unit} {P : Unit → State → Prop} {R : State → Prop} (h : Ends r P R) :
    ∃ t, outcomeOf r = .next t ∧ (P () t ∨ R t) := by
  cases r with
  | ok a s => exact ⟨s, rfl, .inl h⟩
  | raised s => exact ⟨s, rfl, .inr h⟩
  | stuck f => exact h.elim

/-- What a step ended in, read from what it can do. -/
theorem Ends.of_outcome {r : Res Unit} {P : Unit → State → Prop} {R : State → Prop} (h : Ends r P R) {t : State}
    (ht : outcomeOf r = .next t) : P () t ∨ R t := by
  obtain ⟨u, hu, hPR⟩ := h.outcome
  rw [hu] at ht
  cases ht
  exact hPR

/-- With no fault recorded, clearing END and FCODE is all an accepted command does before its checks (44_control.md rule R260). -/
theorem clearConditions_of_not_fault {s : State} (h : s.fault = false) :
    clearConditions s = { s with ended := false, fcode := 0 } := by
  simp [clearConditions, h]

/-- With a fault recorded, an accepted command clears nothing (10_state.md rule R25). -/
theorem clearConditions_of_fault {s : State} (h : s.fault = true) : clearConditions s = s := by
  cases s
  simp_all [clearConditions]

/-- The four ways a command that decodes is handled (44_control.md rule R260): refused, BadState, BadOperand, or performed. -/
theorem dispatchCommand_cases (e b o : Bool) (body : State → Res Unit) (s : State) :
    (s.fault = true ∧ e = false ∧ dispatchCommand e b o body s = .next s) ∨
    ((s.fault = false ∨ e = true) ∧ b = true ∧
      dispatchCommand e b o body s = .next (recordFault .badState (clearConditions s))) ∨
    ((s.fault = false ∨ e = true) ∧ b = false ∧ o = true ∧
      dispatchCommand e b o body s = .next (recordFault .badOperand (clearConditions s))) ∨
    ((s.fault = false ∨ e = true) ∧ b = false ∧ o = false ∧
      dispatchCommand e b o body s = outcomeOf (body (clearConditions s))) := by
  cases hf : s.fault <;> cases e <;> cases b <;> cases o <;> simp [dispatchCommand, hf, outcomeOf, raiseFault]

/-- A command whose checks pass while no fault is recorded runs its pseudocode. -/
theorem dispatchCommand_performs {e : Bool} {body : State → Res Unit} {s : State} (h : s.fault = false) :
    dispatchCommand e false false body s = outcomeOf (body { s with ended := false, fcode := 0 }) := by
  simp [dispatchCommand, h, clearConditions]

end Sys2Proof.Machine
end

