-- ==== Sys2Proof/Laws/WriteSide.lean ====
section
/-!
SUPPORT. The write side of the Bit Channel: what SinkWrite, PutBit, PutBits, the follow bits and the bytes of a string can do,
each once, with the frame and with the bits they add to the stream (40_bit_channel.md rules R101 to R106, R113).
-/
namespace Sys2Proof.Machine

/-! ### Bits of bytes and values -/

@[simp] theorem bitsOfBytes_nil : bitsOfBytes [] = [] := rfl

@[simp] theorem bitsOfBytes_append (a b : List Byte) : bitsOfBytes (a ++ b) = bitsOfBytes a ++ bitsOfBytes b := by
  simp [bitsOfBytes]

@[simp] theorem bitsOfBytes_singleton (b : Byte) : bitsOfBytes [b] = bitsOfByte b := by
  simp [bitsOfBytes]

@[simp] theorem length_bitsOfByte (b : Byte) : (bitsOfByte b).length = 8 := by simp [bitsOfByte]

@[simp] theorem length_bitsOfBytes (bs : List Byte) : (bitsOfBytes bs).length = 8 * bs.length := by
  induction bs with
  | nil => rfl
  | cons b bs ih => simp [bitsOfBytes] at ih ⊢; omega

@[simp] theorem length_bitsOfValue (v n : Nat) : (bitsOfValue v n).length = n := by simp [bitsOfValue]

@[simp] theorem bitsOfValue_zero (v : Nat) : bitsOfValue v 0 = [] := rfl

/-- A field of n + 1 bits is its top bit, then its low n bits. -/
theorem bitsOfValue_succ (v n : Nat) : bitsOfValue v (n + 1) = v.testBit n :: bitsOfValue v n := by
  simp only [bitsOfValue, List.range_succ_eq_map, List.map_cons, List.map_map]
  congr 1
  refine List.map_congr_left fun j _ => ?_
  simp only [Function.comp]
  congr 1
  omega

/-- One more bit of the boundary byte: the valid bits grow by that bit, and the low bits stay 0. -/
theorem accWithBit_bits : ∀ (acc : Byte) (n : Fin 8) (b : Bool), acc.toNat % 2 ^ (8 - n.val) = 0 →
    (bitsOfByte (BitVec.ofNat 8 (acc.toNat + b.toNat * 2 ^ (7 - n.val)))).take (n.val + 1)
      = (bitsOfByte acc).take n.val ++ [b] ∧
    (BitVec.ofNat 8 (acc.toNat + b.toNat * 2 ^ (7 - n.val))).toNat % 2 ^ (7 - n.val) = 0 := by
  decide +kernel

/-! ### What an operation of the write side can do -/

/-- `t` differs from `s` in the write buffer and the sink alone. -/
def WriteFrame (s t : State) : Prop :=
  t = { s with wBuf := t.wBuf, wAcc := t.wAcc, wNbits := t.wNbits, sink := t.sink }

theorem WriteFrame.refl (s : State) : WriteFrame s s := rfl

theorem WriteFrame.trans {s t u : State} (h : WriteFrame s t) (h' : WriteFrame t u) : WriteFrame s u := by
  unfold WriteFrame at *
  rw [h', h]

/-- `t` is `s` after the sink failed in the middle of a write (60_exceptions.md rule R272; 40_bit_channel.md rule R105). -/
def SinkFailure (s t : State) : Prop := ∃ u, WriteFrame s u ∧ t = recordFault .ioFailureSink u

theorem SinkFailure.of_frame {s t u : State} (h : WriteFrame s t) (h' : SinkFailure t u) : SinkFailure s u := by
  obtain ⟨v, hv, rfl⟩ := h'
  exact ⟨v, h.trans hv, rfl⟩

theorem WriteSideOk.bufOk {s : State} (h : WriteSideOk s) : WriteBufOk s := ⟨h.1, h.2.1⟩

/-- Of the sink's coming answers a write uses up some. -/
theorem Appended.draws {s t : State} {bits : List Bool} (h : Appended s bits t) :
    ∃ k, t.sink.draws = s.sink.draws.drop k := by
  obtain ⟨ls, -, -, h⟩ := h.calls
  exact ⟨ls.length, h⟩

/-- `t` is `s` with `bits` written, and nothing else changed. -/
structure Wrote (s : State) (bits : List Bool) (t : State) : Prop extends Appended s bits t where
  frame : WriteFrame s t

theorem Appended.refl {s : State} (h : WriteBufOk s) : Appended s [] s := ⟨h, by simp, ⟨[], by simp⟩⟩

/-- Fields outside the write side and the sink do not matter to what was written. -/
theorem Appended.congr {s t u : State} {bits : List Bool} (h : Appended s bits t) (h1 : u.wBuf = t.wBuf) (h2 : u.wAcc = t.wAcc)
    (h3 : u.wNbits = t.wNbits) (h4 : u.sink = t.sink) : Appended s bits u := by
  obtain ⟨⟨ha, hb⟩, hw, hc⟩ := h
  refine ⟨⟨by rw [h2, h3]; exact ha, by rw [h1]; exact hb⟩, ?_, by rw [h4]; exact hc⟩
  rw [← hw, writtenBits, writtenBits, heldBits, heldBits, h1, h2, h3, h4]

theorem Appended.trans {s t u : State} {a b : List Bool} (h : Appended s a t) (h' : Appended t b u) :
    Appended s (a ++ b) u := by
  obtain ⟨ls, hls, hl, hd⟩ := h.calls
  obtain ⟨ls', hls', hl', hd'⟩ := h'.calls
  refine ⟨h'.bufOk, by rw [h'.written, h.written, List.append_assoc],
    ⟨ls ++ ls', by rw [hls', hls, List.append_assoc], ?_, by rw [hd', hd, List.drop_drop, List.length_append]⟩⟩
  intro l hmem
  rcases List.mem_append.mp hmem with hm | hm
  · exact hl l hm
  · exact hl' l hm

theorem Wrote.refl {s : State} (h : WriteBufOk s) : Wrote s [] s := ⟨.refl h, .refl s⟩

theorem Wrote.trans {s t u : State} {a b : List Bool} (h : Wrote s a t) (h' : Wrote t b u) : Wrote s (a ++ b) u :=
  ⟨h.toAppended.trans h'.toAppended, h.frame.trans h'.frame⟩

/-- The sink failed after some bits were written from `s`. The buffer is in order, so WCLOSE can still deliver it. -/
structure WriteFailed (s t : State) : Prop where
  failure : SinkFailure s t
  bufOk : WriteBufOk t
  cause : .fail ∈ s.sink.draws

theorem WriteFailed.of_wrote {s t u : State} {a : List Bool} (h : Wrote s a t) (h' : WriteFailed t u) :
    WriteFailed s u := by
  obtain ⟨k, hk⟩ := h.draws
  exact ⟨h'.failure.of_frame h.frame, h'.bufOk, List.mem_of_mem_drop (hk ▸ h'.cause)⟩

/-- SinkWrite(bs) appends its bytes to the output, or fails and appends nothing (20_memory.md rule R71). -/
theorem sinkWrite_cases (bs : List Byte) (s : State) :
    (sinkWrite bs s = (.ok, { s with sink := ⟨s.sink.loads ++ [bs], s.sink.draws.tail⟩ }) ∧
      s.sink.draws.head? ≠ some .fail) ∨
    (sinkWrite bs s = (.fail, { s with sink := ⟨s.sink.loads, s.sink.draws.tail⟩ }) ∧
      s.sink.draws.head? = some .fail) := by
  unfold sinkWrite
  split
  · exact .inr ⟨rfl, ‹_›⟩
  · exact .inl ⟨rfl, ‹_›⟩

/-- Delivering bytes ends with them appended to the output, or with the fault IoFailure(sink) (40_bit_channel.md rules R105,
R106). -/
theorem deliver_spec (bs : List Byte) (s : State) :
    Ends (deliver bs s)
      (fun _ t => t = { s with sink := ⟨s.sink.loads ++ [bs], s.sink.draws.tail⟩ } ∧ s.sink.draws.head? ≠ some .fail)
      (fun t => t = recordFault .ioFailureSink { s with sink := ⟨s.sink.loads, s.sink.draws.tail⟩ } ∧
        s.sink.draws.head? = some .fail) := by
  rcases sinkWrite_cases bs s with ⟨h, hd⟩ | ⟨h, hd⟩
  · simp only [deliver, h]; exact ⟨rfl, hd⟩
  · simp only [deliver, h]; exact ⟨rfl, hd⟩

/-- PutBit changes the write buffer and the sink alone, in every state (40_bit_channel.md rule R101). -/
theorem putBit_frame (b : Bool) (s : State) : Ends (putBit b s) (fun _ t => WriteFrame s t) (SinkFailure s) := by
  unfold putBit
  split
  · rfl
  · dsimp only
    split
    · refine (deliver_spec _ _).mono ?_ ?_
      · rintro _ t ⟨rfl, -⟩; rfl
      · rintro t ⟨rfl, -⟩; exact ⟨_, by rfl, rfl⟩
    · rfl

/-- All that a write of `bits` can do in a state whose write buffer is in order: the sink fails on none of the loads it fills and
the bits are written, or it fails on one and the load is lost (40_bit_channel.md rules R101, R105; 60_exceptions.md rule
R272). -/
def WriteEnds (r : Res Unit) (s : State) (bits : List Bool) : Prop :=
  (¬ SinkFailsOn s bits.length ∧ ∃ t, r = .ok () t ∧ Wrote s bits t) ∨
  (SinkFailsOn s bits.length ∧ ∃ u, r = .raised (recordFault .ioFailureSink u) ∧ WriteFrame s u ∧ LostALoad s bits u)

theorem length_heldBits (s : State) : (heldBits s).length = 8 * s.wBuf.length + s.wNbits.val := by
  simp only [heldBits, List.length_append, length_bitsOfBytes, List.length_take, length_bitsOfByte]
  omega

/-- The loads that a write delivered carry what was held and written and is not held any more. -/
theorem Appended.loads_spec {s t : State} {bits : List Bool} (h : Appended s bits t) :
    ∃ ls, t.sink.loads = s.sink.loads ++ ls ∧ (∀ l ∈ ls, l.length = 131072) ∧ t.sink.draws = s.sink.draws.drop ls.length ∧
      heldBits s ++ bits = bitsOfBytes ls.flatten ++ heldBits t ∧
      8 * s.wBuf.length + s.wNbits.val + bits.length = 1048576 * ls.length + (8 * t.wBuf.length + t.wNbits.val) := by
  obtain ⟨ls, h1, h2, h3⟩ := h.calls
  have hw := h.written
  rw [writtenBits, writtenBits, h1, List.flatten_append, bitsOfBytes_append, List.append_assoc, List.append_assoc,
    List.append_cancel_left_eq] at hw
  have hlen := congrArg List.length hw
  have hflat : ls.flatten.length = 131072 * ls.length := by
    rw [List.length_flatten, List.map_congr_left (g := fun _ => 131072) h2]
    simp [Nat.mul_comm]
  simp only [List.length_append, length_heldBits, length_bitsOfBytes, hflat] at hlen
  exact ⟨ls, h1, h2, h3, hw.symm, by omega⟩

/-- A write fills the loads it delivers, and later bits fill the others. -/
theorem Appended.loadsFilled {s t : State} {bits : List Bool} (h : Appended s bits t) (n : Nat) :
    loadsFilled s (bits.length + n) = (t.sink.loads.length - s.sink.loads.length) + loadsFilled t n := by
  obtain ⟨ls, h1, -, -, -, h5⟩ := h.loads_spec
  unfold Machine.loadsFilled
  rw [h1, List.length_append]
  omega

theorem SinkAnswer.eq_ok_of_ne {d : SinkAnswer} (h : d ≠ .fail) : d = .ok := by cases d <;> simp_all

/-- After a write that went on, the sink fails on later bits exactly when it fails on all of them together. -/
theorem sinkFailsOn_append {s t : State} {bits : List Bool} {n : Nat} (h : Appended s bits t) (hn : ¬ SinkFailsOn s bits.length) :
    SinkFailsOn s (bits.length + n) ↔ SinkFailsOn t n := by
  obtain ⟨ls, h1, -, h3, -, -⟩ := h.loads_spec
  have hl := h.loadsFilled n
  have h0 := h.loadsFilled 0
  have ht : loadsFilled t 0 = 0 := by
    have := h.bufOk.2
    unfold loadsFilled
    simp only [Config.bufBytes] at this
    have := t.wNbits.isLt
    omega
  rw [h1, List.length_append, Nat.add_sub_cancel_left] at hl h0
  rw [ht, Nat.add_zero, Nat.add_zero] at h0
  unfold SinkFailsOn at *
  rw [h0] at hn
  rw [hl, List.take_add, List.mem_append, ← h3]
  simp [hn]

/-- Losing a load among the first bits of a write loses it for the whole write. -/
theorem LostALoad.append {s t : State} {a : List Bool} (h : LostALoad s a t) (b : List Bool) : LostALoad s (a ++ b) t := by
  obtain ⟨hb, ls, lost, rest, h1, h2⟩ := h
  exact ⟨hb, ls, lost, rest ++ b, by rw [← List.append_assoc, h1, List.append_assoc], h2⟩

/-- Losing a load after a write that went on. -/
theorem LostALoad.of_appended {s t u : State} {a b : List Bool} (h : Appended s a t) (hn : ¬ SinkFailsOn s a.length)
    (h' : LostALoad t b u) : LostALoad s (a ++ b) u := by
  obtain ⟨ls, h1, h2, h3, h4, h5⟩ := h.loads_spec
  obtain ⟨hb, ls', lost, rest, k1, k2, k3, k4, k5⟩ := h'
  refine ⟨hb, ls ++ ls', lost, rest, ?_, ?_, k3, by rw [k4, h1, List.append_assoc], ?_⟩
  · rw [← List.append_assoc, h4, List.append_assoc, k1]
    simp [List.append_assoc]
  · intro l hl
    rcases List.mem_append.mp hl with hl | hl
    · exact h2 l hl
    · exact k2 l hl
  · have hfill : loadsFilled s a.length = ls.length := by
      have := h.bufOk.2
      have := t.wNbits.isLt
      unfold loadsFilled
      simp only [Config.bufBytes] at *
      omega
    have hlen : ls.length ≤ s.sink.draws.length := by
      have := congrArg List.length (h3.symm.trans k5)
      simp only [List.length_drop, List.length_append, List.length_cons] at this
      omega
    have htake : s.sink.draws.take ls.length = List.replicate ls.length .ok := by
      refine List.eq_replicate_iff.mpr ⟨by simp [hlen], fun d hd => SinkAnswer.eq_ok_of_ne fun e => hn ?_⟩
      unfold SinkFailsOn
      rw [hfill]
      exact e ▸ hd
    conv_lhs => rw [← List.take_append_drop ls.length s.sink.draws, ← h3, htake, k5]
    rw [List.length_append, List.replicate_add, List.append_assoc]

/-- The fields outside the write side and the sink do not matter to a lost load. -/
theorem LostALoad.congr {s s' t t' : State} {bits : List Bool} (h : LostALoad s bits t) (h1 : s'.wBuf = s.wBuf)
    (h2 : s'.wAcc = s.wAcc) (h3 : s'.wNbits = s.wNbits) (h4 : s'.sink = s.sink) (k1 : t'.wBuf = t.wBuf)
    (k2 : t'.wAcc = t.wAcc) (k3 : t'.wNbits = t.wNbits) (k4 : t'.sink = t.sink) : LostALoad s' bits t' := by
  obtain ⟨hb, hc⟩ := h
  exact ⟨by rw [k1, k2, k3]; exact hb, by simpa only [heldBits, h1, h2, h3, h4, k4] using hc⟩

/-- Two writes, one after the other, are one write. -/
theorem WriteEnds.seq {r : Res Unit} {f : Unit → State → Res Unit} {s : State} {a b : List Bool} (h : WriteEnds r s a)
    (hf : ∀ t, Wrote s a t → WriteEnds (f () t) t b) : WriteEnds (Machine.andThen r f) s (a ++ b) := by
  rcases h with ⟨hn, t, rfl, ht⟩ | ⟨hf', u, rfl, hu, hl⟩
  · have hiff := sinkFailsOn_append (n := b.length) ht.toAppended hn
    rcases hf t ht with ⟨hn', v, hv, hw⟩ | ⟨hf', v, hv, hw, hl⟩
    · exact .inl ⟨by rw [List.length_append, hiff]; exact hn', v, hv, ht.trans hw⟩
    · exact .inr ⟨by rw [List.length_append, hiff]; exact hf', v, hv, ht.frame.trans hw,
        .of_appended ht.toAppended hn hl⟩
  · refine .inr ⟨?_, u, rfl, hu, hl.append b⟩
    unfold SinkFailsOn loadsFilled at *
    rw [List.length_append]
    exact List.take_subset_take_left _ (Nat.div_le_div_right (by omega)) hf'

/-- What a write does, as a step of a command's pseudocode. -/
theorem WriteEnds.ends {r : Res Unit} {s : State} {bits : List Bool} (h : WriteEnds r s bits) :
    Ends r (fun _ t => Wrote s bits t) (WriteFailed s) := by
  rcases h with ⟨-, t, rfl, ht⟩ | ⟨hf, u, rfl, hu, hl⟩
  · exact ht
  · obtain ⟨h1, h2, h3⟩ := hl.buffer
    refine ⟨⟨u, hu, rfl⟩, ⟨?_, ?_⟩, List.mem_of_mem_take hf⟩
    · simp [h2]
    · simp [h1]

/-- Writing nothing. -/
theorem WriteEnds.nil {s : State} (h : WriteBufOk s) : WriteEnds (.ok () s) s [] := by
  refine .inl ⟨?_, s, rfl, .refl h⟩
  have := h.2
  have := s.wNbits.isLt
  unfold SinkFailsOn loadsFilled
  simp only [Config.bufBytes, List.length_nil] at *
  rw [Nat.div_eq_of_lt (by omega)]
  simp

/-- A write that the sink does not fail on goes on. -/
theorem WriteEnds.wrote {r : Res Unit} {s : State} {bits : List Bool} (h : WriteEnds r s bits)
    (hn : ¬ SinkFailsOn s bits.length) : ∃ t, r = .ok () t ∧ Wrote s bits t := by
  rcases h with ⟨-, h⟩ | ⟨h, -⟩
  · exact h
  · exact absurd h hn

/-- A write that the sink fails on records IoFailure(sink) and loses a load. -/
theorem WriteEnds.lost {r : Res Unit} {s : State} {bits : List Bool} (h : WriteEnds r s bits)
    (hn : SinkFailsOn s bits.length) :
    ∃ u, r = .raised (recordFault .ioFailureSink u) ∧ WriteFrame s u ∧ LostALoad s bits u := by
  rcases h with ⟨h, -⟩ | ⟨-, h⟩
  · exact absurd hn h
  · exact h

/-- PutBit(b) writes the bit b (40_bit_channel.md rule R101). -/
theorem putBit_ends (b : Bool) (s : State) (h : WriteBufOk s) : WriteEnds (putBit b s) s [b] := by
  obtain ⟨hacc, hlen⟩ := h
  obtain ⟨hbits, hlow⟩ := accWithBit_bits s.wAcc s.wNbits b hacc
  unfold putBit
  split
  case isTrue hn =>
    refine .inl ⟨?_, _, rfl, ⟨⟨⟨?_, hlen⟩, ?_, ⟨[], by simp⟩⟩, rfl⟩⟩
    · simp only [Config.bufBytes] at hlen
      unfold SinkFailsOn loadsFilled
      rw [List.length_singleton, Nat.div_eq_of_lt (by omega)]
      simp
    · have : 8 - (s.wNbits.val + 1) = 7 - s.wNbits.val := by omega
      simpa [accWithBit, this] using hlow
    · simp only [writtenBits, heldBits, accWithBit, hbits, List.append_assoc]
  case isFalse hn =>
    have hn7 : s.wNbits.val = 7 := by omega
    have hbyte : bitsOfByte (accWithBit b s) = (bitsOfByte s.wAcc).take s.wNbits.val ++ [b] := by
      rw [accWithBit, ← hbits, hn7, List.take_of_length_le (by simp)]
    dsimp only
    split
    case isTrue hfull =>
      have hfill : loadsFilled s 1 = 1 := by
        simp only [Config.bufBytes, List.length_append, List.length_singleton] at hfull
        unfold loadsFilled
        omega
      have hiff : SinkFailsOn s [b].length ↔ s.sink.draws.head? = some .fail := by
        unfold SinkFailsOn
        rw [List.length_singleton, hfill]
        cases s.sink.draws <;> simp [eq_comm]
      rcases sinkWrite_cases (s.wBuf ++ [accWithBit b s]) { s with wBuf := [], wAcc := 0, wNbits := 0 } with ⟨hw, hd⟩ | ⟨hw, hd⟩
      · refine .inl ⟨by rw [hiff]; exact hd, { s with
            wBuf := [], wAcc := 0, wNbits := 0, sink := ⟨s.sink.loads ++ [s.wBuf ++ [accWithBit b s]], s.sink.draws.tail⟩ },
          ?_, ⟨⟨⟨by simp, by simp⟩, ?_, ⟨[s.wBuf ++ [accWithBit b s]], by simp, by simpa using hfull, by simp⟩⟩, rfl⟩⟩
        · simp only [flushLoad, deliver, hw]
        · simp [writtenBits, heldBits, hbyte]
      · refine .inr ⟨by rw [hiff]; exact hd, { s with
            wBuf := [], wAcc := 0, wNbits := 0, sink := ⟨s.sink.loads, s.sink.draws.tail⟩ }, ?_, rfl,
          ⟨⟨rfl, rfl, rfl⟩, [], s.wBuf ++ [accWithBit b s], [], ?_, by simp, hfull, by simp, ?_⟩⟩
        · simp only [flushLoad, deliver, hw, raiseFault]
        · simp [heldBits, hbyte]
        · cases hs : s.sink.draws with
          | nil => rw [show ({ s with wBuf := [], wAcc := 0, wNbits := 0 } : State).sink.draws = _ from hs] at hd; simp at hd
          | cons d ds =>
            rw [show ({ s with wBuf := [], wAcc := 0, wNbits := 0 } : State).sink.draws = _ from hs] at hd
            simp at hd
            simp [hd]
    case isFalse hnf =>
      have hlt : s.wBuf.length + 1 < 131072 := by
        simp only [Config.bufBytes, List.length_append, List.length_singleton] at hnf hlen
        omega
      refine .inl ⟨?_, _, rfl, ⟨⟨⟨by simp, ?_⟩, ?_, ⟨[], by simp⟩⟩, rfl⟩⟩
      · unfold SinkFailsOn loadsFilled
        rw [List.length_singleton, Nat.div_eq_of_lt (by omega)]
        simp
      · simpa using hlt
      · simp [writtenBits, heldBits, hbyte]

/-- PutBit(b) appends the bit b (40_bit_channel.md rule R101). -/
theorem putBit_spec (b : Bool) (s : State) (h : WriteBufOk s) :
    Ends (putBit b s) (fun _ t => Wrote s [b] t) (WriteFailed s) :=
  (putBit_ends b s h).ends

/-- PutBits(v, n) changes the write buffer and the sink alone, in every state (40_bit_channel.md rule R102). -/
theorem putBits_frame (v n : Nat) (s : State) :
    Ends (putBits v n s) (fun _ t => WriteFrame s t) (SinkFailure s) := by
  induction n generalizing s with
  | zero => rfl
  | succ n ih =>
    refine ((putBit_frame _ s).mono (fun _ _ h => h) (fun _ h => h)).andThen fun _ t ht => ?_
    exact (ih t).mono (fun _ _ h => ht.trans h) (fun _ h => h.of_frame ht)

/-- PutBits(v, n) writes the low n bits of v, MSB first (40_bit_channel.md rule R102). -/
theorem putBits_ends (v n : Nat) (s : State) (h : WriteBufOk s) : WriteEnds (putBits v n s) s (bitsOfValue v n) := by
  induction n generalizing s with
  | zero => exact .nil h
  | succ n ih =>
    rw [bitsOfValue_succ]
    exact (putBit_ends _ s h).seq fun t ht => ih t ht.bufOk

/-- PutBits(v, n) appends the low n bits of v, MSB first (40_bit_channel.md rule R102). -/
theorem putBits_spec (v n : Nat) (s : State) (h : WriteBufOk s) :
    Ends (putBits v n s) (fun _ t => Wrote s (bitsOfValue v n) t) (WriteFailed s) :=
  (putBits_ends v n s h).ends

/-- Writing one bit value several times changes the write buffer and the sink alone (42_arith_coder.md rule R173). -/
theorem putRepeated_frame (b : Bool) (n : Nat) (s : State) :
    Ends (putRepeated b n s) (fun _ t => WriteFrame s t) (SinkFailure s) := by
  induction n generalizing s with
  | zero => rfl
  | succ n ih =>
    refine (putBit_frame b s).andThen fun _ t ht => ?_
    exact (ih t).mono (fun _ _ h => ht.trans h) (fun _ h => h.of_frame ht)

/-- Writing one bit value n times writes n such bits (42_arith_coder.md rule R173). -/
theorem putRepeated_ends (b : Bool) (n : Nat) (s : State) (h : WriteBufOk s) :
    WriteEnds (putRepeated b n s) s (List.replicate n b) := by
  induction n generalizing s with
  | zero => exact .nil h
  | succ n ih => exact (putBit_ends b s h).seq fun t ht => ih t ht.bufOk

/-- Writing one bit value n times appends n such bits (42_arith_coder.md rule R173). -/
theorem putRepeated_spec (b : Bool) (n : Nat) (s : State) (h : WriteBufOk s) :
    Ends (putRepeated b n s) (fun _ t => Wrote s (List.replicate n b) t) (WriteFailed s) :=
  (putRepeated_ends b n s h).ends

/-- Writing a byte string changes the write buffer and the sink alone (43_lzw.md rule R229). -/
theorem putBytes_frame (bs : List Byte) (s : State) :
    Ends (putBytes bs s) (fun _ t => WriteFrame s t) (SinkFailure s) := by
  induction bs generalizing s with
  | nil => rfl
  | cons b bs ih =>
    refine (putBits_frame _ _ s).andThen fun _ t ht => ?_
    exact (ih t).mono (fun _ _ h => ht.trans h) (fun _ h => h.of_frame ht)

/-- The eight bits of a byte's value are the byte's bits in stream order (20_memory.md rule R62). -/
theorem bitsOfValue_toNat (b : Byte) : bitsOfValue b.toNat 8 = bitsOfByte b := by
  simp only [bitsOfValue, bitsOfByte]
  refine List.map_congr_left fun j _ => ?_
  simp [BitVec.getLsbD]

/-- Writing a byte string writes its bits (43_lzw.md rule R229). -/
theorem putBytes_ends (bs : List Byte) (s : State) (h : WriteBufOk s) : WriteEnds (putBytes bs s) s (bitsOfBytes bs) := by
  induction bs generalizing s with
  | nil => exact .nil h
  | cons b bs ih =>
    rw [show bitsOfBytes (b :: bs) = bitsOfValue b.toNat 8 ++ bitsOfBytes bs by rw [bitsOfValue_toNat]; rfl]
    exact (putBits_ends _ _ s h).seq fun t ht => ih t ht.bufOk

/-- Writing a byte string appends its bits (43_lzw.md rule R229). -/
theorem putBytes_spec (bs : List Byte) (s : State) (h : WriteBufOk s) :
    Ends (putBytes bs s) (fun _ t => Wrote s (bitsOfBytes bs) t) (WriteFailed s) :=
  (putBytes_ends bs s h).ends

/-- A sink that answers no call with Fail makes a write go on. -/
theorem Ends.goesOn {α : Type} {r : Res α} {P : α → State → Prop} {s : State} (h : Ends r P (WriteFailed s))
    (hs : SinkNeverFails s) : ∃ a t, r = .ok a t ∧ P a t := by
  cases r with
  | ok a t => exact ⟨a, t, rfl, h⟩
  | raised t => exact absurd (hs _ h.cause) (by simp)
  | stuck f => exact h.elim

theorem Appended.sinkNeverFails {s t : State} {a : List Bool} (h : Appended s a t) (hs : SinkNeverFails s) :
    SinkNeverFails t := by
  obtain ⟨k, hk⟩ := h.draws
  intro d hd
  exact hs d (List.mem_of_mem_drop (hk ▸ hd))

/-- A boundary byte is its valid bits, then zeros (10_state.md rule R28). -/
theorem boundaryByte_bits : ∀ (acc : Byte) (n : Fin 8), acc.toNat % 2 ^ (8 - n.val) = 0 →
    bitsOfByte acc = (bitsOfByte acc).take n.val ++ List.replicate (8 - n.val) false := by
  decide +kernel

/-- What WCLOSE delivers is the bits held, padded with zeros to a whole number of bytes (40_bit_channel.md rule R106; 20_memory.md
rule R73). -/
theorem bitsOfBytes_closingBytes {s : State} (h : WriteBufOk s) :
    bitsOfBytes (closingBytes s) = heldBits s ++ List.replicate ((8 - s.wNbits.val) % 8) false := by
  unfold closingBytes heldBits
  split
  case isTrue h0 => simp [h0]
  case isFalse h0 =>
    rw [bitsOfBytes_append, bitsOfBytes_singleton, boundaryByte_bits s.wAcc s.wNbits h.1,
      Nat.mod_eq_of_lt (by omega)]
    simp

end Sys2Proof.Machine
end

