-- ==== Sys2Proof/Laws/ReadSide.lean ====
section
/-!
SUPPORT. The read side of the Bit Channel: what SourceRead, Refill, GetBits and GetBitOrFill can do, each once, with the frame and
with the bits they take from the stream (40_bit_channel.md rules R107 to R109, R113).
-/
namespace Sys2Proof.Machine

/-- `t` differs from `s` in the read buffer and the source alone. -/
def ReadFrame (s t : State) : Prop :=
  t = { s with rBuf := t.rBuf, rBitpos := t.rBitpos, rSrcEnd := t.rSrcEnd, source := t.source }

theorem ReadFrame.refl (s : State) : ReadFrame s s := rfl

theorem ReadFrame.trans {s t u : State} (h : ReadFrame s t) (h' : ReadFrame t u) : ReadFrame s u := by
  unfold ReadFrame at *
  rw [h', h]

/-- `t` is `s` after the source failed in the middle of a read (60_exceptions.md rule R272). -/
def SourceFailure (s t : State) : Prop := ∃ u, ReadFrame s u ∧ t = recordFault .ioFailureSource u

theorem SourceFailure.of_frame {s t u : State} (h : ReadFrame s t) (h' : SourceFailure t u) : SourceFailure s u := by
  obtain ⟨v, hv, rfl⟩ := h'
  exact ⟨v, h.trans hv, rfl⟩

theorem ReadSideOk.bufOk {s : State} (h : ReadSideOk s) : ReadBufOk s := ⟨h.1, h.2.1⟩

/-- `t` is `s` after reads that took the first `n` unread bits, and nothing else changed. -/
structure ReadOn (s : State) (n : Nat) (t : State) : Prop extends Took s n t where
  frame : ReadFrame s t

theorem Took.refl {s : State} (h : ReadBufOk s) : Took s 0 s := ⟨h, by simp, ⟨0, by simp⟩⟩

theorem Took.trans {s t u : State} {m n : Nat} (h : Took s m t) (h' : Took t n u) : Took s (m + n) u := by
  obtain ⟨k, hk⟩ := h.draws
  obtain ⟨k', hk'⟩ := h'.draws
  exact ⟨h'.bufOk, by rw [h'.unread, h.unread, List.drop_drop], ⟨k + k', by rw [hk', hk, List.drop_drop]⟩⟩

theorem ReadOn.refl {s : State} (h : ReadBufOk s) : ReadOn s 0 s := ⟨.refl h, .refl s⟩

theorem ReadOn.trans {s t u : State} {m n : Nat} (h : ReadOn s m t) (h' : ReadOn t n u) : ReadOn s (m + n) u :=
  ⟨h.toTook.trans h'.toTook, h.frame.trans h'.frame⟩

/-- The source failed in the middle of a read from `s`. -/
structure ReadFailed (s t : State) : Prop where
  failure : SourceFailure s t
  bufOk : ReadBufOk t
  cause : .fail ∈ s.source.draws

theorem ReadFailed.of_readOn {s t u : State} {n : Nat} (h : ReadOn s n t) (h' : ReadFailed t u) : ReadFailed s u := by
  obtain ⟨k, hk⟩ := h.draws
  exact ⟨h'.failure.of_frame h.frame, h'.bufOk, List.mem_of_mem_drop (hk ▸ h'.cause)⟩

theorem Ends.readsOn {α : Type} {r : Res α} {P : α → State → Prop} {s : State} (h : Ends r P (ReadFailed s))
    (hs : SourceNeverFails s) : ∃ a t, r = .ok a t ∧ P a t := by
  cases r with
  | ok a t => exact ⟨a, t, rfl, h⟩
  | raised t => exact absurd rfl (hs _ h.cause)
  | stuck f => exact h.elim

theorem Took.sourceNeverFails {s t : State} {n : Nat} (h : Took s n t) (hs : SourceNeverFails s) :
    SourceNeverFails t := by
  obtain ⟨k, hk⟩ := h.draws
  intro d hd
  exact hs d (List.mem_of_mem_drop (hk ▸ hd))

/-! ### Streams of bytes -/

/-- Dropping bytes drops eight bits for each. -/
theorem bitsOfBytes_drop (k : Nat) (bs : List Byte) : bitsOfBytes (bs.drop k) = (bitsOfBytes bs).drop (8 * k) := by
  induction k generalizing bs with
  | zero => simp
  | succ k ih =>
    cases bs with
    | nil => simp
    | cons b bs =>
      rw [List.drop_succ_cons, ih, show b :: bs = [b] ++ bs from rfl, bitsOfBytes_append, bitsOfBytes_singleton,
        List.drop_append, length_bitsOfByte, List.drop_of_length_le (l := bitsOfByte b) (by simp),
        List.nil_append]
      congr 1

/-- Bit k of a byte string is element k of its bits (20_memory.md rule R62). -/
theorem streamBit_eq (bs : List Byte) (k : Nat) (h : k < 8 * bs.length) :
    streamBit bs k = (bitsOfBytes bs)[k]'(by simpa using h) := by
  have h8 : k / 8 < bs.length := by omega
  have hd : (bitsOfBytes bs).drop (8 * (k / 8)) = bitsOfByte bs[k / 8] ++ bitsOfBytes (bs.drop (k / 8 + 1)) := by
    rw [← bitsOfBytes_drop, List.drop_eq_getElem_cons h8]
    rfl
  have hk : (bitsOfBytes bs)[k]? = (bitsOfByte bs[k / 8])[k % 8]? := by
    have : k = 8 * (k / 8) + k % 8 := by omega
    conv_lhs => rw [this, ← List.getElem?_drop, hd]
    rw [List.getElem?_append_left (by simp; omega)]
  have hm : k % 8 < 8 := Nat.mod_lt _ (by omega)
  have : (bitsOfByte bs[k / 8])[k % 8]? = some (bs[k / 8].getLsbD (7 - k % 8)) := by
    simp [bitsOfByte, hm]
  rw [this] at hk
  rw [List.getElem?_eq_getElem (by simpa using h)] at hk
  have hval := Option.some.inj hk
  rw [hval]
  simp [streamBit, List.getD, List.getElem?_eq_getElem h8]

/-- The bits that GetBits gathers are those of the stream, MSB first (40_bit_channel.md rule R108). -/
theorem bitsAt_eq (bs : List Byte) (n pos v : Nat) (h : pos + n ≤ 8 * bs.length) :
    bitsAt bs n pos v = (((bitsOfBytes bs).drop pos).take n).foldl (fun v b => 2 * v + b.toNat) v := by
  induction n generalizing pos v with
  | zero => simp [bitsAt]
  | succ n ih =>
    have hp : pos < (bitsOfBytes bs).length := by simp; omega
    rw [bitsAt, ih (pos + 1) _ (by omega), List.drop_eq_getElem_cons hp, List.take_succ_cons, List.foldl_cons,
      streamBit_eq bs pos (by simpa using hp)]

/-! ### What an operation of the read side can do -/

/-- A Data answer carries 1 to max bytes (20_memory.md rule R71). -/
theorem dataCount_bounds (draw : Option SourceDraw) {max remaining : Nat} (hm : 1 ≤ max) (hr : 1 ≤ remaining) :
    1 ≤ dataCount draw max remaining ∧ dataCount draw max remaining ≤ max ∧
      dataCount draw max remaining ≤ remaining := by
  unfold dataCount
  split <;> simp only [Nat.max_def, Nat.min_def] <;> split_ifs <;> omega

/-- SourceRead(max) gives 1 to max of the next bytes, or the end when no byte is left, or a failure (20_memory.md rule R71). -/
theorem sourceRead_cases {max : Nat} (hm : 1 ≤ max) (s : State) :
    (∃ bs rest, sourceRead max s = (.data bs, { s with source := ⟨rest, s.source.draws.tail⟩ }) ∧
      s.source.input = bs ++ rest ∧ 1 ≤ bs.length ∧ bs.length ≤ max) ∨
    (sourceRead max s = (.ended, { s with source := ⟨[], s.source.draws.tail⟩ }) ∧ s.source.input = []) ∨
    (sourceRead max s = (.fail, { s with source := ⟨s.source.input, s.source.draws.tail⟩ }) ∧
      s.source.draws.head? = some .fail) := by
  unfold sourceRead
  dsimp only
  split
  · exact .inr (.inr ⟨rfl, ‹_›⟩)
  · split
    · exact .inr (.inl ⟨rfl, ‹_›⟩)
    · have hlen : 1 ≤ s.source.input.length := List.length_pos_iff.mpr ‹_›
      obtain ⟨h1, h2, h3⟩ := dataCount_bounds s.source.draws.head? hm hlen
      exact .inl ⟨_, _, rfl, (List.take_append_drop _ _).symm, by simp; omega, by simp; omega⟩

/-- Refill changes the read buffer and the source alone, in every state (40_bit_channel.md rule R107). -/
theorem refill_frame (s : State) : Ends (refill s) (fun _ t => ReadFrame s t) (SourceFailure s) := by
  unfold refill sourceRead
  dsimp only
  split_ifs
  · exact ⟨_, by rfl, rfl⟩
  · rfl
  · rfl

/-- Refill takes no bit from the stream; it brings at least eight bits into the buffer or finds the source's end (40_bit_channel.md
rule R107). -/
theorem refill_spec (s : State) (h : ReadBufOk s) (ha : availBits s < 32) (he : s.rSrcEnd = false) :
    Ends (refill s) (fun _ t => ReadOn s 0 t ∧ (t.rSrcEnd = true ∨ availBits s + 8 ≤ availBits t)) (ReadFailed s) := by
  obtain ⟨hlen, hpos⟩ := h
  unfold availBits at ha
  have hdrop : (s.rBuf.drop (s.rBitpos / 8)).length = s.rBuf.length - s.rBitpos / 8 := List.length_drop
  have hrest : (bitsOfBytes (s.rBuf.drop (s.rBitpos / 8))).drop (s.rBitpos % 8) = (bitsOfBytes s.rBuf).drop s.rBitpos := by
    rw [bitsOfBytes_drop, List.drop_drop, Nat.div_add_mod]
  have hfit : s.rBitpos % 8 ≤ (bitsOfBytes (s.rBuf.drop (s.rBitpos / 8))).length := by
    rw [length_bitsOfBytes, hdrop]; omega
  unfold refill
  dsimp only
  rcases sourceRead_cases (max := Config.bufBytes - (s.rBuf.drop (s.rBitpos / 8)).length) (by rw [hdrop]; show 1 ≤ 131072 - _; omega)
      { s with rBuf := s.rBuf.drop (s.rBitpos / 8), rBitpos := s.rBitpos % 8 } with
    ⟨bs, rest, hr, hin, h1, h2⟩ | ⟨hr, hin⟩ | ⟨hr, hd⟩
  · rw [hr]
    refine ⟨⟨⟨⟨?_, ?_⟩, ?_, ⟨1, by simp⟩⟩, rfl⟩, .inr ?_⟩
    · simp only [List.length_append]; omega
    · simp only [List.length_append]; omega
    · simp only at hin
      simp only [unreadBits, he, hin, bitsOfBytes_append, List.drop_zero, List.drop_append_of_le_length hfit, hrest,
        Bool.false_eq_true, if_false, List.append_assoc]
    · simp only [availBits, List.length_append]; omega
  · rw [hr]
    refine ⟨⟨⟨⟨?_, ?_⟩, ?_, ⟨1, by simp⟩⟩, rfl⟩, .inl rfl⟩
    · simp only; omega
    · simp only; omega
    · simp only at hin
      simp [unreadBits, he, hin, hrest]
  · rw [hr]
    refine ⟨⟨_, by rfl, rfl⟩, ⟨?_, ?_⟩, List.mem_of_mem_head? hd⟩
    · simp only [recordFault_rBuf]; omega
    · simp only [recordFault_rBuf, recordFault_rBitpos]; omega

/-- The refill loop changes the read buffer and the source alone, in every state (40_bit_channel.md rule R108). -/
theorem refillUntil_frame (n passes : Nat) (s : State) :
    Ends (refillUntil n passes s) (fun _ t => ReadFrame s t) (SourceFailure s) := by
  induction passes generalizing s with
  | zero => rfl
  | succ p ih =>
    unfold refillUntil
    split
    · refine (refill_frame s).andThen fun _ t ht => ?_
      exact (ih t).mono (fun _ _ h => ht.trans h) (fun _ h => h.of_frame ht)
    · rfl

/-- The refill loop takes no bit from the stream and ends with n bits in the buffer or the source's end reached (40_bit_channel.md
rule R108). -/
theorem refillUntil_spec (n passes : Nat) (s : State) (h : ReadBufOk s) (hn : n ≤ 32)
    (hp : n + 8 ≤ availBits s + 8 * passes) :
    Ends (refillUntil n passes s) (fun _ t => ReadOn s 0 t ∧ (n ≤ availBits t ∨ t.rSrcEnd = true)) (ReadFailed s) := by
  induction passes generalizing s with
  | zero => exact ⟨.refl h, .inl (by omega)⟩
  | succ p ih =>
    unfold refillUntil
    split
    case isTrue hc =>
      simp only [Bool.and_eq_true, decide_eq_true_eq, Bool.not_eq_true'] at hc
      refine (refill_spec s h (by omega) hc.2).andThen fun _ t ht => ?_
      obtain ⟨hro, hcase⟩ := ht
      rcases hcase with hend | hmore
      · have : refillUntil n p t = .ok () t := by
          cases p with
          | zero => rfl
          | succ p => simp [refillUntil, hend]
        rw [this]
        exact ⟨hro, .inr hend⟩
      · refine (ih t hro.bufOk (by omega)).mono (fun _ u hu => ⟨?_, hu.2⟩) (fun u hu => hu.of_readOn hro)
        simpa using hro.trans hu.1
    case isFalse hc =>
      simp only [Bool.and_eq_true, decide_eq_true_eq, Bool.not_eq_true', not_and, Bool.not_eq_false] at hc
      refine ⟨.refl h, ?_⟩
      by_cases hlt : availBits s < n
      · exact .inr (hc hlt)
      · exact .inl (by omega)

/-- GetBits changes the read buffer and the source alone, in every state (40_bit_channel.md rule R108). -/
theorem getBits_frame (n : Nat) (s : State) : Ends (getBits n s) (fun _ t => ReadFrame s t) (SourceFailure s) := by
  refine (refillUntil_frame n (n + 1) s).andThen fun _ t ht => ?_
  split
  · exact ht
  · exact ht.trans rfl

/-- What GetBits(n) answers on a stream, and how many bits it takes: all n, or none when fewer are left (40_bit_channel.md rule
R108). -/
def getBitsAnswer (n : Nat) (bits : List Bool) : Option Nat :=
  if n ≤ bits.length then some (valueOfBits (bits.take n)) else none

/-- How many bits GetBits(n) takes from a stream (40_bit_channel.md rule R108). -/
def getBitsTaken (n : Nat) (bits : List Bool) : Nat := if n ≤ bits.length then n else 0

/-- GetBits(n) answers the next n unread bits and takes them, or answers NONE and takes nothing (40_bit_channel.md rule R108). -/
theorem getBits_spec (n : Nat) (s : State) (h : ReadBufOk s) (hn : n ≤ 32) :
    Ends (getBits n s)
      (fun r t => r = getBitsAnswer n (unreadBits s) ∧ ReadOn s (getBitsTaken n (unreadBits s)) t) (ReadFailed s) := by
  refine (refillUntil_spec n (n + 1) s h hn (by omega)).andThen fun _ t ⟨hro, hcase⟩ => ?_
  have hun : unreadBits t = unreadBits s := by simpa using hro.unread
  obtain ⟨hlen, hpos⟩ := hro.bufOk
  have hrest : ((bitsOfBytes t.rBuf).drop t.rBitpos).length = availBits t := by simp [availBits]
  split
  case isTrue hlt =>
    have hend : t.rSrcEnd = true := hcase.resolve_left (by omega)
    have hshort : (unreadBits s).length = availBits t := by rw [← hun, unreadBits, hend]; simp [availBits]
    have : ¬ n ≤ (unreadBits s).length := by omega
    exact ⟨by simp [getBitsAnswer, this], by simpa [getBitsTaken, this] using hro⟩
  case isFalse hge =>
    have havail : n ≤ availBits t := by omega
    have hle : n ≤ (unreadBits s).length := by
      rw [← hun, unreadBits, List.length_append]; omega
    refine ⟨?_, ?_⟩
    · have : (unreadBits s).take n = ((bitsOfBytes t.rBuf).drop t.rBitpos).take n := by
        rw [← hun, unreadBits, List.take_append_of_le_length (by omega)]
      simp only [getBitsAnswer, hle, if_true, this]
      rw [bitsAt_eq _ _ _ _ (by unfold availBits at havail; omega)]
      rfl
    · simp only [getBitsTaken, hle, if_true]
      refine ⟨⟨⟨hlen, ?_⟩, ?_, hro.draws⟩, hro.frame.trans rfl⟩
      · simp only; unfold availBits at havail; omega
      · rw [← hun, unreadBits, unreadBits, List.drop_append_of_le_length (by omega), List.drop_drop]

/-- The bit GetBitOrFill answers on a stream: its first bit, or DEC_TAIL_FILL = 0 (40_bit_channel.md rule R109). -/
def nextOrFill (bits : List Bool) : Nat := (bits.headD false).toNat

/-- GetBitOrFill changes the read buffer and the source alone, in every state (40_bit_channel.md rule R109). -/
theorem getBitOrFill_frame (s : State) : Ends (getBitOrFill s) (fun _ t => ReadFrame s t) (SourceFailure s) :=
  (getBits_frame 1 s).andThen fun _ _ ht => ht

/-- GetBitOrFill answers the next unread bit and takes it, or 0 when none is left (40_bit_channel.md rule R109). -/
theorem getBitOrFill_spec (s : State) (h : ReadBufOk s) :
    Ends (getBitOrFill s) (fun b t => b = nextOrFill (unreadBits s) ∧ ReadOn s 1 t) (ReadFailed s) := by
  refine (getBits_spec 1 s h (by omega)).andThen fun r t ⟨hr, hro⟩ => ?_
  cases hb : unreadBits s with
  | nil =>
    rw [hb] at hr hro
    simp only [getBitsAnswer, getBitsTaken, List.length_nil] at hr hro
    refine ⟨by simp [hr, nextOrFill], ⟨⟨hro.bufOk, ?_, hro.draws⟩, hro.frame⟩⟩
    simpa [hb] using hro.unread
  | cons b bs =>
    rw [hb] at hr hro
    simp only [getBitsAnswer, getBitsTaken, List.length_cons] at hr hro
    refine ⟨?_, by simpa using hro⟩
    cases b <;> simp [hr, nextOrFill, valueOfBits]

/-! ### A source that fails -/

/-- Between `s` and `t` the source answered some calls, none of them with Fail. -/
def Answered (s t : State) : Prop :=
  ∃ k, (∀ d ∈ s.source.draws.take k, d ≠ .fail) ∧ t.source.draws = s.source.draws.drop k

theorem Answered.of_eq {s t : State} (h : t.source = s.source) : Answered s t := ⟨0, by simp, by rw [h]; rfl⟩

theorem Answered.trans {s t u : State} (h : Answered s t) (h' : Answered t u) : Answered s u := by
  obtain ⟨k, h1, h2⟩ := h
  obtain ⟨k', h1', h2'⟩ := h'
  refine ⟨k + k', fun d hd => ?_, by rw [h2', h2, List.drop_drop]⟩
  rw [List.take_add, List.mem_append, ← h2] at hd
  exact hd.elim (h1 d) (h1' d)

theorem LostTheSource.of_took {s t u : State} {m n : Nat} (h : Took s m t) (ha : Answered s t) (h' : LostTheSource t n u) :
    LostTheSource s (m + n) u := by
  obtain ⟨k, h1, h2⟩ := ha
  obtain ⟨k', h1', h2'⟩ := h'.draws
  refine ⟨h'.bufOk, by rw [h'.unread, h.unread, List.drop_drop], h'.srcEnd,
    ⟨k + k', fun d hd => ?_, by rw [← List.drop_drop, ← h2, h2']⟩⟩
  rw [List.take_add, List.mem_append, ← h2] at hd
  exact hd.elim (h1 d) (h1' d)

/-- The fields outside the read side and the source do not matter to a lost source. -/
theorem LostTheSource.congr {s s' t t' : State} {m : Nat} (h : LostTheSource s m t) (h1 : s'.rBuf = s.rBuf)
    (h2 : s'.rBitpos = s.rBitpos) (h3 : s'.rSrcEnd = s.rSrcEnd) (h4 : s'.source = s.source) (k1 : t'.rBuf = t.rBuf)
    (k2 : t'.rBitpos = t.rBitpos) (k3 : t'.rSrcEnd = t.rSrcEnd) (k4 : t'.source = t.source) : LostTheSource s' m t' := by
  obtain ⟨ha, hb, hc, hd⟩ := h
  exact ⟨by unfold ReadBufOk; rw [k1, k2]; exact ha, by simpa only [unreadBits, h1, h2, h3, h4, k1, k2, k3, k4] using hb,
    k3.trans hc, by rw [h4, k4]; exact hd⟩

theorem bitsBeforeFail_eq_some {s : State} {m : Nat} (h : bitsBeforeFail s = some m) :
    s.rSrcEnd = false ∧ ∃ k, bytesBeforeFail s.source.draws s.source.input.length = some k ∧ m = availBits s + 8 * k := by
  unfold bitsBeforeFail at h
  split at h
  · cases h
  · obtain ⟨k, hk, rfl⟩ := Option.map_eq_some_iff.mp h
    exact ⟨by simpa using ‹¬ s.rSrcEnd = true›, k, hk, rfl⟩

theorem bitsBeforeFail_of {s : State} {k : Nat} (he : s.rSrcEnd = false)
    (h : bytesBeforeFail s.source.draws s.source.input.length = some k) : bitsBeforeFail s = some (availBits s + 8 * k) := by
  unfold bitsBeforeFail
  rw [he, h]
  rfl

/-- A source gives no more bytes before it fails than it has. -/
theorem bytesBeforeFail_le : ∀ {draws : List SourceDraw} {n k : Nat}, bytesBeforeFail draws n = some k → k ≤ n
  | [], _, _, h => by cases h
  | .fail :: _, n, k, h => by
    simp only [bytesBeforeFail, Option.some.injEq] at h
    omega
  | .data _ :: _, 0, _, h => by cases h
  | .data c :: draws, n + 1, k, h => by
    rw [bytesBeforeFail] at h
    obtain ⟨k', hk', rfl⟩ := Option.map_eq_some_iff.mp h
    have := bytesBeforeFail_le hk'
    have : Nat.max 1 (Nat.min c (n + 1)) ≤ n + 1 := by simp only [Nat.max_def, Nat.min_def]; split_ifs <;> omega
    omega

/-- The bits that a failing source lets be read are among the unread bits. -/
theorem bitsBeforeFail_le {s : State} {m : Nat} (h : bitsBeforeFail s = some m) : m ≤ (unreadBits s).length := by
  obtain ⟨he, k, hk, rfl⟩ := bitsBeforeFail_eq_some h
  have := bytesBeforeFail_le hk
  simp only [unreadBits, he, List.length_append, List.length_drop, length_bitsOfBytes, availBits, Bool.false_eq_true, if_false]
  omega

/-- A refill before a source that fails is either the one that meets the failure, or brings bytes and leaves the failure as far off
(40_bit_channel.md rule R107). -/
theorem refill_beforeFail {s : State} {m : Nat} (h : ReadBufOk s) (ha : availBits s < 32) (hm : bitsBeforeFail s = some m)
    (hm32 : m < 32) :
    (m = availBits s ∧ ∃ u, refill s = .raised (recordFault .ioFailureSource u) ∧ ReadFrame s u ∧ LostTheSource s 0 u) ∨
    (∃ t, refill s = .ok () t ∧ ReadOn s 0 t ∧ Answered s t ∧ bitsBeforeFail t = some m ∧ availBits s + 8 ≤ availBits t) := by
  obtain ⟨he, k, hk, rfl⟩ := bitsBeforeFail_eq_some hm
  have hspec := refill_spec s h ha he
  obtain ⟨hlen, hpos⟩ := h
  unfold availBits at ha
  have hdrop : (s.rBuf.drop (s.rBitpos / 8)).length = s.rBuf.length - s.rBitpos / 8 := List.length_drop
  cases hds : s.source.draws with
  | nil => rw [hds] at hk; simp [bytesBeforeFail] at hk
  | cons d ds =>
    rw [hds] at hk
    cases d with
    | fail =>
      simp only [bytesBeforeFail, Option.some.injEq] at hk
      subst hk
      refine .inl ⟨rfl, { s with
        rBuf := s.rBuf.drop (s.rBitpos / 8), rBitpos := s.rBitpos % 8, source := ⟨s.source.input, ds⟩ }, ?_, rfl,
        ⟨⟨?_, ?_⟩, ?_, he, ⟨0, by simp, hds⟩⟩⟩
      · simp [refill, sourceRead, hds, raiseFault]
      · show (s.rBuf.drop (s.rBitpos / 8)).length ≤ _
        omega
      · show s.rBitpos % 8 ≤ 8 * (s.rBuf.drop (s.rBitpos / 8)).length
        omega
      · simp only [unreadBits, he, bitsOfBytes_drop, List.drop_drop, Nat.div_add_mod, List.drop_zero]
    | data c =>
      cases hin : s.source.input with
      | nil => rw [hin] at hk; simp [bytesBeforeFail] at hk
      | cons b bs =>
        rw [hin, List.length_cons, bytesBeforeFail] at hk
        obtain ⟨k', hk', rfl⟩ := Option.map_eq_some_iff.mp hk
        generalize hj : Nat.max 1 (Nat.min c (bs.length + 1)) = j at hk' hm32
        have hj1 : 1 ≤ j ∧ j ≤ bs.length + 1 := by
          rw [← hj]; simp only [Nat.max_def, Nat.min_def]; split_ifs <;> omega
        have hcount : dataCount (some (.data c)) (131072 - (s.rBuf.length - s.rBitpos / 8)) (bs.length + 1) = j := by
          unfold availBits at hm32
          rw [← hj]
          rw [← hj] at hm32
          simp only [dataCount, Nat.max_def, Nat.min_def] at *
          split_ifs at * <;> omega
        have href : refill s = .ok () { s with
            rBuf := s.rBuf.drop (s.rBitpos / 8) ++ (b :: bs).take j, rBitpos := s.rBitpos % 8
            source := ⟨(b :: bs).drop j, ds⟩ } := by
          simp only [refill, sourceRead, hds, hin, List.head?_cons, List.tail_cons, List.length_cons, hdrop, Config.bufBytes,
            hcount]
          simp
        rw [href] at hspec
        obtain ⟨hro, -⟩ := hspec
        have htake : ((b :: bs).take j).length = j := by
          rw [List.length_take, List.length_cons]; omega
        refine .inr ⟨_, href, hro, ⟨1, ?_, ?_⟩, ?_, ?_⟩
        · rw [hds]; simp
        · rw [hds]; rfl
        · refine (bitsBeforeFail_of (k := k') (by exact he) ?_).trans ?_
          · show bytesBeforeFail ds ((b :: bs).drop j).length = some k'
            rw [show ((b :: bs).drop j).length = bs.length + 1 - j by simp]
            exact hk'
          congr 1
          simp only [availBits, List.length_append, htake, hdrop]
          omega
        · simp only [availBits, List.length_append, htake, hdrop]
          omega

/-- The refill loop before a source that fails: it meets the failure when a needed bit lies behind it, and else brings the bits
(40_bit_channel.md rule R108). -/
theorem refillUntil_beforeFail {n m : Nat} (passes : Nat) {s : State} (h : ReadBufOk s) (hn : n ≤ 32)
    (hp : n + 8 ≤ availBits s + 8 * passes) (hm : bitsBeforeFail s = some m) (hm32 : m < 32) :
    (m < n ∧ ∃ u, refillUntil n passes s = .raised (recordFault .ioFailureSource u) ∧ ReadFrame s u ∧ LostTheSource s 0 u) ∨
    (n ≤ m ∧ ∃ t, refillUntil n passes s = .ok () t ∧ ReadOn s 0 t ∧ Answered s t ∧ bitsBeforeFail t = some m ∧
      n ≤ availBits t) := by
  induction passes generalizing s with
  | zero =>
    obtain ⟨-, k, -, rfl⟩ := bitsBeforeFail_eq_some hm
    exact .inr ⟨by omega, s, rfl, .refl h, .of_eq rfl, hm, by omega⟩
  | succ p ih =>
    obtain ⟨he, k, -, hk⟩ := bitsBeforeFail_eq_some hm
    unfold refillUntil
    by_cases hlt : availBits s < n
    · rw [if_pos (by simp [hlt, he])]
      rcases refill_beforeFail h (by omega) hm hm32 with ⟨hma, u, hu, h1, h2⟩ | ⟨t, ht, h1, h2, h3, h4⟩
      · exact .inl ⟨by omega, u, by rw [hu]; rfl, h1, h2⟩
      · rcases ih h1.bufOk (by omega) h3 with ⟨hmn, u, hu, k1, k2⟩ | ⟨hmn, u, hu, k1, k2, k3⟩
        · exact .inl ⟨hmn, u, by rw [ht]; exact hu, h1.frame.trans k1, by simpa using k2.of_took h1.toTook h2⟩
        · exact .inr ⟨hmn, u, by rw [ht]; exact hu, by simpa using h1.trans k1, h2.trans k2, k3⟩
    · rw [if_neg (by simp [hlt])]
      exact .inr ⟨by omega, s, rfl, .refl h, .of_eq rfl, hm, by omega⟩

/-- GetBits(n) when a bit it needs lies behind a failure of the source: IoFailure(source), and no bit is taken
(40_bit_channel.md rules R107, R108). -/
theorem getBits_beforeFail {n m : Nat} {s : State} (h : ReadBufOk s) (hn : n ≤ 32) (hm : bitsBeforeFail s = some m)
    (hmn : m < n) :
    ∃ u, getBits n s = .raised (recordFault .ioFailureSource u) ∧ ReadFrame s u ∧ LostTheSource s 0 u := by
  rcases refillUntil_beforeFail (n + 1) h hn (by omega) hm (by omega) with ⟨-, u, hu, h1⟩ | ⟨h', -⟩
  · exact ⟨u, by rw [getBits, hu]; rfl, h1⟩
  · omega

/-- GetBitOrFill before a source that fails: the failure is met, or the next bit is taken and the failure is one bit nearer
(40_bit_channel.md rule R109). -/
theorem getBitOrFill_beforeFail {m : Nat} {s : State} (h : ReadBufOk s) (hm : bitsBeforeFail s = some m) (hm32 : m < 32) :
    (m = 0 ∧ ∃ u, getBitOrFill s = .raised (recordFault .ioFailureSource u) ∧ ReadFrame s u ∧ LostTheSource s 0 u) ∨
    (∃ m' t, m = m' + 1 ∧ getBitOrFill s = .ok (nextOrFill (unreadBits s)) t ∧ ReadOn s 1 t ∧ Answered s t ∧
      bitsBeforeFail t = some m') := by
  have hspec := getBitOrFill_spec s h
  rcases refillUntil_beforeFail (n := 1) 2 h (by omega) (by omega) hm hm32 with ⟨hm0, u, hu, h1⟩ | ⟨hm1, u, hu, h1, h2, h3, h4⟩
  · exact .inl ⟨by omega, u, by simp only [getBitOrFill, getBits, hu]; rfl, h1⟩
  · obtain ⟨he, k, hk, hmk⟩ := bitsBeforeFail_eq_some h3
    have hval : ∃ b, getBitOrFill s = .ok b { u with rBitpos := u.rBitpos + 1 } :=
      ⟨_, by simp only [getBitOrFill, getBits, hu, andThen_ok, if_neg (Nat.not_lt.mpr h4)]; rfl⟩
    obtain ⟨b, hb⟩ := hval
    rw [hb] at hspec
    obtain ⟨rfl, hro⟩ := hspec
    refine .inr ⟨m - 1, _, by omega, hb, hro, h2.trans (.of_eq rfl), ?_⟩
    refine (bitsBeforeFail_of (k := k) (by exact he) (by exact hk)).trans ?_
    congr 1
    unfold availBits at *
    dsimp only
    omega

/-! ### Values and their bits -/

/-- Bits read after a field do not reach below it: the bit that stood k places up stands k places above the new ones. -/
theorem testBit_readInto (l : List Bool) (v k : Nat) :
    (l.foldl (fun v b => 2 * v + b.toNat) v).testBit (l.length + k) = v.testBit k := by
  induction l generalizing v k with
  | nil => simp
  | cons b l ih =>
    rw [List.foldl_cons, List.length_cons, show l.length + 1 + k = l.length + (k + 1) by omega, ih, Nat.testBit_succ]
    congr 1
    cases b <;> simp
    omega

/-- The low bits of a value read MSB first are the bits read (20_memory.md rule R61). -/
theorem bitsOfValue_readInto (l : List Bool) (v : Nat) :
    bitsOfValue (l.foldl (fun v b => 2 * v + b.toNat) v) l.length = l := by
  induction l generalizing v with
  | nil => rfl
  | cons b l ih =>
    rw [List.length_cons, bitsOfValue_succ, List.foldl_cons, ih]
    congr 1
    rw [show l.length = l.length + 0 from rfl, testBit_readInto, Nat.testBit_zero]
    cases b <;> simp

/-- Writing back n bits that were read writes those bits (20_memory.md rule R61). -/
theorem bitsOfValue_valueOfBits {l : List Bool} {n : Nat} (h : n ≤ l.length) :
    bitsOfValue (valueOfBits (l.take n)) n = l.take n := by
  have := bitsOfValue_readInto (l.take n) 0
  rwa [List.length_take, Nat.min_eq_left h] at this

/-- The value of n bits is below 2^n (40_bit_channel.md rule R110). -/
theorem valueOfBits_lt (l : List Bool) : valueOfBits l < 2 ^ l.length := by
  have key : ∀ (l : List Bool) (v : Nat), l.foldl (fun v b => 2 * v + b.toNat) v < (v + 1) * 2 ^ l.length := by
    intro l
    induction l with
    | nil => intro v; simp
    | cons b l ih =>
      intro v
      rw [List.foldl_cons, List.length_cons, Nat.pow_succ]
      have := ih (2 * v + b.toNat)
      have hb : b.toNat ≤ 1 := by cases b <;> simp
      nlinarith [Nat.pow_pos (n := l.length) (show 0 < 2 by omega)]
  simpa [valueOfBits] using key l 0

end Sys2Proof.Machine
end

