-- ==== Sys2Proof/Laws/Model.lean ====
section
/-!
SUPPORT. The Frequency Model's table: what an update and a search can do (41_freq_model.md rules R141 to R143, R147, R149).
-/
namespace Sys2Proof.Machine

theorem cumAt_congr {s t : State} (h : t.cum = s.cum) (i : Nat) : cumAt t i = cumAt s i := by rw [cumAt, cumAt, h]

theorem ModelOk.congr {s t : State} (h : ModelOk s) (hc : t.cum = s.cum) (hf : t.frozen = s.frozen) : ModelOk t := by
  simpa [ModelOk, cumAt, hc, hf] using h

@[simp] theorem length_identityRamp : identityRamp.length = 258 := by simp [identityRamp]

theorem cumAt_of_ramp {s : State} (h : s.cum = identityRamp) {i : Nat} (hi : i ≤ 257) : cumAt s i = i := by
  have : i < 258 := by omega
  simp [cumAt, h, identityRamp, List.getD, this]

/-- The identity ramp is a model table (41_freq_model.md rule R147). -/
theorem ModelOk.of_ramp {s : State} (h : s.cum = identityRamp) (hf : s.frozen = false) : ModelOk s := by
  refine ⟨by simp [h], cumAt_of_ramp h (by omega), fun i hi => ?_, ?_, ?_⟩
  · rw [cumAt_of_ramp h (by omega), cumAt_of_ramp h (by omega)]; omega
  · rw [cumAt_of_ramp h (by omega)]; decide
  · rw [cumAt_of_ramp h (by omega), hf]; decide

/-- Counts increase with the index. -/
theorem ModelOk.mono {s : State} (h : ModelOk s) {i j : Nat} (hij : i ≤ j) (hj : j ≤ 257) : cumAt s i ≤ cumAt s j := by
  induction j, hij using Nat.le_induction with
  | base => exact le_refl _
  | succ j _ ih => exact (ih (by omega)).trans (h.2.2.1 j (by omega)).le

/-- A symbol's interval is not empty and ends at most at the total (41_freq_model.md rule R149). -/
theorem ModelOk.interval {s : State} (h : ModelOk s) {sym : Nat} (hs : sym ≤ 256) :
    cumAt s sym < cumAt s (sym + 1) ∧ cumAt s (sym + 1) ≤ cumAt s 257 :=
  ⟨h.2.2.1 sym (by omega), h.mono (by omega) (le_refl _)⟩

/-- The total is between 1 and FREQ_CAP. -/
theorem ModelOk.total {s : State} (h : ModelOk s) : 257 ≤ cumAt s 257 ∧ cumAt s 257 ≤ 32767 := by
  refine ⟨?_, h.2.2.2.1⟩
  have key : ∀ i ≤ 257, i ≤ cumAt s i := by
    intro i
    induction i with
    | zero => intro _; omega
    | succ i ih => intro hi; have := ih (by omega); have := h.2.2.1 i (by omega); omega
  exact key 257 (le_refl _)

/-- FreqUpdate changes the table and the frozen flag alone (41_freq_model.md rule R142). -/
theorem freqUpdate_frame (sym : Nat) (s : State) :
    freqUpdate sym s = { s with cum := (freqUpdate sym s).cum, frozen := (freqUpdate sym s).frozen } := by
  unfold freqUpdate
  split <;> rfl

/-- A frozen table does not change (41_freq_model.md rule R142). -/
theorem freqUpdate_of_frozen {sym : Nat} {s : State} (h : s.frozen = true) : freqUpdate sym s = s := by
  simp [freqUpdate, h]

theorem length_freqUpdate (sym : Nat) (s : State) : (freqUpdate sym s).cum.length = s.cum.length := by
  unfold freqUpdate
  split
  · rfl
  · simp; omega

/-- What FreqUpdate(s) does to an entry of a table that is not frozen: up by 1 after the symbol, else unchanged (41_freq_model.md
rule R142). -/
theorem cumAt_freqUpdate {sym : Nat} {s : State} (hf : s.frozen = false) {i : Nat} (hi : i < s.cum.length) :
    cumAt (freqUpdate sym s) i = if sym < i then cumAt s i + 1 else cumAt s i := by
  have hget : ∀ l : List Nat, i < l.length → l.getD i 0 = l[i]?.getD 0 := fun l _ => by simp [List.getD]
  simp only [freqUpdate, hf, Bool.false_eq_true, if_false, cumAt, List.getD_eq_getElem?_getD]
  by_cases h : sym < i
  · have hlen : (s.cum.take (sym + 1)).length = sym + 1 := by simp; omega
    rw [List.getElem?_append_right (by omega), hlen, List.getElem?_map, List.getElem?_drop,
      show sym + 1 + (i - (sym + 1)) = i by omega, List.getElem?_eq_getElem hi]
    simp [h]
  · have hlen : i < (s.cum.take (sym + 1)).length := by simp; omega
    rw [List.getElem?_append_left hlen, List.getElem?_take_of_lt (by omega)]
    simp [h]

/-- The frozen flag after an update of a table that is not frozen (41_freq_model.md rule R142). -/
theorem frozen_freqUpdate {sym : Nat} {s : State} (hf : s.frozen = false) :
    (freqUpdate sym s).frozen = decide (32767 ≤ cumAt (freqUpdate sym s) 257) := by
  simp [freqUpdate, hf, cumAt]

/-- An update keeps a model table one (41_freq_model.md rule R149). -/
theorem ModelOk.freqUpdate {s : State} (h : ModelOk s) {sym : Nat} (hs : sym ≤ 256) : ModelOk (freqUpdate sym s) := by
  cases hf : s.frozen with
  | true => rwa [freqUpdate_of_frozen hf]
  | false =>
    obtain ⟨hlen, h0, hlt, hcap, hfr⟩ := h
    have hlen' : s.cum.length = 258 := hlen
    have hne : cumAt s 257 ≠ 32767 := fun he => by simp [hf] at hfr; exact hfr he
    have hcap' : cumAt s 257 ≤ 32767 := hcap
    have h257 := cumAt_freqUpdate (sym := sym) hf (i := 257) (by omega)
    rw [if_pos (by omega)] at h257
    refine ⟨by rw [length_freqUpdate, hlen], ?_, fun i hi => ?_, ?_, ?_⟩
    · rw [cumAt_freqUpdate hf (by omega), if_neg (by omega), h0]
    · have := hlt i hi
      rw [cumAt_freqUpdate hf (by omega), cumAt_freqUpdate hf (by omega)]
      split_ifs <;> omega
    · rw [h257]; show _ ≤ 32767; omega
    · rw [frozen_freqUpdate hf, h257, decide_eq_true_eq]; show _ ↔ _ = 32767; omega

/-- SymbolSearch(v) answers the least symbol whose cumulative high exceeds v (41_freq_model.md rule R143). -/
theorem symbolSearch_eq_some {v : Nat} {s : State} (hl : s.cum.length = 258) {sym : Nat} :
    symbolSearch v s = some sym ↔ sym ≤ 256 ∧ v < cumAt s (sym + 1) ∧ ∀ j < sym, cumAt s (j + 1) ≤ v := by
  have hlen : ((s.cum.drop 1).take 257).length = 257 := by simp; omega
  have hget : ∀ j (hj : j < ((s.cum.drop 1).take 257).length), ((s.cum.drop 1).take 257)[j] = cumAt s (j + 1) := by
    intro j hj
    have : j + 1 < s.cum.length := by omega
    simp [cumAt, List.getD, List.getElem?_eq_getElem this]
  rw [symbolSearch, List.findIdx?_eq_some_iff_getElem]
  constructor
  · rintro ⟨h, hv, hj⟩
    rw [hget] at hv
    refine ⟨by omega, by simpa using hv, fun j hjs => ?_⟩
    have := hj j hjs
    rw [hget] at this
    simpa using this
  · rintro ⟨h, hv, hj⟩
    refine ⟨by omega, by rw [hget]; simpa using hv, fun j hjs => ?_⟩
    rw [hget]
    simpa using hj j hjs

/-- SymbolSearch(v) finds a symbol exactly when v is below the total, and v lies in that symbol's interval (41_freq_model.md rule
R143). -/
theorem symbolSearch_spec {s : State} (h : ModelOk s) {v : Nat} (hv : v < cumAt s 257) :
    ∃ sym, symbolSearch v s = some sym ∧ sym ≤ 256 ∧ cumAt s sym ≤ v ∧ v < cumAt s (sym + 1) := by
  have hex : ∃ n, v < cumAt s (n + 1) := ⟨256, hv⟩
  classical
  refine ⟨Nat.find hex, ?_⟩
  have hle : Nat.find hex ≤ 256 := Nat.find_min' hex hv
  have hmin : ∀ j < Nat.find hex, cumAt s (j + 1) ≤ v := fun j hj => Nat.not_lt.mp (Nat.find_min hex hj)
  refine ⟨(symbolSearch_eq_some h.1).mpr ⟨hle, Nat.find_spec hex, hmin⟩, hle, ?_, Nat.find_spec hex⟩
  cases hn : Nat.find hex with
  | zero => rw [h.2.1]; omega
  | succ n => exact hmin n (by omega)

/-- SymbolSearch(v) finds no symbol when v is at or above the total (41_freq_model.md rule R143). -/
theorem symbolSearch_none {s : State} (h : ModelOk s) {v : Nat} (hv : cumAt s 257 ≤ v) : symbolSearch v s = none := by
  cases hs : symbolSearch v s with
  | none => rfl
  | some sym =>
    obtain ⟨hle, hlt, -⟩ := (symbolSearch_eq_some h.1).mp hs
    have := (h.interval hle).2
    omega

/-- Look-up and update: R0 to R3 report the interval from before the update (41_freq_model.md rules R144, R145). -/
theorem reportAndUpdate_eq (sym : Nat) (s : State) :
    reportAndUpdate sym s =
      { s with
        r0 := BitVec.ofNat 32 (cumAt s sym), r1 := BitVec.ofNat 32 (cumAt s (sym + 1)),
        r2 := BitVec.ofNat 32 (cumAt s 257), r3 := BitVec.ofNat 32 sym,
        cum := (freqUpdate sym s).cum, frozen := (freqUpdate sym s).frozen } := by
  unfold reportAndUpdate countLookup freqUpdate
  dsimp only
  cases hf : s.frozen <;> simp [hf, setInterval, cumAt]

/-- FreqUpdate counts its symbol once, whatever else its command does (41_freq_model.md rule R142). -/
theorem CountedUp.of_freqUpdate {sym : Nat} {s t : State} (h : ModelOk s) (hc : t.cum = (freqUpdate sym s).cum)
    (hf : t.frozen = (freqUpdate sym s).frozen) : CountedUp sym s t := by
  have hg : ∀ i, cumAt t i = cumAt (freqUpdate sym s) i := fun i => cumAt_congr hc i
  refine ⟨by rw [hc, length_freqUpdate]; exact h.1, fun i hi => ?_, ?_⟩
  · rw [hg]
    cases hfr : s.frozen with
    | true => rw [freqUpdate_of_frozen hfr]; simp
    | false =>
      have := h.1
      rw [cumAt_freqUpdate hfr (by rw [this]; show i < 258; omega)]
      split <;> simp_all
  · rw [hf, hg]
    cases hfr : s.frozen with
    | true => rw [freqUpdate_of_frozen hfr, hfr]; rfl
    | false => rw [frozen_freqUpdate hfr]; rfl

end Sys2Proof.Machine
end

