-- ==== Sys2Proof/Laws/Coder.lean ====
section
/-!
SUPPORT. The Arithmetic Coder's primitives: what Narrow, EmitBit, the two renormalization loops, ScaledValue and the loading of
VALUE can do, each once (42_arith_coder.md rules R172 to R177, R180 to R182).
-/
namespace Sys2Proof.Machine

theorem toNat_ofNat17 {n : Nat} (h : n < 131072) : (BitVec.ofNat 17 n).toNat = n := by
  simp [Nat.mod_eq_of_lt h]

/-! ### Narrow and ScaledValue -/

/-- The arithmetic of Narrow: a symbol's sub-interval is not empty and stays inside the interval (42_arith_coder.md rule R172). -/
theorem narrow_arith {low high lo hi t : Nat} (hle : low ≤ high) (ht : t < high - low + 1) (hlt : lo < hi) (hit : hi ≤ t) :
    low + (high - low + 1) * lo / t ≤ low + (high - low + 1) * hi / t - 1 ∧
    low + (high - low + 1) * hi / t - 1 ≤ high := by
  have hpos : 0 < t := by omega
  generalize hr : high - low + 1 = r at *
  have h1 : r * lo / t + 1 ≤ r * hi / t := by
    rw [Nat.le_div_iff_mul_le hpos, Nat.add_mul]
    have : r * lo / t * t ≤ r * lo := Nat.div_mul_le_self _ _
    have : r * lo + r ≤ r * hi := by rw [← Nat.mul_succ]; exact Nat.mul_le_mul_left r hlt
    omega
  have h2 : r * hi / t ≤ r := by
    apply Nat.div_le_of_le_mul
    rw [Nat.mul_comm t r]
    exact Nat.mul_le_mul_left r hit
  omega

/-- Narrow writes the two quotients of rule R172, with LOW <= HIGH kept and both inside the old interval (42_arith_coder.md rule
R172). -/
theorem narrow_spec {s : State} {lo hi t : Nat} (hle : s.low.toNat ≤ s.high.toNat) (ht : t < codeRange s) (hlt : lo < hi)
    (hit : hi ≤ t) :
    (narrow lo hi t s).low.toNat = s.low.toNat + codeRange s * lo / t ∧
    (narrow lo hi t s).high.toNat = s.low.toNat + codeRange s * hi / t - 1 ∧
    s.low.toNat ≤ (narrow lo hi t s).low.toNat ∧ (narrow lo hi t s).low.toNat ≤ (narrow lo hi t s).high.toNat ∧
    (narrow lo hi t s).high.toNat ≤ s.high.toNat := by
  obtain ⟨h1, h2⟩ := narrow_arith hle ht hlt hit
  rw [show s.high.toNat - s.low.toNat + 1 = codeRange s from rfl] at h1 h2
  have hh := s.high.isLt
  have e1 : (narrow lo hi t s).low.toNat = s.low.toNat + codeRange s * lo / t := by
    rw [narrow, setBounds_low, toNat_ofNat17]
    exact lt_of_le_of_lt (h1.trans h2) hh
  have e2 : (narrow lo hi t s).high.toNat = s.low.toNat + codeRange s * hi / t - 1 := by
    rw [narrow, setBounds_high, toNat_ofNat17]
    exact lt_of_le_of_lt h2 hh
  refine ⟨e1, e2, ?_, ?_, ?_⟩
  · rw [e1]; exact Nat.le_add_right _ _
  · rw [e1, e2]; exact h1
  · rw [e2]; exact h2

/-- Narrow changes LOW and HIGH alone. -/
theorem narrow_frame (lo hi t : Nat) (s : State) :
    narrow lo hi t s = { s with low := (narrow lo hi t s).low, high := (narrow lo hi t s).high } := rfl

/-- ScaledValue is below the total when VALUE lies in the interval (42_arith_coder.md rule R177). -/
theorem scaledValue_lt {s : State} (h1 : s.low.toNat ≤ s.value.toNat) (h2 : s.value.toNat ≤ s.high.toNat)
    (ht : 0 < cumAt s 257) : scaledValue s < cumAt s 257 := by
  unfold scaledValue codeRange
  rw [Nat.div_lt_iff_lt_mul (by omega)]
  have : (s.value.toNat - s.low.toNat + 1) * cumAt s 257 ≤ (s.high.toNat - s.low.toNat + 1) * cumAt s 257 :=
    Nat.mul_le_mul_right _ (by omega)
  have h3 : 1 * cumAt s 257 ≤ (s.value.toNat - s.low.toNat + 1) * cumAt s 257 := Nat.mul_le_mul_right _ (by omega)
  rw [Nat.mul_comm (cumAt s 257)]
  omega

/-- The arithmetic of rule R181, step 2: after Narrow to the interval of the scaled value, VALUE is still inside. -/
theorem value_inside {d r t lo hi v : Nat} (hv : v = ((d + 1) * t - 1) / r) (hr : 0 < r) (ht : 0 < t)
    (hlo : lo ≤ v) (hhi : v < hi) : r * lo / t ≤ d ∧ d + 1 ≤ r * hi / t := by
  have hdt : 0 < (d + 1) * t := Nat.mul_pos (by omega) ht
  constructor
  · have h1 : v * r ≤ (d + 1) * t - 1 := by rw [hv]; exact Nat.div_mul_le_self _ _
    have h2 : lo * r ≤ v * r := Nat.mul_le_mul_right _ hlo
    have h3 : r * lo < (d + 1) * t := by rw [Nat.mul_comm]; omega
    exact Nat.lt_succ_iff.mp ((Nat.div_lt_iff_lt_mul ht).mpr h3)
  · rw [Nat.le_div_iff_mul_le ht]
    have h1 : (d + 1) * t - 1 < (v + 1) * r := by
      have h := Nat.lt_mul_div_succ ((d + 1) * t - 1) hr
      rw [← hv] at h
      rw [Nat.mul_comm (v + 1) r]
      exact h
    have h2 : (v + 1) * r ≤ hi * r := Nat.mul_le_mul_right _ hhi
    rw [Nat.mul_comm r hi]
    omega

/-- After Narrow to the interval of the symbol that SymbolSearch finds for ScaledValue, VALUE is inside LOW..HIGH
(42_arith_coder.md rule R181). -/
theorem narrow_keeps_value {s : State} {lo hi : Nat} (h1 : s.low.toNat ≤ s.value.toNat) (h2 : s.value.toNat ≤ s.high.toNat)
    (ht : cumAt s 257 < codeRange s) (hpos : 0 < cumAt s 257) (hlo : lo ≤ scaledValue s) (hhi : scaledValue s < hi)
    (hit : hi ≤ cumAt s 257) :
    (narrow lo hi (cumAt s 257) s).low.toNat ≤ s.value.toNat ∧ s.value.toNat ≤ (narrow lo hi (cumAt s 257) s).high.toNat := by
  obtain ⟨e1, e2, -⟩ := narrow_spec (by omega) ht (by omega : lo < hi) hit
  obtain ⟨k1, k2⟩ := value_inside (d := s.value.toNat - s.low.toNat) (r := codeRange s) rfl (by unfold codeRange; omega) hpos
    hlo hhi
  rw [e1, e2]
  omega

/-! ### The renormalization cases -/

/-- Bounds that no case applies to are renormalized (42_arith_coder.md rule R182). -/
theorem renormCase_cases (s : State) :
    (renormCase s = .e1 ∧ s.high.toNat < 65536) ∨
    (renormCase s = .e2 ∧ 65536 ≤ s.low.toNat) ∨
    (renormCase s = .e3 ∧ 32768 ≤ s.low.toNat ∧ s.low.toNat < 65536 ∧ 65536 ≤ s.high.toNat ∧ s.high.toNat < 98304) ∨
    (renormCase s = .done ∧ Renormalized s.low.toNat s.high.toNat) := by
  unfold renormCase
  simp only [Config.oneHalf, Config.oneFourth, Config.threeFourths, Renormalized]
  by_cases h1 : s.high.toNat < 65536
  · simp [h1]
  · by_cases h2 : 65536 ≤ s.low.toNat
    · simp [h1, h2]
    · by_cases h3 : 32768 ≤ s.low.toNat ∧ s.high.toNat < 98304
      · simp [h1, h2, h3]; omega
      · simp [h1, h2, h3]; omega

/-- One case takes its offset off both bounds and doubles them; nothing is lost, the order stays, and the range doubles
(42_arith_coder.md rule R174). -/
theorem scaleBounds_spec {s : State} {k : Nat} (hle : s.low.toNat ≤ s.high.toNat) (hk : k ≤ s.low.toNat)
    (hh : s.high.toNat - k < 65536) :
    (scaleBounds k s).low.toNat = 2 * (s.low.toNat - k) ∧ (scaleBounds k s).high.toNat = 2 * (s.high.toNat - k) + 1 ∧
    (scaleBounds k s).low.toNat ≤ (scaleBounds k s).high.toNat ∧
    codeRange (scaleBounds k s) = 2 * codeRange s := by
  have e1 : (scaleBounds k s).low.toNat = 2 * (s.low.toNat - k) := by
    rw [scaleBounds, setBounds_low, toNat_ofNat17]; omega
  have e2 : (scaleBounds k s).high.toNat = 2 * (s.high.toNat - k) + 1 := by
    rw [scaleBounds, setBounds_high, toNat_ofNat17]; omega
  refine ⟨e1, e2, by omega, ?_⟩
  unfold codeRange
  omega

theorem lowAfter_cons (c : RenormCase) (cs : List RenormCase) (lo : Nat) :
    lowAfter (c :: cs) lo = lowAfter cs (2 * (lo - caseOffset c)) := by
  rw [lowAfter, List.foldl_cons, ← lowAfter]

theorem highAfter_cons (c : RenormCase) (cs : List RenormCase) (hi : Nat) :
    highAfter (c :: cs) hi = highAfter cs (2 * (hi - caseOffset c) + 1) := by
  rw [highAfter, List.foldl_cons, ← highAfter]

theorem caseOffset_e1 : caseOffset .e1 = 0 := by decide
theorem caseOffset_e2 : caseOffset .e2 = 65536 := by decide
theorem caseOffset_e3 : caseOffset .e3 = 32768 := by decide

theorem renormCases_done {n lo hi : Nat} (h : Renormalized lo hi) : renormCases n lo hi = [] := by
  cases n with
  | zero => rfl
  | succ n =>
    unfold Renormalized at h
    simp only [Config.oneHalf, Config.oneFourth, Config.threeFourths] at h
    unfold renormCases
    rw [if_neg (by omega), if_neg (by omega), if_neg (by omega)]

/-! ### EmitBit -/

/-- `t` differs from `s` in PENDING, the write buffer and the sink alone. -/
def EmitFrame (s t : State) : Prop :=
  t = { s with pending := t.pending, wBuf := t.wBuf, wAcc := t.wAcc, wNbits := t.wNbits, sink := t.sink }

/-- EmitBit changes PENDING, the write buffer and the sink alone, in every state (42_arith_coder.md rule R173). -/
theorem emitBit_frame (b : Bool) (s : State) :
    Ends (emitBit b s) (fun _ t => EmitFrame s t ∧ t.pending = 0) (SinkFailure s) := by
  refine (putBit_frame b s).andThen fun _ t ht => ?_
  refine ((putRepeated_frame _ _ t).mono (fun _ _ h => h) (fun _ h => h.of_frame ht)).andThen fun _ u hu => ?_
  have := ht.trans hu
  unfold WriteFrame at this
  exact ⟨by unfold EmitFrame; rw [this], rfl⟩

/-- EmitBit(b) is one write, of b and its complement PENDING times, and then nothing is pending (42_arith_coder.md rule R173). -/
theorem emitBit_eq (b : Bool) (s : State) (h : WriteBufOk s) :
    ∃ r, emitBit b s = andThen r (fun _ t => .ok () { t with pending := 0 }) ∧
      WriteEnds r s (b :: List.replicate s.pending.toNat (!b)) :=
  ⟨andThen (putBit b s) fun _ t => putRepeated (!b) t.pending.toNat t, by rw [andThen_assoc]; rfl,
    (putBit_ends b s h).seq fun t ht => by
      rw [show t.pending = s.pending by rw [ht.frame]]
      exact putRepeated_ends _ _ t ht.bufOk⟩

/-- EmitBit(b) writes b and its complement PENDING times, and leaves nothing pending (42_arith_coder.md rule R173). -/
theorem emitBit_spec (b : Bool) (s : State) (h : WriteBufOk s) :
    Ends (emitBit b s)
      (fun _ t => Appended s (b :: List.replicate s.pending.toNat (!b)) t ∧ EmitFrame s t ∧ t.pending = 0)
      (WriteFailed s) := by
  have key : Ends (emitBit b s) (fun _ t => Appended s (b :: List.replicate s.pending.toNat (!b)) t) (WriteFailed s) := by
    obtain ⟨r, he, hr⟩ := emitBit_eq b s h
    rw [he]
    exact hr.ends.andThen fun _ t ht => ht.toAppended.congr rfl rfl rfl rfl
  exact (key.and (emitBit_frame b s)).mono (fun _ _ h => ⟨h.1, h.2⟩) (fun _ h => h.1)

/-- EmitBit(b) when the sink fails on its bits (42_arith_coder.md rule R173; 40_bit_channel.md rule R105). -/
theorem emitBit_lost (b : Bool) (s : State) (h : WriteBufOk s)
    (hf : SinkFailsOn s (b :: List.replicate s.pending.toNat (!b)).length) :
    ∃ u, emitBit b s = .raised (recordFault .ioFailureSink u) ∧ WriteFrame s u ∧
      LostALoad s (b :: List.replicate s.pending.toNat (!b)) u := by
  obtain ⟨r, he, hr⟩ := emitBit_eq b s h
  obtain ⟨u, hu, h1, h2⟩ := hr.lost hf
  exact ⟨u, by rw [he, hu]; rfl, h1, h2⟩

/-- EmitBit(b) when the sink does not fail on its bits (42_arith_coder.md rule R173). -/
theorem emitBit_wrote (b : Bool) (s : State) (h : WriteBufOk s)
    (hn : ¬ SinkFailsOn s (b :: List.replicate s.pending.toNat (!b)).length) :
    ∃ t, emitBit b s = .ok () t ∧ Appended s (b :: List.replicate s.pending.toNat (!b)) t ∧ EmitFrame s t ∧
      t.pending = 0 := by
  obtain ⟨r, he, hr⟩ := emitBit_eq b s h
  obtain ⟨t, ht, hw⟩ := hr.wrote hn
  have hf := emitBit_frame b s
  rw [he, ht] at hf
  exact ⟨{ t with pending := 0 }, by rw [he, ht]; rfl, hw.toAppended.congr rfl rfl rfl rfl, hf⟩

/-! ### EncRenorm -/

/-- One more pending bit, while the counter has room (42_arith_coder.md rule R174). -/
theorem pending_succ {p : BitVec 32} (h : ¬ p.toNat = Config.pendingMax) : (p + 1).toNat = p.toNat + 1 := by
  have hp := p.isLt
  have : p.toNat ≠ 4294967295 := h
  rw [BitVec.toNat_add, show (1 : BitVec 32).toNat = 1 from rfl, Nat.mod_eq_of_lt]
  omega

/-- `t` differs from `s` in LOW, HIGH, PENDING, the write buffer and the sink alone. -/
def EncFrame (s t : State) : Prop :=
  t = { s with
    low := t.low, high := t.high, pending := t.pending, wBuf := t.wBuf, wAcc := t.wAcc, wNbits := t.wNbits, sink := t.sink }

theorem EncFrame.trans {s t u : State} (h : EncFrame s t) (h' : EncFrame t u) : EncFrame s u := by
  unfold EncFrame at *
  rw [h', h]

theorem EmitFrame.enc {s t : State} (h : EmitFrame s t) (k : Nat) : EncFrame s (scaleBounds k t) := by
  unfold EmitFrame at h
  unfold EncFrame scaleBounds setBounds
  dsimp only
  rw [h]

/-- The coder's write failed part-way: by the sink, or because PENDING with the underflows to come would pass its largest value
(42_arith_coder.md rules R173, R174). -/
def EncFailure (underflows : Nat) (s t : State) : Prop :=
  ∃ u, EncFrame s u ∧ WriteBufOk u ∧
    (t = recordFault .ioFailureSink u ∧ .fail ∈ s.sink.draws ∨
      t = recordFault .pendingOverflow u ∧ Config.pendingMax < s.pending.toNat + underflows)

@[simp] theorem leadingUnderflows_nil : leadingUnderflows [] = 0 := rfl
@[simp] theorem leadingUnderflows_e1 (cs : List RenormCase) : leadingUnderflows (.e1 :: cs) = 0 := rfl
@[simp] theorem leadingUnderflows_e2 (cs : List RenormCase) : leadingUnderflows (.e2 :: cs) = 0 := rfl
@[simp] theorem leadingUnderflows_e3 (cs : List RenormCase) : leadingUnderflows (.e3 :: cs) = leadingUnderflows cs + 1 := rfl

theorem length_renormCases_le (n lo hi : Nat) : (renormCases n lo hi).length ≤ n := by
  induction n generalizing lo hi with
  | zero => simp [renormCases]
  | succ n ih =>
    unfold renormCases
    split_ifs <;> simp only [List.length_cons, List.length_nil] <;> first | exact Nat.succ_le_succ (ih _ _) | omega

theorem leadingUnderflows_le (n lo hi : Nat) : leadingUnderflows (renormCases n lo hi) ≤ n :=
  (List.takeWhile_sublist _).length_le.trans (length_renormCases_le n lo hi)

/-- The write fields of a state in order stay in order when the bounds change. -/
theorem WriteFailed.enc {s t : State} {underflows : Nat} (h : WriteFailed s t) : EncFailure underflows s t := by
  obtain ⟨⟨u, hu, rfl⟩, hb, hc⟩ := h
  refine ⟨u, ?_, hb, .inl ⟨rfl, hc⟩⟩
  unfold WriteFrame at hu
  unfold EncFrame
  rw [hu]

theorem encRenorm_e1 {n : Nat} {s : State} (h : renormCase s = .e1) :
    encRenorm (n + 1) s = andThen (emitBit false s) fun _ t => encRenorm n (scaleBounds 0 t) := by
  simp only [encRenorm, h]

theorem encRenorm_e2 {n : Nat} {s : State} (h : renormCase s = .e2) :
    encRenorm (n + 1) s = andThen (emitBit true s) fun _ t => encRenorm n (scaleBounds 65536 t) := by
  simp only [encRenorm, h]

theorem encRenorm_e3_full {n : Nat} {s : State} (h : renormCase s = .e3) (hp : s.pending.toNat = Config.pendingMax) :
    encRenorm (n + 1) s = raiseFault .pendingOverflow s := by
  simp only [encRenorm, h, if_pos hp]

theorem encRenorm_e3 {n : Nat} {s : State} (h : renormCase s = .e3) (hp : ¬ s.pending.toNat = Config.pendingMax) :
    encRenorm (n + 1) s = encRenorm n (scaleBounds 32768 { s with pending := s.pending + 1 }) := by
  simp only [encRenorm, h, if_neg hp]

theorem encRenorm_done {n : Nat} {s : State} (h : renormCase s = .done) : encRenorm (n + 1) s = .ok () s := by
  simp only [encRenorm, h]

/-- The encoder's loop from LOW <= HIGH ends within its passes: it takes the cases that the bounds give, writes their bits by
bit-plus-follow, and leaves renormalized bounds (42_arith_coder.md rules R173, R174, R182). -/
theorem encRenorm_spec (n : Nat) (s : State) (h : WriteBufOk s) (hle : s.low.toNat ≤ s.high.toNat)
    (hn : 65536 < codeRange s * 2 ^ n) (hn2 : n ≤ 17) :
    Ends (encRenorm (n + 1) s)
      (fun _ t =>
        Appended s (bitPlusFollow (renormCases n s.low.toNat s.high.toNat) s.pending.toNat).1 t ∧ EncFrame s t ∧
        t.low.toNat = lowAfter (renormCases n s.low.toNat s.high.toNat) s.low.toNat ∧
        t.high.toNat = highAfter (renormCases n s.low.toNat s.high.toNat) s.high.toNat ∧
        t.pending.toNat = (bitPlusFollow (renormCases n s.low.toNat s.high.toNat) s.pending.toNat).2 ∧
        t.low.toNat ≤ t.high.toNat ∧ Renormalized t.low.toNat t.high.toNat)
      (EncFailure (leadingUnderflows (renormCases n s.low.toNat s.high.toNat)) s) := by
  induction n generalizing s with
  | zero =>
    rcases renormCase_cases s with ⟨hc, h1⟩ | ⟨hc, h1⟩ | ⟨hc, h1⟩ | ⟨hc, hr⟩
    · unfold codeRange at hn; omega
    · unfold codeRange at hn; have := s.high.isLt; omega
    · unfold codeRange at hn; omega
    · rw [encRenorm_done hc]
      exact ⟨.refl h, rfl, rfl, rfl, rfl, hle, hr⟩
  | succ n ih =>
    -- a case that emits `b`, takes `k` off the bounds, and goes on with the cases of the new bounds
    have step : ∀ (b : Bool) (k : Nat), k ≤ s.low.toNat → s.high.toNat - k < 65536 →
        Ends (andThen (emitBit b s) fun _ t => encRenorm (n + 1) (scaleBounds k t))
          (fun _ t =>
            let cs := renormCases n (2 * (s.low.toNat - k)) (2 * (s.high.toNat - k) + 1)
            Appended s (b :: List.replicate s.pending.toNat (!b) ++ (bitPlusFollow cs 0).1) t ∧ EncFrame s t ∧
            t.low.toNat = lowAfter cs (2 * (s.low.toNat - k)) ∧
            t.high.toNat = highAfter cs (2 * (s.high.toNat - k) + 1) ∧
            t.pending.toNat = (bitPlusFollow cs 0).2 ∧
            t.low.toNat ≤ t.high.toNat ∧ Renormalized t.low.toNat t.high.toNat)
          (EncFailure 0 s) := by
      intro b k hk hh
      refine ((emitBit_spec b s h).mono (fun _ _ h => h) (fun _ h => h.enc)).andThen fun _ t ⟨ha, hf, hp⟩ => ?_
      have hlow : t.low = s.low := by rw [hf]
      have hhigh : t.high = s.high := by rw [hf]
      obtain ⟨e1, e2, e3, e4⟩ := scaleBounds_spec (s := t) (k := k) (by rw [hlow, hhigh]; exact hle)
        (by rw [hlow]; exact hk) (by rw [hhigh]; exact hh)
      have hr : codeRange t = codeRange s := by rw [codeRange, hlow, hhigh, codeRange]
      have hp0 : (scaleBounds k t).pending.toNat = 0 := by
        rw [scaleBounds, setBounds_pending, hp]; rfl
      have hi := ih (scaleBounds k t) ha.bufOk e3 (by
        rw [e4, hr, Nat.mul_comm 2, Nat.mul_assoc, Nat.mul_comm 2, ← Nat.pow_succ]; exact hn) (by omega)
      rw [e1, e2, hlow, hhigh, hp0] at hi
      refine hi.mono (fun _ u hu => ⟨?_, (hf.enc k).trans hu.2.1, hu.2.2⟩) fun u hu => ?_
      · have ha' : Appended s (b :: List.replicate s.pending.toNat (!b)) (scaleBounds k t) :=
          ⟨ha.bufOk, ha.written, ha.calls⟩
        exact ha'.trans hu.1
      · obtain ⟨w, hw, hb, hcase⟩ := hu
        refine ⟨w, (hf.enc k).trans hw, hb, ?_⟩
        rcases hcase with ⟨rfl, hd⟩ | ⟨rfl, hd⟩
        · obtain ⟨j, hj⟩ := ha.draws
          exact .inl ⟨rfl, List.mem_of_mem_drop (hj ▸ hd)⟩
        · rw [hp0, Nat.zero_add] at hd
          have h17 : Config.pendingMax < n := hd.trans_le (leadingUnderflows_le n _ _)
          exact absurd (h17.trans_le ((Nat.le_succ n).trans hn2)) (by decide)
    -- a case that leaves a bit pending, takes `k` off the bounds, and goes on with the cases of the new bounds
    have step3 : ∀ k u, u = scaleBounds k { s with pending := s.pending + 1 } → k ≤ s.low.toNat →
        s.high.toNat - k < 65536 → (s.pending + 1).toNat = s.pending.toNat + 1 →
        Ends (encRenorm (n + 1) u)
          (fun _ t =>
            let cs := renormCases n (2 * (s.low.toNat - k)) (2 * (s.high.toNat - k) + 1)
            Appended s (bitPlusFollow cs (s.pending.toNat + 1)).1 t ∧ EncFrame s t ∧
            t.low.toNat = lowAfter cs (2 * (s.low.toNat - k)) ∧
            t.high.toNat = highAfter cs (2 * (s.high.toNat - k) + 1) ∧
            t.pending.toNat = (bitPlusFollow cs (s.pending.toNat + 1)).2 ∧
            t.low.toNat ≤ t.high.toNat ∧ Renormalized t.low.toNat t.high.toNat)
          (EncFailure (leadingUnderflows (renormCases n (2 * (s.low.toNat - k)) (2 * (s.high.toNat - k) + 1)) + 1) s) := by
      intro k u hu hk hh hp
      obtain ⟨e1, e2, e3, e4⟩ := scaleBounds_spec (s := { s with pending := s.pending + 1 }) (k := k) hle hk hh
      have hpn : (scaleBounds k { s with pending := s.pending + 1 }).pending.toNat = s.pending.toNat + 1 := hp
      have hf : EncFrame s (scaleBounds k { s with pending := s.pending + 1 }) := rfl
      have ha : Appended s [] (scaleBounds k { s with pending := s.pending + 1 }) :=
        (Appended.refl h).congr rfl rfl rfl rfl
      rw [← hu] at e1 e2 e3 e4 hpn hf ha
      have hi := ih u ha.bufOk e3 (by
        rw [e4, Nat.mul_comm 2, Nat.mul_assoc, Nat.mul_comm 2, ← Nat.pow_succ]; exact hn) (by omega)
      rw [e1, e2, hpn] at hi
      refine hi.mono (fun _ v hv => ⟨ha.trans hv.1, hf.trans hv.2.1, hv.2.2⟩) fun v hv => ?_
      obtain ⟨w, hw, hb, hcase⟩ := hv
      refine ⟨w, hf.trans hw, hb, ?_⟩
      rcases hcase with ⟨rfl, hd⟩ | ⟨rfl, hd⟩
      · obtain ⟨j, hj⟩ := ha.draws
        exact .inl ⟨rfl, List.mem_of_mem_drop (hj ▸ hd)⟩
      · rw [hpn] at hd
        exact .inr ⟨rfl, lt_of_lt_of_le hd (le_of_eq (by rw [Nat.add_assoc, Nat.add_comm 1]))⟩
    rcases renormCase_cases s with ⟨hc, h1⟩ | ⟨hc, h1⟩ | ⟨hc, h1, h2, h3, h4⟩ | ⟨hc, hr⟩
    · have hrc : renormCases (n + 1) s.low.toNat s.high.toNat
          = .e1 :: renormCases n (2 * (s.low.toNat - 0)) (2 * (s.high.toNat - 0) + 1) := by
        rw [renormCases, if_pos h1, Nat.sub_zero, Nat.sub_zero]
      rw [hrc]
      rw [encRenorm_e1 hc]
      simp only [lowAfter_cons, highAfter_cons, caseOffset_e1, bitPlusFollow, leadingUnderflows_e1]
      exact step false 0 (Nat.zero_le _) (by rw [Nat.sub_zero]; exact h1)
    · have hrc : renormCases (n + 1) s.low.toNat s.high.toNat
          = .e2 :: renormCases n (2 * (s.low.toNat - 65536)) (2 * (s.high.toNat - 65536) + 1) := by
        rw [renormCases, if_neg (by omega), if_pos h1]
      have hk : s.high.toNat - 65536 < 65536 := by have := s.high.isLt; omega
      rw [hrc]
      rw [encRenorm_e2 hc]
      simp only [lowAfter_cons, highAfter_cons, caseOffset_e2, bitPlusFollow, leadingUnderflows_e2]
      exact step true 65536 h1 hk
    · have hrc : renormCases (n + 1) s.low.toNat s.high.toNat
          = .e3 :: renormCases n (2 * (s.low.toNat - 32768)) (2 * (s.high.toNat - 32768) + 1) := by
        clear hn
        rw [renormCases, if_neg (by omega), if_neg (by omega), if_pos ⟨h1, h4⟩]
      rw [hrc]
      by_cases hroom : s.pending.toNat = Config.pendingMax
      · rw [encRenorm_e3_full hc hroom]
        exact ⟨s, rfl, h, .inr ⟨rfl, by rw [hroom]; exact Nat.lt_add_of_pos_right (Nat.succ_pos _)⟩⟩
      · have hk : s.high.toNat - 32768 < 65536 := by clear hroom hn; omega
        rw [encRenorm_e3 hc hroom]
        simp only [lowAfter_cons, highAfter_cons, caseOffset_e3, bitPlusFollow, leadingUnderflows_e3]
        generalize hu : scaleBounds 32768 { s with pending := s.pending + 1 } = u
        exact step3 _ u hu.symm h1 hk (pending_succ hroom)
    · rw [encRenorm_done hc, renormCases_done hr]
      exact ⟨.refl h, rfl, rfl, rfl, rfl, hle, hr⟩

/-- The cases that renormalization takes from bounds in each case (42_arith_coder.md rule R174). -/
theorem renormCases_of_case (n : Nat) (s : State) (hle : s.low.toNat ≤ s.high.toNat) :
    (renormCase s = .e1 ∧ renormCases (n + 1) s.low.toNat s.high.toNat
      = .e1 :: renormCases n (2 * (s.low.toNat - 0)) (2 * (s.high.toNat - 0) + 1) ∧ s.high.toNat - 0 < 65536) ∨
    (renormCase s = .e2 ∧ renormCases (n + 1) s.low.toNat s.high.toNat
      = .e2 :: renormCases n (2 * (s.low.toNat - 65536)) (2 * (s.high.toNat - 65536) + 1) ∧ 65536 ≤ s.low.toNat ∧
      s.high.toNat - 65536 < 65536) ∨
    (renormCase s = .e3 ∧ renormCases (n + 1) s.low.toNat s.high.toNat
      = .e3 :: renormCases n (2 * (s.low.toNat - 32768)) (2 * (s.high.toNat - 32768) + 1) ∧ 32768 ≤ s.low.toNat ∧
      s.high.toNat - 32768 < 65536) ∨
    (renormCase s = .done ∧ renormCases (n + 1) s.low.toNat s.high.toNat = []) := by
  have hh := s.high.isLt
  rcases renormCase_cases s with ⟨hc, h1⟩ | ⟨hc, h1⟩ | ⟨hc, h1, h2, h3, h4⟩ | ⟨hc, hr⟩
  · exact .inl ⟨hc, by rw [renormCases, if_pos h1, Nat.sub_zero, Nat.sub_zero], by rw [Nat.sub_zero]; exact h1⟩
  · exact .inr (.inl ⟨hc, by rw [renormCases, if_neg (by omega), if_pos h1], h1, by omega⟩)
  · exact .inr (.inr (.inl ⟨hc, by rw [renormCases, if_neg (by omega), if_neg (by omega), if_pos ⟨h1, h4⟩], h1, by omega⟩))
  · exact .inr (.inr (.inr ⟨hc, renormCases_done hr⟩))

theorem scaleBounds_with (k : Nat) (s : State) (p q : BitVec 32) (lo hi : BitVec 17) :
    { scaleBounds k { s with pending := p } with low := lo, high := hi, pending := q } =
      { s with low := lo, high := hi, pending := q } := rfl

theorem pending_le (p : BitVec 32) : p.toNat ≤ Config.pendingMax := by
  have := p.isLt
  simp only [Config.pendingMax]
  omega

theorem pending_full {p : BitVec 32} (h : p.toNat = Config.pendingMax) : p = 4294967295#32 := by
  apply BitVec.eq_of_toNat_eq
  rw [h]
  decide

/-- The encoder's loop when its leading underflows would take PENDING past its largest value: the ones that fit are taken, and the
next records PendingOverflow (42_arith_coder.md rule R174). -/
theorem encRenorm_overflow (n : Nat) (s : State) (hle : s.low.toNat ≤ s.high.toNat)
    (hp : Config.pendingMax < s.pending.toNat + leadingUnderflows (renormCases n s.low.toNat s.high.toNat)) :
    encRenorm (n + 1) s = .raised (recordFault .pendingOverflow { s with
      low := BitVec.ofNat 17 (lowAfter (List.replicate (Config.pendingMax - s.pending.toNat) .e3) s.low.toNat)
      high := BitVec.ofNat 17 (highAfter (List.replicate (Config.pendingMax - s.pending.toNat) .e3) s.high.toNat)
      pending := 4294967295#32 }) := by
  have hlt : s.pending.toNat ≤ Config.pendingMax := pending_le _
  have none : ∀ cs, leadingUnderflows cs = 0 → ¬ Config.pendingMax < s.pending.toNat + leadingUnderflows cs := fun cs h => by
    rw [h, Nat.add_zero]; exact Nat.not_lt.mpr hlt
  induction n generalizing s with
  | zero => exact absurd hp (none _ rfl)
  | succ n ih =>
    rcases renormCases_of_case n s hle with ⟨hc, he, -⟩ | ⟨hc, he, -⟩ | ⟨hc, he, h1, h2⟩ | ⟨hc, he⟩
    · exact absurd hp (by rw [he]; exact none _ rfl)
    · exact absurd hp (by rw [he]; exact none _ rfl)
    · by_cases hroom : s.pending.toNat = Config.pendingMax
      · rw [encRenorm_e3_full hc hroom, hroom, Nat.sub_self]
        have e := pending_full hroom
        simp only [List.replicate_zero, lowAfter, highAfter, List.foldl_nil, BitVec.ofNat_toNat, BitVec.setWidth_eq, ← e,
          raiseFault]
      · have hp1 := pending_succ hroom
        obtain ⟨e1, e2, e3, -⟩ := scaleBounds_spec (s := { s with pending := s.pending + 1 }) (k := 32768) hle h1 h2
        have ep : (scaleBounds 32768 { s with pending := s.pending + 1 }).pending.toNat = s.pending.toNat + 1 := hp1
        rw [he, leadingUnderflows_e3] at hp
        have hlt' : (scaleBounds 32768 { s with pending := s.pending + 1 }).pending.toNat ≤ Config.pendingMax :=
          pending_le _
        have hi := ih (scaleBounds 32768 { s with pending := s.pending + 1 }) e3 (by
          rw [e1, e2, ep]
          exact hp.trans_le (le_of_eq (by rw [Nat.add_assoc, Nat.add_comm 1]))) hlt' (fun cs h => by
            rw [h, Nat.add_zero]; exact Nat.not_lt.mpr hlt')
        have hk : Config.pendingMax - s.pending.toNat = (Config.pendingMax - (s.pending.toNat + 1)) + 1 := by
          have : s.pending.toNat < Config.pendingMax := lt_of_le_of_ne hlt hroom
          revert this
          generalize Config.pendingMax = m
          omega
        rw [encRenorm_e3 hc hroom, hi, e1, e2, ep, hk, List.replicate_succ, lowAfter_cons, highAfter_cons, caseOffset_e3,
          scaleBounds_with]
    · exact absurd hp (by rw [he]; exact none _ rfl)

/-- The encoder's loop when the sink fails on the bits it writes: IoFailure(sink) is recorded and a load is lost
(42_arith_coder.md rules R173, R174; 40_bit_channel.md rule R105). -/
theorem encRenorm_lost (n : Nat) (s : State) (h : WriteBufOk s) (hle : s.low.toNat ≤ s.high.toNat) (hn2 : n ≤ 17)
    (hp : s.pending.toNat + leadingUnderflows (renormCases n s.low.toNat s.high.toNat) ≤ Config.pendingMax)
    (hf : SinkFailsOn s (bitPlusFollow (renormCases n s.low.toNat s.high.toNat) s.pending.toNat).1.length) :
    ∃ u, encRenorm (n + 1) s = .raised (recordFault .ioFailureSink u) ∧ EncFrame s u ∧
      LostALoad s (bitPlusFollow (renormCases n s.low.toNat s.high.toNat) s.pending.toNat).1 u := by
  have nothing : ∀ s : State, WriteBufOk s → ¬ SinkFailsOn s ([] : List Bool).length := fun s h => by
    rcases WriteEnds.nil h with ⟨hn, -⟩ | ⟨-, u, hu, -⟩
    · exact hn
    · cases hu
  induction n generalizing s with
  | zero => exact absurd hf (nothing s h)
  | succ n ih =>
    -- a case that emits `b`, takes `k` off the bounds, and goes on with the cases `cs` of the new bounds
    have step : ∀ (b : Bool) (k : Nat) (cs : List RenormCase), k ≤ s.low.toNat → s.high.toNat - k < 65536 →
        cs = renormCases n (2 * (s.low.toNat - k)) (2 * (s.high.toNat - k) + 1) →
        SinkFailsOn s (b :: List.replicate s.pending.toNat (!b) ++ (bitPlusFollow cs 0).1).length →
        ∃ u, (andThen (emitBit b s) fun _ t => encRenorm (n + 1) (scaleBounds k t)) = .raised (recordFault .ioFailureSink u) ∧
          EncFrame s u ∧ LostALoad s (b :: List.replicate s.pending.toNat (!b) ++ (bitPlusFollow cs 0).1) u := by
      intro b k cs hk hh hcs hfail
      by_cases hfirst : SinkFailsOn s (b :: List.replicate s.pending.toNat (!b)).length
      · obtain ⟨u, hu, hfr, hl⟩ := emitBit_lost b s h hfirst
        refine ⟨u, by rw [hu]; rfl, ?_, hl.append _⟩
        unfold WriteFrame at hfr
        unfold EncFrame
        rw [hfr]
      · obtain ⟨t, ht, ha, hfr, hz⟩ := emitBit_wrote b s h hfirst
        have hlow : t.low = s.low := by rw [hfr]
        have hhigh : t.high = s.high := by rw [hfr]
        obtain ⟨e1, e2, e3, -⟩ := scaleBounds_spec (s := t) (k := k) (by rw [hlow, hhigh]; exact hle)
          (by rw [hlow]; exact hk) (by rw [hhigh]; exact hh)
        have hz' : (scaleBounds k t).pending.toNat = 0 := by rw [scaleBounds, setBounds_pending, hz]; rfl
        have ha' : Appended s (b :: List.replicate s.pending.toNat (!b)) (scaleBounds k t) := ha.congr rfl rfl rfl rfl
        rw [List.length_append, sinkFailsOn_append ha' hfirst] at hfail
        obtain ⟨u, hu, hfu, hl⟩ := ih (scaleBounds k t) ha'.bufOk e3 ((Nat.le_succ n).trans hn2) (by
            rw [hz', Nat.zero_add]
            exact (leadingUnderflows_le n _ _).trans (((Nat.le_succ n).trans hn2).trans (by decide)))
          (by rw [e1, e2, hz', hlow, hhigh, ← hcs]; exact hfail)
        rw [e1, e2, hz', hlow, hhigh, ← hcs] at hl
        exact ⟨u, by rw [ht]; exact hu, (hfr.enc k).trans hfu, hl.of_appended ha' hfirst⟩
    rcases renormCases_of_case n s hle with ⟨hc, he, h2⟩ | ⟨hc, he, h1, h2⟩ | ⟨hc, he, h1, h2⟩ | ⟨hc, he⟩
    · rw [he] at hf ⊢
      rw [encRenorm_e1 hc]
      exact step false 0 _ (Nat.zero_le _) h2 rfl hf
    · rw [he] at hf ⊢
      rw [encRenorm_e2 hc]
      exact step true 65536 _ h1 h2 rfl hf
    · rw [he] at hf hp ⊢
      rw [leadingUnderflows_e3] at hp
      have hroom : ¬ s.pending.toNat = Config.pendingMax := fun e => by
        rw [e] at hp
        exact absurd hp (Nat.not_le.mpr (Nat.lt_add_of_pos_right (Nat.succ_pos _)))
      obtain ⟨e1, e2, e3, -⟩ := scaleBounds_spec (s := { s with pending := s.pending + 1 }) (k := 32768) hle h1 h2
      have ep : (scaleBounds 32768 { s with pending := s.pending + 1 }).pending.toNat = s.pending.toNat + 1 :=
        pending_succ hroom
      have hfr1 : ∀ k, EncFrame s (scaleBounds k { s with pending := s.pending + 1 }) := fun _ => rfl
      have hfr := hfr1 32768
      have ha : ∀ k, Appended s [] (scaleBounds k { s with pending := s.pending + 1 }) := fun k =>
        (Appended.refl h).congr rfl rfl rfl rfl
      have hb := (ha 32768).bufOk
      have hl1 : ∀ k bits u, LostALoad (scaleBounds k { s with pending := s.pending + 1 }) bits u → LostALoad s bits u :=
        fun _ _ _ h => h.congr rfl rfl rfl rfl rfl rfl rfl rfl
      have hl0 := hl1 32768
      have hf0 : ∀ k, SinkFailsOn (scaleBounds 32768 { s with pending := s.pending + 1 }) k = SinkFailsOn s k := fun _ => by
        unfold SinkFailsOn loadsFilled
        rw [scaleBounds, setBounds_wBuf, setBounds_wNbits, setBounds_sink]
      rw [encRenorm_e3 hc hroom]
      simp only [bitPlusFollow] at hf ⊢
      generalize scaleBounds 32768 { s with pending := s.pending + 1 } = v at *
      obtain ⟨u, hu, hfu, hl⟩ := ih v hb e3 ((Nat.le_succ n).trans hn2)
        (by rw [e1, e2, ep]; exact le_of_eq_of_le (by rw [Nat.add_assoc, Nat.add_comm 1]) hp)
        (by rw [e1, e2, ep, hf0]; exact hf)
      rw [e1, e2, ep] at hl
      exact ⟨u, hu, hfr.trans hfu, hl0 _ _ hl⟩
    · rw [he] at hf
      exact absurd hf (nothing s h)

/-! ### DecRenorm and the loading of VALUE -/

/-- `t` differs from `s` in LOW, HIGH, VALUE, the read buffer and the source alone. -/
def DecFrame (s t : State) : Prop :=
  t = { s with
    low := t.low, high := t.high, value := t.value, rBuf := t.rBuf, rBitpos := t.rBitpos, rSrcEnd := t.rSrcEnd,
    source := t.source }

theorem DecFrame.trans {s t u : State} (h : DecFrame s t) (h' : DecFrame t u) : DecFrame s u := by
  unfold DecFrame at *
  rw [h', h]

theorem ReadFrame.dec {s t : State} (h : ReadFrame s t) : DecFrame s t := by
  unfold ReadFrame at h
  unfold DecFrame
  rw [h]

/-- The coder's read failed part-way (42_arith_coder.md rules R175, R180). -/
def DecFailure (s t : State) : Prop :=
  ∃ u, DecFrame s u ∧ ReadBufOk u ∧ t = recordFault .ioFailureSource u ∧ .fail ∈ s.source.draws

theorem DecFailure.of_took {s t u : State} {n : Nat} (h : DecFrame s t) (ht : Took s n t) (h' : DecFailure t u) :
    DecFailure s u := by
  obtain ⟨v, hv, hb, rfl, hd⟩ := h'
  obtain ⟨k, hk⟩ := ht.draws
  exact ⟨v, h.trans hv, hb, rfl, List.mem_of_mem_drop (hk ▸ hd)⟩

/-- Fields outside the read side and the source do not matter to what was read. -/
theorem Took.congr {s t u : State} {n : Nat} (h : Took s n t) (h1 : u.rBuf = t.rBuf) (h2 : u.rBitpos = t.rBitpos)
    (h3 : u.rSrcEnd = t.rSrcEnd) (h4 : u.source = t.source) : Took s n u := by
  obtain ⟨⟨ha, hb⟩, hw, hd⟩ := h
  refine ⟨⟨by rw [h1]; exact ha, by rw [h1, h2]; exact hb⟩, ?_, by rw [h4]; exact hd⟩
  rw [← hw, unreadBits, unreadBits, h1, h2, h3, h4]

theorem nextOrFill_le (bits : List Bool) : nextOrFill bits ≤ 1 := by
  unfold nextOrFill
  cases bits.headD false <;> decide

/-- One step of the decoder's loop takes `k` off all three registers, doubles the bounds, and shifts the next bit into VALUE
(42_arith_coder.md rule R175). -/
theorem decShift_spec (k : Nat) (s : State) (h : ReadBufOk s) (hle : s.low.toNat ≤ s.value.toNat)
    (hle' : s.value.toNat ≤ s.high.toNat) (hk : k ≤ s.low.toNat) (hh : s.high.toNat - k < 65536) :
    Ends (decShift k s)
      (fun _ t => Took s 1 t ∧ DecFrame s t ∧ t.low.toNat = 2 * (s.low.toNat - k) ∧
        t.high.toNat = 2 * (s.high.toNat - k) + 1 ∧
        t.value.toNat = 2 * (s.value.toNat - k) + nextOrFill (unreadBits s))
      (DecFailure s) := by
  have hvlt := s.value.isLt
  generalize hu : scaleBounds k { s with value := BitVec.ofNat 17 (s.value.toNat - k) } = u
  have hval : u.value.toNat = s.value.toNat - k := by
    rw [← hu, scaleBounds, setBounds_value]
    exact toNat_ofNat17 (by omega)
  obtain ⟨e1, e2, -⟩ := scaleBounds_spec (s := { s with value := BitVec.ofNat 17 (s.value.toNat - k) }) (k := k)
    (hle.trans hle') hk hh
  rw [hu] at e1 e2
  have hf : DecFrame s u := by rw [← hu]; rfl
  have ht : Took s 0 u := by rw [← hu]; exact (Took.refl h).congr rfl rfl rfl rfl
  have hun : unreadBits u = unreadBits s := by simpa using ht.unread
  unfold decShift
  simp only [hu]
  refine ((getBitOrFill_spec u ht.bufOk).mono (fun _ _ h => h) (fun v hv => ?_)).andThen fun b v ⟨hb, hv⟩ => ?_
  · obtain ⟨⟨w, hw, rfl⟩, hbuf, hd⟩ := hv
    exact DecFailure.of_took hf ht ⟨w, hw.dec, hbuf, rfl, hd⟩
  · have hv1 : v.value = u.value := by rw [hv.frame]
    have hv2 : v.low = u.low := by rw [hv.frame]
    have hv3 : v.high = u.high := by rw [hv.frame]
    have hb1 := nextOrFill_le (unreadBits u)
    refine ⟨?_, ?_, ?_, ?_, ?_⟩
    · have := ht.trans hv.toTook
      exact this.congr rfl rfl rfl rfl
    · exact (hf.trans hv.frame.dec).trans rfl
    · show v.low.toNat = _
      rw [hv2, e1]
    · show v.high.toNat = _
      rw [hv3, e2]
    · show (BitVec.ofNat 17 (2 * v.value.toNat + b)).toNat = _
      rw [hv1, hval, hb, hun] at *
      exact toNat_ofNat17 (by omega)

theorem decRenorm_e1 {n : Nat} {s : State} (h : renormCase s = .e1) :
    decRenorm (n + 1) s = andThen (decShift 0 s) fun _ t => decRenorm n t := by
  simp only [decRenorm, h]

theorem decRenorm_e2 {n : Nat} {s : State} (h : renormCase s = .e2) :
    decRenorm (n + 1) s = andThen (decShift 65536 s) fun _ t => decRenorm n t := by
  simp only [decRenorm, h]

theorem decRenorm_e3 {n : Nat} {s : State} (h : renormCase s = .e3) :
    decRenorm (n + 1) s = andThen (decShift 32768 s) fun _ t => decRenorm n t := by
  simp only [decRenorm, h]

theorem decRenorm_done {n : Nat} {s : State} (h : renormCase s = .done) : decRenorm (n + 1) s = .ok () s := by
  simp only [decRenorm, h]

theorem valueAfter_cons (c : RenormCase) (cs : List RenormCase) (bits : List Bool) (v : Nat) :
    valueAfter (c :: cs) bits v = valueAfter cs (bits.drop 1) (2 * (v - caseOffset c) + nextOrFill bits) := by
  rw [valueAfter, nextOrFill, List.drop_one]

/-- The decoder's loop from LOW <= VALUE <= HIGH ends within its passes: it takes the cases that the bounds give, one bit of the
read stream for each, and leaves VALUE inside renormalized bounds (42_arith_coder.md rules R175, R181, R182). -/
theorem decRenorm_spec (n : Nat) (s : State) (h : ReadBufOk s) (hle : s.low.toNat ≤ s.value.toNat)
    (hle' : s.value.toNat ≤ s.high.toNat) (hn : 65536 < codeRange s * 2 ^ n) (hn2 : n ≤ 17) :
    Ends (decRenorm (n + 1) s)
      (fun _ t =>
        Took s (renormCases n s.low.toNat s.high.toNat).length t ∧ DecFrame s t ∧
        t.low.toNat = lowAfter (renormCases n s.low.toNat s.high.toNat) s.low.toNat ∧
        t.high.toNat = highAfter (renormCases n s.low.toNat s.high.toNat) s.high.toNat ∧
        t.value.toNat = valueAfter (renormCases n s.low.toNat s.high.toNat) (unreadBits s) s.value.toNat ∧
        t.low.toNat ≤ t.value.toNat ∧ t.value.toNat ≤ t.high.toNat ∧ Renormalized t.low.toNat t.high.toNat)
      (DecFailure s) := by
  induction n generalizing s with
  | zero =>
    rcases renormCase_cases s with ⟨hc, h1⟩ | ⟨hc, h1⟩ | ⟨hc, h1⟩ | ⟨hc, hr⟩
    · unfold codeRange at hn; omega
    · unfold codeRange at hn; have := s.high.isLt; omega
    · unfold codeRange at hn; omega
    · rw [decRenorm_done hc]
      exact ⟨.refl h, rfl, rfl, rfl, rfl, hle, hle', hr⟩
  | succ n ih =>
    -- a case that takes `k` off the registers and goes on with the cases of the new bounds
    have step : ∀ k, k ≤ s.low.toNat → s.high.toNat - k < 65536 →
        Ends (andThen (decShift k s) fun _ t => decRenorm (n + 1) t)
          (fun _ t =>
            let cs := renormCases n (2 * (s.low.toNat - k)) (2 * (s.high.toNat - k) + 1)
            Took s (cs.length + 1) t ∧ DecFrame s t ∧
            t.low.toNat = lowAfter cs (2 * (s.low.toNat - k)) ∧
            t.high.toNat = highAfter cs (2 * (s.high.toNat - k) + 1) ∧
            t.value.toNat =
              valueAfter cs ((unreadBits s).drop 1) (2 * (s.value.toNat - k) + nextOrFill (unreadBits s)) ∧
            t.low.toNat ≤ t.value.toNat ∧ t.value.toNat ≤ t.high.toNat ∧ Renormalized t.low.toNat t.high.toNat)
          (DecFailure s) := by
      intro k hk hh
      refine (decShift_spec k s h hle hle' hk hh).andThen fun _ t ⟨ht, hf, e1, e2, e3⟩ => ?_
      have hb1 := nextOrFill_le (unreadBits s)
      have hr : codeRange t = 2 * codeRange s := by
        rw [codeRange, e1, e2, codeRange]
        omega
      have hi := ih t ht.bufOk (by omega) (by omega) (by
        rw [hr, Nat.mul_comm 2, Nat.mul_assoc, Nat.mul_comm 2, ← Nat.pow_succ]; exact hn) (by omega)
      rw [e1, e2, e3, ht.unread] at hi
      refine hi.mono (fun _ u hu => ⟨?_, hf.trans hu.2.1, hu.2.2⟩) fun u hu => hu.of_took hf ht
      rw [Nat.add_comm]
      exact ht.trans hu.1
    rcases renormCase_cases s with ⟨hc, h1⟩ | ⟨hc, h1⟩ | ⟨hc, h1, h2, h3, h4⟩ | ⟨hc, hr⟩
    · have hrc : renormCases (n + 1) s.low.toNat s.high.toNat
          = .e1 :: renormCases n (2 * (s.low.toNat - 0)) (2 * (s.high.toNat - 0) + 1) := by
        rw [renormCases, if_pos h1, Nat.sub_zero, Nat.sub_zero]
      rw [hrc, decRenorm_e1 hc]
      simp only [lowAfter_cons, highAfter_cons, valueAfter_cons, caseOffset_e1, List.length_cons]
      exact step 0 (Nat.zero_le _) (by rw [Nat.sub_zero]; exact h1)
    · have hrc : renormCases (n + 1) s.low.toNat s.high.toNat
          = .e2 :: renormCases n (2 * (s.low.toNat - 65536)) (2 * (s.high.toNat - 65536) + 1) := by
        rw [renormCases, if_neg (by omega), if_pos h1]
      have hk : s.high.toNat - 65536 < 65536 := by have := s.high.isLt; omega
      rw [hrc, decRenorm_e2 hc]
      simp only [lowAfter_cons, highAfter_cons, valueAfter_cons, caseOffset_e2, List.length_cons]
      exact step 65536 h1 hk
    · have hk : s.high.toNat - 32768 < 65536 := by clear hn; omega
      have hrc : renormCases (n + 1) s.low.toNat s.high.toNat
          = .e3 :: renormCases n (2 * (s.low.toNat - 32768)) (2 * (s.high.toNat - 32768) + 1) := by
        clear hn
        rw [renormCases, if_neg (by omega), if_neg (by omega), if_pos ⟨h1, h4⟩]
      rw [hrc, decRenorm_e3 hc]
      simp only [lowAfter_cons, highAfter_cons, valueAfter_cons, caseOffset_e3, List.length_cons]
      exact step 32768 h1 hk
    · rw [decRenorm_done hc, renormCases_done hr]
      exact ⟨.refl h, rfl, rfl, rfl, rfl, hle, hle', hr⟩

theorem firstBits_eq_take {n : Nat} {bits : List Bool} (h : n ≤ bits.length) : firstBits n bits = bits.take n := by
  rw [firstBits, List.take_append_of_le_length h]

theorem firstBits_succ (n : Nat) (bits : List Bool) :
    firstBits (n + 1) bits = bits.headD false :: firstBits n (bits.drop 1) := by
  cases bits with
  | nil =>
    simp only [firstBits, List.drop_nil, List.nil_append, List.headD_nil, List.replicate_succ, List.take_succ_cons]
  | cons b bits =>
    simp only [firstBits, List.drop_succ_cons, List.drop_zero, List.headD_cons, List.cons_append, List.take_succ_cons,
      List.replicate_succ']
    congr 1
    rw [← List.append_assoc, List.take_append_of_le_length (by simp)]

/-- Shifting bits into VALUE takes them from the read stream, 0 for those past its end, and changes VALUE, the read buffer and the
source alone (42_arith_coder.md rule R180). -/
theorem loadValue_spec (n : Nat) (s : State) (h : ReadBufOk s) (hv : s.value.toNat * 2 ^ n + 2 ^ n ≤ 131072) :
    Ends (loadValue n s)
      (fun _ t => Took s n t ∧ DecFrame s t ∧ t.low = s.low ∧ t.high = s.high ∧
        t.value.toNat = (firstBits n (unreadBits s)).foldl (fun v b => 2 * v + b.toNat) s.value.toNat)
      (DecFailure s) := by
  induction n generalizing s with
  | zero => exact ⟨.refl h, rfl, rfl, rfl, by simp [firstBits]⟩
  | succ n ih =>
    refine ((getBitOrFill_spec s h).mono (fun _ _ h => h) (fun v hv => ?_)).andThen fun b t ⟨hb, ht⟩ => ?_
    · obtain ⟨⟨w, hw, rfl⟩, hbuf, hd⟩ := hv
      exact ⟨w, hw.dec, hbuf, rfl, hd⟩
    · have hb1 := nextOrFill_le (unreadBits s)
      have hpos : 0 < 2 ^ n := Nat.pow_pos (by omega)
      rw [Nat.pow_succ] at hv
      have hval : t.value = s.value := by rw [ht.frame]
      have hnew : (BitVec.ofNat 17 (2 * t.value.toNat + b)).toNat = 2 * s.value.toNat + nextOrFill (unreadBits s) := by
        rw [hval, hb]
        exact toNat_ofNat17 (by nlinarith)
      have htk : Took s 1 { t with value := BitVec.ofNat 17 (2 * t.value.toNat + b) } := ht.toTook.congr rfl rfl rfl rfl
      have hf : DecFrame s { t with value := BitVec.ofNat 17 (2 * t.value.toNat + b) } := ht.frame.dec.trans rfl
      have hi := ih { t with value := BitVec.ofNat 17 (2 * t.value.toNat + b) } htk.bufOk (by
        rw [show ({ t with value := BitVec.ofNat 17 (2 * t.value.toNat + b) } : State).value.toNat = _ from hnew]
        nlinarith)
      refine hi.mono (fun _ u hu => ⟨?_, hf.trans hu.2.1, ?_, ?_, ?_⟩) fun u hu => hu.of_took hf htk
      · rw [Nat.add_comm]
        exact htk.trans hu.1
      · rw [hu.2.2.1]; show t.low = _; rw [ht.frame]
      · rw [hu.2.2.2.1]; show t.high = _; rw [ht.frame]
      · rw [hu.2.2.2.2, htk.unread, firstBits_succ, List.foldl_cons]
        rw [show ({ t with value := BitVec.ofNat 17 (2 * t.value.toNat + b) } : State).value.toNat = _ from hnew]
        rfl

/-! ### A source that fails -/

/-- One step of the decoder's loop before a source that fails: the failure is met, or the step is made and the failure is one bit
nearer (42_arith_coder.md rule R175). -/
theorem decShift_beforeFail {k m : Nat} {s : State} (h : ReadBufOk s) (hle : s.low.toNat ≤ s.value.toNat)
    (hle' : s.value.toNat ≤ s.high.toNat) (hk : k ≤ s.low.toNat) (hh : s.high.toNat - k < 65536)
    (hm : bitsBeforeFail s = some m) (hm32 : m < 32) :
    (m = 0 ∧ ∃ u, decShift k s = .raised (recordFault .ioFailureSource u) ∧ DecFrame s u ∧ LostTheSource s 0 u) ∨
    (∃ m' t, m = m' + 1 ∧ decShift k s = .ok () t ∧ Took s 1 t ∧ Answered s t ∧ bitsBeforeFail t = some m') := by
  have hspec := decShift_spec k s h hle hle' hk hh
  generalize hu : scaleBounds k { s with value := BitVec.ofNat 17 (s.value.toNat - k) } = u
  have hf : DecFrame s u := by rw [← hu]; rfl
  have ht : Took s 0 u := by rw [← hu]; exact (Took.refl h).congr rfl rfl rfl rfl
  have ha : Answered s u := by rw [← hu]; exact .of_eq rfl
  have hmu : bitsBeforeFail u = some m := by rw [← hu]; exact hm
  rcases getBitOrFill_beforeFail ht.bufOk hmu hm32 with ⟨h0, v, hv, h1, h2⟩ | ⟨m', t, h0, hv, h1, h2, h3⟩
  · exact .inl ⟨h0, v, by simp only [decShift, hu, hv]; rfl, hf.trans h1.dec, by simpa using h2.of_took ht ha⟩
  · have hd : decShift k s = .ok () { t with value := BitVec.ofNat 17 (2 * t.value.toNat + nextOrFill (unreadBits u)) } := by
      simp only [decShift, hu, hv]; rfl
    rw [hd] at hspec
    exact .inr ⟨m', _, h0, hd, hspec.1, ha.trans (h2.trans (.of_eq rfl)), h3⟩

/-- The decoder's loop when the source fails before the loop has its bits: IoFailure(source) is recorded, and the bits before the
failure are taken (42_arith_coder.md rule R175; 40_bit_channel.md rule R107). -/
theorem decRenorm_beforeFail (n : Nat) {m : Nat} {s : State} (h : ReadBufOk s) (hle : s.low.toNat ≤ s.value.toNat)
    (hle' : s.value.toNat ≤ s.high.toNat) (hn2 : n ≤ 17) (hm : bitsBeforeFail s = some m)
    (hlt : m < (renormCases n s.low.toNat s.high.toNat).length) :
    ∃ u, decRenorm (n + 1) s = .raised (recordFault .ioFailureSource u) ∧ DecFrame s u ∧ LostTheSource s m u := by
  induction n generalizing s m with
  | zero => exact absurd hlt (Nat.not_lt_zero _)
  | succ n ih =>
    have hm32 : m < 32 := by have := length_renormCases_le (n + 1) s.low.toNat s.high.toNat; omega
    -- a case that takes `k` off the registers
    have step : ∀ k, k ≤ s.low.toNat → s.high.toNat - k < 65536 →
        m < (renormCases n (2 * (s.low.toNat - k)) (2 * (s.high.toNat - k) + 1)).length + 1 →
        ∃ u, (andThen (decShift k s) fun _ t => decRenorm (n + 1) t) = .raised (recordFault .ioFailureSource u) ∧
          DecFrame s u ∧ LostTheSource s m u := by
      intro k hk hh hlt
      have hspec := decShift_spec k s h hle hle' hk hh
      rcases decShift_beforeFail h hle hle' hk hh hm hm32 with ⟨rfl, u, hu, h1, h2⟩ | ⟨m', t, rfl, ht, h1, h2, h3⟩
      · exact ⟨u, by rw [hu]; rfl, h1, h2⟩
      · rw [ht] at hspec
        obtain ⟨-, hf, e1, e2, e3⟩ := hspec
        have hb := nextOrFill_le (unreadBits s)
        obtain ⟨u, hu, k1, k2⟩ := ih (s := t) (m := m') h1.bufOk (by rw [e1, e3]; omega) (by rw [e2, e3]; omega)
          ((Nat.le_succ n).trans hn2) h3 (by rw [e1, e2]; exact Nat.lt_of_succ_lt_succ hlt)
        exact ⟨u, by rw [ht]; exact hu, hf.trans k1, by rw [Nat.add_comm]; exact k2.of_took h1 h2⟩
    rcases renormCases_of_case n s (hle.trans hle') with ⟨hc, he, h2⟩ | ⟨hc, he, h1, h2⟩ | ⟨hc, he, h1, h2⟩ | ⟨hc, he⟩
    · rw [he] at hlt
      rw [decRenorm_e1 hc]
      exact step 0 (Nat.zero_le _) h2 hlt
    · rw [he] at hlt
      rw [decRenorm_e2 hc]
      exact step 65536 h1 h2 hlt
    · rw [he] at hlt
      rw [decRenorm_e3 hc]
      exact step 32768 h1 h2 hlt
    · rw [he] at hlt
      exact absurd hlt (Nat.not_lt_zero _)

/-- The loading of VALUE when the source fails before it has its bits: IoFailure(source) is recorded, and VALUE holds the bits
before the failure (42_arith_coder.md rule R180; 40_bit_channel.md rule R107). -/
theorem loadValue_beforeFail (n : Nat) {m : Nat} {s : State} (h : ReadBufOk s)
    (hv : s.value.toNat * 2 ^ n + 2 ^ n ≤ 131072) (hn : n ≤ 17) (hm : bitsBeforeFail s = some m) (hlt : m < n) :
    ∃ u, loadValue n s = .raised (recordFault .ioFailureSource u) ∧ DecFrame s u ∧ LostTheSource s m u ∧
      u.low = s.low ∧ u.high = s.high ∧
      u.value.toNat = (firstBits m (unreadBits s)).foldl (fun v b => 2 * v + b.toNat) s.value.toNat := by
  induction n generalizing s m with
  | zero => exact absurd hlt (Nat.not_lt_zero _)
  | succ n ih =>
    rcases getBitOrFill_beforeFail h hm (by omega) with ⟨rfl, u, hu, h1, h2⟩ | ⟨m', t, rfl, ht, h1, h2, h3⟩
    · refine ⟨u, by rw [loadValue, hu]; rfl, h1.dec, h2, by rw [h1], by rw [h1], ?_⟩
      rw [h1]
      simp [firstBits]
    · have hb1 := nextOrFill_le (unreadBits s)
      have hpos : 0 < 2 ^ n := Nat.pow_pos (by omega)
      rw [Nat.pow_succ] at hv
      have hval : t.value = s.value := by rw [h1.frame]
      have hnew : (BitVec.ofNat 17 (2 * t.value.toNat + nextOrFill (unreadBits s))).toNat
          = 2 * s.value.toNat + nextOrFill (unreadBits s) := by
        rw [hval]
        exact toNat_ofNat17 (by nlinarith)
      generalize hw : ({ t with value := BitVec.ofNat 17 (2 * t.value.toNat + nextOrFill (unreadBits s)) } : State) = w
      have htk : Took s 1 w := by rw [← hw]; exact h1.toTook.congr rfl rfl rfl rfl
      have hf : DecFrame s w := by rw [← hw]; exact h1.frame.dec.trans rfl
      have ha : Answered s w := by rw [← hw]; exact h2.trans (.of_eq rfl)
      have hmw : bitsBeforeFail w = some m' := by rw [← hw]; exact h3
      have hwv : w.value.toNat = 2 * s.value.toNat + nextOrFill (unreadBits s) := by rw [← hw]; exact hnew
      have hwl : w.low = s.low ∧ w.high = s.high := by rw [← hw]; exact ⟨by rw [h1.frame], by rw [h1.frame]⟩
      obtain ⟨u, hu, k1, k2, k3, k4, k5⟩ := ih (s := w) htk.bufOk (by rw [hwv]; nlinarith) (by omega) hmw (by omega)
      refine ⟨u, by rw [loadValue, ht, ← hu, ← hw]; rfl, hf.trans k1, by rw [Nat.add_comm]; exact k2.of_took htk ha,
        k3.trans hwl.1, k4.trans hwl.2, ?_⟩
      rw [k5, htk.unread, firstBits_succ, List.foldl_cons, hwv]
      rfl

/-! ### In every state -/

/-- What a step leaves in every state: going on it meets `P`, ended by a fault it meets `R`, and it may be stuck. -/
def Leaves {α : Type} (r : Res α) (P : α → State → Prop) (R : State → Prop) : Prop :=
  match r with
  | .ok a s => P a s
  | .raised s => R s
  | .stuck _ => True

theorem Ends.leaves {α : Type} {r : Res α} {P : α → State → Prop} {R : State → Prop} (h : Ends r P R) :
    Leaves r P R := by
  cases r <;> first | exact h | trivial

theorem Leaves.andThen {α β : Type} {r : Res α} {f : α → State → Res β} {P : α → State → Prop} {Q : β → State → Prop}
    {R : State → Prop} (h : Leaves r P R) (hf : ∀ a s, P a s → Leaves (f a s) Q R) : Leaves (andThen r f) Q R := by
  cases r with
  | ok a s => exact hf a s h
  | raised s => exact h
  | stuck e => trivial

theorem Leaves.mono {α : Type} {r : Res α} {P P' : α → State → Prop} {R R' : State → Prop} (h : Leaves r P R)
    (hP : ∀ a s, P a s → P' a s) (hR : ∀ s, R s → R' s) : Leaves r P' R' := by
  cases r with
  | ok a s => exact hP a s h
  | raised s => exact hR s h
  | stuck f => trivial

/-- The coder's write ended in a fault, in any state: the sink's, or a full PENDING (42_arith_coder.md rules R173, R174). -/
def EncFault (s t : State) : Prop :=
  ∃ u k, EncFrame s u ∧ (k = .ioFailureSink ∨ k = .pendingOverflow) ∧ t = recordFault k u

/-- The coder's read ended in a fault, in any state: the source's (42_arith_coder.md rules R175, R180). -/
def DecFault (s t : State) : Prop := ∃ u, DecFrame s u ∧ t = recordFault .ioFailureSource u

theorem EncFault.of_frame {s t u : State} (h : EncFrame s t) (h' : EncFault t u) : EncFault s u := by
  obtain ⟨v, k, hv, hk, e⟩ := h'
  exact ⟨v, k, h.trans hv, hk, e⟩

theorem DecFault.of_frame {s t u : State} (h : DecFrame s t) (h' : DecFault t u) : DecFault s u := by
  obtain ⟨v, hv, e⟩ := h'
  exact ⟨v, h.trans hv, e⟩

theorem SinkFailure.enc {s t : State} (h : SinkFailure s t) : EncFault s t := by
  obtain ⟨u, hu, rfl⟩ := h
  refine ⟨u, _, ?_, .inl rfl, rfl⟩
  unfold WriteFrame at hu
  unfold EncFrame
  rw [hu]

theorem SourceFailure.dec {s t : State} (h : SourceFailure s t) : DecFault s t := by
  obtain ⟨u, hu, rfl⟩ := h
  exact ⟨u, hu.dec, rfl⟩

/-- EncRenorm changes the bounds, PENDING, the write buffer and the sink alone, in every state (42_arith_coder.md rule R174). -/
theorem encRenorm_frame (n : Nat) (s : State) : Leaves (encRenorm n s) (fun _ t => EncFrame s t) (EncFault s) := by
  induction n generalizing s with
  | zero => trivial
  | succ n ih =>
    unfold encRenorm
    have emit : ∀ (b : Bool) (k : Nat),
        Leaves (Machine.andThen (emitBit b s) fun _ s => encRenorm n (scaleBounds k s)) (fun _ t => EncFrame s t)
          (EncFault s) := fun b k =>
      ((emitBit_frame b s).leaves.mono (fun _ _ h => h.1) fun _ h => h.enc).andThen fun _ t ht =>
        (ih _).mono (fun _ _ h => (ht.enc k).trans h) fun _ h => h.of_frame (ht.enc k)
    split
    · exact emit _ _
    · exact emit _ _
    · split
      · exact ⟨s, _, rfl, .inr rfl, rfl⟩
      · have hf : EncFrame s (scaleBounds Config.oneFourth { s with pending := s.pending + 1 }) := rfl
        exact (ih _).mono (fun _ _ h => hf.trans h) fun _ h => h.of_frame hf
    · exact rfl

/-- One step of the decoder's loop changes the bounds, VALUE, the read buffer and the source alone (42_arith_coder.md rule R175). -/
theorem decShift_frame (k : Nat) (s : State) : Leaves (decShift k s) (fun _ t => DecFrame s t) (DecFault s) := by
  have hf : DecFrame s (scaleBounds k { s with value := BitVec.ofNat 17 (s.value.toNat - k) }) := rfl
  refine ((getBitOrFill_frame _).leaves.mono (fun _ _ h => hf.trans h.dec) fun _ h => h.dec.of_frame hf).andThen
    fun _ t ht => ht.trans rfl

/-- DecRenorm changes the bounds, VALUE, the read buffer and the source alone, in every state (42_arith_coder.md rule R175). -/
theorem decRenorm_frame (n : Nat) (s : State) : Leaves (decRenorm n s) (fun _ t => DecFrame s t) (DecFault s) := by
  induction n generalizing s with
  | zero => trivial
  | succ n ih =>
    unfold decRenorm
    have shift : ∀ k, Leaves (Machine.andThen (decShift k s) fun _ s => decRenorm n s) (fun _ t => DecFrame s t)
        (DecFault s) := fun k =>
      (decShift_frame k s).andThen fun _ t ht =>
        (ih t).mono (fun _ _ h => ht.trans h) fun _ h => h.of_frame ht
    split
    · exact shift _
    · exact shift _
    · exact shift _
    · exact rfl

/-- The loading of VALUE changes VALUE, the read buffer and the source alone, in every state (42_arith_coder.md rule R180). -/
theorem loadValue_frame (n : Nat) (s : State) : Leaves (loadValue n s) (fun _ t => DecFrame s t) (DecFault s) := by
  induction n generalizing s with
  | zero => exact rfl
  | succ n ih =>
    unfold loadValue
    refine ((getBitOrFill_frame s).leaves.mono (fun _ _ h => h.dec) fun _ h => h.dec).andThen fun b t ht => ?_
    have hf : DecFrame s { t with value := BitVec.ofNat 17 (2 * t.value.toNat + b) } := ht.trans rfl
    exact (ih _).mono (fun _ _ h => hf.trans h) fun _ h => h.of_frame hf

end Sys2Proof.Machine
end

