-- ==== Sys2Proof/Laws/Dictionary.lean ====
section
/-!
SUPPORT. The LZW dictionary: what a reset, an insertion, a widening and a look-up can do, each once, and the width law
(10_state.md rules R37 to R39; 43_lzw.md rules R221 to R229).
-/
namespace Sys2Proof.Machine

/-! ### Widths -/

/-- The number of bits grows by one exactly at a power of two (43_lzw.md rule R226). -/
theorem bitlen_succ {m : Nat} (hm : 1 ≤ m) : bitlen (m + 1) = if isPow2 (m + 1) then bitlen m + 1 else bitlen m := by
  have h1 : 2 ^ Nat.log2 m ≤ m := Nat.log2_self_le (by omega)
  have h2 : m < 2 ^ (Nat.log2 m + 1) := Nat.lt_log2_self
  unfold bitlen isPow2
  rw [if_neg (by omega : ¬ m + 1 = 0), if_neg (by omega : ¬ m = 0)]
  by_cases h : m + 1 = 2 ^ (Nat.log2 m + 1)
  · have hl : Nat.log2 (m + 1) = Nat.log2 m + 1 := by
      conv_lhs => rw [h]
      exact Nat.log2_two_pow
    rw [hl]
    simp [← h]
  · have hl : Nat.log2 (m + 1) = Nat.log2 m := by
      rw [Nat.log2_eq_iff (by omega)]
      omega
    have hne : ¬ m + 1 = 2 ^ Nat.log2 m := by omega
    rw [hl]
    simp [hne]

/-- A code's width is at most 23 bits (43_lzw.md rule R226: LZW_MAX_WIDTH). -/
theorem bitlen_le {m : Nat} (hm : m ≤ 4194304) : bitlen m ≤ 23 := by
  unfold bitlen
  split
  · omega
  · have : Nat.log2 m < 23 := (Nat.log2_lt (by omega)).mpr (by omega)
    omega

/-- A value fits in its own width (43_lzw.md rule R226). -/
theorem lt_two_pow_bitlen (m : Nat) : m < 2 ^ bitlen m := by
  unfold bitlen
  split
  · omega
  · exact Nat.lt_log2_self

theorem bitlen_mono {m n : Nat} (h : m ≤ n) : bitlen m ≤ bitlen n := by
  unfold bitlen
  split
  · omega
  · rename_i hm
    rw [if_neg (by omega : ¬ n = 0)]
    have h1 : 2 ^ Nat.log2 m ≤ n := (Nat.log2_self_le hm).trans h
    have : Nat.log2 m ≤ Nat.log2 n := (Nat.le_log2 (by omega)).mpr h1
    omega

/-- Widening changes CODELEN alone. -/
theorem widenIfPow2_frame (x : Nat) (s : State) : widenIfPow2 x s = { s with codelen := (widenIfPow2 x s).codelen } := by
  unfold widenIfPow2
  split <;> rfl

/-- From the width of m, widening at m + 1 gives the width of m + 1 (43_lzw.md rules R225, R226, R229). -/
theorem widenIfPow2_codelen {s : State} {m : Nat} (h1 : 1 ≤ m) (hm : m < 4194304) (hc : s.codelen.toNat = bitlen m) :
    (widenIfPow2 (m + 1) s).codelen.toNat = bitlen (m + 1) := by
  have hb := bitlen_le (m := m) (by omega)
  rw [bitlen_succ h1]
  unfold widenIfPow2
  split
  · show (BitVec.ofNat 5 (s.codelen.toNat + 1)).toNat = _
    rw [hc, BitVec.toNat_ofNat]
    omega
  · exact hc

/-! ### The dictionary -/

@[simp] theorem length_initialDict : initialDict.length = 256 := by simp [initialDict]

theorem getD_initialDict {c : Nat} (hc : c < 256) : initialDict.getD c [] = [BitVec.ofNat 8 c] := by
  simp [initialDict, List.getD, hc]

/-- The one-byte strings are all different (10_state.md rule R38). -/
theorem initialDict_nodup : initialDict.Nodup := by
  refine List.Nodup.map_on (fun x hx y hy h => ?_) List.nodup_range
  rw [List.mem_range] at hx hy
  have h1 : (BitVec.ofNat 8 x).toNat = (BitVec.ofNat 8 y).toNat := congrArg BitVec.toNat (List.cons.inj h).1
  rw [BitVec.toNat_ofNat, BitVec.toNat_ofNat] at h1
  omega

/-- LzwReset changes DICT, MAXCODE and CODELEN alone (10_state.md rule R39). -/
theorem lzwReset_frame (s : State) :
    lzwReset s = { s with dict := initialDict, maxcode := 255, codelen := 8 } := rfl

/-- LzwReset leaves a dictionary of the one-byte strings (10_state.md rules R38, R39). -/
theorem DictOk.of_initial {s : State} (hd : s.dict = initialDict) (hm : s.maxcode = 255) : DictOk s := by
  refine ⟨by rw [hd, hm, length_initialDict]; rfl, by rw [hm]; decide, by rw [hm]; show 255 ≤ 4194304; omega, fun c hc => ?_, fun c h1 h2 => ?_⟩
  · rw [dictAt, hd, getD_initialDict hc]
  · rw [hm] at h2
    have : (255 : Code).toNat = 255 := by decide
    omega

theorem DictOk.congr {s t : State} (h : DictOk s) (hd : t.dict = s.dict) (hm : t.maxcode = s.maxcode) : DictOk t := by
  simpa [DictOk, dictAt, hd, hm] using h

/-- The length of the dictionary's list is MAXCODE + 1 (10_state.md rule R37). -/
theorem DictOk.length {s : State} (h : DictOk s) : s.dict.length = s.maxcode.toNat + 1 := h.1

/-- Every assigned code has a non-empty string (10_state.md rule R37). -/
theorem DictOk.dictAt_ne_nil {s : State} (h : DictOk s) {c : Nat} (hc : c ≤ s.maxcode.toNat) : dictAt s c ≠ [] := by
  obtain ⟨-, -, -, h4, h5⟩ := h
  by_cases h256 : c < 256
  · rw [h4 c h256]
    simp
  · have := h5 c (by omega) hc
    intro h0
    rw [h0] at this
    simp at this

/-- `++MAXCODE` and the insertion of a string at it: the list of strings grows by that string, and nothing else changes (43_lzw.md
rules R225, R229). -/
theorem insertNext_eq {s : State} (h : DictOk s) (t : List Byte) :
    insertNext t s = { s with dict := s.dict ++ [t], maxcode := BitVec.ofNat 23 (s.maxcode.toNat + 1) } := by
  unfold insertNext dictPut
  simp [h.1]

/-- `++MAXCODE` counts up below the cap (43_lzw.md rule R222). -/
theorem maxcode_insertNext {s : State} (t : List Byte) (hm : s.maxcode.toNat < 4194304) :
    (insertNext t s).maxcode.toNat = s.maxcode.toNat + 1 := by
  show (BitVec.ofNat 23 (s.maxcode.toNat + 1)).toNat = _
  rw [BitVec.toNat_ofNat]
  omega

/-- The strings after an insertion: the new one at the new code, every other one as before (43_lzw.md rules R222, R225, R229). -/
theorem dictAt_insertNext {s : State} (h : DictOk s) (t : List Byte) (c : Nat) :
    dictAt (insertNext t s) c = if c = s.maxcode.toNat + 1 then t else dictAt s c := by
  have hl := h.1
  rw [insertNext_eq h, dictAt, dictAt]
  simp only [List.getD_eq_getElem?_getD]
  by_cases hc : c < s.dict.length
  · rw [List.getElem?_append_left hc, if_neg (by omega)]
  · rw [List.getElem?_append_right (by omega)]
    by_cases he : c = s.maxcode.toNat + 1
    · rw [if_pos he, he, hl]
      simp
    · rw [if_neg he, List.getElem?_eq_none (by simp; omega), List.getElem?_eq_none (by omega)]

/-- An insertion below the cap keeps the dictionary in order (10_state.md rules R37, R38). -/
theorem DictOk.insertNext {s : State} (h : DictOk s) {t : List Byte} (ht : 2 ≤ t.length)
    (hm : s.maxcode.toNat < 4194304) : DictOk (insertNext t s) := by
  have hmc := maxcode_insertNext t hm
  have hget := dictAt_insertNext h t
  obtain ⟨h1, h2, h3, h4, h5⟩ := h
  have h2' : 255 ≤ s.maxcode.toNat := h2
  refine ⟨?_, ?_, ?_, fun c hc => ?_, fun c hc hcm => ?_⟩
  · rw [hmc, insertNext_eq ⟨h1, h2, h3, h4, h5⟩]
    simp [h1]
  · rw [hmc]; exact h2.trans (Nat.le_succ _)
  · rw [hmc]; exact hm
  · rw [hget, if_neg (by omega), h4 c hc]
  · rw [hget]
    split
    · exact ht
    · exact h5 c hc (by omega)

/-! ### The look-up of a string -/

/-- Code(t) is an assigned code of t (43_lzw.md rule R221). -/
theorem codeOf_some {s : State} (h : DictOk s) {t : List Byte} {k : Nat} (hk : codeOf t s = some k) :
    k ≤ s.maxcode.toNat ∧ dictAt s k = t := by
  have hl := h.1
  rw [codeOf, List.findIdx?_eq_some_iff_getElem] at hk
  obtain ⟨hlt, hv, -⟩ := hk
  rw [List.length_take] at hlt
  refine ⟨by omega, ?_⟩
  rw [List.getElem_take] at hv
  have hv' : s.dict[k]'(by omega) = t := by simpa using hv
  rw [dictAt, List.getD_eq_getElem _ _ (by omega), hv']

/-- Code(t) is NONE when no assigned code has the string t (43_lzw.md rule R221). -/
theorem codeOf_none {s : State} (h : DictOk s) {t : List Byte} :
    codeOf t s = none ↔ t ∉ s.dict := by
  have hl := h.1
  rw [codeOf, List.take_of_length_le (by omega), List.findIdx?_eq_none_iff]
  constructor
  · intro hn hm
    simpa using hn t hm
  · intro hn x hx
    have : x ≠ t := fun he => hn (he ▸ hx)
    simpa using this

/-- An assigned string has a code (43_lzw.md rule R221). -/
theorem dictAt_mem {s : State} (h : DictOk s) {k : Nat} (hk : k ≤ s.maxcode.toNat) : dictAt s k ∈ s.dict := by
  have hl := h.1
  rw [dictAt, List.getD_eq_getElem _ _ (by omega)]
  exact List.getElem_mem _

/-- While no two codes hold the same string, Code finds the code of an assigned string (43_lzw.md rule R221). -/
theorem codeOf_dictAt {s : State} (h : DictOk s) (hn : s.dict.Nodup) {k : Nat} (hk : k ≤ s.maxcode.toNat) :
    codeOf (dictAt s k) s = some k := by
  have hl := h.1
  cases hc : codeOf (dictAt s k) s with
  | none => exact absurd (dictAt_mem h hk) ((codeOf_none h).mp hc)
  | some j =>
    obtain ⟨hj, he⟩ := codeOf_some h hc
    rw [dictAt, dictAt, List.getD_eq_getElem _ _ (by omega), List.getD_eq_getElem _ _ (by omega)] at he
    exact congrArg some ((List.Nodup.getElem_inj_iff hn).mp he)

/-- Every one-byte string is in the dictionary, so a byte with no match always finds a code (43_lzw.md rule R225). -/
theorem singleton_mem_dict {s : State} (h : DictOk s) (c : Byte) : [c] ∈ s.dict := by
  have h2 : 255 ≤ s.maxcode.toNat := h.2.1
  have hc := c.isLt
  have : dictAt s c.toNat = [c] := by
    rw [h.2.2.2.1 c.toNat hc]
    simp
  rw [← this]
  exact dictAt_mem h (by omega)

/-- The code of a one-byte string is the byte (10_state.md rule R38; 43_lzw.md rule R223). -/
theorem codeOf_singleton {s : State} (h : DictOk s) (c : Byte) : codeOf [c] s = some c.toNat := by
  cases hc : codeOf [c] s with
  | none => exact absurd (singleton_mem_dict h c) ((codeOf_none h).mp hc)
  | some k =>
    obtain ⟨hk, he⟩ := codeOf_some h hc
    by_cases h256 : k < 256
    · rw [h.2.2.2.1 k h256] at he
      have : BitVec.ofNat 8 k = c := by simpa using he
      rw [← this, BitVec.toNat_ofNat, Nat.mod_eq_of_lt (by omega)]
    · have := h.2.2.2.2 k (by omega) hk
      rw [he] at this
      simp at this

/-- Inserting a string that no code holds keeps the codes injective (10_state.md rule R38). -/
theorem nodup_insertNext {s : State} (h : DictOk s) (hn : s.dict.Nodup) {t : List Byte} (ht : codeOf t s = none) :
    (insertNext t s).dict.Nodup := by
  rw [insertNext_eq h]
  exact List.nodup_append.mpr ⟨hn, by simp, by
    intro x hx y hy hxy
    rw [List.mem_singleton] at hy
    subst hxy
    exact (codeOf_none h).mp ht (hy ▸ hx)⟩

end Sys2Proof.Machine
end

