-- ==== Sys2Proof/Laws/PerInstr.lean ====
section
/-!
SUPPORT. A fact about each command as syntax, one lemma per constructor: its word selects the row of the opcode map that bears
its mnemonic (30_encoding.md rule R83).
-/
namespace Sys2Proof.Laws.TableRow

/-- The command's word agrees with the match column of a row of its mnemonic on the bits of that row's mask. -/
def Statement (i : Instr) : Prop :=
  ∃ r ∈ opcodeTable, r.mnemonic = i.mnemonic ∧ encode i &&& r.mask = r.pattern

/-- A word whose mask covers the OPC and no bit of the operand field keeps, under the mask, its OPC alone. -/
theorem masked {k : Nat} (opc : BitVec 8) (field : BitVec k) (mask pattern : Word)
    (h : ∀ i < 32, (pattern.getLsbD i = if i < 24 then false else opc.getLsbD (i - 24)) ∧
      (i < k → i < 24 → mask.getLsbD i = false) ∧ (24 ≤ i → mask.getLsbD i = true)) :
    commandWord opc field &&& mask = pattern := by
  apply BitVec.eq_of_getLsbD_eq
  intro i hi
  obtain ⟨h1, h2, h3⟩ := h i hi
  rw [BitVec.getLsbD_and, commandWord, BitVec.getLsbD_append, h1]
  by_cases h24 : i < 24
  · by_cases hk : i < k
    · simp [h24, h2 hk h24]
    · simp [h24, BitVec.getLsbD_of_ge field i (by omega)]
  · simp [h24, h3 (by omega)]

theorem wopen : Statement .wopen :=
  ⟨⟨"WOPEN", 0x01000000, 0xFFFFFFFF⟩, by decide, rfl, by decide⟩

theorem wbits (n : BitVec 6) : Statement (.wbits n) :=
  ⟨⟨"WBITS", 0x02000000, 0xFFFFFFC0⟩, by decide, rfl, masked _ _ _ _ (by decide)⟩

theorem wclose : Statement .wclose :=
  ⟨⟨"WCLOSE", 0x03000000, 0xFFFFFFFF⟩, by decide, rfl, by decide⟩

theorem ropen : Statement .ropen :=
  ⟨⟨"ROPEN", 0x04000000, 0xFFFFFFFF⟩, by decide, rfl, by decide⟩

theorem rbits (n : BitVec 6) : Statement (.rbits n) :=
  ⟨⟨"RBITS", 0x05000000, 0xFFFFFFC0⟩, by decide, rfl, masked _ _ _ _ (by decide)⟩

theorem rclose : Statement .rclose :=
  ⟨⟨"RCLOSE", 0x06000000, 0xFFFFFFFF⟩, by decide, rfl, by decide⟩

theorem fmrst : Statement .fmrst :=
  ⟨⟨"FMRST", 0x10000000, 0xFFFFFFFF⟩, by decide, rfl, by decide⟩

theorem fmprob (sym : BitVec 9) : Statement (.fmprob sym) :=
  ⟨⟨"FMPROB", 0x11000000, 0xFFFFFE00⟩, by decide, rfl, masked _ _ _ _ (by decide)⟩

theorem fmsym (v : BitVec 24) : Statement (.fmsym v) :=
  ⟨⟨"FMSYM", 0x12000000, 0xFF000000⟩, by decide, rfl, masked _ _ _ _ (by decide)⟩

theorem fmtot : Statement .fmtot :=
  ⟨⟨"FMTOT", 0x13000000, 0xFFFFFFFF⟩, by decide, rfl, by decide⟩

theorem aeinit : Statement .aeinit :=
  ⟨⟨"AEINIT", 0x20000000, 0xFFFFFFFF⟩, by decide, rfl, by decide⟩

theorem aesym (sym : BitVec 9) : Statement (.aesym sym) :=
  ⟨⟨"AESYM", 0x21000000, 0xFFFFFE00⟩, by decide, rfl, masked _ _ _ _ (by decide)⟩

theorem aefin : Statement .aefin :=
  ⟨⟨"AEFIN", 0x22000000, 0xFFFFFFFF⟩, by decide, rfl, by decide⟩

theorem adinit : Statement .adinit :=
  ⟨⟨"ADINIT", 0x28000000, 0xFFFFFFFF⟩, by decide, rfl, by decide⟩

theorem adsym : Statement .adsym :=
  ⟨⟨"ADSYM", 0x29000000, 0xFFFFFFFF⟩, by decide, rfl, by decide⟩

theorem leinit : Statement .leinit :=
  ⟨⟨"LEINIT", 0x30000000, 0xFFFFFFFF⟩, by decide, rfl, by decide⟩

theorem lebyte (c : BitVec 8) : Statement (.lebyte c) :=
  ⟨⟨"LEBYTE", 0x31000000, 0xFFFFFF00⟩, by decide, rfl, masked _ _ _ _ (by decide)⟩

theorem lefin : Statement .lefin :=
  ⟨⟨"LEFIN", 0x32000000, 0xFFFFFFFF⟩, by decide, rfl, by decide⟩

theorem ldinit : Statement .ldinit :=
  ⟨⟨"LDINIT", 0x38000000, 0xFFFFFFFF⟩, by decide, rfl, by decide⟩

theorem ldstep : Statement .ldstep :=
  ⟨⟨"LDSTEP", 0x39000000, 0xFFFFFFFF⟩, by decide, rfl, by decide⟩

theorem srst : Statement .srst :=
  ⟨⟨"SRST", 0xFF000000, 0xFFFFFFFF⟩, by decide, rfl, by decide⟩

end Sys2Proof.Laws.TableRow
end

