-- ==== Sys2Proof/Machine/Procedures.lean ====
section
/-!
DEFINITION. The host's side of a session: assembler text and pseudo-instructions (30_encoding.md rules R87, R88), and the four
stream procedures, which are command sequences of the host and no part of the block's step (00_scope.md rule R4;
44_control.md rule R263). The bound on a host loop is an argument (92_eei_decisions.md D39, `hostStepLimit`).
-/
namespace Sys2Proof.Machine

/-- A command in assembler syntax, its operand in decimal (30_encoding.md rule R87). -/
def assembly (i : Instr) : String :=
  match i with
  | .wbits n | .rbits n => i.mnemonic ++ " " ++ Nat.repr n.toNat
  | .fmprob sym | .aesym sym => i.mnemonic ++ " " ++ Nat.repr sym.toNat
  | .fmsym v => i.mnemonic ++ " " ++ Nat.repr v.toNat
  | .lebyte c => i.mnemonic ++ " " ++ Nat.repr c.toNat
  | .wopen | .wclose | .ropen | .rclose | .fmrst | .fmtot | .aeinit | .aefin | .adinit | .adsym | .leinit | .lefin
  | .ldinit | .ldstep | .srst => i.mnemonic

/-- The pseudo-instructions that expand to a fixed sequence of host actions (30_encoding.md rule R88). The two others, ADRUN and
LDRUN, are the host loops `adrun` and `ldrun`. -/
inductive Pseudo where
  /-- `WBITSI n, v`. -/
  | wbitsi (n : BitVec 6) (v : Word)
  /-- `AEEOF`. -/
  | aeeof
  /-- `AESTR`, with its bytes. -/
  | aestr (bytes : List Byte)
  /-- `LESTR`, with its bytes. -/
  | lestr (bytes : List Byte)
deriving DecidableEq, Repr

/-- The expansion of a pseudo-instruction (30_encoding.md rule R88). -/
def expand : Pseudo → List HostAction
  | .wbitsi n v => [.writeData v, .writeCmd (encode (.wbits n))]
  | .aeeof => [.writeCmd (encode (.aesym 256))]
  | .aestr bytes => bytes.map fun c => .writeCmd (encode (.aesym (c.setWidth 9)))
  | .lestr bytes => bytes.map fun c => .writeCmd (encode (.lebyte c))

/-- The host writes a command's word to CMD, and the write completes when the command has ended (44_control.md rule R260). -/
def give (i : Instr) (s : State) : Option State :=
  match step { s with cmd := some (encode i) } with
  | .next t => some t
  | .fault _ => none
  | .refused _ => none

/-- The host gives commands in order and checks STATUS.FAULT after each (42_arith_coder.md rule R186). -/
def giveWhileGood : List Instr → State → Option State
  | [], s => some s
  | i :: rest, s => (give i s).bind fun t => if t.fault then some t else giveWhileGood rest t

/-- The host repeats a step command while STATUS.END = 0 and STATUS.FAULT = 0, at most `limit` times (44_control.md rule R263). -/
def repeatWhileRunning (i : Instr) : Nat → State → Option State
  | 0, s => if s.ended || s.fault then some s else none
  | limit + 1, s => if s.ended || s.fault then some s else (give i s).bind (repeatWhileRunning i limit)

/-- ADRUN: ADSYM, repeated until STATUS.END = 1 or STATUS.FAULT = 1 (30_encoding.md rule R88). -/
def adrun (limit : Nat) (s : State) : Option State := (give .adsym s).bind (repeatWhileRunning .adsym limit)

/-- LDRUN: LDSTEP, repeated until STATUS.END = 1 or STATUS.FAULT = 1 (30_encoding.md rule R88). -/
def ldrun (limit : Nat) (s : State) : Option State := (give .ldstep s).bind (repeatWhileRunning .ldstep limit)

/-- The BAC `compress` procedure; WCLOSE is given on every path (42_arith_coder.md rule R186). -/
def compressBac (bytes : List Byte) (s : State) : Option State :=
  (giveWhileGood ([.wopen, .aeinit] ++ bytes.map (fun c => .aesym (c.setWidth 9)) ++ [.aesym 256, .aefin]) s).bind
    (give .wclose)

/-- The BAC `decompress` procedure (42_arith_coder.md rule R187). -/
def decompressBac (limit : Nat) (s : State) : Option State :=
  (give .ropen s).bind fun s => (give .wopen s).bind fun s => (give .adinit s).bind fun s =>
    (adrun limit s).bind fun s => (give .wclose s).bind (give .rclose)

/-- The LZW `compress` procedure; WCLOSE is given on every path (43_lzw.md rule R231). -/
def compressLzw (bytes : List Byte) (s : State) : Option State :=
  (giveWhileGood ([.wopen, .leinit] ++ bytes.map (fun c => .lebyte c) ++ [.lefin]) s).bind (give .wclose)

/-- The LZW `decompress` procedure (43_lzw.md rule R232). -/
def decompressLzw (limit : Nat) (s : State) : Option State :=
  (give .ropen s).bind fun s => (give .wopen s).bind fun s => (give .ldinit s).bind fun s =>
    (repeatWhileRunning .ldstep limit s).bind fun s => (give .wclose s).bind (give .rclose)

end Sys2Proof.Machine
end

