-- ==== Sys2Proof/WellFormed.lean ====
section
/-!
DEFINITION. Which commands have every operand inside its legal range (30_encoding.md rule R82). Every term of `Instr` has an
encoding; an ill-formed one is encoded, decodes to its command, and faults with BadOperand when it executes (rule R82,
44_control.md rule R264), so no statement about decoding or execution needs this check as a premise to be meaningful.
-/
namespace Sys2Proof

/-- The legal operand ranges of 30_encoding.md rule R82: n in 1..32 for layout W, sym in 0..256 for layout S; layouts N, V
and B have no illegal operand value. -/
def Instr.wellFormed : Instr → Bool
  | .wbits n => 1 ≤ n.toNat && n.toNat ≤ Config.rwMaxBits
  | .rbits n => 1 ≤ n.toNat && n.toNat ≤ Config.rwMaxBits
  | .fmprob sym => sym.toNat ≤ Config.eofSym
  | .aesym sym => sym.toNat ≤ Config.eofSym
  | .wopen | .wclose | .ropen | .rclose | .fmrst | .fmsym _ | .fmtot | .aeinit | .aefin | .adinit | .adsym
  | .leinit | .lebyte _ | .lefin | .ldinit | .ldstep | .srst => true

end Sys2Proof
end

