-- ==== Sys2Proof/Tests/Slice0.lean ====
section
/-!
SUPPORT. Tests and witnesses. A test's expected value comes from the spec: a rule's own example, or a vector of
95_test_vectors.md. A `witness_<obligation>` shows concrete states and operands that meet all the hypotheses of one clause of
that statement, at a boundary of its range.
-/
namespace Sys2Proof.Tests

-- One theorem after the other: a check by the kernel waits for those before it, and each waiting thread holds a stack.
set_option Elab.async false

open Sys2Proof Sys2Proof.Machine

/-! ### Helpers -/

/-- What a test looks at in the next state of an outcome. -/
def seen {α : Type} (f : State → α) : Host.Outcome State Fault Refusal → Option α
  | .next t => some (f t)
  | .fault _ => none
  | .refused _ => none

/-- An outcome is a next state that passes a check. -/
def meets (check : State → Bool) (o : Host.Outcome State Fault Refusal) : Bool := seen check o = some true

theorem meets_next {check : State → Bool} {o : Host.Outcome State Fault Refusal} (h : meets check o = true) :
    ∃ t, o = .next t ∧ check t = true := by
  cases o with
  | next t => exact ⟨t, rfl, by simpa [meets, seen] using h⟩
  | fault e => simp [meets, seen] at h
  | refused r => simp [meets, seen] at h

/-- The values a reader of a step sees: R0 to R3 and STATUS. -/
def registers (s : State) : List Nat := [s.r0.toNat, s.r1.toNat, s.r2.toNat, s.r3.toNat, (statusWord s).toNat]

/-- After WOPEN. -/
def writing : State := { State.reset with wOpen := true }

/-- After ROPEN, with a source that holds these bytes. -/
def reading (bytes : List Byte) : State := { State.reset with rOpen := true, source := ⟨bytes, []⟩ }

/-- After ROPEN and WOPEN, with these bytes fetched and so many bits of them consumed. -/
def both (bytes : List Byte) (pos : Nat) : State :=
  { State.reset with rOpen := true, wOpen := true, rBuf := bytes, rBitpos := pos, rSrcEnd := true }

/-- After WOPEN and AEINIT. -/
def encoding : State := { writing with acMode := .enc }

/-- After ADINIT on the bytes 41 bd 40 (42_arith_coder.md rule R180, its example), with a write stream open. -/
def decoding : State := { both [0x41, 0xBD, 0x40] 17 with acMode := .dec, value := 33658 }

/-- After WOPEN and LEINIT. -/
def lzwEncoding : State := { writing with lzMode := .enc }

/-- After LDINIT on the bytes 41 80 40 60 40 (43_lzw.md rule R228, its example). -/
def lzwDecoding : State := { both [0x41, 0x80, 0x40, 0x60, 0x40] 8 with lzMode := .dec, prev := 65 }

/-! ### WellFormed: each check refuses an ill-formed term (30_encoding.md rule R82) -/

theorem test_wf_wbits : (Instr.wbits 0).wellFormed = false ∧ (Instr.wbits 33).wellFormed = false ∧
    (Instr.wbits 1).wellFormed = true ∧ (Instr.wbits 32).wellFormed = true := by decide

theorem test_wf_rbits : (Instr.rbits 0).wellFormed = false ∧ (Instr.rbits 33).wellFormed = false ∧
    (Instr.rbits 1).wellFormed = true ∧ (Instr.rbits 32).wellFormed = true := by decide

theorem test_wf_fmprob : (Instr.fmprob 257).wellFormed = false ∧ (Instr.fmprob 256).wellFormed = true := by decide

theorem test_wf_aesym : (Instr.aesym 257).wellFormed = false ∧ (Instr.aesym 256).wellFormed = true := by decide

theorem test_wf_others : (Instr.fmsym 0xFFFFFF).wellFormed = true ∧ (Instr.lebyte 0xFF).wellFormed = true := by decide

/-! ### Decoding: the words of 95_test_vectors.md section 2 and 30_encoding.md rule R89 -/

theorem test_decode_channel : decode 0x01000000 = some .wopen ∧ decode 0x02000020 = some (.wbits 32) ∧
    decode 0x03000000 = some .wclose ∧ decode 0x04000000 = some .ropen ∧ decode 0x05000020 = some (.rbits 32) ∧
    decode 0x06000000 = some .rclose := by decide

theorem test_decode_model : decode 0x10000000 = some .fmrst ∧ decode 0x11000041 = some (.fmprob 65) ∧
    decode 0x1200012C = some (.fmsym 300) ∧ decode 0x13000000 = some .fmtot := by decide

theorem test_decode_coder : decode 0x20000000 = some .aeinit ∧ decode 0x21000100 = some (.aesym 256) ∧
    decode 0x22000000 = some .aefin ∧ decode 0x28000000 = some .adinit ∧ decode 0x29000000 = some .adsym := by decide

theorem test_decode_lzw : decode 0x30000000 = some .leinit ∧ decode 0x310000FF = some (.lebyte 0xFF) ∧
    decode 0x32000000 = some .lefin ∧ decode 0x38000000 = some .ldinit ∧ decode 0x39000000 = some .ldstep := by decide

theorem test_decode_srst : decode 0xFF000000 = some .srst := by decide

theorem test_decode_bad_operand : decode 0x02000021 = some (.wbits 33) ∧ decode 0x11000101 = some (.fmprob 257) ∧
    decode 0x110001FF = some (.fmprob 511) ∧ decode 0x12FFFFFF = some (.fmsym 0xFFFFFF) := by decide

theorem test_decode_illegal : decode 0x02000040 = none ∧ decode 0x11000200 = none ∧ decode 0x31000100 = none ∧
    decode 0x29000001 = none ∧ decode 0xFF000001 = none ∧ decode 0x07000000 = none ∧ decode 0x3A000000 = none ∧
    decode 0xFE000000 = none ∧ decode 0 = none := by decide

theorem test_table_word : decodeTableWord 32 0x11000041 = some (.fmprob 65) ∧ decodeTableWord 32 0x02000040 = none := by
  decide

/-! ### Reset and the step -/

/-- STATUS after reset is 0 (10_state.md rule R41). -/
theorem test_reset_status : statusWord State.reset = 0 ∧ cumAt State.reset 257 = 257 ∧ dictAt State.reset 65 = [0x41] := by
  decide +kernel

/-- After reset `WBITS 8` leaves STATUS = 0x00006001 (44_control.md rule R262, its example). -/
theorem test_step_first : seen (fun t => statusWord t) (step (State.reset.withFetchWord 32 0x02000008)) = some 0x6001 := by
  decide +kernel

/-- An illegal word: STATUS 0x000040ad from 0x000000ac (95_test_vectors.md section 2). -/
theorem test_step_illegal : seen (fun t => statusWord t)
    (step { both [] 0 with acMode := .enc, lzMode := .enc, cmd := some 0x29000001 }) = some 0x40AD := by decide +kernel

/-! ### Bit Channel (95_test_vectors.md section 3 and the examples of 40_bit_channel.md) -/

theorem test_wopen : seen (fun t => statusWord t) (exec .wopen State.reset) = some 4 := by decide +kernel

theorem test_wopen_twice : seen (fun t => statusWord t) (exec .wopen writing) = some 0x6005 := by decide +kernel

/-- `WBITSI 5, 0x1f` after `WBITSI 3, 0b101` leaves W_BUF = [bf], W_NBITS = 0. -/
theorem test_wbits : seen (fun t => (t.wBuf, t.wNbits)) (exec (.wbits 5) { writing with data := 0x1F, wAcc := 0xA0, wNbits := 3 })
    = some ([0xBF], 0) := by decide +kernel

theorem test_wbits_33 : seen (fun t => statusWord t) (exec (.wbits 33) writing) = some 0x5005 := by decide +kernel

/-- After `WBITSI 3, 0b101`, WCLOSE delivers the one byte a0. -/
theorem test_wclose : seen (fun t => (t.sink.loads, statusWord t)) (exec .wclose { writing with wAcc := 0xA0, wNbits := 3 })
    = some ([[0xA0]], 0) := by decide +kernel

theorem test_wclose_fail : seen (fun t => (t.sink.loads, statusWord t))
    (exec .wclose { writing with wBuf := [0xAB], sink := ⟨[], [.fail]⟩ }) = some ([], 0x12001) := by decide +kernel

theorem test_ropen : seen (fun t => statusWord t) (exec .ropen State.reset) = some 8 := by decide +kernel

/-- On a5 0f, `RBITS 8` after `RBITS 4` gives R0 = 0x50. -/
theorem test_rbits : seen (fun t => t.r0) (exec (.rbits 8) { reading [] with rBuf := [0xA5, 0x0F], rBitpos := 4 }) = some 0x50 := by
  decide +kernel

/-- On a5 0f, the last `RBITS 1` leaves R0 = 0xf and gives STATUS = 0x100a. -/
theorem test_rbits_end : seen (fun t => (t.r0, statusWord t))
    (exec (.rbits 1) { reading [] with rBuf := [0xA5, 0x0F], rBitpos := 16, r0 := 0xF }) = some (0xF, 0x100A) := by
  decide +kernel

theorem test_rclose : seen (fun t => (t.rBuf, t.rBitpos, statusWord t)) (exec .rclose (both [0xA5] 3)) = some ([], 0, 4) := by
  decide +kernel

/-! ### Frequency Model (the examples of 41_freq_model.md) -/

/-- After reset, FMPROB 65 gives R0 = 65, R1 = 66, R2 = 257, R3 = 65, and afterwards CUM[65] = 65, CUM[66] = 67, CUM[257] = 258. -/
theorem test_fmprob : seen (fun t => (registers t, cumAt t 65, cumAt t 66, cumAt t 257)) (exec (.fmprob 65) State.reset)
    = some ([65, 66, 257, 65, 0], 65, 67, 258) := by decide +kernel

theorem test_fmprob_257 : seen (fun t => statusWord t) (exec (.fmprob 257) State.reset) = some 0x5001 := by decide +kernel

/-- FMSYM 65 after FMPROB 65 gives R0 = 65, R1 = 67, R2 = 258, R3 = 65. -/
theorem test_fmsym : seen registers (exec (.fmsym 65) (freqUpdate 65 State.reset)) = some [65, 67, 258, 65, 0] := by
  decide +kernel

theorem test_fmsym_300 : seen (fun t => statusWord t) (exec (.fmsym 300) State.reset) = some 0x3001 := by decide +kernel

theorem test_fmtot : seen (fun t => t.r2) (exec .fmtot (freqUpdate 0 State.reset)) = some 258 := by decide +kernel

theorem test_fmrst : seen (fun t => (cumAt t 257, t.frozen)) (exec .fmrst { freqUpdate 0 State.reset with frozen := true })
    = some (257, false) := by decide +kernel

/-! ### Arithmetic Coder (the examples of 42_arith_coder.md) -/

theorem test_aeinit : seen (fun t => (t.low, t.high, t.pending, statusWord t)) (exec .aeinit { State.reset with low := 5, pending := 3 })
    = some (0, 131071, 0, 0x20) := by decide +kernel

/-- AESYM 65 writes 0100000 and leaves LOW = 48896, HIGH = 114175, PENDING = 0, CUM[257] = 258. -/
theorem test_aesym : seen (fun t => (registers t, [t.low.toNat, t.high.toNat, t.pending.toNat, cumAt t 257], t.wAcc, t.wNbits))
    (exec (.aesym 65) encoding) = some ([65, 66, 257, 65, 0x24], [48896, 114175, 0, 258], 0x40, 7) := by decide +kernel

/-- On empty input AESYM 256 writes 11111111 and leaves LOW = 256. -/
theorem test_aesym_eof : seen (fun t => (t.low, t.wBuf, t.wNbits)) (exec (.aesym 256) encoding) = some (256, [0xFF], 0) := by
  decide +kernel

/-- From LOW = 256, AEFIN writes the bits 01 and gives R0 = 0. -/
theorem test_aefin : seen (fun t => (t.r0, t.wAcc, t.wNbits, t.acMode)) (exec .aefin { encoding with low := 256 })
    = some (0, 0x40, 2, .idle) := by decide +kernel

theorem test_adinit : seen (fun t => (t.value, statusWord t)) (exec .adinit (reading [0x41, 0xBD, 0x40])) = some (33658, 0x48) := by
  decide +kernel

/-- ADSYM decodes 65: byte 41 is written, LOW = 48896, HIGH = 114175 and VALUE = 113984. -/
theorem test_adsym : seen (fun t => (registers t, t.low, t.high, t.value, t.wBuf)) (exec .adsym decoding)
    = some ([65, 66, 257, 65, 0x4C], 48896, 114175, 113984, [0x41]) := by decide +kernel

/-- On ff 40, VALUE = 130688 decodes the EOF symbol: STATUS = 0x0000000e, nothing is written. -/
theorem test_adsym_eof : seen (fun t => (t.r3, statusWord t, t.wBuf)) (exec .adsym { decoding with value := 130688 })
    = some (256, 0xE, []) := by decide +kernel

/-! ### LZW Transform (the examples of 43_lzw.md) -/

theorem test_leinit : seen (fun t => (t.maxcode, t.codelen, t.sCode, statusWord t)) (exec .leinit { State.reset with codelen := 12 })
    = some (255, 8, none, 0x80) := by decide +kernel

/-- The second `LEBYTE 0x41` writes code 65 in 8 bits; DICT[256] = "AA", MAXCODE = 256, CODELEN = 9, S = 65. -/
theorem test_lebyte : seen (fun t => (registers t, dictAt t 256, [t.maxcode.toNat, t.codelen.toNat], t.sCode, t.wBuf))
    (exec (.lebyte 0x41) { lzwEncoding with sCode := some 65 })
    = some ([1, 65, 8, 0, 0x84], [0x41, 0x41], [256, 9], some 65, [0x41]) := by decide +kernel

theorem test_lebyte_first : seen (fun t => (t.r0, t.sCode, t.wBuf)) (exec (.lebyte 0x41) lzwEncoding) = some (0, some 65, []) := by
  decide +kernel

theorem test_lefin : seen (fun t => (registers t, t.sCode, t.wBuf)) (exec .lefin { lzwEncoding with sCode := some 65 })
    = some ([1, 65, 8, 0, 4], none, [0x41]) := by decide +kernel

theorem test_ldinit : seen (fun t => (registers t, t.prev, t.wBuf)) (exec .ldinit (both [0x41, 0x80, 0x40, 0x60, 0x40] 0))
    = some ([1, 65, 8, 0, 0x10C], 65, [0x41]) := by decide +kernel

/-- LDSTEP widens to 9 bits, reads code 256 = MAXCODE + 1, inserts DICT[256] = "AA" and writes 41 41. -/
theorem test_ldstep : seen (fun t => (registers t, dictAt t 256, t.wBuf, t.prev)) (exec .ldstep lzwDecoding)
    = some ([2, 256, 9, 0, 0x10C], [0x41, 0x41], [0x41, 0x41], 256) := by decide +kernel

/-- Code 300 above MAXCODE + 1 = 256: LzwBadCode (43_lzw.md rule R229). -/
theorem test_ldstep_bad : seen (fun t => (t.fcode, t.fault, t.wBuf, t.maxcode))
    (exec .ldstep { lzwDecoding with rBuf := [0x41, 0x96, 0x00] }) = some (8, true, [], 255) := by decide +kernel

/-- SRST clears everything (44_control.md rule R262, its example). -/
theorem test_srst : seen (fun t => (statusWord t, t.data, t.acMode)) (exec .srst
    { encoding with fault := true, fcode := 2, ioSink := true, data := 7 }) = some (0, 0, .idle) := by decide +kernel

/-! ### The host's side (30_encoding.md rules R87, R88; 95_test_vectors.md section 1.1) -/

theorem test_assembly : assembly (.fmsym 300) = "FMSYM 300" ∧ assembly .adsym = "ADSYM" := by decide +kernel

theorem test_expand : expand (.wbitsi 9 0x141) = [.writeData 0x141, .writeCmd 0x02000009] ∧
    expand .aeeof = [.writeCmd 0x21000100] ∧ expand (.lestr [0x41]) = [.writeCmd 0x31000041] := by decide

/-- BAC compress of the empty input gives ff 40. -/
theorem test_compress_empty : (compressBac [] State.reset).map (fun t => t.sink.loads) = some [[0xFF, 0x40]] := by decide +kernel

/-! ### States with the invariant of the block -/

/-- A state with a fresh model and dictionary that meets the rest of the block's invariant. -/
def plain (s : State) : Bool :=
  s.wAcc.toNat % 2 ^ (8 - s.wNbits.val) == 0 && decide (s.wBuf.length < 131072) &&
  (s.wOpen || (s.wBuf == [] && s.wAcc == 0 && s.wNbits == 0)) &&
  decide (s.rBuf.length ≤ 131072) && decide (s.rBitpos ≤ 8 * s.rBuf.length) &&
  (s.rOpen || (s.rBuf == [] && s.rBitpos == 0 && !s.rSrcEnd)) &&
  s.cum == identityRamp && !s.frozen && s.dict == initialDict && s.maxcode == 255 && s.codelen == 8 &&
  decide (s.low.toNat ≤ s.high.toNat) &&
  (decide (s.low.toNat < 32768) && decide (65536 ≤ s.high.toNat) ||
    decide (s.low.toNat < 65536) && decide (98304 ≤ s.high.toNat)) &&
  (s.acMode != .dec || decide (s.low.toNat ≤ s.value.toNat) && decide (s.value.toNat ≤ s.high.toNat)) &&
  decide ((s.sCode.map fun k => k.toNat).getD 0 ≤ 255) && decide (s.prev.toNat ≤ 255)

theorem plain_parts {s : State} (h : plain s = true) :
    WriteSideOk s ∧ ReadSideOk s ∧ ModelOk s ∧ s.dict = initialDict ∧ s.maxcode = 255 ∧ s.codelen = 8 ∧ CoderOk s ∧
      (∀ k, s.sCode = some k → k.toNat ≤ 255) ∧ s.prev.toNat ≤ 255 := by
  simp only [plain, Bool.and_eq_true, Bool.or_eq_true, beq_iff_eq, bne_iff_ne, decide_eq_true_eq, Bool.not_eq_true'] at h
  obtain ⟨⟨⟨⟨⟨⟨⟨⟨⟨⟨⟨⟨⟨⟨⟨h1, h2⟩, h3⟩, h4⟩, h5⟩, h6⟩, h7⟩, h8⟩, h9⟩, h10⟩, h11⟩, h12⟩, h13⟩, h14⟩, h15⟩, h16⟩ := h
  refine ⟨⟨h1, h2, fun h => ?_⟩, ⟨h4, h5, fun h => ?_⟩, .of_ramp h7 h8, h9, h10, h11, ⟨h12, h13, fun h => ?_⟩, fun k hk => ?_, h16⟩
  · simpa [h, and_assoc] using h3
  · simpa [h, and_assoc] using h6
  · simpa [h] using h14
  · simpa [hk] using h15

theorem plain_inv {s : State} (h : plain s = true) : BlockInv s := by
  obtain ⟨hw, hr, hm, hd, hmc, hcl, hc, hs, hp⟩ := plain_parts h
  have h255 : s.maxcode.toNat = 255 := by rw [hmc]; rfl
  have hb : s.codelen.toNat = bitlen s.maxcode.toNat := by rw [hcl, hmc]; decide
  refine ⟨hw, hr, hm, .of_initial hd hmc, fun _ => ⟨hc, fun _ => ⟨hd ▸ initialDict_nodup, fun k hk => ?_, hb, ?_⟩, fun _ => ⟨?_, hb⟩⟩⟩
  · rw [h255]; exact hs k hk
  · rw [h255]; decide
  · rw [h255]; exact hp

/-- The first `n` strings of three bytes. -/
def longStrings (n : Nat) : List (List Byte) :=
  (List.range n).map fun i => [BitVec.ofNat 8 (i / 65536), BitVec.ofNat 8 (i / 256), BitVec.ofNat 8 i]

/-- A state whose dictionary holds `n` strings above the one-byte strings. -/
def grown (n : Nat) (s : State) : State :=
  { s with
    dict := initialDict ++ longStrings n
    maxcode := BitVec.ofNat 23 (255 + n)
    codelen := BitVec.ofNat 5 (bitlen (255 + n)) }

theorem length_of_mem_longStrings {n : Nat} {t : List Byte} (h : t ∈ longStrings n) : t.length = 3 := by
  simp only [longStrings, List.mem_map] at h
  obtain ⟨i, -, rfl⟩ := h
  rfl

theorem length_of_mem_initialDict {t : List Byte} (h : t ∈ initialDict) : t.length = 1 := by
  simp only [initialDict, List.mem_map] at h
  obtain ⟨i, -, rfl⟩ := h
  rfl

theorem longStrings_nodup {n : Nat} (h : n ≤ 4194049) : (longStrings n).Nodup := by
  refine List.Nodup.map_on (fun x hx y hy he => ?_) List.nodup_range
  rw [List.mem_range] at hx hy
  simp only [List.cons.injEq, and_true] at he
  obtain ⟨h1, h2, h3⟩ := he
  have e1 := congrArg BitVec.toNat h1
  have e2 := congrArg BitVec.toNat h2
  have e3 := congrArg BitVec.toNat h3
  simp only [BitVec.toNat_ofNat] at e1 e2 e3
  omega

theorem grown_maxcode {n : Nat} {s : State} (h : n ≤ 4194049) : (grown n s).maxcode.toNat = 255 + n := by
  show (BitVec.ofNat 23 (255 + n)).toNat = _
  rw [BitVec.toNat_ofNat]
  omega

theorem grown_dictAt_low {n c : Nat} {s : State} (h : c < 256) : dictAt (grown n s) c = [BitVec.ofNat 8 c] := by
  show (initialDict ++ longStrings n).getD c [] = _
  rw [List.getD_append _ _ _ _ (by simpa using h), getD_initialDict h]

theorem grown_inv {n : Nat} {s : State} (h : plain s = true) (hn : n ≤ 4194049) (he : s.lzMode = .enc → n < 4194049) :
    BlockInv (grown n s) := by
  obtain ⟨hw, hr, hm, -, -, -, hc, hs, hp⟩ := plain_parts h
  have hmc := grown_maxcode (s := s) hn
  have hb : (grown n s).codelen.toNat = bitlen (grown n s).maxcode.toNat := by
    rw [hmc]
    show (BitVec.ofNat 5 (bitlen (255 + n))).toNat = _
    have := bitlen_le (m := 255 + n) (by omega)
    rw [BitVec.toNat_ofNat]
    omega
  have hlen : (initialDict ++ longStrings n).length = 256 + n := by simp [longStrings]
  refine ⟨hw, hr, hm, ⟨?_, by rw [hmc]; exact Nat.le_add_right _ _, ?_, fun c hc => grown_dictAt_low hc, fun c h1 h2 => ?_⟩,
    fun _ => ⟨hc, fun hl => ⟨?_, fun k hk => ?_, hb, ?_⟩, fun _ => ⟨?_, hb⟩⟩⟩
  · rw [hmc]
    show (initialDict ++ longStrings n).length = _
    omega
  · rw [hmc]
    show _ ≤ 4194304
    omega
  · rw [hmc] at h2
    have hmem : dictAt (grown n s) c ∈ longStrings n := by
      show (initialDict ++ longStrings n).getD c [] ∈ _
      rw [List.getD_append_right _ _ _ _ (by simpa using h1), List.getD_eq_getElem _ _ (by simp [longStrings]; omega)]
      exact List.getElem_mem _
    rw [length_of_mem_longStrings hmem]
    omega
  · refine List.nodup_append.mpr ⟨initialDict_nodup, longStrings_nodup hn, fun x hx y hy hxy => ?_⟩
    have h1 := length_of_mem_initialDict hx
    have h3 := length_of_mem_longStrings hy
    rw [hxy] at h1
    omega
  · rw [hmc]
    exact (hs k hk).trans (Nat.le_add_right _ _)
  · rw [hmc]
    show _ < 4194304
    have := he hl
    omega
  · rw [hmc]
    exact hp.trans (Nat.le_add_right _ _)

/-- A string of two bytes is in no grown dictionary. -/
theorem pair_not_mem_grown (n : Nat) (s : State) (a b : Byte) : [a, b] ∉ (grown n s).dict := by
  show [a, b] ∉ initialDict ++ longStrings n
  rw [List.mem_append]
  rintro (h | h)
  · simpa using length_of_mem_initialDict h
  · simpa using length_of_mem_longStrings h

/-- An encoder whose dictionary holds "AA" as code 256, with the match "A". -/
def doubled : State := { insertNext [0x41, 0x41] lzwEncoding with codelen := 9, sCode := some 65 }

theorem doubled_inv : BlockInv doubled := by
  have hdo : DictOk lzwEncoding := .of_initial rfl rfl
  have hn : codeOf [0x41, 0x41] lzwEncoding = none := by decide +kernel
  have hw : WriteSideOk doubled := by unfold WriteSideOk; decide
  have hr : ReadSideOk doubled := by unfold ReadSideOk; decide
  have h9 : doubled.codelen.toNat = bitlen doubled.maxcode.toNat := by decide
  have h256 : doubled.maxcode.toNat = 256 := by decide
  have hcap : doubled.maxcode.toNat < Config.lzwCap := by rw [h256]; show 256 < 4194304; omega
  have hnd : doubled.dict.Nodup := by
    simp only [doubled]
    exact nodup_insertNext hdo initialDict_nodup hn
  have hc : CoderOk doubled := by unfold CoderOk Renormalized; decide
  refine ⟨hw, hr, .of_ramp rfl rfl, (DictOk.insertNext hdo (t := [0x41, 0x41]) (by decide) (by decide)).congr (by simp only [doubled]) (by simp only [doubled]),
    fun _ => ⟨hc, fun _ => ⟨hnd, fun k hk => ?_, by decide, by decide⟩, fun h => ?_⟩⟩
  · cases hk
    decide
  · cases h

/-! ### Witnesses: encoding and the machine -/

theorem witness_EncodeOfDecodedWordIsTheWord : decode 0x210001FF = some (.aesym 511) := by decide

theorem witness_StepRunsTheDecodedCommand :
    decode 0xFF000000 = some .srst ∧ ({ writing with cmd := some 0xFF000000 } : State).cmd = some 0xFF000000 := by decide

theorem witness_IllegalWordRecordsIllegalCommand_opc :
    ({ writing with cmd := some 0x07000000 } : State).cmd = some 0x07000000 ∧ illegalWord 0x07000000 ∧
      ({ writing with cmd := some 0x07000000 } : State).fault = false := by
  unfold illegalWord
  decide

theorem witness_IllegalWordRecordsIllegalCommand_reserved :
    ({ writing with cmd := some 0x02000040, fault := true } : State).cmd = some 0x02000040 ∧ illegalWord 0x02000040 ∧
      ({ writing with cmd := some 0x02000040, fault := true } : State).fault = true := by
  unfold illegalWord
  decide

/-- A faulted state with this word in CMD. -/
def faulted (w : Word) : State := { writing with wBuf := [7], fault := true, fcode := 5, cmd := some w }

theorem witness_FaultRefusesAllButWcloseAndSrst_refused : (faulted 0x03000001).cmd = some 0x03000001 ∧
    (faulted 0x03000001).fault = true ∧ (0x03000001 : Word) ≠ 0xFF000000 ∧ (0x03000001 : Word) ≠ 0x03000000 := by decide

theorem witness_FaultRefusesAllButWcloseAndSrst_srst :
    (faulted 0xFF000000).cmd = some 0xFF000000 ∧ (faulted 0xFF000000).fault = true := by decide

theorem witness_FaultRefusesAllButWcloseAndSrst_wclose : (faulted 0x03000000).cmd = some 0x03000000 ∧
    (faulted 0x03000000).fault = true ∧ (faulted 0x03000000).wOpen = true := by decide

/-- A state in which the host acts next. -/
def acting (a : HostAction) : State := { writing with host := [a] }

theorem witness_HostActsBetweenCommands : ∀ a : HostAction, (acting a).cmd = none ∧ (acting a).host = a :: [] :=
  fun _ => ⟨rfl, rfl⟩

theorem witness_IdleBlockWaits : writing.cmd = none ∧ writing.host = [] := ⟨rfl, rfl⟩

theorem witness_StateAndOperandChecks_state : State.reset.fault = false ∧ badStateCondition State.reset (.wbits 40) := ⟨rfl, rfl⟩

theorem witness_StateAndOperandChecks_operand : writing.fault = false ∧ ¬ badStateCondition writing (.wbits 0) ∧
    badOperandCondition (.wbits 0) ∧ ¬ badStateCondition writing (.wbits 33) ∧ badOperandCondition (.wbits 33) ∧
    badOperandCondition (.fmprob 257) := by
  refine ⟨rfl, ?_, .inl rfl, ?_, .inr (by decide), show 256 < (257 : BitVec 9).toNat by decide⟩ <;>
    exact fun h => Bool.noConfusion (show true = false from h)

theorem witness_StateAndOperandChecks_accepted : writing.fault = false ∧ ¬ badStateCondition writing (.wbits 32) ∧
    ¬ badOperandCondition (.wbits 32) ∧ ∃ t, exec (.wbits 32) writing = .next t ∧ t.fcode = 0 := by
  refine ⟨rfl, fun h => Bool.noConfusion (show true = false from h), show ¬ ((32 : BitVec 6).toNat = 0 ∨ 32 < (32 : BitVec 6).toNat) by decide, ?_⟩
  obtain ⟨t, h, hc⟩ := meets_next (check := fun t => t.fcode == 0) (o := exec (.wbits 32) writing) (by decide +kernel)
  exact ⟨t, h, by simpa using hc⟩

theorem witness_FaultEndsOnlyWithReset_srst : (faulted 0xFF000000).fault = true ∧
    ∃ t, step (faulted 0xFF000000) = .next t ∧ t.fault = false := by
  obtain ⟨t, h, hc⟩ := meets_next (check := fun t => !t.fault) (o := step (faulted 0xFF000000)) (by decide +kernel)
  exact ⟨rfl, t, h, by simpa using hc⟩

theorem witness_FaultEndsOnlyWithReset_power : ({ acting .powerOn with fault := true } : State).fault = true ∧
    ∃ t, step { acting .powerOn with fault := true } = .next t ∧ t.fault = false := ⟨rfl, _, rfl, rfl⟩

/-- A WCLOSE whose sink fails while InvariantViolation is recorded. -/
theorem witness_FirstFaultIsKept :
    ({ faulted 0x03000000 with fcode := 3, sink := ⟨[], [.fail]⟩ } : State).fault = true ∧
    ∃ t, step { faulted 0x03000000 with fcode := 3, sink := ⟨[], [.fail]⟩ } = .next t ∧ t.fault = true ∧ t.ioSink = true := by
  obtain ⟨t, h, hc⟩ := meets_next (check := fun t => t.fault && t.ioSink)
    (o := step { faulted 0x03000000 with fcode := 3, sink := ⟨[], [.fail]⟩ }) (by decide +kernel)
  exact ⟨rfl, t, h, by simpa using hc⟩

/-- Each of the four events that set END. -/
theorem witness_EndOnlyByTheFourEvents :
    (∃ t, exec (.rbits 1) (reading []) = .next t ∧ t.ended = true) ∧
    (∃ t, exec .ldinit (both [0x41] 1) = .next t ∧ t.ended = true) ∧
    (∃ t, exec .ldstep { lzwDecoding with rBitpos := 32 } = .next t ∧ t.ended = true) ∧
    (∃ t, exec .adsym { decoding with value := 130688 } = .next t ∧ t.ended = true) :=
  ⟨meets_next (by decide +kernel), meets_next (by decide +kernel), meets_next (by decide +kernel), meets_next (by decide +kernel)⟩

theorem witness_DataIsReadByWbitsAlone : (∀ n, Instr.wclose ≠ .wbits n) ∧ Instr.wclose ≠ .srst ∧ ∀ n, Instr.srst ≠ .wbits n := by
  simp

theorem witness_DataPersistsUntilWrittenOrReset : ∃ t, step (acting (.writeData 5)) = .next t := ⟨_, rfl⟩

theorem witness_ResetGivesTheTable : (acting .powerOn).cmd = none ∧ (acting .powerOn).host = .powerOn :: [] := ⟨rfl, rfl⟩

/-! ### Witnesses: Bit Channel -/

theorem witness_StreamsOpenAndClose_closed :
    State.reset.fault = false ∧ State.reset.wOpen = false ∧ State.reset.rOpen = false := by decide

theorem witness_StreamsOpenAndClose_open : (both [1] 3).fault = false ∧ (both [1] 3).wOpen = true ∧ (both [1] 3).rOpen = true := by
  decide

theorem witness_WcloseResult_closed : State.reset.wOpen = false := rfl

theorem witness_WcloseResult_nothing : writing.wOpen = true ∧
    ((if writing.wNbits = 0 then writing.wBuf else writing.wBuf ++ [writing.wAcc]) = [] ∨ writing.ioSink = true) := by decide

theorem witness_WcloseResult_lost : (faulted 0).wOpen = true ∧ ({ faulted 0 with ioSink := true } : State).ioSink = true := by
  decide

/-- A write stream that holds one bit, with this answer to come. -/
def holding (a : SinkAnswer) : State := { writing with wAcc := 0x80, wNbits := 1, sink := ⟨[[1]], [a]⟩ }

theorem witness_WcloseResult_delivered : (holding .ok).wOpen = true ∧
    (if (holding .ok).wNbits = 0 then (holding .ok).wBuf else (holding .ok).wBuf ++ [(holding .ok).wAcc]) ≠ [] ∧
    (holding .ok).ioSink = false ∧ (holding .ok).sink.draws.head? ≠ some .fail := by decide

theorem witness_WcloseResult_failed : (holding .fail).wOpen = true ∧
    (if (holding .fail).wNbits = 0 then (holding .fail).wBuf else (holding .fail).wBuf ++ [(holding .fail).wAcc]) ≠ [] ∧
    (holding .fail).ioSink = false ∧ (holding .fail).sink.draws.head? = some .fail := by decide

theorem witness_WcloseDeliversWhatWasWritten : WriteSideOk (holding .ok) ∧ (holding .ok).fault = false ∧
    (holding .ok).ioSink = false ∧ (holding .ok).wOpen = true ∧ SinkNeverFails (holding .ok) := by
  unfold WriteSideOk SinkNeverFails
  decide

theorem witness_WbitsAppendsTheLowBits : WriteSideOk (holding .ok) ∧ (holding .ok).fault = false ∧ (holding .ok).wOpen = true ∧
    1 ≤ (1 : BitVec 6).toNat ∧ (1 : BitVec 6).toNat ≤ 32 ∧ 1 ≤ (32 : BitVec 6).toNat ∧ (32 : BitVec 6).toNat ≤ 32 ∧
    SinkNeverFails (holding .ok) := by
  unfold WriteSideOk SinkNeverFails
  decide

/-- One bit short of a full load, with this answer to come. -/
def nearlyFull (a : SinkAnswer) : State :=
  { writing with wBuf := List.replicate 131071 0, wAcc := 0xFE, wNbits := 7, data := 1, sink := ⟨[], [a]⟩ }

theorem witness_FullLoadGoesToTheSink (a : SinkAnswer) : (nearlyFull a).fault = false ∧ (nearlyFull a).wOpen = true ∧
    (nearlyFull a).wNbits = 7 ∧ (nearlyFull a).wBuf.length + 1 = 131072 ∧ (nearlyFull a).sink.draws.head? = some a :=
  ⟨rfl, rfl, rfl, by simp only [nearlyFull, List.length_replicate], rfl⟩

theorem witness_SinkReceivesThePackedBits : State.reset.fault = false ∧ State.reset.ioSink = false ∧ State.reset.wOpen = false ∧
    SinkNeverFails State.reset ∧
    ∀ p ∈ [((5 : Word), (1 : BitVec 6)), (7, 32)], 1 ≤ p.2.toNat ∧ p.2.toNat ≤ 32 := by
  refine ⟨rfl, rfl, rfl, fun d hd => (by cases hd), fun p hp => ?_⟩
  rcases List.mem_cons.mp hp with rfl | hp
  · decide
  · rw [List.mem_singleton.mp hp]
    decide

/-- A read stream with 32 bits left, 12 of them fetched. -/
def halfRead : State :=
  { State.reset with rOpen := true, rBuf := [0xA5, 0x0F], rBitpos := 4, source := ⟨[1, 2, 0x34, 0x50], [.data 1]⟩ }

theorem halfRead_length : (unreadBits halfRead).length = 44 := by decide

theorem witness_RbitsReturnsTheNextBits : ReadSideOk halfRead ∧ halfRead.fault = false ∧ halfRead.rOpen = true ∧
    1 ≤ (32 : BitVec 6).toNat ∧ (32 : BitVec 6).toNat ≤ 32 ∧ SourceNeverFails halfRead ∧
    (32 : BitVec 6).toNat ≤ (unreadBits halfRead).length := by
  unfold ReadSideOk SourceNeverFails
  decide

theorem witness_RbitsReturnsTheNextBits_end : ReadSideOk (both [0xA5, 0x0F, 1, 2] 1) ∧ (both [0xA5, 0x0F, 1, 2] 1).fault = false ∧
    (both [0xA5, 0x0F, 1, 2] 1).rOpen = true ∧ SourceNeverFails (both [0xA5, 0x0F, 1, 2] 1) ∧
    (unreadBits (both [0xA5, 0x0F, 1, 2] 1)).length < (32 : BitVec 6).toNat := by
  unfold ReadSideOk SourceNeverFails
  decide

theorem witness_ReadsDoNotDependOnTheDraws : ReadSideOk halfRead ∧ SourceNeverFails halfRead ∧
    ∀ d ∈ [SourceDraw.data 3, .data 0], d ≠ .fail := by
  unfold ReadSideOk SourceNeverFails
  decide

/-- Twelve bits fetched, and a source that fails. -/
def failing : State := { halfRead with source := ⟨[1, 2], [.fail]⟩ }

theorem witness_FailingSourceFaultsTheRead : failing.fault = false ∧ failing.rOpen = true ∧ 1 ≤ (13 : BitVec 6).toNat ∧
    (13 : BitVec 6).toNat ≤ 32 ∧ 8 * failing.rBuf.length - failing.rBitpos < (13 : BitVec 6).toNat ∧ failing.rSrcEnd = false ∧
    failing.source.draws.head? = some .fail := by decide

theorem witness_MixedWidths_reads : 1 ≤ (1 : BitVec 6).toNat ∧ 1 ≤ (31 : BitVec 6).toNat ∧
    (32 : BitVec 6).toNat = (1 : BitVec 6).toNat + (31 : BitVec 6).toNat ∧ (32 : BitVec 6).toNat ≤ 32 ∧ halfRead.fault = false ∧
    ReadSideOk halfRead ∧ halfRead.rOpen = true ∧ SourceNeverFails halfRead ∧
    (32 : BitVec 6).toNat ≤ (unreadBits halfRead).length := by
  unfold ReadSideOk SourceNeverFails
  decide

theorem witness_MixedWidths_writes : (holding .ok).fault = false ∧ WriteSideOk (holding .ok) ∧ (holding .ok).wOpen = true ∧
    SinkNeverFails (holding .ok) ∧ (0x7FFFFFFF : Word).toNat < 2 ^ (31 : BitVec 6).toNat ∧
    (0xFFFFFFFF : Word).toNat = ((3 : Word).toNat * 2 ^ (31 : BitVec 6).toNat + (0x7FFFFFFF : Word).toNat)
      % 2 ^ (32 : BitVec 6).toNat := by
  unfold WriteSideOk SinkNeverFails
  decide

/-! ### Witnesses: Frequency Model -/

theorem reset_modelOk : ModelOk State.reset := .of_ramp rfl rfl

theorem witness_FmrstAndFmtotResults : State.reset.fault = false ∧ ModelOk State.reset := ⟨rfl, reset_modelOk⟩

theorem witness_FmprobResult : State.reset.fault = false ∧ ModelOk State.reset ∧ (0 : BitVec 9).toNat ≤ 256 ∧
    (256 : BitVec 9).toNat ≤ 256 ∧ 256 < (257 : BitVec 9).toNat := ⟨rfl, reset_modelOk, by decide, by decide, by decide⟩

theorem witness_FmsymResult : State.reset.fault = false ∧ ModelOk State.reset ∧ (0 : BitVec 24).toNat < cumAt State.reset 257 ∧
    (256 : BitVec 24).toNat < cumAt State.reset 257 ∧ cumAt State.reset 257 ≤ (257 : BitVec 24).toNat :=
  ⟨rfl, reset_modelOk, by decide +kernel, by decide +kernel, by decide +kernel⟩

theorem witness_FrequenciesCountTheUpdates : State.reset.fault = false ∧ State.reset.cum = List.range 258 ∧
    State.reset.frozen = false ∧ ∀ x ∈ [(0 : BitVec 9), 256], x.toNat ≤ 256 := by
  refine ⟨rfl, by simp [State.reset, identityRamp], rfl, by decide⟩

/-! ### Witnesses: Arithmetic Coder -/

theorem witness_AeinitResult : State.reset.fault = false := rfl

/-- An encoder with so many bits pending. -/
def pendingBits (p : BitVec 32) : State := { encoding with pending := p }

theorem pendingBits_inv (p : BitVec 32) : BlockInv (pendingBits p) := plain_inv (s := pendingBits p) (by
  have : plain (pendingBits p) = plain encoding := rfl
  rw [this]
  decide +kernel)

/-- Symbol 128 takes eight E3 cases: with eight less than the largest value pending they just fit. -/
theorem witness_AesymEncodesTheSymbol : BlockInv (pendingBits 4294967287) ∧ (pendingBits 4294967287).fault = false ∧
    (pendingBits 4294967287).acMode = .enc ∧ (pendingBits 4294967287).wOpen = true ∧ (128 : BitVec 9).toNat ≤ 256 ∧
    SinkNeverFails (pendingBits 4294967287) ∧
    (pendingBits 4294967287).pending.toNat +
      leadingUnderflows (symbolCases (pendingBits 4294967287) (128 : BitVec 9).toNat) = 4294967295 :=
  ⟨pendingBits_inv _, rfl, rfl, rfl, by decide, by unfold SinkNeverFails; decide, by decide +kernel⟩

/-- One more pending than fits, and the largest value. -/
theorem witness_AesymPendingOverflow (p : BitVec 32) (h : p = 4294967288 ∨ p = 4294967295) : BlockInv (pendingBits p) ∧
    (pendingBits p).fault = false ∧ (pendingBits p).acMode = .enc ∧ (pendingBits p).wOpen = true ∧
    (128 : BitVec 9).toNat ≤ 256 ∧
    4294967295 < (pendingBits p).pending.toNat +
      leadingUnderflows (symbolCases (pendingBits p) (128 : BitVec 9).toNat) := by
  rcases h with rfl | rfl <;> exact ⟨pendingBits_inv _, rfl, rfl, rfl, by decide, by decide +kernel⟩

theorem witness_AefinResult : WriteSideOk (pendingBits 4294967294) ∧ (pendingBits 4294967294).fault = false ∧
    (pendingBits 4294967294).acMode = .enc ∧ (pendingBits 4294967294).wOpen = true ∧
    (pendingBits 4294967294).pending ≠ 4294967295 ∧ SinkNeverFails (pendingBits 4294967294) :=
  ⟨(pendingBits_inv _).1, rfl, rfl, rfl, by decide, by unfold SinkNeverFails; decide⟩

theorem witness_AefinResult_overflow : WriteSideOk (pendingBits 4294967295) ∧ (pendingBits 4294967295).fault = false ∧
    (pendingBits 4294967295).acMode = .enc ∧ (pendingBits 4294967295).wOpen = true ∧
    (pendingBits 4294967295).pending = 4294967295 := ⟨(pendingBits_inv _).1, rfl, rfl, rfl, rfl⟩

theorem witness_AdinitResult : ReadSideOk (both [0x41, 0xBD] 0) ∧ (both [0x41, 0xBD] 0).fault = false ∧
    (both [0x41, 0xBD] 0).rOpen = true ∧ SourceNeverFails (both [0x41, 0xBD] 0) := by
  unfold ReadSideOk SourceNeverFails
  decide

/-- The least and the greatest byte symbol. -/
theorem witness_AdsymDecodesAByte (v : BitVec 17) (sym : Nat) (h : (v, sym) = (0, 0) ∨ (v, sym) = (130100, 255)) :
    let s : State := { decoding with value := v }
    BlockInv s ∧ s.fault = false ∧ s.acMode = .dec ∧ s.rOpen = true ∧ s.wOpen = true ∧ sym ≤ 255 ∧ cumAt s sym ≤ scaledOf s ∧
      scaledOf s < cumAt s (sym + 1) ∧ SinkNeverFails s ∧ SourceNeverFails s := by
  rcases h with h | h <;> cases h <;>
    exact ⟨plain_inv (by decide +kernel), rfl, rfl, rfl, rfl, by decide, by decide +kernel, by decide +kernel,
      by unfold SinkNeverFails; decide, by unfold SourceNeverFails; decide⟩

theorem witness_AdsymDecodesTheEnd : let s : State := { decoding with value := 131071 }
    BlockInv s ∧ s.fault = false ∧ s.acMode = .dec ∧ s.rOpen = true ∧ s.wOpen = true ∧ cumAt s 256 ≤ scaledOf s :=
  ⟨plain_inv (by decide +kernel), rfl, rfl, rfl, rfl, by decide +kernel⟩

theorem decoding_inv : BlockInv decoding := plain_inv (by decide +kernel)

theorem encoding_inv : BlockInv encoding := plain_inv (by decide +kernel)

theorem witness_DecoderAlwaysFindsASymbol : BlockInv decoding ∧ decoding.fault = false ∧ decoding.acMode = .dec :=
  ⟨decoding_inv, rfl, rfl⟩

theorem witness_CodersStayInStep : ∃ e' d', BlockInv encoding ∧ BlockInv decoding ∧ encoding.fault = false ∧
    decoding.fault = false ∧ encoding.acMode = .enc ∧ decoding.acMode = .dec ∧ encoding.low = decoding.low ∧
    encoding.high = decoding.high ∧ encoding.cum = decoding.cum ∧ encoding.frozen = decoding.frozen ∧
    exec (.aesym 65) encoding = .next e' ∧ exec .adsym decoding = .next d' ∧ e'.fault = false ∧ d'.fault = false ∧
    (65 : BitVec 9).toNat ≤ 255 ∧ d'.r3.toNat = (65 : BitVec 9).toNat := by
  obtain ⟨e', he, h1⟩ := meets_next (check := fun t => !t.fault) (o := exec (.aesym 65) encoding) (by decide +kernel)
  obtain ⟨d', hd, h2⟩ := meets_next (check := fun t => !t.fault && t.r3.toNat == 65) (o := exec .adsym decoding)
    (by decide +kernel)
  simp only [Bool.and_eq_true, Bool.not_eq_true', beq_iff_eq] at h1 h2
  exact ⟨e', d', encoding_inv, decoding_inv, rfl, rfl, rfl, rfl, rfl, rfl, rfl, rfl, he, hd, h1, h2.1, by decide, h2.2⟩

/-! ### Witnesses: LZW Transform -/

theorem witness_LeinitResult : State.reset.fault = false := rfl

/-- An encoder with this match. -/
def matched (k : Option Code) : State := { lzwEncoding with sCode := k }

theorem witness_LebyteExtendsTheMatch_first : BlockInv (matched none) ∧ (matched none).fault = false ∧
    (matched none).lzMode = .enc ∧ (matched none).wOpen = true ∧ (matched none).sCode = none :=
  ⟨plain_inv (by decide +kernel), rfl, rfl, rfl, rfl⟩

theorem witness_LebyteExtendsTheMatch_longer : BlockInv doubled ∧ doubled.fault = false ∧ doubled.lzMode = .enc ∧
    doubled.wOpen = true ∧ doubled.sCode = some 65 ∧ (256 : Code).toNat ≤ doubled.maxcode.toNat ∧
    dictAt doubled (256 : Code).toNat = dictAt doubled (65 : Code).toNat ++ [0x41] :=
  ⟨doubled_inv, rfl, rfl, rfl, rfl, by decide, by decide +kernel⟩

/-- Clauses about an encoder with the match "A" and a byte that makes a new string, with `n` strings above the one-byte ones. -/
theorem grown_miss (n : Nat) (hn : n < 4194049) : BlockInv (grown n (matched (some 65))) ∧
    (grown n (matched (some 65))).fault = false ∧ (grown n (matched (some 65))).lzMode = .enc ∧
    (grown n (matched (some 65))).wOpen = true ∧ (grown n (matched (some 65))).sCode = some 65 ∧
    dictAt (grown n (matched (some 65))) (65 : Code).toNat ++ [0x41] ∉ (grown n (matched (some 65))).dict ∧
    (grown n (matched (some 65))).maxcode.toNat = 255 + n ∧ SinkNeverFails (grown n (matched (some 65))) := by
  refine ⟨grown_inv (by decide +kernel) hn.le fun _ => hn, rfl, rfl, rfl, rfl, ?_, grown_maxcode hn.le, ?_⟩
  · rw [grown_dictAt_low (by decide)]
    exact pair_not_mem_grown _ _ _ _
  · intro d hd
    cases hd

/-- The fresh dictionary, and the last insertion below the cap. -/
theorem witness_LebyteEmitsOnAMiss :
    (grown 0 (matched (some 65))).maxcode.toNat + 1 < 4194304 ∧ (grown 4194047 (matched (some 65))).maxcode.toNat + 1 < 4194304 := by
  rw [(grown_miss 0 (by omega)).2.2.2.2.2.2.1, (grown_miss 4194047 (by omega)).2.2.2.2.2.2.1]
  omega

theorem witness_LebyteResetsAtTheCap : (grown 4194048 (matched (some 65))).maxcode.toNat + 1 = 4194304 := by
  rw [(grown_miss 4194048 (by omega)).2.2.2.2.2.2.1]

theorem witness_LefinResult_none : WriteSideOk (matched none) ∧ (matched none).fault = false ∧ (matched none).lzMode = .enc ∧
    (matched none).wOpen = true ∧ (matched none).sCode = none := by
  unfold WriteSideOk
  decide

theorem witness_LefinResult_some : WriteSideOk (matched (some 65)) ∧ (matched (some 65)).fault = false ∧
    (matched (some 65)).lzMode = .enc ∧ (matched (some 65)).wOpen = true ∧ (matched (some 65)).sCode = some 65 ∧
    SinkNeverFails (matched (some 65)) := by
  unfold WriteSideOk SinkNeverFails
  decide

theorem witness_LdinitResult : ReadSideOk (both [0x41, 0x80] 8) ∧ WriteSideOk (both [0x41, 0x80] 8) ∧
    (both [0x41, 0x80] 8).fault = false ∧ (both [0x41, 0x80] 8).rOpen = true ∧ (both [0x41, 0x80] 8).wOpen = true ∧
    SourceNeverFails (both [0x41, 0x80] 8) ∧ SinkNeverFails (both [0x41, 0x80] 8) ∧
    8 ≤ (unreadBits (both [0x41, 0x80] 8)).length ∧ (unreadBits (both [0x41, 0x80] 9)).length < 8 := by
  unfold ReadSideOk WriteSideOk SourceNeverFails SinkNeverFails
  decide

/-- A decoder that has these bits of these bytes left, with `n` strings above the one-byte ones. -/
def decodingFrom (n : Nat) (bytes : List Byte) (pos : Nat) : State := grown n { both bytes pos with lzMode := .dec, prev := 65 }

theorem decodingFrom_ok {n : Nat} {bytes : List Byte} {pos : Nat} (hn : n ≤ 4194049) (hb : bytes.length ≤ 131072)
    (hp : pos ≤ 8 * bytes.length) : BlockInv (decodingFrom n bytes pos) ∧ (decodingFrom n bytes pos).fault = false ∧
    (decodingFrom n bytes pos).lzMode = .dec ∧ (decodingFrom n bytes pos).rOpen = true ∧ (decodingFrom n bytes pos).wOpen = true ∧
    (decodingFrom n bytes pos).maxcode.toNat = 255 + n ∧ SourceNeverFails (decodingFrom n bytes pos) ∧
    SinkNeverFails (decodingFrom n bytes pos) := by
  refine ⟨grown_inv ?_ hn fun h => ?_, rfl, rfl, rfl, rfl, grown_maxcode hn, ?_, ?_⟩
  · have h0 : plain { both [] 0 with lzMode := .dec, prev := 65 } = true := by decide +kernel
    simp only [plain, Bool.and_eq_true, decide_eq_true_eq] at h0 ⊢
    obtain ⟨⟨⟨⟨⟨⟨⟨⟨⟨⟨⟨⟨⟨⟨⟨h1, h2⟩, h3⟩, -⟩, -⟩, h6⟩, h7⟩, h8⟩, h9⟩, h10⟩, h11⟩, h12⟩, h13⟩, h14⟩, h15⟩, h16⟩ := h0
    exact ⟨⟨⟨⟨⟨⟨⟨⟨⟨⟨⟨⟨⟨⟨⟨h1, h2⟩, h3⟩, hb⟩, hp⟩, h6⟩, h7⟩, h8⟩, h9⟩, h10⟩, h11⟩, h12⟩, h13⟩,
      h14⟩, h15⟩, h16⟩
  · cases h
  · intro d hd
    cases hd
  · intro d hd
    cases hd

/-- The self-referential code at MAXCODE = 255, the code 0, and the last width below the cap. -/
theorem witness_LdstepDecodesACode :
    (bitlen 256 ≤ (unreadBits (decodingFrom 0 [0x80, 0] 0)).length ∧
      valueOfBits ((unreadBits (decodingFrom 0 [0x80, 0] 0)).take (bitlen 256)) = 256) ∧
    (bitlen 256 ≤ (unreadBits (decodingFrom 0 [0, 0] 7)).length ∧
      valueOfBits ((unreadBits (decodingFrom 0 [0, 0] 7)).take (bitlen 256)) ≤ 256) ∧
    (bitlen 4194304 ≤ (unreadBits (decodingFrom 4194048 [0x80, 0, 0] 0)).length ∧
      valueOfBits ((unreadBits (decodingFrom 4194048 [0x80, 0, 0] 0)).take (bitlen 4194304)) ≤ 4194304) := by decide +kernel

/-- One bit short of a code, and the least code above MAXCODE + 1. -/
theorem witness_LdstepEndsOrRejects :
    (unreadBits (decodingFrom 0 [0x80, 0] 8)).length < bitlen 256 ∧
    bitlen 256 ≤ (unreadBits (decodingFrom 0 [0x80, 0x80] 0)).length ∧
    256 < valueOfBits ((unreadBits (decodingFrom 0 [0x80, 0x80] 0)).take (bitlen 256)) := by decide +kernel

/-- At the cap: a whole code of 8 bits left, and one bit less. -/
theorem witness_LdstepResetsAtTheCap : (decodingFrom 4194049 [0x41] 0).maxcode.toNat = 4194304 ∧
    8 ≤ (unreadBits (decodingFrom 4194049 [0x41] 0)).length ∧ (unreadBits (decodingFrom 4194049 [0x41] 1)).length < 8 :=
  ⟨(decodingFrom_ok (by omega) (by decide) (by decide)).2.2.2.2.2.1, by decide +kernel, by decide +kernel⟩

theorem lzwDecoding_inv : BlockInv lzwDecoding := plain_inv (by decide +kernel)

theorem witness_CodeWidthsAlign : ∃ e' d', BlockInv doubled ∧ BlockInv lzwDecoding ∧ doubled.fault = false ∧
    lzwDecoding.fault = false ∧ doubled.lzMode = .enc ∧ lzwDecoding.lzMode = .dec ∧
    lzwDecoding.maxcode.toNat + 1 = doubled.maxcode.toNat ∧
    (Instr.lebyte 0x42 = .lefin ∨ ∃ c, Instr.lebyte 0x42 = .lebyte c) ∧
    exec (.lebyte 0x42) doubled = .next e' ∧ e'.fault = false ∧ e'.r0 = 1 ∧ exec .ldstep lzwDecoding = .next d' ∧
    d'.fault = false ∧ d'.ended = false := by
  obtain ⟨e', he, h1⟩ := meets_next (check := fun t => !t.fault && t.r0 == 1) (o := exec (.lebyte 0x42) doubled)
    (by decide +kernel)
  obtain ⟨d', hd, h2⟩ := meets_next (check := fun t => !t.fault && !t.ended) (o := exec .ldstep lzwDecoding)
    (by decide +kernel)
  simp only [Bool.and_eq_true, Bool.not_eq_true', beq_iff_eq] at h1 h2
  exact ⟨e', d', doubled_inv, lzwDecoding_inv, rfl, rfl, rfl, rfl, by decide, .inr ⟨_, rfl⟩, he, h1.1, h1.2, hd, h2.1, h2.2⟩

/-! ### Witnesses: hosts that fail -/

/-- A state whose write side has room for so many bits before it fills a load, with a sink that fails on it. -/
def filled (room : Nat) (s : State) : State :=
  { s with
    wBuf := List.replicate ((1048576 - room) / 8) 0, wAcc := 0
    wNbits := ⟨(1048576 - room) % 8, Nat.mod_lt _ (by decide)⟩, sink := ⟨[], [.fail]⟩ }

theorem filled_inv {room : Nat} {s : State} (h : BlockInv s) (ho : s.wOpen = true) (hr : 1 ≤ room) :
    BlockInv (filled room s) := by
  refine ⟨⟨Nat.zero_mod _, ?_, fun h' => ?_⟩, h.2⟩
  · show (List.replicate ((1048576 - room) / 8) (0 : Byte)).length < 131072
    rw [List.length_replicate]
    omega
  · exact absurd (ho.symm.trans h') (by decide)

theorem loadsFilled_filled {room n : Nat} {s : State} :
    loadsFilled (filled room s) n = (1048576 - room + n) / 1048576 := by
  unfold loadsFilled filled
  rw [List.length_replicate]
  dsimp only
  rw [Nat.div_add_mod]

theorem filled_fails {room n : Nat} {s : State} (hr : room ≤ 1048576) (h : room ≤ n) : SinkFailsOn (filled room s) n := by
  obtain ⟨k, hk⟩ : ∃ k, (1048576 - room + n) / 1048576 = k + 1 := ⟨(1048576 - room + n) / 1048576 - 1, by omega⟩
  unfold SinkFailsOn
  rw [loadsFilled_filled, hk]
  exact List.mem_cons_self

theorem filled_fits {room n : Nat} {s : State} (hr : room ≤ 1048576) (h : n < room) : ¬ SinkFailsOn (filled room s) n := by
  unfold SinkFailsOn
  rw [loadsFilled_filled, Nat.div_eq_of_lt (by omega)]
  exact List.not_mem_nil

theorem writing_inv : BlockInv writing := plain_inv (by decide +kernel)

/-- The last bit of a load, and all 32 bits of the widest write. -/
theorem witness_SinkFailureFaultsTheWriters_wbits (n : BitVec 6) (h : n = 1 ∨ n = 32) :
    BlockInv (filled n.toNat writing) ∧ (filled n.toNat writing).fault = false ∧ (filled n.toNat writing).wOpen = true ∧
      1 ≤ n.toNat ∧ n.toNat ≤ 32 ∧ SinkFailsOn (filled n.toNat writing) n.toNat := by
  have hn : 1 ≤ n.toNat ∧ n.toNat ≤ 32 := by rcases h with rfl | rfl <;> decide
  exact ⟨filled_inv writing_inv rfl hn.1, rfl, rfl, hn.1, hn.2, filled_fails (hn.2.trans (by decide)) le_rfl⟩

theorem witness_SinkFailureFaultsTheWriters_aesym : BlockInv (filled 1 encoding) ∧ (filled 1 encoding).fault = false ∧
    (filled 1 encoding).wOpen = true ∧ (filled 1 encoding).acMode = .enc ∧ (65 : BitVec 9).toNat ≤ 256 ∧
    (filled 1 encoding).pending.toNat + leadingUnderflows (symbolCases encoding (65 : BitVec 9).toNat) ≤ 4294967295 ∧
    symbolCases (filled 1 encoding) (65 : BitVec 9).toNat = symbolCases encoding (65 : BitVec 9).toNat ∧
    SinkFailsOn (filled 1 encoding)
      (bitPlusFollow (symbolCases encoding (65 : BitVec 9).toNat) (filled 1 encoding).pending.toNat).1.length :=
  ⟨filled_inv encoding_inv rfl (by decide), rfl, rfl, rfl, by decide, by
    rw [show (filled 1 encoding).pending = encoding.pending from rfl]; decide +kernel, rfl, filled_fails (by decide) (by
    rw [show (filled 1 encoding).pending = encoding.pending from rfl]; decide +kernel)⟩

theorem witness_SinkFailureFaultsTheWriters_aefin : BlockInv (filled 2 encoding) ∧ (filled 2 encoding).fault = false ∧
    (filled 2 encoding).wOpen = true ∧ (filled 2 encoding).acMode = .enc ∧ (filled 2 encoding).pending ≠ 4294967295 ∧
    SinkFailsOn (filled 2 encoding) ((filled 2 encoding).pending.toNat + 2) :=
  ⟨filled_inv encoding_inv rfl (by decide), rfl, rfl, rfl, by
    rw [show (filled 2 encoding).pending = encoding.pending from rfl]; decide, filled_fails (by decide) (Nat.le_add_left _ _)⟩

/-- The code of the match at 8 bits in a fresh dictionary; and at the cap its 22 bits fit and the byte's 23 do not. -/
theorem witness_SinkFailureFaultsTheWriters_lebyte (n room : Nat) (h : (n, room) = (0, 8) ∨ (n, room) = (4194048, 23)) :
    let s := filled room (grown n (matched (some 65)))
    BlockInv s ∧ s.fault = false ∧ s.wOpen = true ∧ s.lzMode = .enc ∧ s.sCode = some 65 ∧
      dictAt s (65 : Code).toNat ++ [0x41] ∉ s.dict ∧
      (n = 0 → SinkFailsOn s (bitlen s.maxcode.toNat)) ∧
      (n = 4194048 → s.maxcode.toNat + 1 = 4194304 ∧ ¬ SinkFailsOn s 22 ∧ SinkFailsOn s 45) := by
  have hn : n < 4194049 := by rcases h with h | h <;> cases h <;> omega
  have hroom : 1 ≤ room ∧ room ≤ 1048576 := by rcases h with h | h <;> cases h <;> omega
  obtain ⟨h1, h2, h3, h4, h5, h6, h7, -⟩ := grown_miss n hn
  refine ⟨filled_inv h1 h4 hroom.1, h2, h4, h3, h5, h6, fun h0 => ?_, fun h0 => ⟨?_, ?_, ?_⟩⟩
  · rw [show (filled room (grown n (matched (some 65)))).maxcode = (grown n (matched (some 65))).maxcode from rfl, h7, h0]
    refine filled_fails hroom.2 ?_
    have hb : bitlen 255 = 8 := by decide
    rcases h with h | h <;> cases h
    · exact hb.ge
    · cases h0
  · rw [show (filled room (grown n (matched (some 65)))).maxcode = (grown n (matched (some 65))).maxcode from rfl, h7, h0]
  · refine filled_fits hroom.2 ?_
    rcases h with h | h <;> cases h <;> omega
  · refine filled_fails hroom.2 ?_
    rcases h with h | h <;> cases h <;> omega

theorem witness_SinkFailureFaultsTheWriters_lefin : BlockInv (filled 8 (matched (some 65))) ∧
    (filled 8 (matched (some 65))).fault = false ∧ (filled 8 (matched (some 65))).wOpen = true ∧
    (filled 8 (matched (some 65))).lzMode = .enc ∧ (filled 8 (matched (some 65))).sCode = some 65 ∧
    SinkFailsOn (filled 8 (matched (some 65))) (filled 8 (matched (some 65))).codelen.toNat :=
  ⟨filled_inv (plain_inv (by decide +kernel)) rfl (by decide), rfl, rfl, rfl, rfl, filled_fails (by decide) (by
    rw [show (filled 8 (matched (some 65))).codelen = (matched (some 65)).codelen from rfl]; decide)⟩

theorem witness_SinkFailureFaultsTheDecoders_adsym : BlockInv (filled 8 decoding) ∧ (filled 8 decoding).fault = false ∧
    (filled 8 decoding).rOpen = true ∧ (filled 8 decoding).wOpen = true ∧ (filled 8 decoding).acMode = .dec ∧
    cumAt (filled 8 decoding) 65 ≤ scaledOf decoding ∧ scaledOf decoding < cumAt (filled 8 decoding) 66 ∧
    scaledOf (filled 8 decoding) = scaledOf decoding ∧ SinkFailsOn (filled 8 decoding) 8 :=
  ⟨filled_inv decoding_inv rfl (by decide), rfl, rfl, rfl, rfl, by
    rw [show cumAt (filled 8 decoding) = cumAt decoding from rfl]; decide +kernel, by
    rw [show cumAt (filled 8 decoding) = cumAt decoding from rfl]; decide +kernel, rfl, filled_fails (by decide) le_rfl⟩

theorem witness_SinkFailureFaultsTheDecoders_ldinit : BlockInv (filled 8 (both [0x41, 0x80] 8)) ∧
    (filled 8 (both [0x41, 0x80] 8)).fault = false ∧ (filled 8 (both [0x41, 0x80] 8)).rOpen = true ∧
    (filled 8 (both [0x41, 0x80] 8)).wOpen = true ∧ SourceNeverFails (filled 8 (both [0x41, 0x80] 8)) ∧
    unreadBits (filled 8 (both [0x41, 0x80] 8)) = unreadBits (both [0x41, 0x80] 8) ∧
    8 ≤ (unreadBits (both [0x41, 0x80] 8)).length ∧ SinkFailsOn (filled 8 (both [0x41, 0x80] 8)) 8 :=
  ⟨filled_inv (plain_inv (by decide +kernel)) rfl (by decide), rfl, rfl, rfl, (fun d hd => by cases hd), rfl, by decide,
    filled_fails (by decide) le_rfl⟩

/-- The self-referential code, whose string has two bytes; and at the cap a code of 8 bits. -/
theorem witness_SinkFailureFaultsTheDecoders_ldstep (n room : Nat) (bytes : List Byte)
    (h : (n, room, bytes) = (0, 16, [0x80, 0]) ∨ (n, room, bytes) = (4194049, 8, [0x41])) :
    let s := filled room (decodingFrom n bytes 0)
    BlockInv s ∧ s.fault = false ∧ s.rOpen = true ∧ s.wOpen = true ∧ s.lzMode = .dec ∧ s.maxcode.toNat = 255 + n ∧
      SourceNeverFails s ∧ unreadBits s = unreadBits (decodingFrom n bytes 0) ∧
      (n = 0 → SinkFailsOn s (8 * (dictAt s (65 : Code).toNat ++ (dictAt s (65 : Code).toNat).take 1).length)) ∧
      (n = 4194049 → 8 ≤ (unreadBits (decodingFrom n bytes 0)).length ∧ SinkFailsOn s 8) := by
  have hn : n ≤ 4194049 := by rcases h with h | h <;> cases h <;> omega
  have hroom : 1 ≤ room ∧ room ≤ 1048576 := by rcases h with h | h <;> cases h <;> omega
  have hb : bytes.length ≤ 131072 := by rcases h with h | h <;> cases h <;> decide
  obtain ⟨h1, h2, h3, h4, h5, h6, h7, -⟩ := decodingFrom_ok (pos := 0) hn hb (Nat.zero_le _)
  refine ⟨filled_inv h1 h5 hroom.1, h2, h4, h5, h3, h6, h7, rfl, fun h0 => ?_, fun h0 => ⟨?_, ?_⟩⟩
  · refine filled_fails hroom.2 ?_
    rw [show dictAt (filled room (decodingFrom n bytes 0)) = dictAt (grown n { both bytes 0 with lzMode := .dec, prev := 65 })
      from rfl, grown_dictAt_low (by decide)]
    rcases h with h | h <;> cases h
    · decide
    · cases h0
  · rcases h with h | h <;> cases h
    · cases h0
    · decide +kernel
  · refine filled_fails hroom.2 ?_
    rcases h with h | h <;> cases h
    · cases h0
    · exact le_rfl

/-- A state whose source answers these draws and then fails. -/
def failsAfter (bytes : List Byte) (draws : List SourceDraw) (s : State) : State :=
  { s with rSrcEnd := false, source := ⟨bytes, draws ++ [.fail]⟩ }

theorem failsAfter_inv {bytes : List Byte} {draws : List SourceDraw} {s : State} (h : BlockInv s) (hr : s.rOpen = true) :
    BlockInv (failsAfter bytes draws s) :=
  ⟨h.1, ⟨h.2.1.1, h.2.1.2.1, fun h' => absurd (hr.symm.trans h') (by decide)⟩, h.2.2⟩

/-- Twelve bits fetched and one more byte to come: the 21st bit is out of reach. -/
theorem witness_SourceFailureFaultsTheReaders_rbits : BlockInv (failsAfter [1, 2] [.data 1] halfRead) ∧
    (failsAfter [1, 2] [.data 1] halfRead).fault = false ∧ (failsAfter [1, 2] [.data 1] halfRead).rOpen = true ∧
    bitsBeforeFail (failsAfter [1, 2] [.data 1] halfRead) = some 20 ∧ (21 : BitVec 6).toNat ≤ 32 ∧ 20 < (21 : BitVec 6).toNat ∧
    (32 : BitVec 6).toNat ≤ 32 ∧ 20 < (32 : BitVec 6).toNat :=
  ⟨failsAfter_inv (plain_inv (by decide +kernel)) rfl, rfl, rfl, by decide, by decide, by decide, by decide, by decide⟩

/-- One bit short of the 17 bits of VALUE, and of the 8 bits of a first code. -/
theorem witness_SourceFailureFaultsTheReaders_inits (bytes : List Byte) (pos m : Nat)
    (h : (bytes, pos, m) = ([0x41, 0xBD], 0, 16) ∨ (bytes, pos, m) = ([0x41], 1, 7)) :
    BlockInv (failsAfter [7] [] (both bytes pos)) ∧ (failsAfter [7] [] (both bytes pos)).fault = false ∧
      (failsAfter [7] [] (both bytes pos)).rOpen = true ∧ (failsAfter [7] [] (both bytes pos)).wOpen = true ∧
      bitsBeforeFail (failsAfter [7] [] (both bytes pos)) = some m ∧ m < 17 ∧ (m = 7 → m < 8) := by
  rcases h with h | h <;> cases h <;>
    exact ⟨failsAfter_inv (plain_inv (by decide +kernel)) rfl, rfl, rfl, rfl, by decide, by decide, by decide⟩

/-- Symbol 65 takes seven bits, and six are left. -/
theorem witness_SourceFailureFaultsTheReaders_adsym : let s := failsAfter [] [] { decoding with rBitpos := 18 }
    BlockInv s ∧ s.fault = false ∧ s.rOpen = true ∧ bitsBeforeFail s = some 6 ∧ s.acMode = .dec ∧ s.wOpen = true ∧
      cumAt s 65 ≤ scaledOf s ∧ scaledOf s < cumAt s 66 ∧ ¬ SinkFailsOn s 8 ∧ 6 < (symbolCases s 65).length :=
  ⟨failsAfter_inv (plain_inv (by decide +kernel)) rfl, rfl, rfl, by decide, rfl, rfl, by decide +kernel, by decide +kernel,
    by unfold SinkFailsOn; decide, by decide +kernel⟩

/-- One bit short of a code of 9 bits; and at the cap one bit short of 8. -/
theorem witness_SourceFailureFaultsTheReaders_ldstep (n : Nat) (bytes : List Byte) (pos m : Nat)
    (h : (n, bytes, pos, m) = (0, [0x80, 0], 8, 8) ∨ (n, bytes, pos, m) = (4194049, [0x41], 1, 7)) :
    let s := failsAfter [7] [] (decodingFrom n bytes pos)
    BlockInv s ∧ s.fault = false ∧ s.rOpen = true ∧ bitsBeforeFail s = some m ∧ s.lzMode = .dec ∧ s.wOpen = true ∧
      s.maxcode.toNat = 255 + n ∧ m < bitlen (255 + n + 1) ∧ (n = 4194049 → m < 8) := by
  have hn : n ≤ 4194049 := by rcases h with h | h <;> cases h <;> omega
  have hb : bytes.length ≤ 131072 ∧ pos ≤ 8 * bytes.length := by rcases h with h | h <;> cases h <;> decide
  obtain ⟨h1, h2, h3, h4, h5, h6, -, -⟩ := decodingFrom_ok hn hb.1 hb.2
  refine ⟨failsAfter_inv h1 h4, h2, h4, ?_, h3, h5, h6, ?_, fun h0 => ?_⟩
  · rcases h with h | h <;> cases h <;> rfl
  · rcases h with h | h <;> cases h <;> decide +kernel
  · rcases h with h | h <;> cases h
    · cases h0
    · decide

/-! ### Witnesses: the whole block -/

theorem witness_EveryStepKeepsBlockInv : BlockInv { lzwDecoding with cmd := some 0x39000000 } ∧
    ∃ t, step { lzwDecoding with cmd := some 0x39000000 } = .next t ∧ t.r0 = 2 := by
  obtain ⟨t, h, hc⟩ := meets_next (check := fun t => t.r0 == 2) (o := step { lzwDecoding with cmd := some 0x39000000 })
    (by decide +kernel)
  exact ⟨plain_inv (by decide +kernel), t, h, by simpa using hc⟩

theorem witness_GoodStatesNeverStop : BlockInv { decoding with cmd := some 0x29000000 } := plain_inv (by decide +kernel)

theorem witness_StatusStaysLegal : StatusOk { faulted 0x03000000 with sink := ⟨[], [.fail]⟩ } ∧
    ∃ t, step { faulted 0x03000000 with sink := ⟨[], [.fail]⟩ } = .next t ∧ t.ioSink = true := by
  obtain ⟨t, h, hc⟩ := meets_next (check := fun t => t.ioSink) (o := step { faulted 0x03000000 with sink := ⟨[], [.fail]⟩ })
    (by decide +kernel)
  exact ⟨⟨by decide, by decide, rfl⟩, t, h, hc⟩

/-- A command that writes no result register at all. -/
theorem witness_ResultRegistersNamedByTheRules : writesR0 .wclose = false ∧ writesR1 .wclose = false ∧ writesR2 .wclose = false ∧
    writesR3 .wclose = false ∧ ∃ t, exec .wclose (holding .ok) = .next t ∧ t.wOpen = false := by
  obtain ⟨t, h, hc⟩ := meets_next (check := fun t => !t.wOpen) (o := exec .wclose (holding .ok)) (by decide +kernel)
  exact ⟨rfl, rfl, rfl, rfl, t, h, by simpa using hc⟩

theorem witness_UnitsLeaveEachOtherAlone : usesTheModel .ldstep = false ∧ usesTheCoder .ldstep = false ∧
    usesTheDictionary .adsym = false ∧ (∃ t, exec .ldstep lzwDecoding = .next t ∧ t.r0 = 2) ∧
    ∃ t, exec .adsym decoding = .next t ∧ t.r3 = 65 := by
  obtain ⟨t, h, hc⟩ := meets_next (check := fun t => t.r0 == 2) (o := exec .ldstep lzwDecoding) (by decide +kernel)
  obtain ⟨u, hu, hcu⟩ := meets_next (check := fun t => t.r3 == 65) (o := exec .adsym decoding) (by decide +kernel)
  exact ⟨rfl, rfl, rfl, ⟨t, h, by simpa using hc⟩, u, hu, by simpa using hcu⟩

theorem witness_StreamsReachedByTheirCommandsAlone : readsTheSource (.aesym 65) = false ∧ writesTheSink (.rbits 8) = false ∧
    (∃ t, exec (.aesym 65) encoding = .next t ∧ t.wNbits = 7) ∧ ∃ t, exec (.rbits 8) halfRead = .next t ∧ t.r0 = 0x50 := by
  obtain ⟨t, h, hc⟩ := meets_next (check := fun t => t.wNbits == 7) (o := exec (.aesym 65) encoding) (by decide +kernel)
  obtain ⟨u, hu, hcu⟩ := meets_next (check := fun t => t.r0 == 0x50) (o := exec (.rbits 8) halfRead) (by decide +kernel)
  exact ⟨rfl, rfl, ⟨t, h, by simpa using hc⟩, u, hu, by simpa using hcu⟩

end Sys2Proof.Tests
end

