-- ==== Sys2Proof/Proofs/Status.lean ====
section
/-!
PROOFS. What each field of the STATUS word reads, by the layout of 10_state.md rule R24, and the obligation that assembles them:
`statusWord` is a concatenation, so a field is reached by dropping the fields below it and cutting off those above. The concatenation rules
are applied before `simp` runs, because `simp` would first fold the sum of the widths to 32, which those rules do not match.
-/
namespace Sys2Proof.Machine

/-! ### The flags: single bits of STATUS -/

theorem statusWord_fault (s : State) : (statusWord s).getLsbD 0 = s.fault := by
  simp only [statusWord, BitVec.getLsbD_append]
  simp

theorem statusWord_ended (s : State) : (statusWord s).getLsbD 1 = s.ended := by
  simp only [statusWord, BitVec.getLsbD_append]
  simp

theorem statusWord_wOpen (s : State) : (statusWord s).getLsbD 2 = s.wOpen := by
  simp only [statusWord, BitVec.getLsbD_append]
  simp

theorem statusWord_rOpen (s : State) : (statusWord s).getLsbD 3 = s.rOpen := by
  simp only [statusWord, BitVec.getLsbD_append]
  simp

theorem statusWord_frozen (s : State) : (statusWord s).getLsbD 4 = s.frozen := by
  simp only [statusWord, BitVec.getLsbD_append]
  simp

theorem statusWord_ioSink (s : State) : (statusWord s).getLsbD 16 = s.ioSink := by
  simp only [statusWord, BitVec.getLsbD_append]
  simp

/-! ### The fields of several bits -/

theorem statusWord_acMode (s : State) : (statusWord s).extractLsb' 5 2 = modeBits s.acMode := by
  simp only [statusWord, BitVec.extractLsb'_append_eq_ite]
  simp

theorem statusWord_lzMode (s : State) : (statusWord s).extractLsb' 7 2 = modeBits s.lzMode := by
  simp only [statusWord, BitVec.extractLsb'_append_eq_ite]
  simp

theorem statusWord_fcode (s : State) : (statusWord s).extractLsb' 12 4 = s.fcode := by
  simp only [statusWord, BitVec.extractLsb'_append_eq_ite]
  simp

/-- Bits 11:9 are reserved. -/
theorem statusWord_reserved_low (s : State) : (statusWord s).extractLsb' 9 3 = 0 := by
  simp only [statusWord, BitVec.extractLsb'_append_eq_ite]
  simp

/-- Bits 31:17 are reserved. -/
theorem statusWord_reserved_high (s : State) : (statusWord s).extractLsb' 17 15 = 0 := by
  simp only [statusWord, BitVec.extractLsb'_append_eq_ite]
  simp

/-! ### The obligation -/

/-- Settles O14: each field by its own lemma; the two modes by cases, as the obligation writes out their encoding. -/
theorem statusMirrorsTheState : Obligations.StatusMirrorsTheState := by
  intro s
  have hac : (statusWord s).extractLsb' 5 2 = (match s.acMode with | .idle => 0 | .enc => 1 | .dec => 2) := by
    rw [statusWord_acMode]
    cases s.acMode <;> rfl
  have hlz : (statusWord s).extractLsb' 7 2 = (match s.lzMode with | .idle => 0 | .enc => 1 | .dec => 2) := by
    rw [statusWord_lzMode]
    cases s.lzMode <;> rfl
  exact ⟨statusWord_fault s, statusWord_ended s, statusWord_wOpen s, statusWord_rOpen s, statusWord_frozen s, hac, hlz,
    statusWord_reserved_low s, statusWord_fcode s, statusWord_ioSink s, statusWord_reserved_high s⟩

end Sys2Proof.Machine
end

