-- ==== Sys2Proof/Proofs/Encoding.lean ====
section
/-!
PROOFS. The opcode map against the decoder (30_encoding.md rules R83 to R86). A row's mask covers the whole OPC and its pattern is an OPC
alone, so a row selects a word when the OPCs agree and the word's ARG is 0 on the row's reserved bits. No two rows have the same OPC, so a
word selects at most one row; and on a row's OPC the decoder tests the reserved bits of that row.
-/
namespace Sys2Proof

/-! ### The fields of a word -/

/-- A word is its two fields (30_encoding.md rule R80). -/
theorem opcOf_append_argOf (w : Word) : opcOf w ++ argOf w = w := by
  rw [opcOf, argOf, BitVec.extractLsb'_append_extractLsb'_eq_extractLsb' (by rw [Nat.zero_add])]
  exact BitVec.extractLsb'_eq_self

theorem word_eq_iff {u v : Word} : u = v ↔ opcOf u = opcOf v ∧ argOf u = argOf v := by
  refine ⟨fun h => h ▸ ⟨rfl, rfl⟩, fun ⟨hopc, harg⟩ => ?_⟩
  rw [← opcOf_append_argOf u, hopc, harg, opcOf_append_argOf]

theorem opcOf_and (u v : Word) : opcOf (u &&& v) = opcOf u &&& opcOf v := BitVec.extractLsb'_and

theorem argOf_and (u v : Word) : argOf (u &&& v) = argOf u &&& argOf v := BitVec.extractLsb'_and

/-! ### The rows that a word selects -/

/-- Every mask covers the OPC, and every pattern is an OPC alone. -/
theorem opcodeTable_columns : ∀ r ∈ opcodeTable, opcOf r.mask = BitVec.allOnes 8 ∧ argOf r.pattern = 0 := by decide

theorem opcodeTable_nodup : opcodeTable.Nodup := by decide

/-- No two rows have the same OPC. -/
theorem row_eq_of_opcOf_eq : ∀ r ∈ opcodeTable, ∀ q ∈ opcodeTable, opcOf q.pattern = opcOf r.pattern → q = r := by decide

/-- The test of the match and mask columns, field by field (30_encoding.md rule R83). -/
theorem mem_rowsSelected {r : OpcodeRow} {w : Word} :
    r ∈ rowsSelected w ↔ r ∈ opcodeTable ∧ opcOf w = opcOf r.pattern ∧ argOf w &&& argOf r.mask = 0 := by
  rw [rowsSelected, List.mem_filter, beq_iff_eq]
  refine and_congr_right fun hr => ?_
  obtain ⟨hmask, hpattern⟩ := opcodeTable_columns r hr
  rw [word_eq_iff, opcOf_and, argOf_and, hmask, hpattern, BitVec.and_allOnes]

/-- A word that selects a row selects no other one. -/
theorem rowsSelected_eq_singleton {r : OpcodeRow} {w : Word} (h : r ∈ rowsSelected w) : rowsSelected w = [r] := by
  have hnodup : (rowsSelected w).Nodup := opcodeTable_nodup.filter _
  refine List.perm_singleton.mp ((List.perm_ext_iff_of_nodup hnodup (List.nodup_singleton r)).mpr fun q => ?_)
  rw [List.mem_singleton]
  refine ⟨fun hq => ?_, fun hq => hq ▸ h⟩
  obtain ⟨hr, hopc, -⟩ := mem_rowsSelected.mp h
  obtain ⟨hq, hqopc, -⟩ := mem_rowsSelected.mp hq
  exact row_eq_of_opcOf_eq r hr q hq (hqopc.symm.trans hopc)

/-- The two kinds of illegal word are the words that select no row (30_encoding.md rules R84, R85). -/
theorem rowsSelected_eq_nil_iff {w : Word} : rowsSelected w = [] ↔ Machine.illegalWord w := by
  rw [List.eq_nil_iff_forall_not_mem]
  constructor
  · intro h
    by_cases hopc : ∃ r ∈ opcodeTable, opcOf w = opcOf r.pattern
    · obtain ⟨r, hr, hopc⟩ := hopc
      exact .inr ⟨r, hr, hopc, fun harg => h r (mem_rowsSelected.mpr ⟨hr, hopc, harg⟩)⟩
    · exact .inl fun r hr hw => hopc ⟨r, hr, hw⟩
  · intro h q hq
    obtain ⟨hq, hqopc, hqarg⟩ := mem_rowsSelected.mp hq
    obtain hopc | ⟨r, hr, hopc, harg⟩ := h
    · exact hopc q hq hqopc
    · obtain rfl := row_eq_of_opcOf_eq r hr q hq (hqopc.symm.trans hopc)
      exact harg hqarg

/-! ### The decoder on a row's OPC -/

/-- A bit vector is 0 from bit k on exactly when its value fits in k bits: clearing the k low bits is a shift down and up again. -/
theorem and_allOnes_shiftLeft_eq_zero_iff {n : Nat} (x : BitVec n) (k : Nat) :
    x &&& BitVec.allOnes n <<< k = 0 ↔ x.toNat < 2 ^ k := by
  have hshift : x &&& BitVec.allOnes n <<< k = x >>> k <<< k := by
    refine BitVec.eq_of_getLsbD_eq fun i hi => ?_
    by_cases hk : i < k
    · simp [hk]
    · simp [hk, hi, show k + (i - k) = i by omega]
  have htoNat : (x >>> k <<< k).toNat = x.toNat / 2 ^ k * 2 ^ k := by
    rw [BitVec.toNat_shiftLeft, BitVec.toNat_ushiftRight, Nat.shiftRight_eq_div_pow, Nat.shiftLeft_eq,
      Nat.mod_eq_of_lt ((Nat.div_mul_le_self _ _).trans_lt x.isLt)]
  rw [hshift, ← BitVec.toNat_inj, htoNat]
  simp [Nat.div_eq_zero_iff]

/-- A layout with an operand field of k bits decodes when ARG is 0 on its reserved bits (30_encoding.md rules R82, R84). -/
theorem argField_mnemonic {k : Nat} (command : BitVec k → Instr) {name : String} {mask : BitVec 24}
    (hname : ∀ x, (command x).mnemonic = name) (hmask : mask = BitVec.allOnes 24 <<< k) (arg : BitVec 24) :
    ((argField k arg).map command).map Instr.mnemonic = if arg &&& mask = 0 then some name else none := by
  simp only [hmask, and_allOnes_shiftLeft_eq_zero_iff, argField]
  split
  · exact congrArg some (hname _)
  · rfl

/-- Layout N decodes when ARG is 0 (30_encoding.md rules R82, R84). -/
theorem noOperand_mnemonic (i : Instr) {mask : BitVec 24} (hmask : mask = BitVec.allOnes 24) (arg : BitVec 24) :
    (noOperand arg i).map Instr.mnemonic = if arg &&& mask = 0 then some i.mnemonic else none := by
  have hzero : arg.toNat = 0 ↔ arg = 0 := BitVec.toNat_inj (y := 0)
  simp only [hmask, BitVec.and_allOnes, noOperand, hzero]
  split <;> rfl

/-- A word with a row's OPC decodes to a command of that row if its reserved bits are 0, and to none if not (30_encoding.md rules R83,
R84). The rows stand in the order of the map; the cases named are the six rows with an operand. -/
theorem decode_mnemonic_of_row (w : Word) : ∀ r ∈ opcodeTable, opcOf w = opcOf r.pattern →
    (decode w).map Instr.mnemonic = if argOf w &&& argOf r.mask = 0 then some r.mnemonic else none := by
  unfold decode
  simp only [opcodeTable, List.forall_mem_cons]
  refine ⟨?wopen, ?wbits, ?wclose, ?ropen, ?rbits, ?rclose, ?fmrst, ?fmprob, ?fmsym, ?fmtot, ?aeinit, ?aesym, ?aefin, ?adinit, ?adsym,
    ?leinit, ?lebyte, ?lefin, ?ldinit, ?ldstep, ?srst, List.forall_mem_nil _⟩ <;> (intro hopc; rw [hopc])
  case wbits => exact argField_mnemonic .wbits (fun _ => rfl) rfl _
  case rbits => exact argField_mnemonic .rbits (fun _ => rfl) rfl _
  case fmprob => exact argField_mnemonic .fmprob (fun _ => rfl) rfl _
  case fmsym => exact argField_mnemonic .fmsym (fun _ => rfl) rfl _
  case aesym => exact argField_mnemonic .aesym (fun _ => rfl) rfl _
  case lebyte => exact argField_mnemonic .lebyte (fun _ => rfl) rfl _
  all_goals exact noOperand_mnemonic _ rfl _

/-- A word whose OPC stands in no row decodes to none (30_encoding.md rule R85). -/
theorem decode_eq_none_of_no_row {w : Word} (h : ∀ r ∈ opcodeTable, opcOf w ≠ opcOf r.pattern) : decode w = none := by
  have hcode : (opcOf w).toNat ∉ opcodeTable.map fun r => (opcOf r.pattern).toNat := by
    rw [List.mem_map]
    rintro ⟨r, hr, hcode⟩
    exact h r hr (BitVec.eq_of_toNat_eq hcode.symm)
  unfold decode
  split
  case h_22 => rfl
  all_goals next hw => exact absurd (by rw [hw]; decide) hcode

/-- An illegal word decodes to none (30_encoding.md rules R84, R85). -/
theorem decode_eq_none_of_illegalWord {w : Word} (h : Machine.illegalWord w) : decode w = none := by
  obtain hopc | ⟨r, hr, hopc, harg⟩ := h
  · exact decode_eq_none_of_no_row hopc
  · have hmap := decode_mnemonic_of_row w r hr hopc
    rwa [if_neg harg, Option.map_eq_none_iff] at hmap

/-- A word decodes to a command of the row it selects (30_encoding.md rule R83). -/
theorem exists_decode_of_mem_rowsSelected {r : OpcodeRow} {w : Word} (h : r ∈ rowsSelected w) :
    ∃ i, decode w = some i ∧ i.mnemonic = r.mnemonic := by
  obtain ⟨hr, hopc, harg⟩ := mem_rowsSelected.mp h
  have hmap := decode_mnemonic_of_row w r hr hopc
  rwa [if_pos harg, Option.map_eq_some_iff] at hmap

/-- Settles O3: a word either selects no row, and is illegal, or selects a row, which is then the only one. -/
theorem wordSelectsOneRowOrIsIllegal : Obligations.WordSelectsOneRowOrIsIllegal := by
  intro w
  by_cases hillegal : Machine.illegalWord w
  · exact .inr ⟨decode_eq_none_of_illegalWord hillegal, rowsSelected_eq_nil_iff.mpr hillegal, hillegal⟩
  · obtain ⟨r, hr⟩ := List.exists_mem_of_ne_nil _ (mt rowsSelected_eq_nil_iff.mp hillegal)
    obtain ⟨i, hdecode, hname⟩ := exists_decode_of_mem_rowsSelected hr
    exact .inl ⟨i, r, hdecode, rowsSelected_eq_singleton hr, hname.symm, hillegal⟩

end Sys2Proof

namespace Sys2Proof.Machine

/-! ### A step on an illegal word -/

/-- A word in CMD that decodes to none ends its step in the dispatch (44_control.md rule R260, steps 1 to 3). -/
theorem step_of_decode_eq_none {s : State} {w : Word} (hcmd : s.cmd = some w) (hdecode : decode w = none) :
    step s = .next (illegalCommand { s with cmd := none }) := by
  simp [step, fetch, hcmd, hdecode]

/-- With no fault recorded, IllegalCommand is recorded after END is cleared (44_control.md rule R260; 60_exceptions.md rule R271). -/
theorem illegalCommand_of_not_fault {s : State} (h : s.fault = false) :
    illegalCommand s = { s with fault := true, fcode := 4, ended := false } := by
  simp [illegalCommand, h, clearConditions_of_not_fault h, recordFault, faultCode]

/-- With a fault recorded, the word is refused (44_control.md rule R261). -/
theorem illegalCommand_of_fault {s : State} (h : s.fault = true) : illegalCommand s = s := by
  simp [illegalCommand, h]

/-- Settles O6: the word decodes to none, and the dispatch does the rest. -/
theorem illegalWordRecordsIllegalCommand : Obligations.IllegalWordRecordsIllegalCommand := by
  intro s w hcmd hillegal
  rw [step_of_decode_eq_none hcmd (decode_eq_none_of_illegalWord hillegal)]
  exact ⟨fun hfault => congrArg Host.Outcome.next (illegalCommand_of_not_fault hfault),
    fun hfault => congrArg Host.Outcome.next (illegalCommand_of_fault hfault)⟩

end Sys2Proof.Machine
end

