-- ==== Sys2Proof/Proofs/BitChannel.lean ====
section
/-!
PROOFS. The commands that open and close the streams of the Bit Channel (40_bit_channel.md rules R103, R111, R112). With no fault recorded
the dispatch has two ends that matter to them: the BadState check refuses to open a stream that is open, and otherwise the pseudocode runs
on the state with END and FCODE cleared.
-/
namespace Sys2Proof.Machine

/-- With no fault recorded, a failed BadState check records BadState after END is cleared (44_control.md rules R260, R264;
60_exceptions.md rule R271). -/
theorem dispatchCommand_badState {e b o : Bool} {body : State → Res Unit} {s : State} (h : s.fault = false) (hb : b = true) :
    dispatchCommand e b o body s = .next { s with fault := true, fcode := 6, ended := false } := by
  simp [dispatchCommand, h, hb, clearConditions_of_not_fault h, raiseFault, outcomeOf, recordFault, faultCode]

/-! ### WOPEN -/

theorem exec_wopen_of_closed {s : State} (hfault : s.fault = false) (hclosed : s.wOpen = false) :
    exec .wopen s = .next { s with wOpen := true, wBuf := [], wAcc := 0, wNbits := 0, ended := false, fcode := 0 } := by
  rw [exec, execWopen, hclosed, dispatchCommand_performs hfault, outcomeOf]

theorem exec_wopen_of_open {s : State} (hfault : s.fault = false) (hopen : s.wOpen = true) :
    exec .wopen s = .next { s with fault := true, fcode := 6, ended := false } := by
  rw [exec, execWopen, dispatchCommand_badState hfault hopen]

/-! ### ROPEN -/

theorem exec_ropen_of_closed {s : State} (hfault : s.fault = false) (hclosed : s.rOpen = false) :
    exec .ropen s = .next { s with rOpen := true, rBuf := [], rBitpos := 0, rSrcEnd := false, ended := false, fcode := 0 } := by
  rw [exec, execRopen, hclosed, dispatchCommand_performs hfault, outcomeOf]

theorem exec_ropen_of_open {s : State} (hfault : s.fault = false) (hopen : s.rOpen = true) :
    exec .ropen s = .next { s with fault := true, fcode := 6, ended := false } := by
  rw [exec, execRopen, dispatchCommand_badState hfault hopen]

/-! ### RCLOSE -/

theorem closeRead_of_open {s : State} (hopen : s.rOpen = true) :
    closeRead s = { s with rOpen := false, rBuf := [], rBitpos := 0, rSrcEnd := false } := if_pos hopen

theorem closeRead_of_closed {s : State} (hclosed : s.rOpen = false) : closeRead s = s :=
  if_neg (Bool.eq_false_iff.mp hclosed)

/-- RCLOSE has no BadState condition: with no fault recorded its pseudocode always runs. -/
theorem exec_rclose {s : State} (hfault : s.fault = false) :
    exec .rclose s = .next (closeRead { s with ended := false, fcode := 0 }) := by
  rw [exec, execRclose, dispatchCommand_performs hfault, outcomeOf]

theorem exec_rclose_of_open {s : State} (hfault : s.fault = false) (hopen : s.rOpen = true) :
    exec .rclose s =
      .next { s with rOpen := false, rBuf := [], rBitpos := 0, rSrcEnd := false, ended := false, fcode := 0 } :=
  (exec_rclose hfault).trans (congrArg Host.Outcome.next (closeRead_of_open hopen))

/-- A closed read stream stays as it is. -/
theorem exec_rclose_of_closed {s : State} (hfault : s.fault = false) (hclosed : s.rOpen = false) :
    exec .rclose s = .next { s with ended := false, fcode := 0 } :=
  (exec_rclose hfault).trans (congrArg Host.Outcome.next (closeRead_of_closed hclosed))

/-! ### The obligation -/

/-- Settles O18: the three words by evaluation, and each clause by the lemma about its command and its stream. -/
theorem streamsOpenAndClose : Obligations.StreamsOpenAndClose := by
  refine ⟨by decide, by decide, by decide, fun s hfault => ?_⟩
  exact ⟨exec_wopen_of_closed hfault, exec_wopen_of_open hfault, exec_ropen_of_closed hfault, exec_ropen_of_open hfault,
    exec_rclose_of_open hfault, exec_rclose_of_closed hfault⟩

end Sys2Proof.Machine
end

