-- ==== Sys2Proof/Proofs/FreqModel.lean ====
section
/-!
PROOFS. The commands of the Frequency Model (41_freq_model.md rules R143 to R148). None has a BadState condition, so with no fault recorded
a command runs its pseudocode on the state with END and FCODE cleared, but for an FMPROB whose symbol is above 256. FMPROB and FMSYM end in
the same look-up and update, so its result is said once; the table's own laws say what it counts and which symbol a search finds.
-/
namespace Sys2Proof.Machine

/-- With no fault recorded, a failed BadOperand check records BadOperand after END is cleared (44_control.md rules R260, R264;
60_exceptions.md rule R271). -/
theorem dispatchCommand_badOperand {e o : Bool} {body : State → Res Unit} {s : State} (h : s.fault = false) (ho : o = true) :
    dispatchCommand e false o body s = .next { s with fault := true, fcode := 5, ended := false } := by
  simp [dispatchCommand, h, ho, clearConditions_of_not_fault h, raiseFault, outcomeOf, recordFault, faultCode]

/-- The BadOperand condition of layout S (44_control.md rule R264). -/
theorem badSymbol_eq_true_iff {sym : BitVec 9} : badSymbol sym = true ↔ 256 < sym.toNat := decide_eq_true_iff

theorem badSymbol_eq_false_iff {sym : BitVec 9} : badSymbol sym = false ↔ sym.toNat ≤ 256 := by
  rw [← Bool.not_eq_true, badSymbol_eq_true_iff, Nat.not_lt]

/-! ### FMRST and FMTOT -/

/-- Entry i of the ramp is i (41_freq_model.md rule R147). -/
theorem identityRamp_eq_range : identityRamp = List.range 258 := List.map_id' _

theorem exec_fmrst {s : State} (hfault : s.fault = false) :
    exec .fmrst s = .next { s with cum := List.range 258, frozen := false, ended := false, fcode := 0 } := by
  rw [exec, execFmrst, dispatchCommand_performs hfault, outcomeOf, modelReset, identityRamp_eq_range]

theorem exec_fmtot {s : State} (hfault : s.fault = false) :
    exec .fmtot s = .next { s with r2 := BitVec.ofNat 32 (cumAt s 257), ended := false, fcode := 0 } := by
  rw [exec, execFmtot, dispatchCommand_performs hfault, outcomeOf]
  rfl

/-- R2 holds a model table's total whole, in the range of 41_freq_model.md rule R149. -/
theorem ModelOk.toNat_total {s : State} (h : ModelOk s) :
    257 ≤ (BitVec.ofNat 32 (cumAt s 257)).toNat ∧ (BitVec.ofNat 32 (cumAt s 257)).toNat ≤ 32767 := by
  have htotal := h.total
  rwa [BitVec.toNat_ofNat, Nat.mod_eq_of_lt (by omega)]

/-- Settles O28: the two words by evaluation, the results by the lemma about each command. -/
theorem fmrstAndFmtotResults : Obligations.FmrstAndFmtotResults :=
  ⟨by decide, by decide, fun _ hfault => ⟨exec_fmrst hfault, exec_fmtot hfault, ModelOk.toNat_total⟩⟩

/-! ### The look-up and update of FMPROB and FMSYM -/

theorem countedUp_reportAndUpdate {s : State} (h : ModelOk s) (sym : Nat) : CountedUp sym s (reportAndUpdate sym s) :=
  .of_freqUpdate h (by rw [reportAndUpdate_eq]) (by rw [reportAndUpdate_eq])

/-- Clearing END and FCODE leaves the table alone, so the update after it counts the symbol in the table of `s`. -/
theorem countedUp_reportAndUpdate_cleared {s : State} (h : ModelOk s) (sym : Nat) :
    CountedUp sym s (reportAndUpdate sym { s with ended := false, fcode := 0 }) :=
  countedUp_reportAndUpdate (s := { s with ended := false, fcode := 0 }) (h.congr rfl rfl) sym

/-- The look-up after the clearing reports the counts of `s`; but for them, END and FCODE, only the table and FROZEN change. -/
theorem reportAndUpdate_cleared_frame (sym : Nat) (s : State) :
    reportAndUpdate sym { s with ended := false, fcode := 0 } =
      { s with
        r0 := BitVec.ofNat 32 (cumAt s sym), r1 := BitVec.ofNat 32 (cumAt s (sym + 1))
        r2 := BitVec.ofNat 32 (cumAt s 257), r3 := BitVec.ofNat 32 sym
        cum := (reportAndUpdate sym { s with ended := false, fcode := 0 }).cum
        frozen := (reportAndUpdate sym { s with ended := false, fcode := 0 }).frozen
        ended := false, fcode := 0 } := by
  rw [reportAndUpdate_eq]
  rfl

/-! ### FMPROB -/

theorem exec_fmprob_of_le {s : State} {sym : BitVec 9} (hfault : s.fault = false) (hsym : sym.toNat ≤ 256) :
    exec (.fmprob sym) s = .next (reportAndUpdate sym.toNat { s with ended := false, fcode := 0 }) := by
  rw [exec, execFmprob, badSymbol_eq_false_iff.mpr hsym, dispatchCommand_performs hfault, outcomeOf, operandSymbol]

theorem exec_fmprob_of_lt {s : State} {sym : BitVec 9} (hfault : s.fault = false) (hsym : 256 < sym.toNat) :
    exec (.fmprob sym) s = .next { s with fault := true, fcode := 5, ended := false } := by
  rw [exec, execFmprob, dispatchCommand_badOperand hfault (badSymbol_eq_true_iff.mpr hsym)]

/-- Settles O29: the look-up and update on a symbol, and the BadOperand check above 256. -/
theorem fmprobResult : Obligations.FmprobResult := by
  refine ⟨fun _ => rfl, fun s sym hfault hmodel => ⟨fun hsym => ?_, exec_fmprob_of_lt hfault⟩⟩
  exact ⟨_, exec_fmprob_of_le hfault hsym, countedUp_reportAndUpdate_cleared hmodel _, reportAndUpdate_cleared_frame _ s⟩

/-! ### FMSYM -/

theorem searchAndUpdate_of_found {s : State} {v sym : Nat} (hfound : symbolSearch v s = some sym) :
    searchAndUpdate v s = .ok () (reportAndUpdate sym s) := by
  rw [searchAndUpdate, hfound]

theorem searchAndUpdate_of_not_found {s : State} {v : Nat} (hnone : symbolSearch v s = none) :
    searchAndUpdate v s = raiseFault .invariantViolation s := by
  rw [searchAndUpdate, hnone]

/-- The search reads the table alone, which clearing END and FCODE leaves as it is. -/
theorem symbolSearch_cleared (v : Nat) (s : State) :
    symbolSearch v { s with ended := false, fcode := 0 } = symbolSearch v s := rfl

theorem exec_fmsym {s : State} (hfault : s.fault = false) (v : BitVec 24) :
    exec (.fmsym v) s = outcomeOf (searchAndUpdate v.toNat { s with ended := false, fcode := 0 }) := by
  rw [exec, execFmsym, dispatchCommand_performs hfault, operandScaled]

theorem exec_fmsym_of_found {s : State} {v : BitVec 24} {sym : Nat} (hfault : s.fault = false)
    (hfound : symbolSearch v.toNat s = some sym) :
    exec (.fmsym v) s = .next (reportAndUpdate sym { s with ended := false, fcode := 0 }) := by
  rw [exec_fmsym hfault, searchAndUpdate_of_found ((symbolSearch_cleared _ s).trans hfound), outcomeOf]

/-- A search that finds no symbol records InvariantViolation (41_freq_model.md rule R145; 60_exceptions.md rule R271). -/
theorem exec_fmsym_of_not_found {s : State} {v : BitVec 24} (hfault : s.fault = false) (hnone : symbolSearch v.toNat s = none) :
    exec (.fmsym v) s = .next { s with fault := true, fcode := 3, ended := false } := by
  rw [exec_fmsym hfault, searchAndUpdate_of_not_found ((symbolSearch_cleared _ s).trans hnone)]
  simp [raiseFault, outcomeOf, recordFault, faultCode, hfault]

/-- Settles O30: below the total the search finds the symbol whose interval holds v, which fits layout S; from the total on it finds
none. -/
theorem fmsymResult : Obligations.FmsymResult := by
  refine ⟨fun v => congrArg (0x12#8 ++ ·) (BitVec.setWidth_eq v), fun s v hfault hmodel => ⟨fun hv => ?_, fun hv => ?_⟩⟩
  · obtain ⟨n, hfound, hn, hlo, hhi⟩ := symbolSearch_spec hmodel hv
    obtain ⟨sym, rfl⟩ : ∃ sym : BitVec 9, sym.toNat = n := ⟨_, BitVec.toNat_ofNatLT n (by omega)⟩
    exact ⟨sym, _, hn, hlo, hhi, exec_fmsym_of_found hfault hfound, countedUp_reportAndUpdate_cleared hmodel _,
      reportAndUpdate_cleared_frame _ s⟩
  · exact exec_fmsym_of_not_found hfault (symbolSearch_none hmodel hv)

end Sys2Proof.Machine
end

