-- ==== Sys2Proof/Proofs/ArithCoder.lean ====
section
/-!
PROOFS. The commands of the Arithmetic Coder (42_arith_coder.md). An encode and a decode begin with the same values in the model and the
coder registers, so those are said once.
-/
namespace Sys2Proof.Machine

/-- The table and the registers a coder starts from; AC_MODE is left to the command (42_arith_coder.md rules R176, R180). -/
theorem coderStart_eq (s : State) :
    coderStart s =
      { s with cum := List.range 258, frozen := false, low := 0, high := 131071, value := 0, pending := 0 } := by
  rw [← identityRamp_eq_range]
  rfl

/-! ### AEINIT -/

/-- AEINIT has no BadState condition: with no fault recorded its pseudocode always runs. -/
theorem exec_aeinit {s : State} (hfault : s.fault = false) :
    exec .aeinit s =
      .next { s with
        cum := List.range 258, frozen := false, low := 0, high := 131071, value := 0, pending := 0
        acMode := .enc, ended := false, fcode := 0 } := by
  rw [exec, execAeinit, dispatchCommand_performs hfault, outcomeOf, coderStart_eq]

/-- Settles O32: the word by evaluation, the result by the lemma about the command. -/
theorem aeinitResult : Obligations.AeinitResult :=
  ⟨by decide, fun _ hfault => exec_aeinit hfault⟩

end Sys2Proof.Machine
end

