-- ==== Sys2Proof/Proofs/Lzw.lean ====
section
/-!
PROOFS. The commands of the LZW Transform (43_lzw.md). The laws of the dictionary say what a reset leaves; a command adds the match, PREV
and the mode it starts in.
-/
namespace Sys2Proof.Machine

/-! ### LEINIT -/

/-- LEINIT has no BadState condition: with no fault recorded its pseudocode always runs, whatever the mode and the channel. -/
theorem exec_leinit {s : State} (hfault : s.fault = false) :
    exec .leinit s =
      .next { s with
        dict := initialDict, maxcode := 255, codelen := 8, sCode := none, prev := 0
        lzMode := .enc, ended := false, fcode := 0 } := by
  rw [exec, execLeinit, dispatchCommand_performs hfault, outcomeOf, lzwReset_frame]

/-- Settles O41: the word by evaluation, the result by the lemma about the command, whose dictionary is the list of the one-byte strings
by definition. -/
theorem leinitResult : Obligations.LeinitResult :=
  ⟨by decide, fun _ hfault => exec_leinit hfault⟩

end Sys2Proof.Machine
end

