-- ==== Sys2Proof/Proofs/Control.lean ====
section
/-!
PROOFS. The dispatch of a command (44_control.md rules R260, R261, R264). Every command is the dispatch around four things of its own:
whether it is accepted while a fault is recorded, its two checks, and its pseudocode. While a fault is recorded the dispatch refuses all but
the two exempt words; with none recorded the checks alone record BadState and BadOperand, because no pseudocode raises either: each step of
one either goes on with no fault recorded and FCODE 0, or raises a fault of another kind.
-/
namespace Sys2Proof.Machine

/-! ### What the dispatch is given for each command -/

/-- The commands that are accepted while FAULT = 1 (44_control.md rule R261). -/
def acceptedWhileFaulted : Instr → Bool
  | .wclose | .srst => true
  | _ => false

/-- The BadState check of a command, as the dispatch makes it (44_control.md rule R264). -/
def stateCheck (s : State) : Instr → Bool
  | .wopen => s.wOpen
  | .wbits _ => !s.wOpen
  | .ropen => s.rOpen
  | .rbits _ | .adinit => !s.rOpen
  | .aesym _ | .aefin => s.acMode != .enc || !s.wOpen
  | .adsym => s.acMode != .dec || !s.rOpen || !s.wOpen
  | .lebyte _ | .lefin => s.lzMode != .enc || !s.wOpen
  | .ldinit => !s.rOpen || !s.wOpen
  | .ldstep => s.lzMode != .dec || !s.rOpen || !s.wOpen
  | _ => false

/-- The BadOperand check of a command, as the dispatch makes it (44_control.md rule R264). -/
def operandCheck : Instr → Bool
  | .wbits n | .rbits n => badCount n
  | .fmprob sym | .aesym sym => badSymbol sym
  | _ => false

/-- The pseudocode of a command, which the dispatch performs last (44_control.md rule R265). -/
def pseudocode : Instr → State → Res Unit
  | .wopen => fun s => .ok () { s with wOpen := true, wBuf := [], wAcc := 0, wNbits := 0 }
  | .wbits n => fun s => putBits s.data.toNat (operandCount n) s
  | .wclose => closeWrite
  | .ropen => fun s => .ok () { s with rOpen := true, rBuf := [], rBitpos := 0, rSrcEnd := false }
  | .rbits n => readToR0 (operandCount n)
  | .rclose => fun s => .ok () (closeRead s)
  | .fmrst => fun s => .ok () (modelReset s)
  | .fmprob sym => fun s => .ok () (reportAndUpdate (operandSymbol sym) s)
  | .fmsym v => searchAndUpdate (operandScaled v)
  | .fmtot => fun s => .ok () { s with r2 := BitVec.ofNat 32 (cumAt s 257) }
  | .aeinit => fun s => .ok () { coderStart s with acMode := .enc }
  | .aesym sym => encodeSymbol (operandSymbol sym)
  | .aefin => finishEncode
  | .adinit => fun s => andThen (loadValue 17 (coderStart s)) fun _ s => .ok () { s with acMode := .dec }
  | .adsym => decodeSymbol
  | .leinit => fun s => .ok () { lzwReset s with sCode := none, prev := 0, lzMode := .enc }
  | .lebyte c => encodeByte (operandByte c)
  | .lefin => finishLzw
  | .ldinit => decodeFirstCode
  | .ldstep => decodeStep
  | .srst => fun s => .ok () (resetAll s)

/-- A command is the dispatch around its checks and its pseudocode (44_control.md rule R260). -/
theorem exec_eq_dispatchCommand (i : Instr) (s : State) :
    exec i s = dispatchCommand (acceptedWhileFaulted i) (stateCheck s i) (operandCheck i) (pseudocode i) s := by
  cases i <;> rfl

/-- The dispatch's first check is the BadState column of the table (44_control.md rule R264). -/
theorem stateCheck_eq_true_iff {s : State} {i : Instr} : stateCheck s i = true ↔ badStateCondition s i := by
  cases i <;> simp [stateCheck, badStateCondition, or_assoc]

/-- The BadOperand condition of layout W (44_control.md rule R264). -/
theorem badCount_eq_true_iff {n : BitVec 6} : badCount n = true ↔ n.toNat = 0 ∨ 32 < n.toNat := by
  rw [badCount, operandCount, Bool.or_eq_true, beq_iff_eq, decide_eq_true_iff]

/-- The dispatch's second check is the BadOperand column of the table (44_control.md rule R264). -/
theorem operandCheck_eq_true_iff {i : Instr} : operandCheck i = true ↔ badOperandCondition i := by
  cases i
  case wbits | rbits => exact badCount_eq_true_iff
  case fmprob | aesym => exact badSymbol_eq_true_iff
  all_goals exact Bool.false_eq_true.to_iff

/-! ### While a fault is recorded -/

/-- A command that is not exempt is refused (44_control.md rule R261). -/
theorem exec_of_refused {i : Instr} {s : State} (hfault : s.fault = true) (hi : acceptedWhileFaulted i = false) :
    exec i s = .next s := by
  simp [exec_eq_dispatchCommand, hi, dispatchCommand, hfault]

/-- An exempt command without checks runs its pseudocode, with END and FCODE kept (44_control.md rules R260, R261). -/
theorem dispatchCommand_of_fault {body : State → Res Unit} {s : State} (hfault : s.fault = true) :
    dispatchCommand true false false body s = outcomeOf (body s) := by
  simp [dispatchCommand, clearConditions_of_fault hfault]

/-- The two exempt commands have no operand: the masks of their rows cover every bit. -/
theorem opcodeTable_exempt : ∀ r ∈ opcodeTable, r.mnemonic = "SRST" ∨ r.mnemonic = "WCLOSE" →
    r.mask = BitVec.allOnes 32 ∧ (r.pattern = 0xFF000000 ∨ r.pattern = 0x03000000) := by decide

/-- Two words are exempt (44_control.md rule R261; 30_encoding.md rule R83). -/
theorem word_of_acceptedWhileFaulted {w : Word} {i : Instr} (hdecode : decode w = some i)
    (hi : acceptedWhileFaulted i = true) : w = 0xFF000000 ∨ w = 0x03000000 := by
  have hname : i.mnemonic = "SRST" ∨ i.mnemonic = "WCLOSE" := by
    cases i
    case srst => exact .inl rfl
    case wclose => exact .inr rfl
    all_goals exact absurd hi Bool.false_ne_true
  obtain ⟨j, r, hj, hrows, hrj, -⟩ | ⟨hnone, -⟩ := wordSelectsOneRowOrIsIllegal w
  · obtain rfl : i = j := Option.some.inj (hdecode.symm.trans hj)
    have hr : r ∈ rowsSelected w := hrows ▸ List.mem_singleton_self r
    obtain ⟨hr, hmatch⟩ := List.mem_filter.mp hr
    obtain ⟨hmask, hpattern⟩ := opcodeTable_exempt r hr (hrj ▸ hname)
    rw [hmask, BitVec.and_allOnes, beq_iff_eq] at hmatch
    rwa [hmatch]
  · exact absurd (hdecode.symm.trans hnone) (Option.some_ne_none i)

/-- A word in CMD that decodes runs its command in the state with CMD taken (44_control.md rule R260). -/
theorem step_of_decode_eq_some {s : State} {w : Word} {i : Instr} (hcmd : s.cmd = some w) (hdecode : decode w = some i) :
    step s = exec i { s with cmd := none } := by
  simp [step, fetch, hcmd, hdecode]

/-- Every other word is refused, the illegal ones too (44_control.md rule R261). -/
theorem step_of_refused {s : State} {w : Word} (hcmd : s.cmd = some w) (hfault : s.fault = true) (hsrst : w ≠ 0xFF000000)
    (hwclose : w ≠ 0x03000000) : step s = .next { s with cmd := none } := by
  have htaken : ({ s with cmd := none } : State).fault = true := hfault
  cases hdecode : decode w with
  | none => rw [step_of_decode_eq_none hcmd hdecode, illegalCommand_of_fault htaken]
  | some i =>
    have hi : acceptedWhileFaulted i = false :=
      Bool.eq_false_iff.mpr fun h => (word_of_acceptedWhileFaulted hdecode h).elim hsrst hwclose
    rw [step_of_decode_eq_some hcmd hdecode, exec_of_refused htaken hi]

/-- SRST resets the block in every state; only CMD, the host's actions and the two bindings stay (44_control.md rule R262). -/
theorem exec_srst (s : State) : exec .srst s = .next (resetAll s) := by
  cases hfault : s.fault
  · rw [exec, execSrst, dispatchCommand_performs hfault, outcomeOf]
    rfl
  · rw [exec, execSrst, dispatchCommand_of_fault hfault, outcomeOf]

/-- `t` is a state in which WCLOSE leaves a faulted `s`: the write stream is closed, and the recorded fault is kept. -/
def ClosedKeepingFault (s t : State) : Prop :=
  t.wOpen = false ∧ (s.wOpen = true → t.wBuf = [] ∧ t.wNbits = 0) ∧ t.fault = true ∧ t.fcode = s.fcode

/-- The pseudocode of WCLOSE closes the stream whether or not the sink takes the bytes; a failing sink leaves the first fault's code
(40_bit_channel.md rule R106; 60_exceptions.md rule R272). -/
theorem closeWrite_of_fault {s : State} (hfault : s.fault = true) :
    Ends (closeWrite s) (fun _ t => ClosedKeepingFault s t) (ClosedKeepingFault s) := by
  unfold closeWrite
  split
  next hopen =>
    dsimp only
    split
    · refine (deliver_spec _ _).mono ?_ ?_
      · rintro _ t ⟨rfl, -⟩
        exact ⟨rfl, fun _ => ⟨rfl, rfl⟩, hfault, rfl⟩
      · rintro t ⟨rfl, -⟩
        exact ⟨rfl, fun _ => ⟨rfl, rfl⟩, rfl, if_pos hfault⟩
    · exact ⟨rfl, fun _ => ⟨rfl, rfl⟩, hfault, rfl⟩
  next hclosed => exact ⟨Bool.eq_false_iff.mpr hclosed, fun hopen => absurd hopen hclosed, hfault, rfl⟩

theorem exec_wclose_of_fault {s : State} (hfault : s.fault = true) :
    ∃ t, exec .wclose s = .next t ∧ ClosedKeepingFault s t := by
  obtain ⟨t, ht, hclosed⟩ := (closeWrite_of_fault hfault).outcome
  exact ⟨t, (dispatchCommand_of_fault hfault).trans ht, hclosed.elim id id⟩

/-- Settles O7: every other word by the refusal, and the two exempt words by the lemma about their command. -/
theorem faultRefusesAllButWcloseAndSrst : Obligations.FaultRefusesAllButWcloseAndSrst := by
  intro s w hcmd hfault
  refine ⟨step_of_refused hcmd hfault, ?srst, ?wclose⟩
  case srst =>
    rintro rfl
    rw [step_of_decode_eq_some hcmd (i := .srst) (by decide), exec_srst]
    rfl
  case wclose =>
    rintro rfl
    rw [step_of_decode_eq_some hcmd (i := .wclose) (by decide)]
    exact exec_wclose_of_fault (s := { s with cmd := none }) hfault

/-! ### No pseudocode records BadState or BadOperand -/

/-- What an accepted command starts from when no fault is recorded (44_control.md rule R260, step 2). -/
def StatusClear (s : State) : Prop := s.fault = false ∧ s.fcode = 0

/-- FCODE is not the code of a failed check (60_exceptions.md rule R271). -/
def NoCheckCode (s : State) : Prop := s.fcode ≠ 5 ∧ s.fcode ≠ 6

/-- A step of a pseudocode that goes on with its status clear, or raises a fault of no check. -/
def StaysClear {α : Type} (r : Res α) : Prop := Leaves r (fun _ t => StatusClear t) NoCheckCode

/-- A pseudocode that ends with the code of no check, whether it goes to its end or raises a fault. -/
def EndsUnchecked (r : Res Unit) : Prop := Leaves r (fun _ t => NoCheckCode t) NoCheckCode

theorem StatusClear.noCheckCode {s : State} (h : StatusClear s) : NoCheckCode s := by
  unfold NoCheckCode
  rw [h.2]
  decide

/-- A fault recorded first gives its own code (60_exceptions.md rule R272). -/
theorem StatusClear.noCheckCode_recordFault {s : State} (h : StatusClear s) {k : FaultKind} (hk : faultCode k ≠ 5 ∧ faultCode k ≠ 6) :
    NoCheckCode (recordFault k s) := by
  unfold NoCheckCode
  rwa [recordFault_fcode, h.1]

/-- EndOfStream has a code of its own (60_exceptions.md rules R271, R276). -/
theorem noCheckCode_signalEndOfStream (s : State) : NoCheckCode (signalEndOfStream s) := by
  unfold NoCheckCode
  rw [signalEndOfStream_fcode]
  decide

theorem StaysClear.endsUnchecked {r : Res Unit} (h : StaysClear r) : EndsUnchecked r :=
  h.mono (fun _ _ h => h.noCheckCode) fun _ h => h

theorem StaysClear.andThen_endsUnchecked {α : Type} {r : Res α} {f : α → State → Res Unit} (h : StaysClear r)
    (hf : ∀ a t, StatusClear t → EndsUnchecked (f a t)) : EndsUnchecked (andThen r f) :=
  Leaves.andThen h hf

/-! The shared operations: each frame leaves FAULT and FCODE alone, and each fault is the sink's, the source's or a full PENDING. -/

theorem EncFrame.statusClear {s t : State} (h : EncFrame s t) (hs : StatusClear s) : StatusClear t := by
  unfold EncFrame at h
  rw [h]
  exact hs

theorem DecFrame.statusClear {s t : State} (h : DecFrame s t) (hs : StatusClear s) : StatusClear t := by
  unfold DecFrame at h
  rw [h]
  exact hs

theorem WriteFrame.statusClear {s t : State} (h : WriteFrame s t) (hs : StatusClear s) : StatusClear t := by
  unfold WriteFrame at h
  rw [h]
  exact hs

theorem EmitFrame.statusClear {s t : State} (h : EmitFrame s t) (hs : StatusClear s) : StatusClear t := by
  unfold EmitFrame at h
  rw [h]
  exact hs

theorem EncFault.noCheckCode {s t : State} (h : EncFault s t) (hs : StatusClear s) : NoCheckCode t := by
  obtain ⟨u, k, hu, rfl | rfl, rfl⟩ := h <;> exact (hu.statusClear hs).noCheckCode_recordFault (by decide)

theorem DecFault.noCheckCode {s t : State} (h : DecFault s t) (hs : StatusClear s) : NoCheckCode t := by
  obtain ⟨u, hu, rfl⟩ := h
  exact (hu.statusClear hs).noCheckCode_recordFault (by decide)

theorem deliver_staysClear (bs : List Byte) {s : State} (hs : StatusClear s) : StaysClear (deliver bs s) := by
  refine (deliver_spec bs s).leaves.mono ?_ ?_
  · rintro _ t ⟨rfl, -⟩
    exact hs
  · rintro t ⟨rfl, -⟩
    exact StatusClear.noCheckCode_recordFault hs (by decide)

theorem putBits_staysClear (v n : Nat) {s : State} (hs : StatusClear s) : StaysClear (putBits v n s) :=
  (putBits_frame v n s).leaves.mono (fun _ _ h => h.statusClear hs) fun _ h => h.enc.noCheckCode hs

theorem putBytes_staysClear (bs : List Byte) {s : State} (hs : StatusClear s) : StaysClear (putBytes bs s) :=
  (putBytes_frame bs s).leaves.mono (fun _ _ h => h.statusClear hs) fun _ h => h.enc.noCheckCode hs

theorem emitBit_staysClear (b : Bool) {s : State} (hs : StatusClear s) : StaysClear (emitBit b s) :=
  (emitBit_frame b s).leaves.mono (fun _ _ h => h.1.statusClear hs) fun _ h => h.enc.noCheckCode hs

theorem encRenorm_staysClear (n : Nat) {s : State} (hs : StatusClear s) : StaysClear (encRenorm n s) :=
  (encRenorm_frame n s).mono (fun _ _ h => h.statusClear hs) fun _ h => h.noCheckCode hs

theorem getBits_staysClear (n : Nat) {s : State} (hs : StatusClear s) : StaysClear (getBits n s) :=
  (getBits_frame n s).leaves.mono (fun _ _ h => h.dec.statusClear hs) fun _ h => h.dec.noCheckCode hs

/-- A pseudocode that branches on whether the bits of a read were there (40_bit_channel.md rule R108). -/
theorem getBits_andThen_endsUnchecked (n : Nat) {f : Option Nat → State → Res Unit} {s : State} (hs : StatusClear s)
    (hnone : ∀ t, EndsUnchecked (f none t)) (hsome : ∀ v t, StatusClear t → EndsUnchecked (f (some v) t)) :
    EndsUnchecked (andThen (getBits n s) f) := by
  refine (getBits_staysClear n hs).andThen_endsUnchecked fun r t ht => ?_
  cases r with
  | none => exact hnone t
  | some v => exact hsome v t ht

theorem decRenorm_staysClear (n : Nat) {s : State} (hs : StatusClear s) : StaysClear (decRenorm n s) :=
  (decRenorm_frame n s).mono (fun _ _ h => h.statusClear hs) fun _ h => h.noCheckCode hs

theorem loadValue_staysClear (n : Nat) {s : State} (hs : StatusClear s) : StaysClear (loadValue n s) :=
  (loadValue_frame n s).mono (fun _ _ h => h.statusClear hs) fun _ h => h.noCheckCode hs

theorem freqUpdate_statusClear (sym : Nat) {s : State} (hs : StatusClear s) : StatusClear (freqUpdate sym s) := by
  rw [freqUpdate_frame]
  exact hs

theorem widenIfPow2_statusClear (x : Nat) {s : State} (hs : StatusClear s) : StatusClear (widenIfPow2 x s) := by
  rw [widenIfPow2_frame]
  exact hs

/-! The pseudocode of each command. -/

theorem closeWrite_endsUnchecked {s : State} (hs : StatusClear s) : EndsUnchecked (closeWrite s) := by
  unfold closeWrite
  split
  · dsimp only
    split
    · exact StaysClear.endsUnchecked (deliver_staysClear _ hs)
    · exact hs.noCheckCode
  · exact hs.noCheckCode

theorem readToR0_endsUnchecked (n : Nat) {s : State} (hs : StatusClear s) : EndsUnchecked (readToR0 n s) :=
  getBits_andThen_endsUnchecked n hs noCheckCode_signalEndOfStream fun _ _ ht => ht.noCheckCode

theorem closeRead_statusClear {s : State} (hs : StatusClear s) : StatusClear (closeRead s) := by
  unfold closeRead
  split <;> exact hs

theorem reportAndUpdate_statusClear (sym : Nat) {s : State} (hs : StatusClear s) : StatusClear (reportAndUpdate sym s) :=
  freqUpdate_statusClear sym (s := setInterval _ _ _ sym s) hs

theorem searchAndUpdate_endsUnchecked (v : Nat) {s : State} (hs : StatusClear s) : EndsUnchecked (searchAndUpdate v s) := by
  unfold searchAndUpdate
  split
  · exact hs.noCheckCode_recordFault (k := .invariantViolation) (by decide)
  · exact (reportAndUpdate_statusClear _ hs).noCheckCode

theorem encodeSymbol_endsUnchecked (sym : Nat) {s : State} (hs : StatusClear s) : EndsUnchecked (encodeSymbol sym s) := by
  have ht : StatusClear (freqUpdate sym s) := freqUpdate_statusClear sym hs
  exact StaysClear.endsUnchecked (encRenorm_staysClear _ ht)

theorem finishEncode_endsUnchecked {s : State} (hs : StatusClear s) : EndsUnchecked (finishEncode s) := by
  unfold finishEncode
  split
  · exact hs.noCheckCode_recordFault (k := .pendingOverflow) (by decide)
  · exact StaysClear.andThen_endsUnchecked (emitBit_staysClear _ hs) fun _ _ ht => ht.noCheckCode

theorem decodeSymbol_endsUnchecked {s : State} (hs : StatusClear s) : EndsUnchecked (decodeSymbol s) := by
  unfold decodeSymbol
  split
  · exact hs.noCheckCode_recordFault (k := .invariantViolation) (by decide)
  next sym _ =>
    have ht : StatusClear (freqUpdate sym s) := freqUpdate_statusClear sym hs
    dsimp only [countLookup]
    split
    · exact ht.noCheckCode
    · refine StaysClear.andThen_endsUnchecked (putBits_staysClear sym 8 ht) fun _ u hu => ?_
      exact StaysClear.endsUnchecked (decRenorm_staysClear _ hu)

theorem capReset_endsUnchecked (c : Byte) {s : State} (hs : StatusClear s) : EndsUnchecked (capReset c s) :=
  (putBits_staysClear _ _ hs).andThen_endsUnchecked fun _ _ ht => ht.noCheckCode

theorem emitAndInsert_endsUnchecked (e : Nat) (c : Byte) (t : List Byte) {s : State} (hs : StatusClear s) :
    EndsUnchecked (emitAndInsert e c t s) := by
  refine (putBits_staysClear _ _ hs).andThen_endsUnchecked fun _ u hu => ?_
  have hinsert : StatusClear (insertNext t u) := hu
  have hwiden := widenIfPow2_statusClear (insertNext t u).maxcode.toNat hinsert
  dsimp only
  split
  · exact capReset_endsUnchecked c hwiden
  · exact hwiden.noCheckCode

theorem encodeByte_endsUnchecked (c : Byte) {s : State} (hs : StatusClear s) : EndsUnchecked (encodeByte c s) := by
  unfold encodeByte
  split
  next =>
    split
    · exact hs.noCheckCode
    · trivial
  next =>
    split
    · trivial
    · split
      · exact hs.noCheckCode
      · exact emitAndInsert_endsUnchecked _ c _ hs

theorem finishLzw_endsUnchecked {s : State} (hs : StatusClear s) : EndsUnchecked (finishLzw s) := by
  unfold finishLzw
  split
  · exact (putBits_staysClear _ _ hs).andThen_endsUnchecked fun _ _ ht => ht.noCheckCode
  · exact hs.noCheckCode

theorem decodeFirstCode_endsUnchecked {s : State} (hs : StatusClear s) : EndsUnchecked (decodeFirstCode s) :=
  getBits_andThen_endsUnchecked 8 hs noCheckCode_signalEndOfStream fun v _ ht =>
    (putBits_staysClear v 8 ht).andThen_endsUnchecked fun _ _ hu => hu.noCheckCode

theorem resetStep_endsUnchecked {s : State} (hs : StatusClear s) : EndsUnchecked (resetStep s) :=
  getBits_andThen_endsUnchecked 8 hs noCheckCode_signalEndOfStream fun v _ ht =>
    (putBits_staysClear v 8 ht).andThen_endsUnchecked fun _ _ hu => hu.noCheckCode

theorem decodeCode_endsUnchecked (r : Nat) {s : State} (hs : StatusClear s) : EndsUnchecked (decodeCode r s) := by
  unfold decodeCode
  split
  · exact hs.noCheckCode_recordFault (k := .lzwBadCode) (by decide)
  · dsimp only
    split
    · trivial
    · exact StaysClear.andThen_endsUnchecked (putBytes_staysClear _ hs) fun _ _ ht => ht.noCheckCode

theorem decodeStep_endsUnchecked {s : State} (hs : StatusClear s) : EndsUnchecked (decodeStep s) := by
  unfold decodeStep
  split
  · exact resetStep_endsUnchecked hs
  · exact getBits_andThen_endsUnchecked _ (widenIfPow2_statusClear _ hs) noCheckCode_signalEndOfStream fun v _ ht =>
      decodeCode_endsUnchecked v ht

/-- No pseudocode raises BadState or BadOperand (60_exceptions.md rule R271: both belong to the dispatch). -/
theorem pseudocode_endsUnchecked (i : Instr) {s : State} (hs : StatusClear s) : EndsUnchecked (pseudocode i s) := by
  cases i
  case wbits n => exact (putBits_staysClear _ _ hs).endsUnchecked
  case wclose => exact closeWrite_endsUnchecked hs
  case rbits n => exact readToR0_endsUnchecked _ hs
  case rclose => exact (closeRead_statusClear hs).noCheckCode
  case fmprob sym => exact (reportAndUpdate_statusClear _ hs).noCheckCode
  case fmsym v => exact searchAndUpdate_endsUnchecked _ hs
  case aesym sym => exact encodeSymbol_endsUnchecked _ hs
  case aefin => exact finishEncode_endsUnchecked hs
  case adinit => exact StaysClear.andThen_endsUnchecked (loadValue_staysClear 17 hs) fun _ _ ht => ht.noCheckCode
  case adsym => exact decodeSymbol_endsUnchecked hs
  case lebyte c => exact encodeByte_endsUnchecked _ hs
  case lefin => exact finishLzw_endsUnchecked hs
  case ldinit => exact decodeFirstCode_endsUnchecked hs
  case ldstep => exact decodeStep_endsUnchecked hs
  case srst => exact StatusClear.noCheckCode (s := resetAll s) ⟨rfl, rfl⟩
  case wopen | ropen | fmrst | fmtot | aeinit | leinit => exact hs.noCheckCode

/-! ### The checks -/

/-- How an unchecked pseudocode ends its command. -/
theorem EndsUnchecked.of_outcome {r : Res Unit} (h : EndsUnchecked r) {t : State} (ht : outcomeOf r = .next t) :
    NoCheckCode t := by
  obtain rfl | rfl := outcomeOf_eq_next.mp ht <;> exact h

/-- Settles O10: a failed check by the dispatch's two lemmas, and a command that passes both by its pseudocode. -/
theorem stateAndOperandChecks : Obligations.StateAndOperandChecks := by
  intro i s hfault
  rw [exec_eq_dispatchCommand, ← stateCheck_eq_true_iff, ← operandCheck_eq_true_iff, Bool.not_eq_true, Bool.not_eq_true]
  refine ⟨dispatchCommand_badState hfault, fun hstate hoperand => ?badOperand, fun hstate hoperand t ht => ?passed⟩
  case badOperand => rw [hstate, dispatchCommand_badOperand hfault hoperand]
  case passed =>
    rw [hstate, hoperand, dispatchCommand_performs hfault] at ht
    exact (pseudocode_endsUnchecked i (s := { s with ended := false, fcode := 0 }) ⟨hfault, rfl⟩).of_outcome ht

end Sys2Proof.Machine
end

/-!
PROOFS. The decoder and the encoder are inverse to each other (30_encoding.md rules R80 to R84). A command word is an OPC and an operand
field; the decoder reads a field back exactly when the reserved bits above it are 0, so both directions reduce to the two fields of a word.
-/
namespace Sys2Proof

/-! ### The fields of a command's word -/

@[simp] theorem opcOf_commandWord {k : Nat} (opc : BitVec 8) (field : BitVec k) : opcOf (commandWord opc field) = opc := by
  simp only [opcOf, commandWord, BitVec.extractLsb'_append_eq_ite]
  simp

@[simp] theorem argOf_commandWord {k : Nat} (opc : BitVec 8) (field : BitVec k) :
    argOf (commandWord opc field) = field.setWidth 24 := by
  simp only [argOf, commandWord, BitVec.extractLsb'_append_eq_ite]
  simp

/-- A word is the command word of an OPC and a field when its two fields are theirs. -/
theorem commandWord_eq {k : Nat} {opc : BitVec 8} {field : BitVec k} {w : Word} (hopc : (opcOf w).toNat = opc.toNat)
    (harg : argOf w = field.setWidth 24) : commandWord opc field = w := by
  rw [word_eq_iff, opcOf_commandWord, argOf_commandWord, harg, BitVec.eq_of_toNat_eq hopc]
  exact ⟨rfl, rfl⟩

/-! ### Reading the operand -/

/-- An operand of a layout is read back from the ARG it was written to (30_encoding.md rule R82). -/
theorem argField_setWidth {k : Nat} (hk : k ≤ 24) (field : BitVec k) : argField k (field.setWidth 24) = some field := by
  have hsame : (field.setWidth 24).setWidth k = field := by
    rw [BitVec.setWidth_setWidth_of_le _ hk, BitVec.setWidth_eq]
  have hlt : (field.setWidth 24).toNat < 2 ^ k := by
    rw [BitVec.toNat_setWidth_of_le hk]
    exact field.isLt
  rw [argField, if_pos hlt, hsame]

/-- ARG is the operand it is read as: the reserved bits are 0 (30_encoding.md rule R84). -/
theorem eq_setWidth_of_argField {k : Nat} (hk : k ≤ 24) {arg : BitVec 24} {field : BitVec k}
    (h : argField k arg = some field) : arg = field.setWidth 24 := by
  rw [argField, Option.ite_none_right_eq_some] at h
  obtain ⟨hlt, hfield⟩ := h
  apply BitVec.eq_of_toNat_eq
  rw [← Option.some.inj hfield, BitVec.toNat_setWidth_of_le hk, BitVec.toNat_setWidth, Nat.mod_eq_of_lt hlt]

/-- A command with an operand that decodes is the command of its word's OPC and operand. -/
theorem commandWord_of_argField {k : Nat} (hk : k ≤ 24) {w : Word} {opc : BitVec 8} {command : BitVec k → Instr} {i : Instr}
    (henc : ∀ field, encode (command field) = commandWord opc field) (hopc : (opcOf w).toNat = opc.toNat)
    (h : (argField k (argOf w)).map command = some i) : encode i = w := by
  obtain ⟨field, hfield, rfl⟩ := Option.map_eq_some_iff.mp h
  rw [henc, commandWord_eq hopc (eq_setWidth_of_argField hk hfield)]

/-- A command without an operand that decodes is the command of its word's OPC. -/
theorem commandWord_of_noOperand {w : Word} {opc : BitVec 8} {command i : Instr} (henc : encode command = commandWord opc 0#0)
    (hopc : (opcOf w).toNat = opc.toNat) (h : noOperand (argOf w) command = some i) : encode i = w := by
  rw [noOperand, Option.ite_none_right_eq_some] at h
  obtain ⟨hzero, heq⟩ := h
  have harg : argOf w = (0#0).setWidth 24 := BitVec.eq_of_toNat_eq hzero
  rw [← Option.some.inj heq, henc, commandWord_eq hopc harg]

/-! ### The obligations -/

/-- Settles O1: on a command's OPC the decoder reads the layout that the encoder wrote. -/
theorem decodeOfEncodeIsTheInstruction : Obligations.DecodeOfEncodeIsTheInstruction := by
  intro i
  cases i
  case wbits n | rbits n => simp [encode, decode, argField_setWidth]
  case fmprob sym | aesym sym => simp [encode, decode, argField_setWidth]
  case fmsym v =>
    have h := argField_setWidth (le_refl 24) v
    rw [BitVec.setWidth_eq] at h
    simp [encode, decode, h]
  case lebyte c => simp [encode, decode, argField_setWidth]
  all_goals rfl

/-- Settles O2: by the decoder's arms, one for each OPC of the map. -/
theorem encodeOfDecodedWordIsTheWord : Obligations.EncodeOfDecodedWordIsTheWord := by
  intro w i h
  unfold decode at h
  split at h
  case h_2 | h_5 | h_8 | h_9 | h_12 | h_17 =>
    exact commandWord_of_argField (by decide) (fun _ => rfl) ‹_› h
  case h_22 => cases h
  all_goals exact commandWord_of_noOperand rfl ‹_› h

/-- Settles O4: twelve words, by evaluation of the decoder. -/
theorem writtenOutWordsDecode : Obligations.WrittenOutWordsDecode := by
  unfold Obligations.WrittenOutWordsDecode
  decide

end Sys2Proof

/-!
PROOFS. What a step does when it runs no pseudocode of its own accord: the word it takes from CMD, the host's actions, waiting,
and the two resets (44_control.md rules R260, R262; 70_reset_and_hazards.md rules R300, R302).
-/
namespace Sys2Proof.Machine

/-! ### What a step finds to do -/

/-- With CMD empty the host's next action is the step (10_state.md rule R20). -/
theorem step_of_hostAction {s : State} {a : HostAction} {rest : List HostAction} (hcmd : s.cmd = none)
    (hhost : s.host = a :: rest) : step s = .next (hostAction a { s with host := rest }) := by
  simp [step, fetch, hcmd, hhost]

/-- With CMD empty and no action left the step changes nothing (70_reset_and_hazards.md rule R302). -/
theorem step_of_idle {s : State} (hcmd : s.cmd = none) (hhost : s.host = []) : step s = .next s := by
  simp [step, fetch, hcmd, hhost]

/-- A word of 32 bits is placed whole. -/
theorem withFetchWord_toNat (s : State) (w : Word) : s.withFetchWord 32 w.toNat = { s with cmd := some w } := by
  rw [State.withFetchWord, Nat.mod_eq_of_lt w.isLt, BitVec.ofNat_toNat, BitVec.setWidth_eq]

/-- All that a step can do: run a command, refuse or fault on an illegal word, take a host action, or wait. -/
theorem step_cases (s : State) :
    (∃ w i, s.cmd = some w ∧ decode w = some i ∧ step s = exec i { s with cmd := none }) ∨
    (∃ w, s.cmd = some w ∧ decode w = none ∧ step s = .next (illegalCommand { s with cmd := none })) ∨
    (∃ a rest, s.cmd = none ∧ s.host = a :: rest ∧ step s = .next (hostAction a { s with host := rest })) ∨
    (s.cmd = none ∧ s.host = [] ∧ step s = .next s) := by
  obtain hcmd | ⟨w, hcmd⟩ := Option.eq_none_or_eq_some s.cmd
  · obtain hhost | ⟨a, rest, hhost⟩ : s.host = [] ∨ ∃ a rest, s.host = a :: rest := by cases s.host <;> simp
    · exact .inr (.inr (.inr ⟨hcmd, hhost, step_of_idle hcmd hhost⟩))
    · exact .inr (.inr (.inl ⟨a, rest, hcmd, hhost, step_of_hostAction hcmd hhost⟩))
  · obtain hdecode | ⟨i, hdecode⟩ := Option.eq_none_or_eq_some (decode w)
    · exact .inr (.inl ⟨w, hcmd, hdecode, step_of_decode_eq_none hcmd hdecode⟩)
    · exact .inl ⟨w, i, hcmd, hdecode, step_of_decode_eq_some hcmd hdecode⟩

/-! ### The reset table -/

/-- The reset state is the table of 10_state.md rule R41. -/
theorem resetTable_reset : ResetTable State.reset := by
  have hcum : ∀ i ≤ 257, cumAt State.reset i = i := fun i hi => cumAt_of_ramp rfl hi
  have hdict : ∀ c < 256, dictAt State.reset c = [BitVec.ofNat 8 c] := fun c hc => getD_initialDict hc
  refine ⟨rfl, rfl, rfl, rfl, rfl, by decide, rfl, rfl, rfl, rfl, rfl, rfl, rfl, rfl, rfl, rfl, rfl, rfl, length_identityRamp,
    hcum, rfl, rfl, rfl, rfl, rfl, rfl, length_initialDict, hdict, rfl, rfl, rfl, rfl, rfl⟩

/-- CMD, the host's actions and the bindings stand in no line of the table. -/
theorem resetTable_resetAll (s : State) : ResetTable (resetAll s) := resetTable_reset

/-! ### The obligations -/

/-- Settles O5: both ways of placing the word leave it in CMD, where the step takes it. -/
theorem stepRunsTheDecodedCommand : Obligations.StepRunsTheDecodedCommand := by
  intro s w i hdecode
  refine ⟨fun hcmd => step_of_decode_eq_some hcmd hdecode, ?_⟩
  rw [withFetchWord_toNat]
  exact step_of_decode_eq_some (s := { s with cmd := some w }) rfl hdecode

/-- Settles O8: each action by the lemma about the step that takes it. -/
theorem hostActsBetweenCommands : Obligations.HostActsBetweenCommands := by
  intro s rest hcmd
  have act : ∀ a, s.host = a :: rest → step s = .next (hostAction a { s with host := rest }) := fun a =>
    step_of_hostAction hcmd
  refine ⟨fun w => act (.writeCmd w), fun v => act (.writeData v), fun src => act (.bindSource src),
    fun snk => act (.bindSink snk), fun hpower => ?_⟩
  rw [act .powerOn hpower, hostAction, resetAll, hcmd]
  rfl

/-- Settles O9. -/
theorem idleBlockWaits : Obligations.IdleBlockWaits := fun _ => step_of_idle

/-- Settles O17: both resets are `resetAll`, which keeps the fields that the table does not name. -/
theorem resetGivesTheTable : Obligations.ResetGivesTheTable := by
  refine ⟨resetTable_reset, fun s => ⟨⟨resetAll s, exec_srst s, resetTable_resetAll s, rfl, rfl, rfl, rfl⟩, fun rest hcmd hhost => ?_⟩⟩
  exact ⟨resetAll { s with host := rest }, step_of_hostAction hcmd hhost, resetTable_resetAll _, hcmd, rfl, rfl, rfl⟩

end Sys2Proof.Machine

/-!
PROOFS. What each command leaves alone, in every state (10_state.md rule R23; 20_memory.md rule R60; 60_exceptions.md rules R272
to R277). One frame, `CommandFrame`, says it for all commands but SRST: what no command touches, and each unit that the
command's rule does not use. Every step of a pseudocode keeps the frame; so a command ends inside it, or it ends there with a
fault recorded, or it has met one of the four ends of a stream. The obligations about result registers, units, streams and
STATUS are read off that.
-/
namespace Sys2Proof.Machine

/-! ### The frame of a command -/

/-- `t` differs from `s` only in what the rule of the command `i` names: STATUS, CMD, DATA and the host's actions are the same, and so is
each unit that `i` does not use. -/
structure CommandFrame (i : Instr) (s t : State) : Prop where
  status : t.fault = s.fault ∧ t.ended = s.ended ∧ t.fcode = s.fcode ∧ t.ioSink = s.ioSink
  inputs : t.cmd = s.cmd ∧ t.host = s.host ∧ t.data = s.data
  r0 : writesR0 i = false → t.r0 = s.r0
  r1 : writesR1 i = false → t.r1 = s.r1
  r2 : writesR2 i = false → t.r2 = s.r2
  r3 : writesR3 i = false → t.r3 = s.r3
  model : usesTheModel i = false → t.cum = s.cum ∧ t.frozen = s.frozen
  coder : usesTheCoder i = false →
    t.low = s.low ∧ t.high = s.high ∧ t.value = s.value ∧ t.pending = s.pending ∧ t.acMode = s.acMode
  dictionary : usesTheDictionary i = false →
    t.dict = s.dict ∧ t.maxcode = s.maxcode ∧ t.codelen = s.codelen ∧ t.sCode = s.sCode ∧ t.prev = s.prev ∧ t.lzMode = s.lzMode
  source : readsTheSource i = false → t.source = s.source
  sink : writesTheSink i = false → t.sink = s.sink
  readSide : readsTheSource i = false → i ≠ .ropen → i ≠ .rclose →
    t.rOpen = s.rOpen ∧ t.rBuf = s.rBuf ∧ t.rBitpos = s.rBitpos ∧ t.rSrcEnd = s.rSrcEnd
  writeSide : writesTheSink i = false → i ≠ .wopen →
    t.wOpen = s.wOpen ∧ t.wBuf = s.wBuf ∧ t.wAcc = s.wAcc ∧ t.wNbits = s.wNbits

section
variable {i : Instr} {s t u : State}

theorem CommandFrame.refl (i : Instr) (s : State) : CommandFrame i s s := by constructor <;> simp

theorem CommandFrame.trans (h : CommandFrame i s t) (h' : CommandFrame i t u) : CommandFrame i s u where
  status := by simp only [h'.status, h.status, and_self]
  inputs := by simp only [h'.inputs, h.inputs, and_self]
  r0 hi := (h'.r0 hi).trans (h.r0 hi)
  r1 hi := (h'.r1 hi).trans (h.r1 hi)
  r2 hi := (h'.r2 hi).trans (h.r2 hi)
  r3 hi := (h'.r3 hi).trans (h.r3 hi)
  model hi := by simp only [h'.model hi, h.model hi, and_self]
  coder hi := by simp only [h'.coder hi, h.coder hi, and_self]
  dictionary hi := by simp only [h'.dictionary hi, h.dictionary hi, and_self]
  source hi := (h'.source hi).trans (h.source hi)
  sink hi := (h'.sink hi).trans (h.sink hi)
  readSide hi ho hc := by simp only [h'.readSide hi ho hc, h.readSide hi ho hc, and_self]
  writeSide hi ho := by simp only [h'.writeSide hi ho, h.writeSide hi ho, and_self]

/-! What an update of one unit needs to stay in the frame: a command that uses that unit. -/

theorem CommandFrame.writes (hi : writesTheSink i = true) (h : WriteFrame s t) : CommandFrame i s t := by
  rw [show t = _ from h]
  constructor <;> simp [hi]

theorem CommandFrame.reads (hi : readsTheSource i = true) (h : ReadFrame s t) : CommandFrame i s t := by
  rw [show t = _ from h]
  constructor <;> simp [hi]

theorem CommandFrame.encodes (hi : writesTheSink i = true) (hc : usesTheCoder i = true) (h : EncFrame s t) : CommandFrame i s t := by
  rw [show t = _ from h]
  constructor <;> simp [hi, hc]

theorem CommandFrame.decodes (hi : readsTheSource i = true) (hc : usesTheCoder i = true) (h : DecFrame s t) : CommandFrame i s t := by
  rw [show t = _ from h]
  constructor <;> simp [hi, hc]

theorem CommandFrame.setR0 (hi : writesR0 i = true) (s : State) (v : Word) : CommandFrame i s { s with r0 := v } := by
  constructor <;> simp [hi]

theorem CommandFrame.setInterval (h0 : writesR0 i = true) (h1 : writesR1 i = true) (h2 : writesR2 i = true)
    (h3 : writesR3 i = true) (lo hi t sym : Nat) (s : State) : CommandFrame i s (setInterval lo hi t sym s) := by
  constructor <;> simp [h0, h1, h2, h3]

theorem CommandFrame.setCodes (h0 : writesR0 i = true) (h1 : writesR1 i = true) (h2 : writesR2 i = true)
    (count code width : Nat) (s : State) : CommandFrame i s (setCodes count code width s) := by
  constructor <;> simp [h0, h1, h2]

theorem CommandFrame.ofTable (hi : usesTheModel i = true) (h : t = { s with cum := t.cum, frozen := t.frozen }) :
    CommandFrame i s t := by
  rw [h]
  constructor <;> simp [hi]

theorem CommandFrame.freqUpdate (hi : usesTheModel i = true) (sym : Nat) (s : State) : CommandFrame i s (freqUpdate sym s) := by
  rw [freqUpdate_frame]
  exact .ofTable hi rfl

theorem CommandFrame.ofCoder (hi : usesTheCoder i = true)
    (h : t = { s with low := t.low, high := t.high, value := t.value, pending := t.pending, acMode := t.acMode }) :
    CommandFrame i s t := by
  rw [h]
  constructor <;> simp [hi]

theorem CommandFrame.coderStart (hm : usesTheModel i = true) (hi : usesTheCoder i = true) (s : State) :
    CommandFrame i s (coderStart s) := by
  constructor <;> simp [hi, hm]

theorem CommandFrame.ofDictionary (hi : usesTheDictionary i = true)
    (h : t = { s with
      dict := t.dict, maxcode := t.maxcode, codelen := t.codelen, sCode := t.sCode, prev := t.prev, lzMode := t.lzMode }) :
    CommandFrame i s t := by
  rw [h]
  constructor <;> simp [hi]

theorem CommandFrame.widenIfPow2 (hi : usesTheDictionary i = true) (x : Nat) (s : State) : CommandFrame i s (widenIfPow2 x s) := by
  rw [widenIfPow2_frame]
  exact .ofDictionary hi rfl

/-! ### How a command ends -/

/-- `t` is a state inside the command's frame with a fault recorded (60_exceptions.md rules R272, R273). -/
def FaultedInFrame (i : Instr) (s t : State) : Prop := ∃ u k, CommandFrame i s u ∧ t = recordFault k u

/-- The command met the end of a stream (60_exceptions.md rule R277): inside its frame, EndOfStream is signalled by RBITS, LDINIT or
LDSTEP, or END is set by ADSYM after the EOF symbol. -/
inductive EndEvent (i : Instr) (s : State) : State → Prop where
  | rbits (n : BitVec 6) (u : State) (hi : i = .rbits n) (hu : CommandFrame i s u) : EndEvent i s (signalEndOfStream u)
  | lzw (u : State) (hi : i = .ldinit ∨ i = .ldstep) (hu : CommandFrame i s u) (hm : u.lzMode = .idle) :
    EndEvent i s (signalEndOfStream u)
  | eof (u : State) (hi : i = .adsym) (hu : CommandFrame i s u) (hm : u.acMode = .idle) (h3 : u.r3 = 256) :
    EndEvent i s { u with ended := true }

/-- A step of the pseudocode of `i`, begun from `s`, that stays inside the command's frame. -/
def StaysInFrame {α : Type} (i : Instr) (s : State) (r : Res α) : Prop :=
  Leaves r (fun _ t => CommandFrame i s t) (FaultedInFrame i s)

/-- A pseudocode of `i`, begun from `s`, that ends inside the command's frame or with an end of a stream. -/
def EndsInFrame (i : Instr) (s : State) (r : Res Unit) : Prop :=
  Leaves r (fun _ t => CommandFrame i s t ∨ EndEvent i s t) (FaultedInFrame i s)

theorem StaysInFrame.ends {r : Res Unit} (h : StaysInFrame i s r) : EndsInFrame i s r := h.mono (fun _ _ h => .inl h) fun _ h => h

theorem StaysInFrame.andThen {α : Type} {r : Res α} {f : α → State → Res Unit} (h : StaysInFrame i s r)
    (hf : ∀ a t, CommandFrame i s t → EndsInFrame i s (f a t)) : EndsInFrame i s (andThen r f) :=
  Leaves.andThen h hf

theorem CommandFrame.faulted (h : CommandFrame i s t) (k : FaultKind) : FaultedInFrame i s (recordFault k t) := ⟨t, k, h, rfl⟩

theorem CommandFrame.ok (h : CommandFrame i s t) : EndsInFrame i s (.ok () t) := .inl h

/-! The shared operations, from a state inside the frame. -/

theorem SinkFailure.inFrame (hi : writesTheSink i = true) (h : CommandFrame i s t) (hf : SinkFailure t u) : FaultedInFrame i s u := by
  obtain ⟨v, hv, rfl⟩ := hf
  exact (h.trans (.writes hi hv)).faulted _

theorem SourceFailure.inFrame (hi : readsTheSource i = true) (h : CommandFrame i s t) (hf : SourceFailure t u) :
    FaultedInFrame i s u := by
  obtain ⟨v, hv, rfl⟩ := hf
  exact (h.trans (.reads hi hv)).faulted _

theorem EncFault.inFrame (hi : writesTheSink i = true) (hc : usesTheCoder i = true) (h : CommandFrame i s t) (hf : EncFault t u) :
    FaultedInFrame i s u := by
  obtain ⟨v, k, hv, -, rfl⟩ := hf
  exact (h.trans (.encodes hi hc hv)).faulted _

theorem DecFault.inFrame (hi : readsTheSource i = true) (hc : usesTheCoder i = true) (h : CommandFrame i s t) (hf : DecFault t u) :
    FaultedInFrame i s u := by
  obtain ⟨v, hv, rfl⟩ := hf
  exact (h.trans (.decodes hi hc hv)).faulted _

theorem putBits_inFrame (hi : writesTheSink i = true) (h : CommandFrame i s t) (v n : Nat) : StaysInFrame i s (putBits v n t) :=
  (putBits_frame v n t).leaves.mono (fun _ _ hw => h.trans (.writes hi hw)) fun _ hf => hf.inFrame hi h

theorem putBytes_inFrame (hi : writesTheSink i = true) (h : CommandFrame i s t) (bs : List Byte) :
    StaysInFrame i s (putBytes bs t) :=
  (putBytes_frame bs t).leaves.mono (fun _ _ hw => h.trans (.writes hi hw)) fun _ hf => hf.inFrame hi h

theorem emitBit_inFrame (hi : writesTheSink i = true) (hc : usesTheCoder i = true) (h : CommandFrame i s t) (b : Bool) :
    StaysInFrame i s (emitBit b t) :=
  (emitBit_frame b t).leaves.mono
    (fun _ u hu => h.trans (.encodes hi hc (by unfold EncFrame; rw [show u = _ from hu.1]))) fun _ hf => hf.inFrame hi h

theorem encRenorm_inFrame (hi : writesTheSink i = true) (hc : usesTheCoder i = true) (h : CommandFrame i s t) (n : Nat) :
    StaysInFrame i s (encRenorm n t) :=
  (encRenorm_frame n t).mono (fun _ _ hu => h.trans (.encodes hi hc hu)) fun _ hf => hf.inFrame hi hc h

theorem getBits_inFrame (hi : readsTheSource i = true) (h : CommandFrame i s t) (n : Nat) : StaysInFrame i s (getBits n t) :=
  (getBits_frame n t).leaves.mono (fun _ _ hr => h.trans (.reads hi hr)) fun _ hf => hf.inFrame hi h

theorem decRenorm_inFrame (hi : readsTheSource i = true) (hc : usesTheCoder i = true) (h : CommandFrame i s t) (n : Nat) :
    StaysInFrame i s (decRenorm n t) :=
  (decRenorm_frame n t).mono (fun _ _ hu => h.trans (.decodes hi hc hu)) fun _ hf => hf.inFrame hi hc h

theorem loadValue_inFrame (hi : readsTheSource i = true) (hc : usesTheCoder i = true) (h : CommandFrame i s t) (n : Nat) :
    StaysInFrame i s (loadValue n t) :=
  (loadValue_frame n t).mono (fun _ _ hu => h.trans (.decodes hi hc hu)) fun _ hf => hf.inFrame hi hc h

end

/-! The pseudocode of each command. -/

theorem closeWrite_inFrame (s : State) : StaysInFrame .wclose s (closeWrite s) := by
  have hclose : ∀ k, CommandFrame .wclose s { s with wBuf := [], wAcc := 0, wNbits := 0, wOpen := false, sink := k } := fun k => by
    constructor <;> simp [writesTheSink]
  unfold closeWrite
  split
  · dsimp only
    split
    · refine (deliver_spec _ _).leaves.mono ?_ ?_
      · rintro _ t ⟨rfl, -⟩
        exact hclose _
      · rintro t ⟨rfl, -⟩
        exact (hclose _).faulted _
    · exact hclose s.sink
  · exact CommandFrame.refl _ s

theorem readToR0_inFrame (n : BitVec 6) (k : Nat) (s : State) : EndsInFrame (.rbits n) s (readToR0 k s) := by
  refine StaysInFrame.andThen (getBits_inFrame rfl (.refl _ s) k) fun r t ht => ?_
  cases r with
  | none => exact .inr (.rbits n t rfl ht)
  | some v => exact (ht.trans (.setR0 rfl t _)).ok

theorem closeRead_inFrame (s : State) : CommandFrame .rclose s (closeRead s) := by
  unfold closeRead
  split
  · constructor <;> simp
  · exact .refl _ s

/-- The look-up and the update of a symbol, in the order of 41_freq_model.md rule R144. -/
theorem reportAndUpdate_inFrame {i : Instr} (h0 : writesR0 i = true) (h1 : writesR1 i = true) (h2 : writesR2 i = true)
    (h3 : writesR3 i = true) (hm : usesTheModel i = true) (sym : Nat) (s : State) : CommandFrame i s (reportAndUpdate sym s) :=
  CommandFrame.trans (.setInterval h0 h1 h2 h3 _ _ _ _ s) (.freqUpdate hm sym _)

/-- The update and the look-up of a symbol, in the order of 42_arith_coder.md rules R178, R183. -/
theorem updateAndReport_inFrame {i : Instr} (h0 : writesR0 i = true) (h1 : writesR1 i = true) (h2 : writesR2 i = true)
    (h3 : writesR3 i = true) (hm : usesTheModel i = true) (lo hi t sym : Nat) (s : State) :
    CommandFrame i s (setInterval lo hi t sym (freqUpdate sym s)) :=
  CommandFrame.trans (.freqUpdate hm sym s) (.setInterval h0 h1 h2 h3 _ _ _ _ _)

theorem searchAndUpdate_inFrame (v : BitVec 24) (k : Nat) (s : State) : EndsInFrame (.fmsym v) s (searchAndUpdate k s) := by
  unfold searchAndUpdate
  split
  · exact (CommandFrame.refl _ s).faulted _
  · exact (reportAndUpdate_inFrame rfl rfl rfl rfl rfl _ s).ok

theorem narrow_inFrame {i : Instr} (hc : usesTheCoder i = true) (lo hi t : Nat) (s : State) : CommandFrame i s (narrow lo hi t s) :=
  .ofCoder hc rfl

theorem encodeSymbol_inFrame (sym : BitVec 9) (k : Nat) (s : State) : EndsInFrame (.aesym sym) s (encodeSymbol k s) :=
  StaysInFrame.ends (encRenorm_inFrame rfl rfl
    ((updateAndReport_inFrame rfl rfl rfl rfl rfl _ _ _ k s).trans (narrow_inFrame rfl _ _ _ _)) _)

theorem finishEncode_inFrame (s : State) : EndsInFrame .aefin s (finishEncode s) := by
  unfold finishEncode
  split
  · exact (CommandFrame.refl _ s).faulted _
  · refine StaysInFrame.andThen (emitBit_inFrame rfl rfl (.ofCoder rfl rfl) _) fun _ t ht => ?_
    have hbit := ht.trans (.setR0 rfl t (BitVec.ofNat 32 (decide (Config.oneFourth ≤ s.low.toNat)).toNat))
    exact CommandFrame.ok (hbit.trans (.ofCoder rfl rfl))

theorem startDecode_inFrame (s : State) : EndsInFrame .adinit s (pseudocode .adinit s) :=
  StaysInFrame.andThen (loadValue_inFrame rfl rfl (.coderStart rfl rfl s) 17) fun _ _ ht =>
    (ht.trans (.ofCoder rfl rfl)).ok

theorem decodeSymbol_inFrame (s : State) : EndsInFrame .adsym s (decodeSymbol s) := by
  unfold decodeSymbol
  split
  · exact (CommandFrame.refl _ s).faulted _
  next sym _ =>
    dsimp only [countLookup]
    have hreport := fun lo hi t => updateAndReport_inFrame (i := .adsym) rfl rfl rfl rfl rfl lo hi t sym s
    split
    next heof =>
      subst heof
      exact .inr (.eof { setInterval _ _ _ 256 (freqUpdate 256 s) with acMode := .idle } rfl
        ((hreport _ _ _).trans (.ofCoder rfl rfl)) rfl rfl)
    next =>
      refine StaysInFrame.andThen (putBits_inFrame rfl (hreport _ _ _) sym 8) fun _ u hu => ?_
      exact StaysInFrame.ends (decRenorm_inFrame rfl rfl (hu.trans (narrow_inFrame rfl _ _ _ _)) _)

theorem insertNext_inFrame {i : Instr} (hd : usesTheDictionary i = true) (t : List Byte) (s : State) :
    CommandFrame i s (insertNext t s) :=
  .ofDictionary hd rfl

theorem capReset_inFrame {b : BitVec 8} {s t : State} (h : CommandFrame (.lebyte b) s t) (c : Byte) :
    EndsInFrame (.lebyte b) s (capReset c t) := by
  refine StaysInFrame.andThen (putBits_inFrame rfl h _ _) fun _ u hu => ?_
  exact CommandFrame.ok ((hu.trans (.setCodes rfl rfl rfl _ _ _ u)).trans (.ofDictionary rfl rfl))

theorem emitAndInsert_inFrame (b : BitVec 8) (e : Nat) (c : Byte) (t : List Byte) (s : State) :
    EndsInFrame (.lebyte b) s (emitAndInsert e c t s) := by
  refine StaysInFrame.andThen (putBits_inFrame rfl (.refl _ s) _ _) fun _ u hu => ?_
  dsimp only
  have hwiden := (hu.trans (insertNext_inFrame rfl t u)).trans (.widenIfPow2 rfl (insertNext t u).maxcode.toNat _)
  generalize widenIfPow2 (insertNext t u).maxcode.toNat (insertNext t u) = v at hwiden
  have hmatch : CommandFrame (.lebyte b) s (setCodes 1 e s.codelen.toNat { v with sCode := some (BitVec.ofNat 23 c.toNat) }) :=
    (hwiden.trans (.ofDictionary rfl rfl)).trans (.setCodes rfl rfl rfl _ _ _ _)
  split
  · exact capReset_inFrame hmatch c
  · exact hmatch.ok

theorem extendMatch_inFrame (b : BitVec 8) (k : Nat) (s : State) : CommandFrame (.lebyte b) s (extendMatch k s) :=
  CommandFrame.trans (.setR0 rfl s 0) (.ofDictionary rfl rfl)

theorem encodeByte_inFrame (b : BitVec 8) (c : Byte) (s : State) : EndsInFrame (.lebyte b) s (encodeByte c s) := by
  unfold encodeByte
  split
  next =>
    split
    · exact (extendMatch_inFrame b _ s).ok
    · trivial
  next =>
    split
    · trivial
    · split
      · exact (extendMatch_inFrame b _ s).ok
      · exact emitAndInsert_inFrame b _ c _ s

theorem finishLzw_inFrame (s : State) : EndsInFrame .lefin s (finishLzw s) := by
  unfold finishLzw
  split
  · refine StaysInFrame.andThen (putBits_inFrame rfl (.refl _ s) _ _) fun _ t ht => ?_
    exact CommandFrame.ok ((ht.trans (.setCodes rfl rfl rfl _ _ _ t)).trans (.ofDictionary rfl rfl))
  · exact (CommandFrame.trans (.setR0 rfl s 0) (.ofDictionary rfl rfl)).ok

/-- The end of an LZW decode is EndOfStream with the mode already IDLE (43_lzw.md rules R228, R229). -/
theorem endLzwDecode_endEvent {i : Instr} (hi : i = .ldinit ∨ i = .ldstep) {s t : State} (h : CommandFrame i s t) :
    EndEvent i s (endLzwDecode t) := by
  have hw : writesR0 i = true ∧ usesTheDictionary i = true := by obtain rfl | rfl := hi <;> exact ⟨rfl, rfl⟩
  exact .lzw { t with lzMode := .idle, r0 := 0 } hi
    ((h.trans (.setR0 hw.1 t 0)).trans (.ofDictionary hw.2 rfl)) rfl

theorem decodeFirstCode_inFrame (s : State) : EndsInFrame .ldinit s (decodeFirstCode s) := by
  refine StaysInFrame.andThen (getBits_inFrame rfl (.ofDictionary rfl rfl) 8) fun r t ht => ?_
  cases r with
  | none => exact .inr (endLzwDecode_endEvent (.inl rfl) ht)
  | some v =>
    refine StaysInFrame.andThen (putBits_inFrame rfl ht v 8) fun _ u hu => ?_
    exact CommandFrame.ok ((hu.trans (.setCodes rfl rfl rfl 1 v 8 u)).trans (.ofDictionary rfl rfl))

theorem resetStep_inFrame (s : State) : EndsInFrame .ldstep s (resetStep s) := by
  refine StaysInFrame.andThen (getBits_inFrame rfl (.ofDictionary rfl rfl) 8) fun r t ht => ?_
  cases r with
  | none => exact .inr (endLzwDecode_endEvent (.inr rfl) ht)
  | some v =>
    refine StaysInFrame.andThen (putBits_inFrame rfl ht v 8) fun _ u hu => ?_
    exact CommandFrame.ok ((hu.trans (.ofDictionary rfl rfl)).trans (.setCodes rfl rfl rfl 1 v 8 _))

theorem decodeCode_inFrame {s t : State} (h : CommandFrame .ldstep s t) (r : Nat) : EndsInFrame .ldstep s (decodeCode r t) := by
  unfold decodeCode
  split
  · exact h.faulted _
  · dsimp only
    split
    · trivial
    · refine StaysInFrame.andThen (putBytes_inFrame rfl (h.trans (insertNext_inFrame rfl _ t)) _) fun _ u hu => ?_
      exact CommandFrame.ok ((hu.trans (.ofDictionary rfl rfl)).trans (.setCodes rfl rfl rfl _ _ _ _))

theorem decodeStep_inFrame (s : State) : EndsInFrame .ldstep s (decodeStep s) := by
  unfold decodeStep
  split
  · exact resetStep_inFrame s
  · refine StaysInFrame.andThen (getBits_inFrame rfl (.widenIfPow2 rfl (s.maxcode.toNat + 1) s) _) fun r t ht => ?_
    cases r with
    | none => exact .inr (endLzwDecode_endEvent (.inr rfl) ht)
    | some v => exact decodeCode_inFrame ht v

/-- Every pseudocode but SRST's ends inside its command's frame, with a fault recorded there, or with an end of a stream. -/
theorem pseudocode_inFrame {i : Instr} (hi : i ≠ .srst) (s : State) : EndsInFrame i s (pseudocode i s) := by
  cases i
  case srst => exact absurd rfl hi
  case wopen => exact CommandFrame.ok (by constructor <;> simp)
  case wbits n => exact StaysInFrame.ends (putBits_inFrame rfl (.refl _ s) _ _)
  case wclose => exact StaysInFrame.ends (closeWrite_inFrame s)
  case ropen => exact CommandFrame.ok (by constructor <;> simp)
  case rbits n => exact readToR0_inFrame n _ s
  case rclose => exact (closeRead_inFrame s).ok
  case fmrst => exact CommandFrame.ok (.ofTable rfl rfl)
  case fmprob sym => exact (reportAndUpdate_inFrame rfl rfl rfl rfl rfl _ s).ok
  case fmsym v => exact searchAndUpdate_inFrame v _ s
  case fmtot => exact CommandFrame.ok (by constructor <;> simp [writesR2])
  case aeinit => exact CommandFrame.ok (CommandFrame.trans (.coderStart rfl rfl s) (.ofCoder rfl rfl))
  case aesym sym => exact encodeSymbol_inFrame sym _ s
  case aefin => exact finishEncode_inFrame s
  case adinit => exact startDecode_inFrame s
  case adsym => exact decodeSymbol_inFrame s
  case leinit => exact CommandFrame.ok (.ofDictionary rfl rfl)
  case lebyte c => exact encodeByte_inFrame c _ s
  case lefin => exact finishLzw_inFrame s
  case ldinit => exact decodeFirstCode_inFrame s
  case ldstep => exact decodeStep_inFrame s

end Sys2Proof.Machine

namespace Sys2Proof.Machine

/-! ### Where a command ends -/

section
variable {i : Instr} {s t u : State}

/-- The dispatch around the frame: a command that is refused changes nothing, and a failed check records its fault at once. -/
theorem exec_ends (hi : i ≠ .srst) (h : exec i s = .next t) :
    CommandFrame i (clearConditions s) t ∨ EndEvent i (clearConditions s) t ∨ FaultedInFrame i (clearConditions s) t := by
  rw [exec_eq_dispatchCommand] at h
  rcases dispatchCommand_cases (acceptedWhileFaulted i) (stateCheck s i) (operandCheck i) (pseudocode i) s with
    ⟨hfault, -, he⟩ | ⟨-, -, he⟩ | ⟨-, -, -, he⟩ | ⟨-, -, -, he⟩
  · obtain rfl : s = t := Host.Outcome.next.inj (he.symm.trans h)
    rw [clearConditions_of_fault hfault]
    exact .inl (.refl i s)
  · rw [← Host.Outcome.next.inj (he.symm.trans h)]
    exact .inr (.inr ((CommandFrame.refl i _).faulted _))
  · rw [← Host.Outcome.next.inj (he.symm.trans h)]
    exact .inr (.inr ((CommandFrame.refl i _).faulted _))
  · have hframe := pseudocode_inFrame hi (clearConditions s)
    rcases outcomeOf_eq_next.mp (he.symm.trans h) with hok | hraised
    · rw [hok] at hframe
      exact hframe.elim .inl fun hend => .inr (.inl hend)
    · rw [hraised] at hframe
      exact .inr (.inr hframe)

/-- `t` differs from `u` in the stored bits of STATUS alone (10_state.md rule R24). -/
def StatusFrame (u t : State) : Prop :=
  t = { u with fault := t.fault, ended := t.ended, fcode := t.fcode, ioSink := t.ioSink }

theorem CommandFrame.of_cleared (h : CommandFrame i (clearConditions s) u) :
    CommandFrame i s { u with fault := s.fault, ended := s.ended, fcode := s.fcode, ioSink := s.ioSink } :=
  { h with status := ⟨rfl, rfl, rfl, rfl⟩ }

/-- But for STATUS, every command but SRST stays inside its frame. -/
theorem exec_inFrame (hi : i ≠ .srst) (h : exec i s = .next t) : ∃ u, CommandFrame i s u ∧ StatusFrame u t := by
  have key : ∃ u, CommandFrame i (clearConditions s) u ∧ StatusFrame u t := by
    obtain hframe | hend | ⟨u, k, hu, rfl⟩ := exec_ends hi h
    · exact ⟨t, hframe, rfl⟩
    · cases hend with
      | rbits n u hi hu => exact ⟨u, hu, rfl⟩
      | lzw u hi hu => exact ⟨u, hu, rfl⟩
      | eof u hi hu => exact ⟨u, hu, rfl⟩
    · exact ⟨u, hu, rfl⟩
  obtain ⟨u, hu, ht⟩ := key
  exact ⟨_, hu.of_cleared, ht⟩

/-- With a fault recorded only SRST changes FAULT, FCODE or END (10_state.md rule R25; 60_exceptions.md rules R272, R274). -/
theorem exec_of_fault (hi : i ≠ .srst) (hfault : s.fault = true) (h : exec i s = .next t) :
    t.fault = true ∧ t.fcode = s.fcode ∧ t.ended = s.ended := by
  cases haccepted : acceptedWhileFaulted i with
  | false =>
    obtain rfl : s = t := Host.Outcome.next.inj ((exec_of_refused hfault haccepted).symm.trans h)
    exact ⟨hfault, rfl, rfl⟩
  | true =>
    have hends := exec_ends hi h
    rw [clearConditions_of_fault hfault] at hends
    obtain hframe | hend | ⟨u, k, hu, rfl⟩ := hends
    · obtain ⟨h1, h2, h3, -⟩ := hframe.status
      exact ⟨h1.trans hfault, h3, h2⟩
    · exfalso
      cases hend with
      | rbits n u hi => simp [hi, acceptedWhileFaulted] at haccepted
      | lzw u hi => obtain rfl | rfl := hi <;> simp [acceptedWhileFaulted] at haccepted
      | eof u hi => simp [hi, acceptedWhileFaulted] at haccepted
    · obtain ⟨h1, h2, h3, -⟩ := hu.status
      refine ⟨rfl, ?_, h2⟩
      rw [recordFault_fcode, if_pos (h1.trans hfault), h3]

end

/-! ### Result registers, units and streams -/

/-- Settles O55: the frame's clauses about R0 to R3; SRST names all four. -/
theorem resultRegistersNamedByTheRules : Obligations.ResultRegistersNamedByTheRules := by
  intro i s t h
  by_cases hi : i = .srst
  · subst hi
    exact ⟨nofun, nofun, nofun, nofun⟩
  · obtain ⟨u, hu, ht⟩ := exec_inFrame hi h
    rw [ht]
    exact ⟨hu.r0, hu.r1, hu.r2, hu.r3⟩

/-- Settles O56: the frame's clauses about the three units; SRST uses all of them. -/
theorem unitsLeaveEachOtherAlone : Obligations.UnitsLeaveEachOtherAlone := by
  intro i s t h
  by_cases hi : i = .srst
  · subst hi
    exact ⟨nofun, nofun, nofun⟩
  · obtain ⟨u, hu, ht⟩ := exec_inFrame hi h
    rw [ht]
    exact ⟨hu.model, hu.coder, hu.dictionary⟩

/-- Settles O57: the frame's clauses about the streams; SRST keeps the bindings and resets both sides. -/
theorem streamsReachedByTheirCommandsAlone : Obligations.StreamsReachedByTheirCommandsAlone := by
  intro i s t h
  by_cases hi : i = .srst
  · subst hi
    obtain rfl : resetAll s = t := Host.Outcome.next.inj ((exec_srst s).symm.trans h)
    exact ⟨fun _ => rfl, fun _ => rfl, fun _ _ _ hne => absurd rfl hne, fun _ _ hne => absurd rfl hne, rfl, rfl⟩
  · obtain ⟨u, hu, ht⟩ := exec_inFrame hi h
    rw [ht]
    exact ⟨hu.source, hu.sink, fun hr ho hc _ => hu.readSide hr ho hc, fun hw ho _ => hu.writeSide hw ho, hu.inputs.1,
      hu.inputs.2.1⟩

/-! ### STATUS -/

/-- Settles O13: of the ways a command ends only the end of a stream leaves END set, and the frame keeps the modes of RBITS. -/
theorem endOnlyByTheFourEvents : Obligations.EndOnlyByTheFourEvents := by
  intro i s t hfault h hended
  have hi : i ≠ .srst := by
    rintro rfl
    obtain rfl : resetAll s = t := Host.Outcome.next.inj ((exec_srst s).symm.trans h)
    exact absurd hended Bool.false_ne_true
  have hclear : ∀ u, CommandFrame i (clearConditions s) u → u.fault = false ∧ u.ended = false ∧ u.fcode = 0 := fun u hu => by
    obtain ⟨h1, h2, h3, -⟩ := hu.status
    simp [h1, h2, h3, hfault]
  obtain hframe | hend | ⟨u, k, hu, rfl⟩ := exec_ends hi h
  · exact absurd ((hclear t hframe).2.1.symm.trans hended) Bool.false_ne_true
  · cases hend with
    | rbits n u hi hu =>
      subst hi
      exact ⟨(hclear u hu).1, .inl ⟨n, rfl, rfl, (hu.coder rfl).2.2.2.2, (hu.dictionary rfl).2.2.2.2.2⟩⟩
    | lzw u hi hu hm =>
      exact ⟨(hclear u hu).1, .inr (hi.elim (fun hi => .inl ⟨hi, rfl, hm⟩) fun hi => .inr (.inl ⟨hi, rfl, hm⟩))⟩
    | eof u hi hu hm h3 => exact ⟨(hclear u hu).1, .inr (.inr (.inr ⟨hi, (hclear u hu).2.2, hm, h3⟩))⟩
  · exact absurd ((hclear u hu).2.1.symm.trans hended) Bool.false_ne_true

/-- The word that decodes to SRST (30_encoding.md rule R89). -/
theorem eq_of_decode_srst {w : Word} (h : decode w = some .srst) : w = 0xFF000000 :=
  (encodeOfDecodedWordIsTheWord w .srst h).symm

/-- What a step can do to a recorded fault: it stays with its code and END, or one of the two resets ends it. -/
theorem step_of_fault {s t : State} (hfault : s.fault = true) (h : step s = .next t) :
    (t.fault = true ∧ t.fcode = s.fcode ∧ t.ended = s.ended) ∨
    (s.cmd = some 0xFF000000 ∧ t = { State.reset with host := s.host, source := s.source, sink := s.sink }) ∨
    (∃ rest, s.cmd = none ∧ s.host = .powerOn :: rest ∧
      t = { State.reset with host := rest, source := s.source, sink := s.sink }) := by
  rcases step_cases s with ⟨w, i, hcmd, hdecode, he⟩ | ⟨w, -, -, he⟩ | ⟨a, rest, hcmd, hhost, he⟩ | ⟨-, -, he⟩
  · rw [he] at h
    by_cases hi : i = .srst
    · subst hi
      rw [← Host.Outcome.next.inj ((exec_srst _).symm.trans h)]
      exact .inr (.inl ⟨eq_of_decode_srst hdecode ▸ hcmd, rfl⟩)
    · exact .inl (exec_of_fault (s := { s with cmd := none }) hi hfault h)
  · rw [← Host.Outcome.next.inj (he.symm.trans h), illegalCommand_of_fault (s := { s with cmd := none }) hfault]
    exact .inl ⟨hfault, rfl, rfl⟩
  · rw [← Host.Outcome.next.inj (he.symm.trans h)]
    cases a with
    | powerOn =>
      refine .inr (.inr ⟨rest, hcmd, hhost, ?_⟩)
      rw [hostAction, resetAll, hcmd]
      rfl
    | writeCmd | writeData | bindSource | bindSink => exact .inl ⟨hfault, rfl, rfl⟩
  · rw [← Host.Outcome.next.inj (he.symm.trans h)]
    exact .inl ⟨hfault, rfl, rfl⟩

/-- Settles O11. -/
theorem faultEndsOnlyWithReset : Obligations.FaultEndsOnlyWithReset := by
  intro s t hfault h hcleared
  obtain ⟨hkept, -⟩ | hreset := step_of_fault hfault h
  · exact absurd (hcleared.symm.trans hkept) Bool.false_ne_true
  · exact hreset

/-- Settles O12: both resets clear FAULT. -/
theorem firstFaultIsKept : Obligations.FirstFaultIsKept := by
  intro s t hfault h hkept
  obtain ⟨-, hcode, hended⟩ | ⟨-, rfl⟩ | ⟨rest, -, -, rfl⟩ := step_of_fault hfault h
  · exact ⟨hcode, hended⟩
  · exact absurd hkept Bool.false_ne_true
  · exact absurd hkept Bool.false_ne_true

theorem statusOk_of_fault {s : State} (h : s.fault = true) :
    StatusOk s ↔ 2 ≤ s.fcode.toNat ∧ s.fcode.toNat ≤ 8 ∧ s.ended = false := by
  simp [StatusOk, h]

theorem statusOk_of_not_fault {s : State} (h : s.fault = false) :
    StatusOk s ↔ (s.fcode = 0 ∨ s.fcode = 1 ∧ s.ended = true) ∧ s.ioSink = false := by
  simp [StatusOk, h]

theorem statusOk_reset : StatusOk State.reset := (statusOk_of_not_fault rfl).mpr ⟨.inl rfl, rfl⟩

/-- STATUS is legal or not by its four stored fields (10_state.md rule R24). -/
theorem StatusOk.congr {s t : State} (h : StatusOk s)
    (he : t.fault = s.fault ∧ t.ended = s.ended ∧ t.fcode = s.fcode ∧ t.ioSink = s.ioSink) : StatusOk t := by
  obtain ⟨h1, h2, h3, h4⟩ := he
  simpa [StatusOk, h1, h2, h3, h4] using h

theorem faultCode_bounds (k : FaultKind) : 2 ≤ (faultCode k).toNat ∧ (faultCode k).toNat ≤ 8 := by
  cases k <;> decide

/-- A first fault gives a fault's code (60_exceptions.md rule R271). -/
theorem statusOk_recordFault {s : State} (hfault : s.fault = false) (hended : s.ended = false) (k : FaultKind) :
    StatusOk (recordFault k s) := by
  rw [statusOk_of_fault rfl, recordFault_fcode, if_neg (by simp [hfault])]
  exact ⟨(faultCode_bounds k).1, (faultCode_bounds k).2, hended⟩

theorem statusOk_signalEndOfStream {s : State} (hfault : s.fault = false) (hsink : s.ioSink = false) :
    StatusOk (signalEndOfStream s) :=
  (statusOk_of_not_fault (s := signalEndOfStream s) hfault).mpr ⟨.inr ⟨rfl, rfl⟩, hsink⟩

/-- Clearing END and FCODE leaves a legal STATUS. -/
theorem StatusOk.clearConditions {s : State} (h : StatusOk s) : StatusOk (clearConditions s) := by
  cases hfault : s.fault with
  | true => rwa [clearConditions_of_fault hfault]
  | false =>
    rw [clearConditions_of_not_fault hfault]
    exact (statusOk_of_not_fault (s := { s with ended := false, fcode := 0 }) hfault).mpr
      ⟨.inl rfl, ((statusOk_of_not_fault hfault).mp h).2⟩

theorem StatusOk.illegalCommand {s : State} (h : StatusOk s) : StatusOk (illegalCommand s) := by
  unfold Machine.illegalCommand
  split
  next => exact h
  next hfault => exact statusOk_recordFault (by simpa using hfault) (by simp [hfault]) _

/-- A command leaves a legal STATUS: with a fault recorded it changes none of it, and else it leaves the cleared STATUS, the mark of
an end of a stream, or a first fault. -/
theorem StatusOk.exec {i : Instr} {s t : State} (hs : StatusOk s) (h : exec i s = .next t) : StatusOk t := by
  by_cases hi : i = .srst
  · subst hi
    rw [← Host.Outcome.next.inj ((exec_srst s).symm.trans h)]
    exact statusOk_reset
  cases hfault : s.fault with
  | true =>
    obtain ⟨h1, h2, h3⟩ := exec_of_fault hi hfault h
    rw [statusOk_of_fault h1, h2, h3]
    exact (statusOk_of_fault hfault).mp hs
  | false =>
    have hc := hs.clearConditions
    have hcf : (Machine.clearConditions s).fault = false := hfault
    have hce : (Machine.clearConditions s).ended = false := by simp [hfault]
    have hsink := ((statusOk_of_not_fault hcf).mp hc).2
    obtain hframe | hend | ⟨u, k, hu, rfl⟩ := exec_ends hi h
    · exact hc.congr hframe.status
    · cases hend with
      | rbits n u hi hu =>
        obtain ⟨h1, -, -, h4⟩ := hu.status
        exact statusOk_signalEndOfStream (h1.trans hcf) (h4.trans hsink)
      | lzw u hi hu =>
        obtain ⟨h1, -, -, h4⟩ := hu.status
        exact statusOk_signalEndOfStream (h1.trans hcf) (h4.trans hsink)
      | eof u hi hu =>
        obtain ⟨h1, -, h3, h4⟩ := hu.status
        exact (statusOk_of_not_fault (s := { u with ended := true }) (h1.trans hcf)).mpr
          ⟨.inl (by simp [h3, hfault]), h4.trans hsink⟩
    · obtain ⟨h1, h2, -, -⟩ := hu.status
      exact statusOk_recordFault (h1.trans hcf) (h2.trans hce) k

/-- Settles O54: the command by its end, an illegal word by its fault, and the host's actions change no stored bit or reset all. -/
theorem statusStaysLegal : Obligations.StatusStaysLegal := by
  refine ⟨statusOk_reset, fun s t hs h => ?_⟩
  rcases step_cases s with ⟨w, i, -, -, he⟩ | ⟨w, -, -, he⟩ | ⟨a, rest, -, -, he⟩ | ⟨-, -, he⟩
  · exact StatusOk.exec (s := { s with cmd := none }) (hs.congr ⟨rfl, rfl, rfl, rfl⟩) (he.symm.trans h)
  · rw [← Host.Outcome.next.inj (he.symm.trans h)]
    exact StatusOk.illegalCommand (s := { s with cmd := none }) (hs.congr ⟨rfl, rfl, rfl, rfl⟩)
  · rw [← Host.Outcome.next.inj (he.symm.trans h)]
    cases a with
    | powerOn => exact statusOk_reset
    | writeCmd | writeData | bindSource | bindSink => exact hs.congr ⟨rfl, rfl, rfl, rfl⟩
  · rw [← Host.Outcome.next.inj (he.symm.trans h)]
    exact hs

/-! ### DATA -/

/-- Settles O16: the frame keeps DATA, so of the commands only SRST reaches it. -/
theorem dataPersistsUntilWrittenOrReset : Obligations.DataPersistsUntilWrittenOrReset := by
  intro s t h
  rcases step_cases s with ⟨w, i, hcmd, hdecode, he⟩ | ⟨w, -, -, he⟩ | ⟨a, rest, hcmd, hhost, he⟩ | ⟨-, -, he⟩
  · rw [he] at h
    by_cases hi : i = .srst
    · subst hi
      rw [← Host.Outcome.next.inj ((exec_srst _).symm.trans h)]
      exact .inr (.inr ⟨rfl, .inl (eq_of_decode_srst hdecode ▸ hcmd)⟩)
    · obtain ⟨u, hu, ht⟩ := exec_inFrame hi h
      rw [ht]
      exact .inl hu.inputs.2.2
  · rw [← Host.Outcome.next.inj (he.symm.trans h)]
    left
    unfold illegalCommand
    split <;> rfl
  · rw [← Host.Outcome.next.inj (he.symm.trans h)]
    cases a with
    | writeData v => exact .inr (.inl ⟨v, rest, hcmd, hhost, rfl⟩)
    | powerOn => exact .inr (.inr ⟨rfl, .inr ⟨rest, hcmd, hhost⟩⟩)
    | writeCmd | bindSource | bindSink => exact .inl rfl
  · rw [← Host.Outcome.next.inj (he.symm.trans h)]
    exact .inl rfl

end Sys2Proof.Machine

/-!
PROOFS. DATA is read by WBITS alone (10_state.md rule R22). A function that ignores DATA commutes with writing it: begun with
another value in DATA it ends as before, with that value still there. The shared operations ignore DATA, chains of such steps
do, and so does the pseudocode of every command but WBITS, which reads it, and SRST, which clears it.
-/
namespace Sys2Proof.Machine

/-- The state with another value in DATA. -/
def withData (v : Word) (s : State) : State := { s with data := v }

/-- An end of a step with a change made to its state. -/
def mapRes {α : Type} (f : State → State) : Res α → Res α
  | .ok a s => .ok a (f s)
  | .raised s => .raised (f s)
  | .stuck e => .stuck e

/-- A step that does the same whatever DATA holds, and leaves it. -/
def IgnoresData {α : Type} (f : State → Res α) : Prop := ∀ v s, f (withData v s) = mapRes (withData v) (f s)

/-- A chain of two steps that ignore DATA. -/
theorem andThen_withData {α β : Type} {v : Word} {r r' : Res α} {f f' : α → State → Res β} (hr : r' = mapRes (withData v) r)
    (hf : ∀ a t, f' a (withData v t) = mapRes (withData v) (f a t)) : andThen r' f' = mapRes (withData v) (andThen r f) := by
  subst hr
  cases r with
  | ok a t => exact hf a t
  | raised t => rfl
  | stuck e => rfl

theorem outcomeOf_mapRes (f : State → State) (r : Res Unit) : outcomeOf (mapRes f r) = mapNext f (outcomeOf r) := by
  cases r <;> rfl

/-- A branch on a condition that does not read DATA. -/
theorem ite_withData {α : Type} {v : Word} {p : Prop} [Decidable p] {r₁ r₂ r₁' r₂' : Res α} (h₁ : r₁' = mapRes (withData v) r₁)
    (h₂ : r₂' = mapRes (withData v) r₂) : (if p then r₁' else r₂') = mapRes (withData v) (if p then r₁ else r₂) := by
  split <;> assumption

/-! ### The write side -/

theorem deliver_ignoresData (bs : List Byte) : IgnoresData (deliver bs) := by
  intro v s
  unfold deliver sinkWrite
  by_cases h : s.sink.draws.head? = some .fail
  · rw [if_pos h, if_pos (show (withData v s).sink.draws.head? = some .fail from h)]
    rfl
  · rw [if_neg h, if_neg (show ¬ (withData v s).sink.draws.head? = some .fail from h)]
    rfl

theorem putBit_ignoresData (b : Bool) : IgnoresData (putBit b) := by
  intro v s
  unfold putBit
  by_cases h : s.wNbits.val + 1 < 8
  · rw [dif_pos h, dif_pos (show (withData v s).wNbits.val + 1 < 8 from h)]
    rfl
  · rw [dif_neg h, dif_neg (show ¬ (withData v s).wNbits.val + 1 < 8 from h)]
    exact ite_withData (deliver_ignoresData _ v { s with wBuf := [], wAcc := 0, wNbits := 0 }) rfl

theorem putBits_ignoresData (x n : Nat) : IgnoresData (putBits x n) := by
  induction n with
  | zero => exact fun _ _ => rfl
  | succ n ih => exact fun v s => andThen_withData (putBit_ignoresData _ v s) fun _ t => ih v t

theorem putBytes_ignoresData (bs : List Byte) : IgnoresData (putBytes bs) := by
  induction bs with
  | nil => exact fun _ _ => rfl
  | cons b bs ih => exact fun v s => andThen_withData (putBits_ignoresData _ 8 v s) fun _ t => ih v t

theorem putRepeated_ignoresData (b : Bool) (n : Nat) : IgnoresData (putRepeated b n) := by
  induction n with
  | zero => exact fun _ _ => rfl
  | succ n ih => exact fun v s => andThen_withData (putBit_ignoresData b v s) fun _ t => ih v t

theorem closeWrite_ignoresData : IgnoresData closeWrite := fun v s =>
  ite_withData (ite_withData (deliver_ignoresData _ v { s with wBuf := [], wAcc := 0, wNbits := 0, wOpen := false }) rfl) rfl

/-! ### The read side -/

theorem refill_ignoresData : IgnoresData refill := by
  intro v s
  unfold refill sourceRead
  by_cases hfail : s.source.draws.head? = some .fail
  · simp only [withData, hfail]
    rfl
  · by_cases hinput : s.source.input = []
    · simp only [withData, hfail, hinput]
      rfl
    · simp only [withData, hfail, hinput]
      rfl

theorem refillUntil_ignoresData (n passes : Nat) : IgnoresData (refillUntil n passes) := by
  induction passes with
  | zero => exact fun _ _ => rfl
  | succ p ih => exact fun v s => ite_withData (andThen_withData (refill_ignoresData v s) fun _ t => ih v t) rfl

theorem getBits_ignoresData (n : Nat) : IgnoresData (getBits n) := fun v s =>
  andThen_withData (refillUntil_ignoresData n (n + 1) v s) fun _ _ => ite_withData rfl rfl

theorem getBitOrFill_ignoresData : IgnoresData getBitOrFill := fun v s =>
  andThen_withData (getBits_ignoresData 1 v s) fun _ _ => rfl

theorem readToR0_ignoresData (n : Nat) : IgnoresData (readToR0 n) := fun v s =>
  andThen_withData (getBits_ignoresData n v s) fun r _ => by cases r <;> rfl

theorem closeRead_withData (v : Word) (s : State) : closeRead (withData v s) = withData v (closeRead s) := by
  cases h : s.rOpen <;> simp [closeRead, withData, h]

/-! ### The coder -/

theorem freqUpdate_withData (sym : Nat) (v : Word) (s : State) : freqUpdate sym (withData v s) = withData v (freqUpdate sym s) := by
  cases h : s.frozen <;> simp [freqUpdate, withData, h, cumAt]

theorem searchAndUpdate_ignoresData (x : Nat) : IgnoresData (searchAndUpdate x) := by
  intro v s
  unfold searchAndUpdate
  rw [show symbolSearch x (withData v s) = symbolSearch x s from rfl]
  cases symbolSearch x s with
  | none => rfl
  | some sym => exact congrArg (Res.ok ()) (freqUpdate_withData sym v (setInterval _ _ _ sym s))

theorem emitBit_ignoresData (b : Bool) : IgnoresData (emitBit b) := fun v s =>
  andThen_withData (putBit_ignoresData b v s) fun _ t =>
    andThen_withData (putRepeated_ignoresData (!b) t.pending.toNat v t) fun _ _ => rfl

theorem encRenorm_ignoresData (n : Nat) : IgnoresData (encRenorm n) := by
  induction n with
  | zero => exact fun _ _ => rfl
  | succ n ih =>
    intro v s
    have emit : ∀ b k, (andThen (emitBit b (withData v s)) fun _ t => encRenorm n (scaleBounds k t)) =
        mapRes (withData v) (andThen (emitBit b s) fun _ t => encRenorm n (scaleBounds k t)) := fun b k =>
      andThen_withData (emitBit_ignoresData b v s) fun _ t => ih v (scaleBounds k t)
    unfold encRenorm
    rw [show renormCase (withData v s) = renormCase s from rfl]
    cases renormCase s with
    | e1 => exact emit _ _
    | e2 => exact emit _ _
    | e3 => exact ite_withData rfl (ih v (scaleBounds Config.oneFourth { s with pending := s.pending + 1 }))
    | done => rfl

theorem encodeSymbol_ignoresData (sym : Nat) : IgnoresData (encodeSymbol sym) := by
  intro v s
  unfold encodeSymbol
  rw [freqUpdate_withData]
  exact encRenorm_ignoresData _ v (narrow _ _ _ (setInterval _ _ _ sym (freqUpdate sym s)))

theorem finishEncode_ignoresData : IgnoresData finishEncode := fun v s =>
  ite_withData rfl (andThen_withData (emitBit_ignoresData _ v { s with pending := s.pending + 1 }) fun _ _ => rfl)

theorem loadValue_ignoresData (n : Nat) : IgnoresData (loadValue n) := by
  induction n with
  | zero => exact fun _ _ => rfl
  | succ n ih =>
    exact fun v s => andThen_withData (getBitOrFill_ignoresData v s) fun b t =>
      ih v { t with value := BitVec.ofNat 17 (2 * t.value.toNat + b) }

theorem decShift_ignoresData (k : Nat) : IgnoresData (decShift k) := fun v s =>
  andThen_withData (getBitOrFill_ignoresData v (scaleBounds k { s with value := BitVec.ofNat 17 (s.value.toNat - k) }))
    fun _ _ => rfl

theorem decRenorm_ignoresData (n : Nat) : IgnoresData (decRenorm n) := by
  induction n with
  | zero => exact fun _ _ => rfl
  | succ n ih =>
    intro v s
    have shift : ∀ k, (andThen (decShift k (withData v s)) fun _ t => decRenorm n t) =
        mapRes (withData v) (andThen (decShift k s) fun _ t => decRenorm n t) := fun k =>
      andThen_withData (decShift_ignoresData k v s) fun _ t => ih v t
    unfold decRenorm
    rw [show renormCase (withData v s) = renormCase s from rfl]
    cases renormCase s with
    | e1 => exact shift _
    | e2 => exact shift _
    | e3 => exact shift _
    | done => rfl

theorem decodeSymbol_ignoresData : IgnoresData decodeSymbol := by
  intro v s
  unfold decodeSymbol
  rw [show symbolSearch (scaledValue (withData v s)) (withData v s) = symbolSearch (scaledValue s) s from rfl]
  cases symbolSearch (scaledValue s) s with
  | none => rfl
  | some sym =>
    dsimp only
    rw [freqUpdate_withData]
    exact ite_withData rfl (andThen_withData (putBits_ignoresData sym 8 v (setInterval _ _ _ sym (freqUpdate sym s)))
      fun _ t => decRenorm_ignoresData _ v (narrow _ _ _ t))

/-! ### The dictionary -/

theorem widenIfPow2_withData (x : Nat) (v : Word) (s : State) :
    widenIfPow2 x (withData v s) = withData v (widenIfPow2 x s) := by
  unfold widenIfPow2
  split <;> rfl

theorem capReset_ignoresData (c : Byte) : IgnoresData (capReset c) := fun v s =>
  andThen_withData (putBits_ignoresData _ _ v s) fun _ _ => rfl

theorem emitAndInsert_ignoresData (e : Nat) (c : Byte) (t : List Byte) : IgnoresData (emitAndInsert e c t) := by
  intro v s
  refine andThen_withData (putBits_ignoresData _ _ v s) fun _ u => ?_
  dsimp only
  rw [show insertNext t (withData v u) = withData v (insertNext t u) from rfl, widenIfPow2_withData]
  exact ite_withData (capReset_ignoresData c v (setCodes 1 e s.codelen.toNat
    { widenIfPow2 (insertNext t u).maxcode.toNat (insertNext t u) with sCode := some (BitVec.ofNat 23 c.toNat) })) rfl

theorem encodeByte_ignoresData (c : Byte) : IgnoresData (encodeByte c) := by
  intro v s
  unfold encodeByte
  rw [show (withData v s).sCode = s.sCode from rfl]
  cases s.sCode with
  | none =>
    dsimp only
    rw [show codeOf [c] (withData v s) = codeOf [c] s from rfl]
    cases codeOf [c] s <;> rfl
  | some e =>
    refine ite_withData rfl ?_
    rw [show codeOf (dictAt (withData v s) e.toNat ++ [c]) (withData v s) = codeOf (dictAt s e.toNat ++ [c]) s from rfl]
    cases codeOf (dictAt s e.toNat ++ [c]) s with
    | some k => rfl
    | none => exact emitAndInsert_ignoresData _ c _ v s

theorem finishLzw_ignoresData : IgnoresData finishLzw := by
  intro v s
  unfold finishLzw
  rw [show (withData v s).sCode = s.sCode from rfl]
  cases s.sCode with
  | none => rfl
  | some k => exact andThen_withData (putBits_ignoresData _ _ v s) fun _ _ => rfl

theorem decodeFirstCode_ignoresData : IgnoresData decodeFirstCode := fun v s =>
  andThen_withData (getBits_ignoresData 8 v { lzwReset s with sCode := none }) fun r t => by
    cases r with
    | none => rfl
    | some x => exact andThen_withData (putBits_ignoresData x 8 v t) fun _ _ => rfl

theorem resetStep_ignoresData : IgnoresData resetStep := fun v s =>
  andThen_withData (getBits_ignoresData 8 v { s with codelen := 8 }) fun r t => by
    cases r with
    | none => rfl
    | some x => exact andThen_withData (putBits_ignoresData x 8 v t) fun _ _ => rfl

theorem decodeCode_ignoresData (r : Nat) : IgnoresData (decodeCode r) := fun v s =>
  ite_withData rfl (ite_withData rfl (andThen_withData (putBytes_ignoresData _ v (insertNext _ s)) fun _ _ => rfl))

theorem decodeStep_ignoresData : IgnoresData decodeStep := by
  intro v s
  refine ite_withData (resetStep_ignoresData v s) ?_
  rw [show (withData v s).maxcode = s.maxcode from rfl, widenIfPow2_withData]
  refine andThen_withData (getBits_ignoresData _ v _) fun r t => ?_
  cases r with
  | none => rfl
  | some x => exact decodeCode_ignoresData x v t

/-! ### The commands -/

/-- The pseudocode of every command but WBITS and SRST ignores DATA. -/
theorem pseudocode_ignoresData {i : Instr} (hwbits : ∀ n, i ≠ .wbits n) (hsrst : i ≠ .srst) : IgnoresData (pseudocode i) := by
  cases i
  case wbits n => exact absurd rfl (hwbits n)
  case srst => exact absurd rfl hsrst
  case wclose => exact closeWrite_ignoresData
  case rbits n => exact readToR0_ignoresData _
  case rclose => exact fun v s => congrArg (Res.ok ()) (closeRead_withData v s)
  case fmprob sym => exact fun v s => congrArg (Res.ok ()) (freqUpdate_withData _ v (setInterval _ _ _ _ s))
  case fmsym x => exact searchAndUpdate_ignoresData _
  case aesym sym => exact encodeSymbol_ignoresData _
  case aefin => exact finishEncode_ignoresData
  case adinit => exact fun v s => andThen_withData (loadValue_ignoresData 17 v (coderStart s)) fun _ _ => rfl
  case adsym => exact decodeSymbol_ignoresData
  case lebyte c => exact encodeByte_ignoresData _
  case lefin => exact finishLzw_ignoresData
  case ldinit => exact decodeFirstCode_ignoresData
  case ldstep => exact decodeStep_ignoresData
  case wopen | ropen | fmrst | fmtot | aeinit | leinit => exact fun _ _ => rfl

/-- The dispatch around a pseudocode that ignores DATA. -/
theorem dispatchCommand_withData {body : State → Res Unit} (h : IgnoresData body) (e b o : Bool) (v : Word) (s : State) :
    dispatchCommand e b o body (withData v s) = mapNext (withData v) (dispatchCommand e b o body s) := by
  unfold dispatchCommand
  rw [show (withData v s).fault = s.fault from rfl, show clearConditions (withData v s) = withData v (clearConditions s) from rfl]
  split
  · rfl
  · dsimp only
    rw [h v, outcomeOf_mapRes]
    split_ifs <;> rfl

/-- Settles O15: the dispatch around a pseudocode that ignores DATA, and SRST, whose end has nothing of DATA. -/
theorem dataIsReadByWbitsAlone : Obligations.DataIsReadByWbitsAlone := by
  intro i s v hwbits
  refine ⟨fun hsrst => ?_, ?_⟩
  · have hcheck : stateCheck (withData v s) i = stateCheck s i := by cases i <;> rfl
    have h := dispatchCommand_withData (pseudocode_ignoresData hwbits hsrst) (acceptedWhileFaulted i) (stateCheck s i)
      (operandCheck i) v s
    rw [← exec_eq_dispatchCommand, ← hcheck, ← exec_eq_dispatchCommand] at h
    exact h
  · rintro rfl
    rw [exec_srst, exec_srst]
    rfl

end Sys2Proof.Machine

/-!
PROOFS. A command that passes its checks while no fault is recorded runs its pseudocode on the state with END and FCODE cleared.
What its rule says of that state it says of the one before, because neither of the two bits stands in a stream, a table or a
register.
-/
namespace Sys2Proof.Machine

/-- The state an accepted command's pseudocode begins with, when no fault is recorded (44_control.md rule R260, step 2). -/
abbrev accepted (s : State) : State := { s with ended := false, fcode := 0 }

section
variable {s t : State}

/-- A command whose checks pass while no fault is recorded (44_control.md rule R260). -/
theorem exec_performs {i : Instr} (hfault : s.fault = false) (hstate : ¬ badStateCondition s i) (hoperand : ¬ badOperandCondition i) :
    exec i s = outcomeOf (pseudocode i (accepted s)) := by
  rw [← stateCheck_eq_true_iff, Bool.not_eq_true] at hstate
  rw [← operandCheck_eq_true_iff, Bool.not_eq_true] at hoperand
  rw [exec_eq_dispatchCommand, hstate, hoperand, dispatchCommand_performs hfault]

/-! What does not read END and FCODE. -/

theorem Appended.of_accepted {bits : List Bool} (h : Appended (accepted s) bits t) : Appended s bits t :=
  ⟨h.bufOk, h.written, h.calls⟩

theorem Took.of_accepted {n : Nat} (h : Took (accepted s) n t) : Took s n t := ⟨h.bufOk, h.unread, h.draws⟩

theorem LostALoad.of_accepted {bits : List Bool} (h : LostALoad (accepted s) bits t) : LostALoad s bits t :=
  ⟨h.buffer, h.calls⟩

theorem LostTheSource.of_accepted {n : Nat} (h : LostTheSource (accepted s) n t) : LostTheSource s n t :=
  ⟨h.bufOk, h.unread, h.srcEnd, h.draws⟩

/-- What was written does not depend on the rest of the state it was written from. -/
theorem Appended.of_start {s' : State} {bits : List Bool} (h : Appended s' bits t) (h1 : s'.wBuf = s.wBuf) (h2 : s'.wAcc = s.wAcc)
    (h3 : s'.wNbits = s.wNbits) (h4 : s'.sink = s.sink) : Appended s bits t := by
  obtain ⟨hb, hw, hc⟩ := h
  refine ⟨hb, hw.trans ?_, h4 ▸ hc⟩
  rw [writtenBits, writtenBits, heldBits, heldBits, h1, h2, h3, h4]

theorem unreadBits_congr {s' : State} (h1 : s'.rBuf = s.rBuf) (h2 : s'.rBitpos = s.rBitpos) (h3 : s'.rSrcEnd = s.rSrcEnd)
    (h4 : s'.source = s.source) : unreadBits s' = unreadBits s := by
  rw [unreadBits, unreadBits, h1, h2, h3, h4]

theorem Took.of_start {s' : State} {n : Nat} (h : Took s' n t) (h1 : s'.rBuf = s.rBuf) (h2 : s'.rBitpos = s.rBitpos)
    (h3 : s'.rSrcEnd = s.rSrcEnd) (h4 : s'.source = s.source) : Took s n t := by
  obtain ⟨hb, hu, hd⟩ := h
  exact ⟨hb, unreadBits_congr h1 h2 h3 h4 ▸ hu, h4 ▸ hd⟩

/-- A first fault (60_exceptions.md rule R272). -/
theorem recordFault_of_not_fault (h : s.fault = false) (k : FaultKind) :
    recordFault k s = { s with fault := true, fcode := faultCode k, ioSink := s.ioSink || (k == .ioFailureSink) } := by
  simp [recordFault, h]

theorem recordFault_other (h : s.fault = false) {k : FaultKind} (hk : k ≠ .ioFailureSink) :
    recordFault k s = { s with fault := true, fcode := faultCode k } := by
  rw [recordFault_of_not_fault h, beq_false_of_ne hk, Bool.or_false]

theorem recordFault_ioFailureSink (h : s.fault = false) :
    recordFault .ioFailureSink s = { s with fault := true, fcode := 2, ioSink := true } := by
  rw [recordFault_of_not_fault h, beq_self_eq_true, Bool.or_true]
  rfl

end

end Sys2Proof.Machine

/-!
PROOFS. The Bit Channel's commands, on streams whose host does not fail or whose failure is the command's one host call
(40_bit_channel.md rules R101 to R113; 20_memory.md rules R63, R73, R75). The laws of the write and the read side say what the
primitives do to the two bit streams; a command adds the dispatch, and a sequence of commands is an induction over its list.
-/
namespace Sys2Proof.Machine

/-! ### WCLOSE -/

/-- WCLOSE has no check and is accepted in every state (44_control.md rule R261). -/
theorem exec_wclose (s : State) : exec .wclose s = outcomeOf (closeWrite (clearConditions s)) := by
  rw [exec, execWclose, dispatchCommand]
  simp

section
variable {s : State}

/-- The state in which WCLOSE leaves an open stream before its bytes are delivered (40_bit_channel.md rule R106). -/
abbrev closedWrite (s : State) : State := { s with wOpen := false, wBuf := [], wAcc := 0, wNbits := 0 }

theorem closeWrite_of_closed (h : s.wOpen = false) : closeWrite s = .ok () s := by
  simp [closeWrite, h]

theorem closeWrite_of_nothing (h : s.wOpen = true) (hn : closingBytes s = [] ∨ s.ioSink = true) :
    closeWrite s = .ok () (closedWrite s) := by
  rw [closeWrite, if_pos h]
  dsimp only
  rw [if_neg]
  rintro ⟨hlen, hsink⟩
  obtain h0 | h1 := hn
  · simp [h0] at hlen
  · simp [h1] at hsink

theorem closeWrite_of_held (h : s.wOpen = true) (hb : closingBytes s ≠ []) (hs : s.ioSink = false) :
    closeWrite s = deliver (closingBytes s) (closedWrite s) := by
  rw [closeWrite, if_pos h]
  dsimp only
  rw [if_pos ⟨List.length_pos_iff.mpr hb, hs⟩]

theorem deliver_ok {bs : List Byte} (h : s.sink.draws.head? ≠ some .fail) :
    deliver bs s = .ok () { s with sink := ⟨s.sink.loads ++ [bs], s.sink.draws.tail⟩ } := by
  simp [deliver, sinkWrite, h]

theorem deliver_fail {bs : List Byte} (h : s.sink.draws.head? = some .fail) :
    deliver bs s = raiseFault .ioFailureSink { s with sink := ⟨s.sink.loads, s.sink.draws.tail⟩ } := by
  simp [deliver, sinkWrite, h]

end

/-- The bytes WCLOSE delivers, with the test of W_NBITS written on the register (40_bit_channel.md rule R106). -/
theorem closingBytes_eq (s : State) : closingBytes s = if s.wNbits = 0 then s.wBuf else s.wBuf ++ [s.wAcc] := by
  simp only [closingBytes, ← Fin.val_eq_zero_iff]

/-- Clearing END and FCODE, by cases on FAULT (10_state.md rule R25). -/
theorem clearConditions_eq (s : State) :
    clearConditions s = if s.fault = true then s else { s with ended := false, fcode := 0 } := by
  split
  next h => exact clearConditions_of_fault h
  next h => exact clearConditions_of_not_fault (Bool.eq_false_iff.mpr h)

/-- Settles O19: the four ends of the pseudocode, from the state with END and FCODE cleared. -/
theorem wcloseResult : Obligations.WcloseResult := by
  refine ⟨by decide, fun s => ?_⟩
  dsimp only
  rw [← closingBytes_eq, ← clearConditions_eq, exec_wclose]
  refine ⟨fun hopen => ?_, fun hopen hnothing => ?_, fun hopen hheld hsink hd => ?_, fun hopen hheld hsink hd => ?_⟩
  · rw [closeWrite_of_closed (s := clearConditions s) hopen]
    rfl
  · rw [closeWrite_of_nothing (s := clearConditions s) hopen hnothing]
    rfl
  · rw [closeWrite_of_held (s := clearConditions s) hopen hheld hsink, deliver_ok (s := closedWrite (clearConditions s)) hd]
    rfl
  · rw [closeWrite_of_held (s := clearConditions s) hopen hheld hsink, deliver_fail (s := closedWrite (clearConditions s)) hd]
    simp [raiseFault, outcomeOf, recordFault, faultCode]
    split <;> rfl

end Sys2Proof.Machine

namespace Sys2Proof.Machine

theorem SinkNeverFails.head_ne {s : State} (h : SinkNeverFails s) : s.sink.draws.head? ≠ some .fail := by
  intro hd
  exact absurd (h _ (List.mem_of_mem_head? hd)) (by simp)

/-- An empty write buffer is in order (10_state.md rule R28). -/
theorem WriteBufOk.of_empty {s : State} (hbuf : s.wBuf = []) (hacc : s.wAcc = 0) : WriteBufOk s := by
  unfold WriteBufOk
  rw [hbuf, hacc]
  exact ⟨Nat.zero_mod _, by decide⟩

/-- The loads a WCLOSE delivers: its one load, or none when it holds nothing (40_bit_channel.md rule R106). -/
def closingLoads (s : State) : List (List Byte) := if closingBytes s = [] then [] else [closingBytes s]

theorem flatten_closingLoads (s : State) : (closingLoads s).flatten = closingBytes s := by
  unfold closingLoads
  split <;> simp [*]

/-- WCLOSE on an open stream with a sink that answers Ok (40_bit_channel.md rule R106). -/
theorem exec_wclose_delivers {s : State} (hfault : s.fault = false) (hsink : s.ioSink = false) (hopen : s.wOpen = true)
    (hnf : SinkNeverFails s) :
    ∃ t, exec .wclose s = .next t ∧ t.fault = false ∧ t.wOpen = false ∧ t.sink.loads = s.sink.loads ++ closingLoads s := by
  rw [exec_wclose, closingLoads]
  split
  next h =>
    rw [closeWrite_of_nothing (s := clearConditions s) hopen (.inl h)]
    exact ⟨_, rfl, hfault, rfl, (List.append_nil _).symm⟩
  next h =>
    rw [closeWrite_of_held (s := clearConditions s) hopen h hsink, deliver_ok (s := closedWrite (clearConditions s)) hnf.head_ne]
    exact ⟨_, rfl, hfault, rfl, rfl⟩

/-- Settles O20: what WCLOSE delivers is what is held, padded, and it follows what was delivered before. -/
theorem wcloseDeliversWhatWasWritten : Obligations.WcloseDeliversWhatWasWritten := by
  intro s hw hfault hsink hopen hnf
  obtain ⟨t, ht, hf, ho, hl⟩ := exec_wclose_delivers hfault hsink hopen hnf
  refine ⟨t, (8 - s.wNbits.val) % 8, ht, hf, ho, Nat.mod_lt _ (by omega), ?_⟩
  rw [hl, List.flatten_append, flatten_closingLoads, bitsOfBytes_append, bitsOfBytes_closingBytes hw.bufOk, writtenBits,
    List.append_assoc]

/-! ### WBITS -/

theorem exec_wbits {s : State} {n : BitVec 6} (hfault : s.fault = false) (hopen : s.wOpen = true) (h1 : 1 ≤ n.toNat)
    (h32 : n.toNat ≤ 32) : exec (.wbits n) s = outcomeOf (putBits s.data.toNat n.toNat (accepted s)) :=
  exec_performs hfault (by simp [badStateCondition, hopen]) (by simp only [badOperandCondition]; omega)

/-- WBITS on an open stream whose buffer is in order, whatever the channel's invariant says of closed ones. -/
theorem exec_wbits_appends {s : State} {n : BitVec 6} (hb : WriteBufOk s) (hfault : s.fault = false) (hopen : s.wOpen = true)
    (h1 : 1 ≤ n.toNat) (h32 : n.toNat ≤ 32) (hnf : SinkNeverFails s) :
    ∃ t, exec (.wbits n) s = .next t ∧ Appended s (bitsOfValue s.data.toNat n.toNat) t ∧
      t = { s with ended := false, fcode := 0, wBuf := t.wBuf, wAcc := t.wAcc, wNbits := t.wNbits, sink := t.sink } := by
  obtain ⟨_, t, ht, hwrote⟩ := (putBits_spec s.data.toNat n.toNat (accepted s) hb).goesOn hnf
  exact ⟨t, by rw [exec_wbits hfault hopen h1 h32, ht]; rfl, hwrote.toAppended.of_accepted, hwrote.frame⟩

/-- Settles O21: PutBits on a sink that does not fail. -/
theorem wbitsAppendsTheLowBits : Obligations.WbitsAppendsTheLowBits :=
  fun _ _ hw hfault hopen h1 h32 hnf => exec_wbits_appends hw.bufOk hfault hopen h1 h32 hnf

/-- The bit that completes a full load is the end of FlushLoad (40_bit_channel.md rules R101, R105). -/
theorem putBit_of_full {s : State} {b : Bool} (hn : s.wNbits = 7) (hfull : s.wBuf.length + 1 = 131072) :
    putBit b s = deliver (s.wBuf ++ [BitVec.ofNat 8 (s.wAcc.toNat + b.toNat)]) { s with wBuf := [], wAcc := 0, wNbits := 0 } := by
  have hacc : accWithBit b s = BitVec.ofNat 8 (s.wAcc.toNat + b.toNat) := by simp [accWithBit, hn]
  have hlen : (s.wBuf ++ [accWithBit b s]).length = Config.bufBytes := by rw [List.length_append]; exact hfull
  rw [putBit, dif_neg (by rw [hn]; decide)]
  dsimp only
  rw [if_pos hlen, hacc]
  rfl

/-- Settles O22: WBITS 1 is one PutBit, which completes the load. -/
theorem fullLoadGoesToTheSink : Obligations.FullLoadGoesToTheSink := by
  intro s hfault hopen hn hfull load
  have hload : s.wBuf ++ [BitVec.ofNat 8 (s.wAcc.toNat + (s.data.toNat.testBit 0).toNat)] = load := by
    rw [Nat.testBit_zero]
    have : (decide (s.data.toNat % 2 = 1)).toNat = s.data.toNat % 2 := by
      rcases Nat.mod_two_eq_zero_or_one s.data.toNat with h | h <;> rw [h] <;> rfl
    rw [this]
  have hexec : exec (.wbits 1) s = outcomeOf (deliver load { accepted s with wBuf := [], wAcc := 0, wNbits := 0 }) := by
    rw [exec_wbits hfault hopen (by decide) (by decide), ← hload]
    show outcomeOf (andThen (putBit (s.data.toNat.testBit 0) (accepted s)) fun _ t => .ok () t) = _
    rw [putBit_of_full (s := accepted s) hn hfull]
    cases deliver _ _ <;> rfl
  refine ⟨fun hd => ?_, fun hd => ?_⟩
  · rw [hexec, deliver_ok (s := { accepted s with wBuf := [], wAcc := 0, wNbits := 0 }) hd]
    rfl
  · rw [hexec, deliver_fail (s := { accepted s with wBuf := [], wAcc := 0, wNbits := 0 }) hd]
    simp [raiseFault, outcomeOf, recordFault, faultCode, hfault]

/-! ### Sequences of writes -/

/-- A sequence of writes on an open stream appends the fields in order, and changes no more of the state than its STATUS, DATA and the
write side. -/
theorem writeAll_appends (ws : List (Word × BitVec 6)) {s : State} (hb : WriteBufOk s) (hfault : s.fault = false)
    (hopen : s.wOpen = true) (hnf : SinkNeverFails s) (hws : ∀ p ∈ ws, 1 ≤ p.2.toNat ∧ p.2.toNat ≤ 32) :
    ∃ t, writeAll ws s = some t ∧ Appended s (ws.flatMap fun p => bitsOfValue p.1.toNat p.2.toNat) t ∧ t.fault = false ∧
      t.wOpen = true ∧ t.ioSink = s.ioSink := by
  induction ws generalizing s with
  | nil => exact ⟨s, rfl, .refl hb, hfault, hopen, rfl⟩
  | cons p ws ih =>
    obtain ⟨v, n⟩ := p
    obtain ⟨h1, h32⟩ := hws (v, n) (List.mem_cons_self ..)
    obtain ⟨t, ht, ha, hframe⟩ := exec_wbits_appends (s := { s with data := v }) hb hfault hopen h1 h32 hnf
    have ha' : Appended s (bitsOfValue v.toNat n.toNat) t := ⟨ha.bufOk, ha.written, ha.calls⟩
    have hft : t.fault = false := by rw [hframe]; exact hfault
    have hot : t.wOpen = true := by rw [hframe]; exact hopen
    have hst : t.ioSink = s.ioSink := by rw [hframe]
    obtain ⟨u, hu, hau, hf, ho, hs⟩ := ih ha.bufOk hft hot (ha'.sinkNeverFails hnf) fun p hp => hws p (List.mem_cons_of_mem _ hp)
    refine ⟨u, ?_, ha'.trans hau, hf, ho, hs.trans hst⟩
    rw [writeAll, ht]
    exact hu

/-- What WCLOSE delivers is not longer than a load. -/
theorem length_closingBytes_le {s : State} (h : WriteBufOk s) : (closingBytes s).length ≤ 131072 := by
  have hlen : s.wBuf.length < 131072 := h.2
  unfold closingBytes
  split
  · omega
  · rw [List.length_append]
    exact hlen

/-- Settles O23: WOPEN leaves nothing held, the writes fill whole loads and hold the rest, and WCLOSE delivers it padded. -/
theorem sinkReceivesThePackedBits : Obligations.SinkReceivesThePackedBits := by
  intro s ws hfault hsink hclosed hnf hws
  have hopen := exec_wopen_of_closed hfault hclosed
  obtain ⟨u, hu, ha, hfu, hou, hsu⟩ := writeAll_appends ws
    (s := { s with wOpen := true, wBuf := [], wAcc := 0, wNbits := 0, ended := false, fcode := 0 })
    (.of_empty rfl rfl) hfault rfl hnf hws
  obtain ⟨v, hv, hfv, -, hlv⟩ := exec_wclose_delivers hfu (hsu.trans hsink) hou (ha.sinkNeverFails hnf)
  obtain ⟨ls, hls, hfull, -, hbits, -⟩ := ha.loads_spec
  have hbits' : (ws.flatMap fun p => bitsOfValue p.1.toNat p.2.toNat) = bitsOfBytes ls.flatten ++ heldBits u := by
    simpa [heldBits] using hbits
  have hmem : ∀ l ∈ closingLoads u, 1 ≤ l.length ∧ l.length ≤ 131072 := fun l hl => by
    rw [closingLoads, List.mem_ite_nil_left, List.mem_singleton] at hl
    obtain ⟨hne, rfl⟩ := hl
    exact ⟨List.length_pos_iff.mpr hne, length_closingBytes_le ha.bufOk⟩
  refine ⟨_, u, v, ls ++ closingLoads u, (8 - u.wNbits.val) % 8, hopen, hu, hv, hfv, ?_, Nat.mod_lt _ (by omega), ?_, ?_, ?_⟩
  · rw [hlv, hls, List.append_assoc]
  · rw [List.flatten_append, flatten_closingLoads, bitsOfBytes_append, bitsOfBytes_closingBytes ha.bufOk, hbits',
      List.append_assoc]
  · intro l hl
    rcases List.mem_append.mp hl with hl | hl
    · rw [hfull l hl]
      decide
    · exact hmem l hl
  · intro l hl
    refine hfull l ?_
    unfold closingLoads at hl
    split at hl
    · rw [List.append_nil] at hl
      exact List.mem_of_mem_dropLast hl
    · rwa [List.dropLast_concat] at hl

end Sys2Proof.Machine

namespace Sys2Proof.Machine

/-! ### RBITS -/

theorem exec_rbits {s : State} {n : BitVec 6} (hfault : s.fault = false) (hopen : s.rOpen = true) (h1 : 1 ≤ n.toNat)
    (h32 : n.toNat ≤ 32) : exec (.rbits n) s = outcomeOf (readToR0 n.toNat (accepted s)) :=
  exec_performs hfault (by simp [badStateCondition, hopen]) (by simp only [badOperandCondition]; omega)

/-- A read of n bits from a source that does not fail: the answer, and the state with the answer's bits taken. -/
theorem getBits_answers {s : State} {n : Nat} (hb : ReadBufOk s) (hn : n ≤ 32) (hnf : SourceNeverFails s) :
    ∃ t, getBits n s = .ok (getBitsAnswer n (unreadBits s)) t ∧ ReadOn s (getBitsTaken n (unreadBits s)) t := by
  obtain ⟨r, t, ht, rfl, hro⟩ := (getBits_spec n s hb hn).readsOn hnf
  exact ⟨t, ht, hro⟩

/-- RBITS on a read stream whose buffer is in order and whose source does not fail, with enough bits left and with too few. -/
theorem exec_rbits_answers {s : State} {n : BitVec 6} (hb : ReadBufOk s) (hfault : s.fault = false) (hopen : s.rOpen = true)
    (h1 : 1 ≤ n.toNat) (h32 : n.toNat ≤ 32) (hnf : SourceNeverFails s) :
    (n.toNat ≤ (unreadBits s).length →
      ∃ t, exec (.rbits n) s = .next t ∧ Took s n.toNat t ∧
        t = { s with
          r0 := BitVec.ofNat 32 (valueOfBits ((unreadBits s).take n.toNat)), ended := false, fcode := 0
          rBuf := t.rBuf, rBitpos := t.rBitpos, rSrcEnd := t.rSrcEnd, source := t.source }) ∧
    ((unreadBits s).length < n.toNat →
      ∃ t, exec (.rbits n) s = .next t ∧ Took s 0 t ∧
        t = { s with
          ended := true, fcode := 1
          rBuf := t.rBuf, rBitpos := t.rBitpos, rSrcEnd := t.rSrcEnd, source := t.source }) := by
  obtain ⟨t, ht, hro⟩ := getBits_answers (s := accepted s) hb h32 hnf
  rw [show unreadBits (accepted s) = unreadBits s from rfl] at ht hro
  have hexec := exec_rbits hfault hopen h1 h32
  rw [readToR0, ht] at hexec
  have htook := hro.toTook.of_accepted
  refine ⟨fun hle => ?_, fun hlt => ?_⟩
  · rw [getBitsAnswer, if_pos hle] at hexec
    rw [getBitsTaken, if_pos hle] at htook
    refine ⟨_, hexec, htook.congr rfl rfl rfl rfl, ?_⟩
    rw [show t = _ from hro.frame]
  · rw [getBitsAnswer, if_neg (Nat.not_le.mpr hlt)] at hexec
    rw [getBitsTaken, if_neg (Nat.not_le.mpr hlt)] at htook
    refine ⟨_, hexec, htook.congr rfl rfl rfl rfl, ?_⟩
    rw [show t = _ from hro.frame]
    rfl

/-- Settles O24: GetBits on a source that does not fail. -/
theorem rbitsReturnsTheNextBits : Obligations.RbitsReturnsTheNextBits :=
  fun _ _ hr hfault hopen h1 h32 hnf => exec_rbits_answers hr.bufOk hfault hopen h1 h32 hnf

/-- A refill that meets a source that fails has dropped the consumed bytes (40_bit_channel.md rule R107). -/
theorem refill_of_fail {s : State} (h : s.source.draws.head? = some .fail) :
    refill s = raiseFault .ioFailureSource { s with
      rBuf := s.rBuf.drop (s.rBitpos / 8), rBitpos := s.rBitpos % 8, source := ⟨s.source.input, s.source.draws.tail⟩ } := by
  simp [refill, sourceRead, h]

/-- Settles O26: the read needs a refill at once, and that refill meets the failure. -/
theorem failingSourceFaultsTheRead : Obligations.FailingSourceFaultsTheRead := by
  intro s n hfault hopen h1 h32 hshort hend hfail
  have hget : getBits n.toNat (accepted s) = raiseFault .ioFailureSource { accepted s with
      rBuf := s.rBuf.drop (s.rBitpos / 8), rBitpos := s.rBitpos % 8, source := ⟨s.source.input, s.source.draws.tail⟩ } := by
    have hneeds : (availBits (accepted s) < n.toNat && !(accepted s).rSrcEnd) = true := by simp [availBits, hshort, hend]
    rw [getBits, refillUntil, if_pos hneeds, refill_of_fail (s := accepted s) hfail]
    rfl
  rw [exec_rbits hfault hopen h1 h32, readToR0, hget, andThen_raiseFault]
  simp [raiseFault, outcomeOf, recordFault, faultCode, hfault]

/-! ### Sequences of reads -/

/-- The two states show RBITS the same: they differ in the read buffer and the source alone, and there in the way the same bits are
split. -/
structure SameStream (s t : State) : Prop where
  frame : ReadFrame s t
  bufOk : ReadBufOk s ∧ ReadBufOk t
  unread : unreadBits t = unreadBits s
  neverFails : SourceNeverFails s ∧ SourceNeverFails t

/-- A change of both states outside the read side that leaves them different in the read side alone. -/
theorem SameStream.change {s t u v : State} (h : SameStream s t) (hframe : ReadFrame u v)
    (hu : u.rBuf = s.rBuf ∧ u.rBitpos = s.rBitpos ∧ u.rSrcEnd = s.rSrcEnd ∧ u.source = s.source)
    (hv : v.rBuf = t.rBuf ∧ v.rBitpos = t.rBitpos ∧ v.rSrcEnd = t.rSrcEnd ∧ v.source = t.source) : SameStream u v := by
  obtain ⟨-, ⟨hbs, hbt⟩, hun, hns, hnt⟩ := h
  obtain ⟨u1, u2, u3, u4⟩ := hu
  obtain ⟨v1, v2, v3, v4⟩ := hv
  refine ⟨hframe, ⟨?_, ?_⟩, ?_, ?_, ?_⟩
  · simpa only [ReadBufOk, u1, u2] using hbs
  · simpa only [ReadBufOk, v1, v2] using hbt
  · simpa only [unreadBits, u1, u2, u3, u4, v1, v2, v3, v4] using hun
  · simpa only [SourceNeverFails, u4] using hns
  · simpa only [SourceNeverFails, v4] using hnt

/-- A read of n bits in two states that show it the same has one answer, and ends in two such states. -/
theorem SameStream.getBits {s t : State} (h : SameStream s t) {n : Nat} (hn : n ≤ 32) :
    ∃ r u v, getBits n s = .ok r u ∧ getBits n t = .ok r v ∧ SameStream u v := by
  obtain ⟨hframe, ⟨hbs, hbt⟩, hun, hns, hnt⟩ := h
  obtain ⟨u, hu, hou⟩ := getBits_answers hbs hn hns
  obtain ⟨v, hv, hov⟩ := getBits_answers hbt hn hnt
  rw [hun] at hv hov
  refine ⟨_, u, v, hu, hv, ?_, ⟨hou.bufOk, hov.bufOk⟩, ?_, hou.toTook.sourceNeverFails hns, hov.toTook.sourceNeverFails hnt⟩
  · unfold ReadFrame
    rw [show v = _ from hov.frame, show t = _ from hframe, show u = _ from hou.frame]
  · rw [hov.unread, hou.unread, hun]

/-- An RBITS in two states that show it the same ends in two such states. -/
theorem SameStream.rbits {s t : State} (h : SameStream s t) (n : BitVec 6) :
    ∃ u v, exec (.rbits n) s = .next u ∧ exec (.rbits n) t = .next v ∧ SameStream u v := by
  have hframe := h.frame
  have hft : t.fault = s.fault := by rw [show t = _ from hframe]
  have hot : t.rOpen = s.rOpen := by rw [show t = _ from hframe]
  cases hfault : s.fault with
  | true => exact ⟨s, t, exec_of_refused hfault rfl, exec_of_refused (hft.trans hfault) rfl, h⟩
  | false =>
    cases hopen : s.rOpen with
    | false =>
      refine ⟨_, _, (stateAndOperandChecks (.rbits n) s hfault).1 hopen,
        (stateAndOperandChecks (.rbits n) t (hft.trans hfault)).1 (hot.trans hopen),
        h.change ?_ ⟨rfl, rfl, rfl, rfl⟩ ⟨rfl, rfl, rfl, rfl⟩⟩
      unfold ReadFrame
      rw [show t = _ from hframe]
    | true =>
      by_cases hn : n.toNat = 0 ∨ 32 < n.toNat
      · have hbad : ∀ x : State, x.fault = false → x.rOpen = true →
            exec (.rbits n) x = .next { x with fault := true, fcode := 5, ended := false } := fun x hx ho =>
          (stateAndOperandChecks (.rbits n) x hx).2.1 (by simp [badStateCondition, ho]) hn
        refine ⟨_, _, hbad s hfault hopen, hbad t (hft.trans hfault) (hot.trans hopen),
          h.change ?_ ⟨rfl, rfl, rfl, rfl⟩ ⟨rfl, rfl, rfl, rfl⟩⟩
        unfold ReadFrame
        rw [show t = _ from hframe]
      · have hclear : SameStream (accepted s) (accepted t) := h.change (by
          unfold ReadFrame
          rw [show t = _ from hframe]) ⟨rfl, rfl, rfl, rfl⟩ ⟨rfl, rfl, rfl, rfl⟩
        obtain ⟨r, u, v, hu, hv, huv⟩ := hclear.getBits (n := n.toNat) (by omega)
        have hframe' := huv.frame
        rw [exec_rbits hfault hopen (by omega) (by omega), exec_rbits (hft.trans hfault) (hot.trans hopen) (by omega) (by omega),
          readToR0, readToR0, hu, hv]
        cases r with
        | none =>
          refine ⟨_, _, rfl, rfl, huv.change ?_ ⟨rfl, rfl, rfl, rfl⟩ ⟨rfl, rfl, rfl, rfl⟩⟩
          unfold ReadFrame
          rw [show v = _ from hframe']
          rfl
        | some x =>
          refine ⟨_, _, rfl, rfl, huv.change ?_ ⟨rfl, rfl, rfl, rfl⟩ ⟨rfl, rfl, rfl, rfl⟩⟩
          unfold ReadFrame
          rw [show v = _ from hframe']

/-- R0 and STATUS have nothing of the read buffer and the source. -/
theorem SameStream.shown {s t : State} (h : SameStream s t) : (t.r0, statusWord t) = (s.r0, statusWord s) := by
  rw [show t = _ from h.frame]
  rfl

theorem readAll_of_sameStream (ns : List (BitVec 6)) {s t : State} (h : SameStream s t) : readAll ns t = readAll ns s := by
  induction ns generalizing s t with
  | nil => rfl
  | cons n ns ih =>
    obtain ⟨u, v, hu, hv, huv⟩ := h.rbits n
    rw [readAll, readAll, hu, hv]
    exact congrArg₂ List.cons huv.shown (ih huv)

/-- Settles O25: other draws leave the unread bits as they are, and RBITS answers by those alone. -/
theorem readsDoNotDependOnTheDraws : Obligations.ReadsDoNotDependOnTheDraws :=
  fun ns _ _ hr hnf hdraws => readAll_of_sameStream ns ⟨rfl, ⟨hr.bufOk, hr.bufOk⟩, rfl, hnf, hdraws⟩

/-! ### Mixed widths -/

/-- The value of a bit string is that of its two parts (20_memory.md rule R61). -/
theorem valueOfBits_append (a b : List Bool) : valueOfBits (a ++ b) = valueOfBits a * 2 ^ b.length + valueOfBits b := by
  have key : ∀ (b : List Bool) (v : Nat), b.foldl (fun v b => 2 * v + b.toNat) v = v * 2 ^ b.length + valueOfBits b := by
    intro b
    induction b with
    | nil => intro v; simp [valueOfBits]
    | cons x b ih =>
      intro v
      have hx : valueOfBits (x :: b) = (2 * 0 + x.toNat) * 2 ^ b.length + valueOfBits b := ih _
      rw [List.foldl_cons, ih, hx, List.length_cons, Nat.pow_succ]
      ring
  rw [valueOfBits, List.foldl_append, key]
  rfl

/-- A field of n + m bits is its two parts (20_memory.md rule R63). -/
theorem bitsOfValue_add (v n m : Nat) : bitsOfValue v (n + m) = bitsOfValue (v / 2 ^ m) n ++ bitsOfValue v m := by
  induction n with
  | zero => simp
  | succ n ih =>
    rw [Nat.succ_add, bitsOfValue_succ, bitsOfValue_succ, ih, Nat.testBit_div_two_pow, List.cons_append]

/-- The field has the low bits of its value alone. -/
theorem bitsOfValue_mod (v n : Nat) : bitsOfValue (v % 2 ^ n) n = bitsOfValue v n := by
  refine List.map_congr_left fun j hj => ?_
  rw [Nat.testBit_mod_two_pow, decide_eq_true (by rw [List.mem_range] at hj; omega), Bool.true_and]

/-- Two adjacent fields written as one (20_memory.md rule R63). -/
theorem bitsOfValue_joined {x y z n m : Nat} (hy : y < 2 ^ m) (hz : z = (x * 2 ^ m + y) % 2 ^ (n + m)) :
    bitsOfValue z (n + m) = bitsOfValue x n ++ bitsOfValue y m := by
  have hhigh : (x * 2 ^ m + y) / 2 ^ m = x := by
    rw [Nat.mul_comm, Nat.mul_add_div (Nat.pow_pos (by decide)), Nat.div_eq_of_lt hy, Nat.add_zero]
  have hlow : (x * 2 ^ m + y) % 2 ^ m = y := by
    rw [Nat.mul_comm, Nat.mul_add_mod, Nat.mod_eq_of_lt hy]
  rw [hz, bitsOfValue_mod, bitsOfValue_add, hhigh, ← bitsOfValue_mod _ m, hlow]

/-- The value RBITS gives, read back from R0. -/
theorem toNat_value {bits : List Bool} {n : Nat} (hn : n ≤ 32) :
    (BitVec.ofNat 32 (valueOfBits (bits.take n))).toNat = valueOfBits (bits.take n) := by
  have hlt := valueOfBits_lt (bits.take n)
  have hpow : 2 ^ (bits.take n).length ≤ 2 ^ 32 := Nat.pow_le_pow_right (by decide) ((List.length_take_le n bits).trans hn)
  rw [BitVec.toNat_ofNat, Nat.mod_eq_of_lt (hlt.trans_le hpow)]

/-- Two reads, one after the other, take the two parts of what one read of their joint width takes. -/
theorem mixedReads {s : State} {n m k : BitVec 6} (h1 : 1 ≤ n.toNat) (h1' : 1 ≤ m.toNat) (hk : k.toNat = n.toNat + m.toNat)
    (h32 : k.toNat ≤ 32) (hfault : s.fault = false) (hb : ReadBufOk s) (hopen : s.rOpen = true) (hnf : SourceNeverFails s)
    (hlen : k.toNat ≤ (unreadBits s).length) :
    ∃ t u v, exec (.rbits n) s = .next t ∧ exec (.rbits m) t = .next u ∧ exec (.rbits k) s = .next v ∧
      v.r0.toNat = t.r0.toNat * 2 ^ m.toNat + u.r0.toNat ∧ unreadBits v = unreadBits u := by
  obtain ⟨t, ht, htt, het⟩ := (exec_rbits_answers hb hfault hopen h1 (by omega) hnf).1 (by omega)
  have hft : t.fault = false := by rw [het]; exact hfault
  have hot : t.rOpen = true := by rw [het]; exact hopen
  obtain ⟨u, hu, htu, heu⟩ := (exec_rbits_answers htt.bufOk hft hot h1' (by omega) (htt.sourceNeverFails hnf)).1
    (by rw [htt.unread, List.length_drop]; omega)
  obtain ⟨v, hv, htv, hev⟩ := (exec_rbits_answers hb hfault hopen (by omega) h32 hnf).1 hlen
  refine ⟨t, u, v, ht, hu, hv, ?_, ?_⟩
  · have h0 : t.r0.toNat = valueOfBits ((unreadBits s).take n.toNat) := by rw [het]; exact toNat_value (by omega)
    have h1 : u.r0.toNat = valueOfBits ((unreadBits t).take m.toNat) := by rw [heu]; exact toNat_value (by omega)
    have h2 : v.r0.toNat = valueOfBits ((unreadBits s).take k.toNat) := by rw [hev]; exact toNat_value h32
    have hm : ((unreadBits t).take m.toNat).length = m.toNat := by rw [htt.unread]; simp; omega
    rw [h0, h1, h2, hk, List.take_add, ← htt.unread, valueOfBits_append, hm]
  · rw [htv.unread, htu.unread, htt.unread, List.drop_drop, hk]

/-- Two writes, one after the other, append what one write of their joint width appends. -/
theorem mixedWrites {s : State} {n m k : BitVec 6} {x y z : Word} (h1 : 1 ≤ n.toNat) (h1' : 1 ≤ m.toNat)
    (hk : k.toNat = n.toNat + m.toNat) (h32 : k.toNat ≤ 32) (hfault : s.fault = false) (hb : WriteBufOk s)
    (hopen : s.wOpen = true) (hnf : SinkNeverFails s) (hy : y.toNat < 2 ^ m.toNat)
    (hz : z.toNat = (x.toNat * 2 ^ m.toNat + y.toNat) % 2 ^ k.toNat) :
    ∃ t u v, exec (.wbits n) { s with data := x } = .next t ∧ exec (.wbits m) { t with data := y } = .next u ∧
      exec (.wbits k) { s with data := z } = .next v ∧ writtenBits v = writtenBits u := by
  obtain ⟨t, ht, hat, het⟩ := exec_wbits_appends (s := { s with data := x }) hb hfault hopen h1 (by omega) hnf
  have hft : t.fault = false := by rw [het]; exact hfault
  have hot : t.wOpen = true := by rw [het]; exact hopen
  obtain ⟨u, hu, hau, -⟩ := exec_wbits_appends (s := { t with data := y }) hat.bufOk hft hot h1' (by omega)
    (hat.sinkNeverFails hnf)
  obtain ⟨v, hv, hav, -⟩ := exec_wbits_appends (s := { s with data := z }) hb hfault hopen (by omega) h32 hnf
  refine ⟨t, u, v, ht, hu, hv, ?_⟩
  have hbits : bitsOfValue z.toNat k.toNat = bitsOfValue x.toNat n.toNat ++ bitsOfValue y.toNat m.toNat := by
    rw [hk] at hz ⊢
    exact bitsOfValue_joined hy hz
  have ht' : writtenBits t = writtenBits s ++ bitsOfValue x.toNat n.toNat := hat.written
  have hu' : writtenBits u = writtenBits t ++ bitsOfValue y.toNat m.toNat := hau.written
  have hv' : writtenBits v = writtenBits s ++ bitsOfValue z.toNat k.toNat := hav.written
  rw [hv', hu', ht', hbits, List.append_assoc]

/-- Settles O27. -/
theorem mixedWidths : Obligations.MixedWidths := fun _ _ _ _ h1 h1' hk h32 hfault =>
  ⟨fun hr hopen hnf hlen => mixedReads h1 h1' hk h32 hfault hr.bufOk hopen hnf hlen,
    fun _ _ _ hw hopen hnf hy hz => mixedWrites h1 h1' hk h32 hfault hw.bufOk hopen hnf hy hz⟩

end Sys2Proof.Machine

/-!
PROOFS. The counts of the Frequency Model over a sequence of updates (41_freq_model.md rule R149). An update of a table that is
not frozen raises the counts above its symbol by 1, the total with them, and the table freezes when the total reaches FREQ_CAP:
so of a sequence the first updates count, as many as the total was below FREQ_CAP, and the others do not.
-/
namespace Sys2Proof.Machine

/-- How many of the updates that count are for a symbol below the index `i`. -/
def countBelow (i : Nat) (syms : List (BitVec 9)) : Nat := (syms.filter fun x => decide (x.toNat < i)).length

theorem countBelow_cons (i : Nat) (x : BitVec 9) (xs : List (BitVec 9)) :
    countBelow i (x :: xs) = (if x.toNat < i then 1 else 0) + countBelow i xs := by
  rw [countBelow, List.filter_cons]
  by_cases h : x.toNat < i <;> simp [h, countBelow, Nat.add_comm]

/-- The symbols below k + 1 are those below k and k itself. -/
theorem countBelow_succ (k : Nat) (syms : List (BitVec 9)) :
    countBelow (k + 1) syms = countBelow k syms + (syms.filter fun x => decide (x.toNat = k)).length := by
  induction syms with
  | nil => rfl
  | cons x xs ih =>
    rw [countBelow_cons, countBelow_cons, ih, List.filter_cons]
    by_cases h : x.toNat = k
    · simp [h]; omega
    · by_cases h' : x.toNat < k
      · simp [h, h', Nat.lt_succ_of_lt h']; omega
      · simp [h, h', show ¬ x.toNat < k + 1 by omega]

theorem countBelow_zero (syms : List (BitVec 9)) : countBelow 0 syms = 0 := by simp [countBelow]

/-- Every symbol is below 257, so every update that counts raises the total. -/
theorem countBelow_all {syms : List (BitVec 9)} (h : ∀ x ∈ syms, x.toNat ≤ 256) : countBelow 257 syms = syms.length := by
  rw [countBelow, List.filter_eq_self.mpr fun x hx => decide_eq_true (Nat.lt_succ_of_le (h x hx))]

/-- One FMPROB on a model table, with no fault recorded. -/
theorem exec_fmprob_counts {s : State} {x : BitVec 9} (hfault : s.fault = false) (hm : ModelOk s) (hx : x.toNat ≤ 256) :
    ∃ t, exec (.fmprob x) s = .next t ∧ t.fault = false ∧ ModelOk t ∧ CountedUp x.toNat s t := by
  have hframe := reportAndUpdate_eq x.toNat (accepted s)
  refine ⟨_, exec_fmprob_of_le hfault hx, by rw [hframe]; exact hfault, ?_, countedUp_reportAndUpdate_cleared hm _⟩
  exact (ModelOk.freqUpdate (s := accepted s) (hm.congr rfl rfl) hx).congr (by rw [hframe]) (by rw [hframe])

/-- A sequence of updates counts its symbols in the table until the total reaches FREQ_CAP. -/
theorem performAll_fmprob (syms : List (BitVec 9)) {s : State} (hfault : s.fault = false) (hm : ModelOk s)
    (hsyms : ∀ x ∈ syms, x.toNat ≤ 256) :
    ∃ t, performAll (syms.map .fmprob) s = some t ∧ ModelOk t ∧
      ∀ i ≤ 257, cumAt t i = cumAt s i + countBelow i (syms.take (32767 - cumAt s 257)) := by
  induction syms generalizing s with
  | nil => exact ⟨s, rfl, hm, fun i _ => by simp [countBelow]⟩
  | cons x xs ih =>
    have hx := hsyms x (List.mem_cons_self ..)
    obtain ⟨t, ht, hft, hmt, -, hcount, -⟩ := exec_fmprob_counts hfault hm hx
    obtain ⟨u, hu, hmu, hcu⟩ := ih hft hmt fun y hy => hsyms y (List.mem_cons_of_mem _ hy)
    refine ⟨u, by rw [List.map_cons, performAll, ht]; exact hu, hmu, fun i hi => ?_⟩
    obtain ⟨-, -, -, hcap, hfrozen⟩ := hm
    simp only [Config.freqCap] at hcap hfrozen
    rw [hcu i hi, hcount i hi, hcount 257 (le_refl _)]
    cases hf : s.frozen with
    | true =>
      have htotal : cumAt s 257 = 32767 := hfrozen.mp hf
      simp [htotal]
    | false =>
      have hroom : cumAt s 257 ≠ 32767 := fun h => by simp [hf] at hfrozen; exact hfrozen h
      have hlt : x.toNat < 257 := by omega
      obtain ⟨room, hr⟩ : ∃ room, 32767 - cumAt s 257 = room + 1 := ⟨32767 - cumAt s 257 - 1, by omega⟩
      simp only [true_and, if_pos hlt]
      rw [show 32767 - (cumAt s 257 + 1) = room by omega, hr, List.take_succ_cons, countBelow_cons, Nat.add_assoc]

/-- Settles O31: the fresh table is the ramp, whose total leaves room for 32510 updates. -/
theorem frequenciesCountTheUpdates : Obligations.FrequenciesCountTheUpdates := by
  intro s syms hfault hcum hfrozen hsyms
  have hramp : s.cum = identityRamp := hcum.trans identityRamp_eq_range.symm
  obtain ⟨t, ht, hmt, hc⟩ := performAll_fmprob syms hfault (.of_ramp hramp hfrozen) hsyms
  have hat : ∀ i ≤ 257, cumAt t i = i + countBelow i (syms.take 32510) := fun i hi => by
    rw [hc i hi, cumAt_of_ramp hramp hi, cumAt_of_ramp hramp (le_refl _)]
  have htotal : cumAt t 257 = 257 + min syms.length 32510 := by
    rw [hat 257 (le_refl _), countBelow_all fun x hx => hsyms x (List.mem_of_mem_take hx), List.length_take, Nat.min_comm]
  refine ⟨t, ht, ?_, fun k hk => ?_, htotal, ?_⟩
  · rw [hat 0 (by omega), countBelow_zero]
  · rw [hat (k + 1) (by omega), hat k (by omega), countBelow_succ]
    omega
  · obtain ⟨-, -, -, -, hfr⟩ := hmt
    rw [hfr, htotal]
    simp only [Config.freqCap]
    omega

end Sys2Proof.Machine

/-!
PROOFS. The commands of the Arithmetic Coder that write and read bits (42_arith_coder.md rules R172 to R183). AESYM and ADSYM
report and count a symbol and narrow the interval to the symbol's; what follows is a renormalization loop, whose laws say what
it writes or reads and where it leaves the registers. So each pseudocode is first brought to that form, and then its ends are
read off the laws.
-/
namespace Sys2Proof.Machine

/-! ### Narrowing to a symbol -/

/-- Renormalized bounds leave a range above the largest total (42_arith_coder.md rule R181). -/
theorem CoderOk.total_lt_range {s : State} (hc : CoderOk s) (hm : ModelOk s) : cumAt s 257 < codeRange s := by
  obtain ⟨hle, hr, -⟩ := hc
  have := hm.total.2
  simp only [Renormalized, Config.oneFourth, Config.oneHalf, Config.threeFourths] at hr
  unfold codeRange
  omega

/-- The narrowing of AESYM and ADSYM: to the symbol's interval in the table of `s`, from before the update. -/
abbrev narrowTo (sym : Nat) (s u : State) : State := narrow (cumAt s sym) (cumAt s (sym + 1)) (cumAt s 257) u

/-- Narrowing to a symbol gives the bounds of rule R172, in order. -/
theorem narrowTo_spec {s u : State} {sym : Nat} (hm : ModelOk s) (hc : CoderOk s) (hsym : sym ≤ 256) (hl : u.low = s.low)
    (hh : u.high = s.high) :
    (narrowTo sym s u).low.toNat = narrowedLow s sym ∧ (narrowTo sym s u).high.toNat = narrowedHigh s sym ∧
      (narrowTo sym s u).low.toNat ≤ (narrowTo sym s u).high.toNat := by
  have hr : codeRange u = codeRange s := by rw [codeRange, codeRange, hl, hh]
  obtain ⟨hlt, hle⟩ := hm.interval hsym
  obtain ⟨h1, h2, -, h3, -⟩ := narrow_spec (s := u) (by rw [hl, hh]; exact hc.1) (by rw [hr]; exact hc.total_lt_range hm) hlt hle
  rw [hr, hl] at h1 h2
  exact ⟨h1, h2, h3⟩

/-- The renormalization loops have passes enough for every interval that is not empty (42_arith_coder.md rule R174). -/
theorem range_scaled_lt (s : State) : 65536 < codeRange s * 2 ^ 17 := by
  unfold codeRange
  omega

/-- The look-up of a symbol after its update reports the counts from before it, so the two orders of 41_freq_model.md rule R144 and
42_arith_coder.md rule R178 are one. -/
theorem setInterval_freqUpdate (sym : Nat) (s : State) :
    setInterval (cumAt s sym) (cumAt s (sym + 1)) (cumAt s 257) sym (freqUpdate sym s) = reportAndUpdate sym s := by
  rw [reportAndUpdate_eq, freqUpdate_frame]
  rfl

/-- Reporting and counting a symbol leaves the coder's registers, the streams, the dictionary and the modes alone. -/
theorem reportAndUpdate_frame (sym : Nat) (s : State) :
    reportAndUpdate sym s =
      { s with
        r0 := (reportAndUpdate sym s).r0, r1 := (reportAndUpdate sym s).r1, r2 := (reportAndUpdate sym s).r2
        r3 := (reportAndUpdate sym s).r3, cum := (reportAndUpdate sym s).cum, frozen := (reportAndUpdate sym s).frozen } := by
  rw [reportAndUpdate_eq]

/-! ### AESYM -/

theorem exec_aesym {s : State} {sym : BitVec 9} (hfault : s.fault = false) (hmode : s.acMode = .enc) (hopen : s.wOpen = true)
    (hsym : sym.toNat ≤ 256) : exec (.aesym sym) s = outcomeOf (encodeSymbol sym.toNat (accepted s)) :=
  exec_performs hfault (by simp [badStateCondition, hmode, hopen]) (by simp only [badOperandCondition]; omega)

/-- AESYM's pseudocode is the encoder's loop on the interval of the reported symbol. -/
theorem encodeSymbol_eq (sym : Nat) (s : State) :
    encodeSymbol sym s = encRenorm 18 (narrowTo sym s (reportAndUpdate sym s)) := by
  rw [← setInterval_freqUpdate]
  rfl

/-- What AESYM leaves when it goes on to its end (42_arith_coder.md rules R172 to R174, R178, R182). -/
structure Encoded (sym : Nat) (s t : State) : Prop where
  appended : Appended s (bitPlusFollow (symbolCases s sym) s.pending.toNat).1 t
  frame : EncFrame (reportAndUpdate sym s) t
  low : t.low.toNat = lowAfter (symbolCases s sym) (narrowedLow s sym)
  high : t.high.toNat = highAfter (symbolCases s sym) (narrowedHigh s sym)
  pending : t.pending.toNat = (bitPlusFollow (symbolCases s sym) s.pending.toNat).2
  ordered : t.low.toNat ≤ t.high.toNat
  renormalized : Renormalized t.low.toNat t.high.toNat

/-- Reporting, counting and narrowing write nothing but the results, the table and the bounds. -/
theorem narrowTo_report_frame (sym : Nat) (s : State) :
    narrowTo sym s (reportAndUpdate sym s) =
      { s with
        r0 := BitVec.ofNat 32 (cumAt s sym), r1 := BitVec.ofNat 32 (cumAt s (sym + 1))
        r2 := BitVec.ofNat 32 (cumAt s 257), r3 := BitVec.ofNat 32 sym
        cum := (freqUpdate sym s).cum, frozen := (freqUpdate sym s).frozen
        low := (narrowTo sym s (reportAndUpdate sym s)).low, high := (narrowTo sym s (reportAndUpdate sym s)).high } := by
  change { reportAndUpdate sym s with
    low := (narrowTo sym s (reportAndUpdate sym s)).low, high := (narrowTo sym s (reportAndUpdate sym s)).high } = _
  generalize (narrowTo sym s (reportAndUpdate sym s)).low = lo
  generalize (narrowTo sym s (reportAndUpdate sym s)).high = hi
  rw [reportAndUpdate_eq]

/-- The interval narrowed to a symbol, as the encoder's loop finds it. -/
theorem narrowTo_report {s : State} {sym : Nat} (hm : ModelOk s) (hc : CoderOk s) (hsym : sym ≤ 256) :
    (narrowTo sym s (reportAndUpdate sym s)).low.toNat = narrowedLow s sym ∧
      (narrowTo sym s (reportAndUpdate sym s)).high.toNat = narrowedHigh s sym ∧
      (narrowTo sym s (reportAndUpdate sym s)).low.toNat ≤ (narrowTo sym s (reportAndUpdate sym s)).high.toNat ∧
      (narrowTo sym s (reportAndUpdate sym s)).pending = s.pending :=
  have hf := reportAndUpdate_frame sym s
  have ⟨h1, h2, h3⟩ := narrowTo_spec hm hc hsym (u := reportAndUpdate sym s) (by rw [hf]) (by rw [hf])
  ⟨h1, h2, h3, by rw [narrowTo_report_frame]⟩

/-- Reporting, counting and narrowing write nothing. -/
theorem appended_narrowTo {s : State} (hb : WriteBufOk s) (sym : Nat) :
    Appended s [] (narrowTo sym s (reportAndUpdate sym s)) := by
  rw [narrowTo_report_frame]
  exact (Appended.refl hb).congr rfl rfl rfl rfl

/-- The ends of AESYM's pseudocode: all the way, with the sink's failure, or with PENDING past its largest value. -/
theorem encodeSymbol_spec {s : State} {sym : Nat} (hb : WriteBufOk s) (hm : ModelOk s) (hc : CoderOk s) (hsym : sym ≤ 256) :
    Ends (encodeSymbol sym s) (fun _ t => Encoded sym s t)
      (fun t => ∃ u, EncFrame (reportAndUpdate sym s) u ∧ WriteBufOk u ∧
        (t = recordFault .ioFailureSink u ∧ .fail ∈ s.sink.draws ∨
          t = recordFault .pendingOverflow u ∧ 4294967295 < s.pending.toNat + leadingUnderflows (symbolCases s sym))) := by
  obtain ⟨hlow, hhigh, hle, hp⟩ := narrowTo_report hm hc hsym
  have ha := appended_narrowTo hb sym
  have hf : EncFrame (reportAndUpdate sym s) (narrowTo sym s (reportAndUpdate sym s)) := rfl
  have hspec := encRenorm_spec 17 (narrowTo sym s (reportAndUpdate sym s)) ha.bufOk hle (range_scaled_lt _) (le_refl _)
  rw [encodeSymbol_eq]
  rw [hlow, hhigh, hp] at hspec
  generalize narrowTo sym s (reportAndUpdate sym s) = n at *
  refine hspec.mono ?_ ?_
  · rintro - t ⟨h1, h2, h3, h4, h5, h6, h7⟩
    exact ⟨ha.trans h1, hf.trans h2, h3, h4, h5, h6, h7⟩
  · rintro t ⟨u, hu, hbu, hcase⟩
    obtain ⟨k, hk⟩ := ha.draws
    rw [hp] at hcase
    exact ⟨u, hf.trans hu, hbu, hcase.imp (And.imp_right fun h => List.mem_of_mem_drop (hk ▸ h)) id⟩

/-- The frame of AESYM from the state with END and FCODE cleared, with the results written out. -/
theorem encFrame_report_accepted {s t : State} {sym : Nat} (h : EncFrame (reportAndUpdate sym (accepted s)) t) :
    t = { s with
      r0 := BitVec.ofNat 32 (cumAt s sym), r1 := BitVec.ofNat 32 (cumAt s (sym + 1))
      r2 := BitVec.ofNat 32 (cumAt s 257), r3 := BitVec.ofNat 32 sym
      cum := t.cum, frozen := t.frozen, low := t.low, high := t.high, pending := t.pending
      wBuf := t.wBuf, wAcc := t.wAcc, wNbits := t.wNbits, sink := t.sink, ended := false, fcode := 0 } := by
  rw [show t = _ from h, reportAndUpdate_cleared_frame]

/-- After an update and whatever the coder did then, the table has counted the symbol. -/
theorem countedUp_of_eq {s t : State} {sym : Nat} (hm : ModelOk s) (hc : t.cum = (reportAndUpdate sym (accepted s)).cum)
    (hf : t.frozen = (reportAndUpdate sym (accepted s)).frozen) : CountedUp sym s t := by
  obtain ⟨h1, h2, h3⟩ := countedUp_reportAndUpdate_cleared hm sym
  refine ⟨by rw [hc]; exact h1, fun i hi => ?_, ?_⟩
  · rw [cumAt_congr hc]
    exact h2 i hi
  · rw [hf, cumAt_congr hc]
    exact h3

theorem EncFrame.countedUp {s t : State} {sym : Nat} (hm : ModelOk s) (h : EncFrame (reportAndUpdate sym (accepted s)) t) :
    CountedUp sym s t :=
  countedUp_of_eq hm (by rw [show t = _ from h]) (by rw [show t = _ from h])

/-- The parts of the block's invariant that the coder rests on while no fault is recorded. -/
theorem BlockInv.coder {s : State} (h : BlockInv s) (hfault : s.fault = false) : CoderOk s := (h.2.2.2.2 hfault).1

theorem BlockInv.model {s : State} (h : BlockInv s) : ModelOk s := h.2.2.1

theorem BlockInv.writeBufOk {s : State} (h : BlockInv s) : WriteBufOk s := h.1.bufOk

theorem BlockInv.readBufOk {s : State} (h : BlockInv s) : ReadBufOk s := h.2.1.bufOk

theorem BlockInv.dict {s : State} (h : BlockInv s) : DictOk s := h.2.2.2.1

/-- Settles O33: neither of the two failures can happen. -/
theorem aesymEncodesTheSymbol : Obligations.AesymEncodesTheSymbol := by
  intro s sym hinv hfault hmode hopen hsym hnf hroom
  have hspec := encodeSymbol_spec (s := accepted s) hinv.writeBufOk hinv.model (hinv.coder hfault) hsym
  have hexec := exec_aesym hfault hmode hopen hsym
  cases hr : encodeSymbol sym.toNat (accepted s) with
  | ok a t =>
    rw [hr] at hspec hexec
    have h : Encoded sym.toNat (accepted s) t := hspec
    exact ⟨t, hexec, h.frame.countedUp hinv.model, h.low, h.high, h.pending, h.appended.of_accepted, h.renormalized,
      encFrame_report_accepted h.frame⟩
  | raised t =>
    rw [hr] at hspec
    obtain ⟨u, -, -, ⟨-, hfail⟩ | ⟨-, hover⟩⟩ := hspec
    · exact absurd (hnf _ hfail) (by simp)
    · exact absurd hover (Nat.not_lt.mpr hroom)
  | stuck e =>
    rw [hr] at hspec
    exact hspec.elim

/-- Settles O34: the loop's law for a PENDING that overflows. -/
theorem aesymPendingOverflow : Obligations.AesymPendingOverflow := by
  intro s sym hinv hfault hmode hopen hsym hover fitting
  obtain ⟨hlow, hhigh, hle, hp⟩ := narrowTo_report (s := accepted s) hinv.model (hinv.coder hfault) hsym
  have h := encRenorm_overflow 17 _ hle (by rw [hlow, hhigh, hp]; exact hover)
  rw [hlow, hhigh, hp, ← encodeSymbol_eq] at h
  have hexec := exec_aesym hfault hmode hopen hsym
  rw [h] at hexec
  refine ⟨_, hexec, countedUp_of_eq hinv.model rfl rfl, ?_⟩
  generalize hn : narrowTo sym.toNat (accepted s) (reportAndUpdate sym.toNat (accepted s)) = n
  rw [narrowTo_report_frame] at hn
  rw [← hn]
  exact recordFault_other (by exact hfault) (by decide)

end Sys2Proof.Machine

/-!
PROOFS. The end of an encode, and the decoder (42_arith_coder.md rules R177 to R183).
-/
namespace Sys2Proof.Machine

/-! ### AEFIN -/

theorem exec_aefin {s : State} (hfault : s.fault = false) (hmode : s.acMode = .enc) (hopen : s.wOpen = true) :
    exec .aefin s = outcomeOf (finishEncode (accepted s)) :=
  exec_performs hfault (by simp [badStateCondition, hmode, hopen]) (by simp [badOperandCondition])

theorem finishEncode_of_full {s : State} (h : s.pending = 4294967295) :
    finishEncode s = raiseFault .pendingOverflow s :=
  if_pos (by rw [h]; rfl)

/-- Below the largest PENDING, AEFIN's pseudocode is one EmitBit with one more bit pending, and the results. -/
theorem finishEncode_of_room {s : State} (h : s.pending.toNat ≠ Config.pendingMax) :
    finishEncode s =
      andThen (emitBit (decide (32768 ≤ s.low.toNat)) { s with pending := s.pending + 1 }) fun _ t =>
        .ok () { t with r0 := BitVec.ofNat 32 (decide (32768 ≤ s.low.toNat)).toNat, acMode := .idle } :=
  if_neg h

theorem toNat_pending_ne {p : BitVec 32} (h : p ≠ 4294967295) : p.toNat ≠ Config.pendingMax := fun hp => h (pending_full hp)

/-- The termination bit as a register value. -/
theorem terminationBit_eq (low : Nat) :
    BitVec.ofNat 32 (decide (32768 ≤ low)).toNat = if low < 32768 then 0 else 1 := by
  by_cases h : low < 32768
  · rw [if_pos h, decide_eq_false (by omega)]
    rfl
  · rw [if_neg h, decide_eq_true (by omega)]
    rfl

theorem finishEncode_appends {s : State} (hb : WriteBufOk s) (hp : s.pending ≠ 4294967295) (hnf : SinkNeverFails s) :
    ∃ t, finishEncode s = .ok () t ∧
      Appended s (decide (32768 ≤ s.low.toNat) :: List.replicate (s.pending.toNat + 1) (!decide (32768 ≤ s.low.toNat))) t ∧
      t = { s with
        r0 := if s.low.toNat < 32768 then 0 else 1, pending := 0, acMode := .idle
        wBuf := t.wBuf, wAcc := t.wAcc, wNbits := t.wNbits, sink := t.sink } := by
  have hmax := toNat_pending_ne hp
  obtain ⟨_, u, hu, ha, hf, h0⟩ :=
    (emitBit_spec (decide (32768 ≤ s.low.toNat)) { s with pending := s.pending + 1 } hb).goesOn hnf
  rw [finishEncode_of_room hmax, hu, andThen_ok, terminationBit_eq]
  rw [pending_succ hmax] at ha
  refine ⟨_, rfl, .congr (.of_start ha rfl rfl rfl rfl) rfl rfl rfl rfl, ?_⟩
  rw [show u = _ from hf, h0]

/-- Settles O35. -/
theorem aefinResult : Obligations.AefinResult := by
  intro s hw hfault hmode hopen
  have hexec := exec_aefin hfault hmode hopen
  refine ⟨fun hp hnf => ?_, fun hp => ?_⟩
  · obtain ⟨t, ht, ha, hf⟩ := finishEncode_appends (s := accepted s) hw.bufOk hp hnf
    rw [ht] at hexec
    exact ⟨t, hexec, ha.of_accepted, hf⟩
  · rw [finishEncode_of_full (s := accepted s) hp] at hexec
    rw [hexec]
    exact congrArg Host.Outcome.next (recordFault_other (s := accepted s) (k := .pendingOverflow) hfault (by decide))

/-! ### ADINIT -/

/-- A step that cannot raise goes on. -/
theorem Ends.ok_of_not_raised {α : Type} {r : Res α} {P : α → State → Prop} {R : State → Prop} (h : Ends r P R) (hR : ∀ t, ¬ R t) :
    ∃ a t, r = .ok a t ∧ P a t := by
  cases r with
  | ok a t => exact ⟨a, t, rfl, h⟩
  | raised t => exact absurd h (hR t)
  | stuck e => exact h.elim

theorem exec_adinit {s : State} (hfault : s.fault = false) (hopen : s.rOpen = true) :
    exec .adinit s = outcomeOf (andThen (loadValue 17 (coderStart (accepted s))) fun _ t => .ok () { t with acMode := .dec }) :=
  exec_performs hfault (by simp [badStateCondition, hopen]) (by simp [badOperandCondition])

theorem SourceNeverFails.not_decFailure {s : State} (h : SourceNeverFails s) (t : State) : ¬ DecFailure s t := by
  rintro ⟨u, -, -, -, hfail⟩
  exact h _ hfail rfl

/-- The 17 bits of ADINIT, loaded into a VALUE that is 0 (42_arith_coder.md rule R180). -/
theorem loadValue_coderStart {s : State} (hb : ReadBufOk s) :
    Ends (loadValue 17 (coderStart s))
      (fun _ t => Took s 17 t ∧ t.value.toNat = valueOfBits (firstBits 17 (unreadBits s)) ∧
        t = { s with
          cum := List.range 258, frozen := false, low := 0, high := 131071, value := t.value, pending := 0
          rBuf := t.rBuf, rBitpos := t.rBitpos, rSrcEnd := t.rSrcEnd, source := t.source })
      (DecFailure (coderStart s)) := by
  rw [coderStart_eq]
  refine (loadValue_spec 17 _ (by exact hb) (by simp)).mono ?_ fun _ h => h
  rintro - t ⟨ht, hf, hlow, hhigh, hv⟩
  exact ⟨ht.of_start rfl rfl rfl rfl, hv, by rw [show t = _ from hf, hlow, hhigh]⟩

/-- Settles O36. -/
theorem adinitResult : Obligations.AdinitResult := by
  intro s hr hfault hopen hnf
  obtain ⟨_, t, ht, htook, hv, hf⟩ :=
    (loadValue_coderStart (s := accepted s) hr.bufOk).ok_of_not_raised (SourceNeverFails.not_decFailure hnf)
  refine ⟨{ t with acMode := .dec }, ?_, htook.of_accepted.congr rfl rfl rfl rfl, hv, ?_⟩
  · rw [exec_adinit hfault hopen, ht]
    rfl
  · rw [hf]

/-! ### ADSYM -/

theorem exec_adsym {s : State} (hfault : s.fault = false) (hmode : s.acMode = .dec) (hr : s.rOpen = true) (hw : s.wOpen = true) :
    exec .adsym s = outcomeOf (decodeSymbol (accepted s)) :=
  exec_performs hfault (by simp [badStateCondition, hmode, hr, hw]) (by simp [badOperandCondition])

/-- The symbol whose interval holds the value is the one the search finds (42_arith_coder.md rule R177). -/
theorem symbolSearch_of_interval {s : State} {sym v : Nat} (hm : ModelOk s) (hsym : sym ≤ 256) (hlo : cumAt s sym ≤ v)
    (hhi : v < cumAt s (sym + 1)) : symbolSearch v s = some sym :=
  (symbolSearch_eq_some hm.1).mpr ⟨hsym, hhi, fun j hj => (hm.mono (by omega) (by omega)).trans hlo⟩

/-- ADSYM on a byte: it is reported, counted and written, and then the decoder's loop runs on its interval. -/
theorem decodeSymbol_of_byte {s : State} {sym : Nat} (h : symbolSearch (scaledValue s) s = some sym) (hsym : sym ≠ 256) :
    decodeSymbol s =
      andThen (putBits sym 8 (reportAndUpdate sym s)) fun _ u => decRenorm 18 (narrowTo sym s u) := by
  rw [← setInterval_freqUpdate, decodeSymbol, h]
  exact if_neg hsym

theorem decodeSymbol_of_eof {s : State} (h : symbolSearch (scaledValue s) s = some 256) :
    decodeSymbol s = .ok () { reportAndUpdate 256 s with ended := true, acMode := .idle } := by
  rw [← setInterval_freqUpdate, decodeSymbol, h]
  exact if_pos rfl

/-- The decoder's VALUE stays inside the interval of the symbol it selects (42_arith_coder.md rule R181). -/
theorem narrowTo_keeps_value {s u : State} {sym : Nat} (hm : ModelOk s) (hc : CoderOk s) (hmode : s.acMode = .dec) (hsym : sym ≤ 256)
    (hlo : cumAt s sym ≤ scaledOf s) (hhi : scaledOf s < cumAt s (sym + 1)) (hl : u.low = s.low) (hh : u.high = s.high)
    (hv : u.value = s.value) :
    (narrowTo sym s u).low.toNat ≤ u.value.toNat ∧ u.value.toNat ≤ (narrowTo sym s u).high.toNat := by
  obtain ⟨h1, h2⟩ := hc.2.2 hmode
  obtain ⟨hl1, hh1, -⟩ := narrowTo_spec hm hc hsym hl hh
  obtain ⟨hl2, hh2, -⟩ := narrowTo_spec hm hc hsym (u := s) rfl rfl
  rw [hl1, hh1, ← hl2, ← hh2, hv]
  exact narrow_keeps_value h1 h2 (hc.total_lt_range hm) (by have := hm.total; omega) hlo hhi (hm.interval hsym).2

theorem Appended.of_report {s t : State} {sym : Nat} {bits : List Bool} (h : Appended (reportAndUpdate sym s) bits t) :
    Appended s bits t :=
  have hf := reportAndUpdate_frame sym s
  h.of_start (congrArg State.wBuf hf :) (congrArg State.wAcc hf :) (congrArg State.wNbits hf :) (congrArg State.sink hf :)

/-- What ADSYM can write besides END and the mode: the results, the table, the interval, and both streams. -/
def DecodedFrame (sym : Nat) (s t : State) : Prop :=
  t = { s with
    r0 := BitVec.ofNat 32 (cumAt s sym), r1 := BitVec.ofNat 32 (cumAt s (sym + 1))
    r2 := BitVec.ofNat 32 (cumAt s 257), r3 := BitVec.ofNat 32 sym
    cum := (freqUpdate sym s).cum, frozen := (freqUpdate sym s).frozen, low := t.low, high := t.high, value := t.value
    wBuf := t.wBuf, wAcc := t.wAcc, wNbits := t.wNbits, sink := t.sink
    rBuf := t.rBuf, rBitpos := t.rBitpos, rSrcEnd := t.rSrcEnd, source := t.source }

theorem WriteFrame.decoded {s u : State} {sym : Nat} (h : WriteFrame (reportAndUpdate sym s) u) : DecodedFrame sym s u := by
  unfold DecodedFrame
  rw [reportAndUpdate_eq] at h
  rw [show u = _ from h]

theorem DecFrame.decoded {s u t : State} {sym : Nat} (h : WriteFrame (reportAndUpdate sym s) u)
    (h' : DecFrame (narrowTo sym s u) t) : DecodedFrame sym s t := by
  have hu := h.decoded
  unfold DecodedFrame at hu ⊢
  have ht : t = { u with
    low := t.low, high := t.high, value := t.value, rBuf := t.rBuf, rBitpos := t.rBitpos, rSrcEnd := t.rSrcEnd
    source := t.source } := h'
  rw [ht, hu]

/-- What ADSYM leaves when it goes on to its end (42_arith_coder.md rules R175, R177, R183). -/
structure Decoded (sym : Nat) (s t : State) : Prop where
  appended : Appended s (bitsOfValue sym 8) t
  took : Took s (symbolCases s sym).length t
  frame : DecodedFrame sym s t
  low : t.low.toNat = lowAfter (symbolCases s sym) (narrowedLow s sym)
  high : t.high.toNat = highAfter (symbolCases s sym) (narrowedHigh s sym)
  value : t.value.toNat = valueAfter (symbolCases s sym) (unreadBits s) s.value.toNat
  inside : t.low.toNat ≤ t.value.toNat ∧ t.value.toNat ≤ t.high.toNat
  renormalized : Renormalized t.low.toNat t.high.toNat

/-- The state in which ADSYM records one of the host's failures. -/
structure DecodeFailed (sym : Nat) (s : State) (k : FaultKind) (u : State) : Prop where
  frame : DecodedFrame sym s u
  kind : k = .ioFailureSink ∨ k = .ioFailureSource
  cause : .fail ∈ s.sink.draws ∨ .fail ∈ s.source.draws
  bufsOk : WriteBufOk u ∧ ReadBufOk u

/-- The state `n` that the decoder's loop starts from: the interval narrowed to the symbol, with VALUE and the read side of `s`. -/
structure Narrowed (sym : Nat) (s n : State) : Prop where
  low : n.low.toNat = narrowedLow s sym
  high : n.high.toNat = narrowedHigh s sym
  value : n.value = s.value
  inside : n.low.toNat ≤ n.value.toNat ∧ n.value.toNat ≤ n.high.toNat
  readSide : n.rBuf = s.rBuf ∧ n.rBitpos = s.rBitpos ∧ n.rSrcEnd = s.rSrcEnd ∧ n.source = s.source

theorem narrowed_after_write {s u : State} {sym : Nat} (hm : ModelOk s) (hc : CoderOk s) (hmode : s.acMode = .dec) (hsym : sym ≤ 256)
    (hlo : cumAt s sym ≤ scaledOf s) (hhi : scaledOf s < cumAt s (sym + 1)) (hu : WriteFrame (reportAndUpdate sym s) u) :
    Narrowed sym s (narrowTo sym s u) := by
  rw [reportAndUpdate_eq] at hu
  have hl : u.low = s.low := (congrArg State.low hu :)
  have hh : u.high = s.high := (congrArg State.high hu :)
  have hv : u.value = s.value := (congrArg State.value hu :)
  obtain ⟨hlow, hhigh, -⟩ := narrowTo_spec hm hc hsym hl hh
  exact ⟨hlow, hhigh, hv, narrowTo_keeps_value hm hc hmode hsym hlo hhi hl hh hv, (congrArg State.rBuf hu :),
    (congrArg State.rBitpos hu :), (congrArg State.rSrcEnd hu :), (congrArg State.source hu :)⟩

theorem Narrowed.readBufOk {sym : Nat} {s n : State} (h : Narrowed sym s n) (hr : ReadBufOk s) : ReadBufOk n := by
  obtain ⟨h1, h2, -⟩ := h.readSide
  rw [ReadBufOk, h1, h2]
  exact hr

/-- The decoder's loop, as ADSYM runs it on the interval of the symbol after writing it. -/
theorem decRenorm_narrowTo {s u : State} {sym : Nat} (hr : ReadBufOk s) (hu : Wrote (reportAndUpdate sym s) (bitsOfValue sym 8) u)
    (hn : Narrowed sym s (narrowTo sym s u)) :
    Ends (decRenorm 18 (narrowTo sym s u)) (fun _ t => Decoded sym s t) (fun t => ∃ v k, DecodeFailed sym s k v ∧ t = recordFault k v) := by
  obtain ⟨h1, h2, h3, h4⟩ := hn.readSide
  have hspec := decRenorm_spec 17 (narrowTo sym s u) (hn.readBufOk hr) hn.inside.1 hn.inside.2 (range_scaled_lt _) (le_refl _)
  rw [hn.low, hn.high, unreadBits_congr h1 h2 h3 h4, hn.value] at hspec
  refine hspec.mono ?_ ?_
  · rintro - t ⟨htook, hf, hlow, hhigh, hvalue, hin, hin', hrenorm⟩
    refine ⟨?_, htook.of_start h1 h2 h3 h4, hf.decoded hu.frame, hlow, hhigh, hvalue, ⟨hin, hin'⟩, hrenorm⟩
    exact hu.toAppended.of_report.congr (congrArg State.wBuf hf :) (congrArg State.wAcc hf :) (congrArg State.wNbits hf :)
      (congrArg State.sink hf :)
  · rintro t ⟨v, hf, hv, rfl, hfail⟩
    have hwb : WriteBufOk v := by
      rw [show v = _ from hf]
      exact hu.bufOk
    exact ⟨v, _, ⟨hf.decoded hu.frame, .inr rfl, .inr (h4 ▸ hfail), hwb, hv⟩, rfl⟩

/-- ADSYM's pseudocode on a byte symbol, all the way or up to a failure of the host. -/
theorem decodeSymbol_spec {s : State} {sym : Nat} (hw : WriteBufOk s) (hr : ReadBufOk s) (hm : ModelOk s) (hc : CoderOk s)
    (hmode : s.acMode = .dec) (hsym : sym ≤ 255) (hlo : cumAt s sym ≤ scaledOf s) (hhi : scaledOf s < cumAt s (sym + 1)) :
    Ends (decodeSymbol s) (fun _ t => Decoded sym s t) (fun t => ∃ v k, DecodeFailed sym s k v ∧ t = recordFault k v) := by
  rw [decodeSymbol_of_byte (symbolSearch_of_interval hm (by omega) hlo hhi) (by omega)]
  have hwb : WriteBufOk (reportAndUpdate sym s) := by
    rw [reportAndUpdate_frame]
    exact hw
  refine ((putBits_spec sym 8 _ hwb).mono (fun _ _ h => h) ?_).andThen fun _ u hu =>
    decRenorm_narrowTo hr hu (narrowed_after_write hm hc hmode (by omega) hlo hhi hu.frame)
  rintro t ⟨⟨u, hu, rfl⟩, hub, hfail⟩
  have hd : DecodedFrame sym s u := hu.decoded
  have hsink : (reportAndUpdate sym s).sink = s.sink := (congrArg State.sink (reportAndUpdate_frame sym s) :)
  have hread : ReadBufOk u := by
    have hf := hu
    rw [reportAndUpdate_eq] at hf
    rw [show u = _ from hf]
    exact hr
  exact ⟨u, _, ⟨hd, .inl rfl, .inl (hsink ▸ hfail), hub, hread⟩, rfl⟩

/-- After ADSYM on a byte the table has counted it. -/
theorem DecodedFrame.countedUp {s t : State} {sym : Nat} (hm : ModelOk s) (h : DecodedFrame sym (accepted s) t) : CountedUp sym s t :=
  CountedUp.of_freqUpdate (s := accepted s) hm (congrArg State.cum h :) (congrArg State.frozen h :)

/-- Settles O37. -/
theorem adsymDecodesAByte : Obligations.AdsymDecodesAByte := by
  intro s sym hinv hfault hmode hr hw hsym hlo hhi hsink hsource
  have hspec := decodeSymbol_spec (s := accepted s) hinv.writeBufOk hinv.readBufOk hinv.model (hinv.coder hfault) hmode hsym hlo hhi
  obtain ⟨_, t, ht, h⟩ := hspec.ok_of_not_raised fun t => by
    rintro ⟨v, k, hv, -⟩
    exact hv.cause.elim (fun h => by cases hsink _ h) fun h => hsource _ h rfl
  have hexec := exec_adsym hfault hmode hr hw
  rw [ht] at hexec
  refine ⟨t, hexec, h.frame.countedUp hinv.model, h.appended.of_accepted, h.took.of_accepted, h.low, h.high, h.value, h.inside.1,
    h.inside.2, ?_⟩
  rw [show t = _ from h.frame]
  rfl

/-- Settles O38. -/
theorem adsymDecodesTheEnd : Obligations.AdsymDecodesTheEnd := by
  intro s hinv hfault hmode hr hw hlo
  obtain ⟨h1, h2⟩ := (hinv.coder hfault).2.2 hmode
  have hhi : scaledOf s < cumAt s 257 := scaledValue_lt h1 h2 (by have := hinv.model.total; omega)
  have hexec := exec_adsym hfault hmode hr hw
  rw [decodeSymbol_of_eof (s := accepted s) (symbolSearch_of_interval hinv.model (le_refl _) hlo hhi)] at hexec
  refine ⟨_, hexec, countedUp_of_eq hinv.model rfl rfl, ?_⟩
  rw [reportAndUpdate_cleared_frame]
  rfl

/-- The FCODE that ADSYM leaves on a byte symbol: none, or that of a failing host. -/
theorem fcode_of_decodeSymbol {s : State} {sym : Nat} (hw : WriteBufOk s) (hr : ReadBufOk s) (hm : ModelOk s) (hc : CoderOk s)
    (hmode : s.acMode = .dec) (hsym : sym ≤ 255) (hlo : cumAt s sym ≤ scaledOf s) (hhi : scaledOf s < cumAt s (sym + 1))
    (hfault : s.fault = false) (hcode : s.fcode = 0) :
    Ends (decodeSymbol s) (fun _ t => t.fcode = 0) (fun t => t.fcode = 2) := by
  refine (decodeSymbol_spec hw hr hm hc hmode hsym hlo hhi).mono (fun _ t h => ?_) ?_
  · exact (congrArg State.fcode h.frame :).trans hcode
  · rintro t ⟨u, k, h, rfl⟩
    rw [recordFault_of_not_fault ((congrArg State.fault h.frame :).trans hfault)]
    rcases h.kind with rfl | rfl <;> rfl

/-- Settles O39: ADSYM's symbol search finds a symbol, so the only faults it can record are the check's and the host's. -/
theorem decoderAlwaysFindsASymbol : Obligations.DecoderAlwaysFindsASymbol := by
  intro s hinv hfault hmode
  have hc := hinv.coder hfault
  obtain ⟨h1, h2⟩ := hc.2.2 hmode
  have hhi : scaledOf s < cumAt s 257 := scaledValue_lt h1 h2 (by have := hinv.model.total; omega)
  obtain ⟨sym, hfound, hsym, hlo, hhi'⟩ := symbolSearch_spec hinv.model hhi
  refine ⟨hhi, ⟨sym, hsym, hlo, hhi'⟩, fun t ht => ?_⟩
  cases hcheck : stateCheck s .adsym
  case true =>
    rw [exec_eq_dispatchCommand, dispatchCommand_badState hfault hcheck] at ht
    cases ht
    simp
  case false =>
    rw [exec_eq_dispatchCommand, hcheck] at ht
    replace ht : outcomeOf (decodeSymbol (accepted s)) = .next t := (dispatchCommand_performs hfault).symm.trans ht
    by_cases heof : sym = 256
    · rw [heof] at hfound
      rw [decodeSymbol_of_eof (s := accepted s) hfound, reportAndUpdate_cleared_frame] at ht
      cases ht
      simp
    · rcases (fcode_of_decodeSymbol (s := accepted s) hinv.writeBufOk hinv.readBufOk hinv.model hc hmode (by omega) hlo hhi' hfault
        rfl).of_outcome ht with h | h <;> simp [h]

end Sys2Proof.Machine

/-!
PROOFS. An encoder and a decoder stay in step (42_arith_coder.md rules R175, R182): after a byte both hold the bounds and the
table that the rules compute from the common bounds and table and the byte alone.
-/
namespace Sys2Proof.Machine

/-- A command after which no fault is recorded passed its checks and ran. -/
theorem outcomeOf_pseudocode_of_not_fault {i : Instr} {s t : State} (hfault : s.fault = false) (h : exec i s = .next t)
    (ht : t.fault = false) : outcomeOf (pseudocode i (accepted s)) = .next t := by
  rw [exec_eq_dispatchCommand] at h
  cases hstate : stateCheck s i
  case true =>
    rw [dispatchCommand_badState hfault hstate] at h
    cases h
    cases ht
  case false =>
    cases hoperand : operandCheck i
    case true =>
      rw [hstate, dispatchCommand_badOperand hfault hoperand] at h
      cases h
      cases ht
    case false =>
      rw [hstate, hoperand, dispatchCommand_performs hfault] at h
      exact h

theorem freqUpdate_congr {s t : State} (hc : s.cum = t.cum) (hf : s.frozen = t.frozen) (sym : Nat) :
    (freqUpdate sym s).cum = (freqUpdate sym t).cum ∧ (freqUpdate sym s).frozen = (freqUpdate sym t).frozen := by
  unfold freqUpdate cumAt
  rw [hc, hf]
  split
  · exact ⟨hc, hf⟩
  · exact ⟨rfl, rfl⟩

/-- Two coders hold the same bounds and the same table. -/
structure SameCoder (s t : State) : Prop where
  low : s.low = t.low
  high : s.high = t.high
  cum : s.cum = t.cum
  frozen : s.frozen = t.frozen

/-- What one coding step of a symbol leaves in an encoder and in a decoder alike. -/
structure Coded (sym : Nat) (s t : State) : Prop where
  low : t.low.toNat = lowAfter (symbolCases s sym) (narrowedLow s sym)
  high : t.high.toNat = highAfter (symbolCases s sym) (narrowedHigh s sym)
  table : t.cum = (freqUpdate sym s).cum ∧ t.frozen = (freqUpdate sym s).frozen
  r0 : t.r0 = BitVec.ofNat 32 (cumAt s sym)
  r1 : t.r1 = BitVec.ofNat 32 (cumAt s (sym + 1))
  r2 : t.r2 = BitVec.ofNat 32 (cumAt s 257)
  r3 : t.r3 = BitVec.ofNat 32 sym

theorem Encoded.coded {sym : Nat} {s t : State} (h : Encoded sym s t) : Coded sym s t := by
  have hf := h.frame
  rw [reportAndUpdate_eq] at hf
  exact ⟨h.low, h.high, ⟨(congrArg State.cum hf :), (congrArg State.frozen hf :)⟩, (congrArg State.r0 hf :),
    (congrArg State.r1 hf :), (congrArg State.r2 hf :), (congrArg State.r3 hf :)⟩

theorem Decoded.coded {sym : Nat} {s t : State} (h : Decoded sym s t) : Coded sym s t :=
  have hf := h.frame
  ⟨h.low, h.high, ⟨(congrArg State.cum hf :), (congrArg State.frozen hf :)⟩, (congrArg State.r0 hf :),
    (congrArg State.r1 hf :), (congrArg State.r2 hf :), (congrArg State.r3 hf :)⟩

/-- The same symbol coded from the same bounds and table. -/
theorem Coded.same {sym : Nat} {s t s' t' : State} (hst : SameCoder s t) (hs : Coded sym s s') (ht : Coded sym t t') :
    SameCoder s' t' ∧ s'.r0 = t'.r0 ∧ s'.r1 = t'.r1 ∧ s'.r2 = t'.r2 ∧ s'.r3 = t'.r3 := by
  obtain ⟨hl, hh, hc, hf⟩ := hst
  have hcum : cumAt s = cumAt t := funext fun i => cumAt_congr hc i
  have hnl : narrowedLow s sym = narrowedLow t sym := by rw [narrowedLow, narrowedLow, hl, hh, hcum]
  have hnh : narrowedHigh s sym = narrowedHigh t sym := by rw [narrowedHigh, narrowedHigh, hl, hh, hcum]
  have hcases : symbolCases s sym = symbolCases t sym := by rw [symbolCases, symbolCases, hnl, hnh]
  obtain ⟨hcum', hfrozen'⟩ := freqUpdate_congr hc hf sym
  refine ⟨⟨?_, ?_, ?_, ?_⟩, ?_, ?_, ?_, ?_⟩
  · exact BitVec.eq_of_toNat_eq (by rw [hs.low, ht.low, hcases, hnl])
  · exact BitVec.eq_of_toNat_eq (by rw [hs.high, ht.high, hcases, hnh])
  · rw [hs.table.1, ht.table.1, hcum']
  · rw [hs.table.2, ht.table.2, hfrozen']
  · rw [hs.r0, ht.r0, hcum]
  · rw [hs.r1, ht.r1, hcum]
  · rw [hs.r2, ht.r2, hcum]
  · rw [hs.r3, ht.r3]

/-- An AESYM that records no fault has coded its symbol. -/
theorem aesym_coded {s t : State} {sym : BitVec 9} (hinv : BlockInv s) (hfault : s.fault = false) (hsym : sym.toNat ≤ 256)
    (h : exec (.aesym sym) s = .next t) (ht : t.fault = false) : Coded sym.toNat (accepted s) t := by
  have hspec := encodeSymbol_spec (s := accepted s) hinv.writeBufOk hinv.model (hinv.coder hfault) hsym
  rcases hspec.of_outcome (outcomeOf_pseudocode_of_not_fault hfault h ht) with h | ⟨u, -, -, ⟨rfl, -⟩ | ⟨rfl, -⟩⟩
  · exact h.coded
  · cases ht
  · cases ht

/-- An ADSYM that records no fault and reports a byte has coded that byte. -/
theorem adsym_coded {s t : State} {sym : Nat} (hinv : BlockInv s) (hfault : s.fault = false) (hmode : s.acMode = .dec)
    (h : exec .adsym s = .next t) (ht : t.fault = false) (hsym : sym ≤ 255) (hr3 : t.r3.toNat = sym) :
    Coded sym (accepted s) t := by
  have hc := hinv.coder hfault
  obtain ⟨h1, h2⟩ := hc.2.2 hmode
  have hhi : scaledOf s < cumAt s 257 := scaledValue_lt h1 h2 (by have := hinv.model.total; omega)
  obtain ⟨k, hfound, hk, hlo, hhi⟩ := symbolSearch_spec hinv.model hhi
  have hrun : outcomeOf (decodeSymbol (accepted s)) = .next t := outcomeOf_pseudocode_of_not_fault hfault h ht
  by_cases heof : k = 256
  · rw [heof] at hfound
    rw [decodeSymbol_of_eof (s := accepted s) hfound, reportAndUpdate_cleared_frame] at hrun
    cases hrun
    simp at hr3
    omega
  · have hspec := decodeSymbol_spec (s := accepted s) hinv.writeBufOk hinv.readBufOk hinv.model hc hmode (by omega) hlo hhi
    rcases hspec.of_outcome hrun with h | ⟨u, k, -, rfl⟩
    · rw [h.coded.r3, BitVec.toNat_ofNat, Nat.mod_eq_of_lt (by omega)] at hr3
      exact hr3 ▸ h.coded
    · cases ht

/-- Settles O40. -/
theorem codersStayInStep : Obligations.CodersStayInStep := by
  intro e d e' d' sym he hd hefault hdfault _ hdec hlow hhigh hcum hfrozen hexec hexec' he' hd' hsym hr3
  have hst : SameCoder (accepted e) (accepted d) := ⟨hlow, hhigh, hcum, hfrozen⟩
  obtain ⟨⟨h1, h2, h3, h4⟩, hresults⟩ :=
    (aesym_coded he hefault (by omega) hexec he').same hst (adsym_coded hd hdfault hdec hexec' hd' hsym hr3)
  exact ⟨h1, h2, h3, h4, hresults⟩

end Sys2Proof.Machine

/-!
PROOFS. The LZW encoder (43_lzw.md rules R222, R225 to R227). A miss is one PutBits and then an insertion whose result is
written out once, as `inserted`; the cap's second code and the fresh dictionary follow it. Each is stated with both answers of
the sink, so that the claims about hosts that never fail and about hosts that do read off the same equations.
-/
namespace Sys2Proof.Machine

theorem SinkNeverFails.not_failsOn {s : State} (h : SinkNeverFails s) (n : Nat) : ¬ SinkFailsOn s n := fun hf => by
  cases h _ (List.mem_of_mem_take hf)

theorem toNat_le_of_enc {s : State} (h : LzwEncOk s) {e : Code} (he : s.sCode = some e) : e.toNat ≤ s.maxcode.toNat := h.2.1 e he

theorem BlockInv.enc {s : State} (h : BlockInv s) (hfault : s.fault = false) (hmode : s.lzMode = .enc) : LzwEncOk s :=
  (h.2.2.2.2 hfault).2.1 hmode

theorem BlockInv.dec {s : State} (h : BlockInv s) (hfault : s.fault = false) (hmode : s.lzMode = .dec) : LzwDecOk s :=
  (h.2.2.2.2 hfault).2.2 hmode

/-- The one-byte code of a byte (43_lzw.md rule R221). -/
theorem byteCode_eq (c : Byte) : BitVec.ofNat 23 c.toNat = c.setWidth 23 := BitVec.eq_of_toNat_eq (by simp)

theorem ofNat_toNat_succ (m : Code) : BitVec.ofNat 23 (m.toNat + 1) = m + 1 := BitVec.eq_of_toNat_eq (by simp)

/-! ### The match -/

theorem exec_lebyte {s : State} {c : Byte} (hfault : s.fault = false) (hmode : s.lzMode = .enc) (hopen : s.wOpen = true) :
    exec (.lebyte c) s = outcomeOf (encodeByte c (accepted s)) :=
  exec_performs hfault (by simp [badStateCondition, hmode, hopen]) (by simp [badOperandCondition])

/-- A byte without a match is one, since every byte has its one-byte code (43_lzw.md rule R225). -/
theorem encodeByte_of_no_match {s : State} (hd : DictOk s) (h : s.sCode = none) (c : Byte) :
    encodeByte c s = .ok () (extendMatch c.toNat s) := by
  rw [encodeByte, h]
  simp only [codeOf_singleton hd]

/-- With a match, LEBYTE looks up its string with the byte (43_lzw.md rule R225). -/
theorem encodeByte_of_match {s : State} (hd : DictOk s) {e : Code} (h : s.sCode = some e) (he : e.toNat ≤ s.maxcode.toNat)
    (c : Byte) :
    (∀ k, codeOf (dictAt s e.toNat ++ [c]) s = some k → encodeByte c s = .ok () (extendMatch k s)) ∧
    (dictAt s e.toNat ++ [c] ∉ s.dict → encodeByte c s = emitAndInsert e.toNat c (dictAt s e.toNat ++ [c]) s) := by
  rw [← codeOf_none hd, encodeByte, h]
  simp only [if_neg (hd.dictAt_ne_nil he)]
  exact ⟨fun k hk => by simp only [hk], fun hk => by simp only [hk]⟩

/-- Settles O42. -/
theorem lebyteExtendsTheMatch : Obligations.LebyteExtendsTheMatch := by
  intro s c hinv hfault hmode hopen
  refine ⟨fun hnone => ?_, fun e k he hk hstring => ?_⟩
  · rw [exec_lebyte hfault hmode hopen, encodeByte_of_no_match (s := accepted s) hinv.dict hnone, extendMatch, byteCode_eq]
    rfl
  · have henc := hinv.enc hfault hmode
    have hcode := codeOf_dictAt hinv.dict henc.1 hk
    rw [hstring] at hcode
    rw [exec_lebyte hfault hmode hopen,
      (encodeByte_of_match (s := accepted s) hinv.dict he (toNat_le_of_enc henc he) c).1 _ hcode, extendMatch,
      BitVec.ofNat_toNat, BitVec.setWidth_eq]
    rfl

/-! ### The insertion -/

/-- What LEBYTE leaves on a miss: the results for the code `e`, the string `t` as the next code, its width, and the byte as the new
match (43_lzw.md rules R225, R226). -/
abbrev inserted (e : Nat) (c : Byte) (t : List Byte) (s : State) : State :=
  { s with
    r0 := 1, r1 := BitVec.ofNat 32 e, r2 := BitVec.ofNat 32 (bitlen s.maxcode.toNat)
    dict := s.dict ++ [t], maxcode := s.maxcode + 1, codelen := BitVec.ofNat 5 (bitlen (s.maxcode.toNat + 1))
    sCode := some (c.setWidth 23) }

/-- The dictionary's width follows its highest code (43_lzw.md rule R226). -/
def WidthOk (s : State) : Prop := DictOk s ∧ s.codelen.toNat = bitlen s.maxcode.toNat ∧ s.maxcode.toNat < 4194304

theorem WriteFrame.widthOk {s u : State} (h : WriteFrame s u) (hs : WidthOk s) : WidthOk u := by
  rw [show u = _ from h]
  exact hs

/-- Widening for the next code gives that code's width (43_lzw.md rule R226). -/
theorem widenIfPow2_of_bitlen {s : State} {m : Nat} (h1 : 1 ≤ m) (hm : m < 4194304) (hc : s.codelen.toNat = bitlen m) :
    widenIfPow2 (m + 1) s = { s with codelen := BitVec.ofNat 5 (bitlen (m + 1)) } := by
  rw [widenIfPow2_frame, ← widenIfPow2_codelen h1 hm hc, BitVec.ofNat_toNat, BitVec.setWidth_eq]

theorem DictOk.one_le_maxcode {s : State} (h : DictOk s) : 1 ≤ s.maxcode.toNat := le_trans (by decide) h.2.1

/-- What LEBYTE does on a miss after it has written the match's code. -/
theorem insertion_eq {s : State} (h : WidthOk s) (e : Nat) (c : Byte) (t : List Byte) :
    setCodes 1 e (bitlen s.maxcode.toNat)
      { widenIfPow2 (insertNext t s).maxcode.toNat (insertNext t s) with sCode := some (BitVec.ofNat 23 c.toNat) } =
    inserted e c t s := by
  obtain ⟨hd, hc, hm⟩ := h
  rw [maxcode_insertNext t hm, insertNext_eq hd, ofNat_toNat_succ,
    widenIfPow2_of_bitlen (by exact hd.one_le_maxcode) hm (by exact hc), byteCode_eq]
  rfl

theorem toNat_maxcode_succ {m : Code} (h : m.toNat < 4194304) : (m + 1).toNat = m.toNat + 1 := by
  rw [BitVec.toNat_add]
  exact Nat.mod_eq_of_lt (by simp; omega)

/-- LEBYTE's miss, with both answers of the sink (43_lzw.md rule R225). -/
theorem emitAndInsert_eq (e : Nat) (c : Byte) (t : List Byte) {s : State} (h : WidthOk s) (hb : WriteBufOk s) :
    (¬ SinkFailsOn s (bitlen s.maxcode.toNat) → ∃ u, Wrote s (bitsOfValue e (bitlen s.maxcode.toNat)) u ∧
      emitAndInsert e c t s =
        if s.maxcode.toNat + 1 = 4194304 then capReset c (inserted e c t u) else .ok () (inserted e c t u)) ∧
    (SinkFailsOn s (bitlen s.maxcode.toNat) → ∃ u, emitAndInsert e c t s = .raised (recordFault .ioFailureSink u) ∧
      WriteFrame s u ∧ LostALoad s (bitsOfValue e (bitlen s.maxcode.toNat)) u) := by
  have hw := putBits_ends e (bitlen s.maxcode.toNat) s hb
  have heq : emitAndInsert e c t s = andThen (putBits e (bitlen s.maxcode.toNat) s) fun _ u =>
      let v := setCodes 1 e (bitlen s.maxcode.toNat)
        { widenIfPow2 (insertNext t u).maxcode.toNat (insertNext t u) with sCode := some (BitVec.ofNat 23 c.toNat) }
      if v.maxcode.toNat = 4194304 then capReset c v else .ok () v := by
    rw [← h.2.1]
    rfl
  refine ⟨fun hn => ?_, fun hf => ?_⟩
  · obtain ⟨u, hu, hwrote⟩ := hw.wrote (by rwa [length_bitsOfValue])
    have hm : u.maxcode = s.maxcode := (congrArg State.maxcode hwrote.frame :)
    have huw := hwrote.frame.widthOk h
    refine ⟨u, hwrote, ?_⟩
    rw [heq, hu, andThen_ok, ← hm, insertion_eq huw, ← toNat_maxcode_succ huw.2.2]
  · obtain ⟨u, hu, hframe, hlost⟩ := hw.lost (by rwa [length_bitsOfValue])
    exact ⟨u, by rw [heq, hu, andThen_raised], hframe, hlost⟩

/-- At the cap LEBYTE writes the byte's code too and starts afresh (43_lzw.md rule R222). -/
theorem capReset_eq (c : Byte) {s : State} (hb : WriteBufOk s) :
    (¬ SinkFailsOn s s.codelen.toNat → ∃ u, Wrote s (bitsOfValue c.toNat s.codelen.toNat) u ∧
      capReset c s = .ok () { u with
        r0 := 2, r1 := BitVec.ofNat 32 c.toNat, r2 := BitVec.ofNat 32 s.codelen.toNat
        dict := initialDict, maxcode := 255, codelen := 8, sCode := none }) ∧
    (SinkFailsOn s s.codelen.toNat → ∃ u, capReset c s = .raised (recordFault .ioFailureSink u) ∧
      WriteFrame s u ∧ LostALoad s (bitsOfValue c.toNat s.codelen.toNat) u) := by
  have hw := putBits_ends c.toNat s.codelen.toNat s hb
  refine ⟨fun hn => ?_, fun hf => ?_⟩
  · obtain ⟨u, hu, hwrote⟩ := hw.wrote (by rwa [length_bitsOfValue])
    have hcode : u.codelen = s.codelen := (congrArg State.codelen hwrote.frame :)
    refine ⟨u, hwrote, ?_⟩
    rw [capReset, hu, ← hcode]
    rfl
  · obtain ⟨u, hu, hframe, hlost⟩ := hw.lost (by rwa [length_bitsOfValue])
    exact ⟨u, by rw [capReset, hu, andThen_raised], hframe, hlost⟩

theorem BlockInv.widthOk {s : State} (h : BlockInv s) (hfault : s.fault = false) (hmode : s.lzMode = .enc) : WidthOk s :=
  have ⟨_, _, hc, hm⟩ := h.enc hfault hmode
  ⟨h.dict, hc, hm⟩

theorem exec_lebyte_of_miss {s : State} {c : Byte} {e : Code} (hinv : BlockInv s) (hfault : s.fault = false) (hmode : s.lzMode = .enc)
    (hopen : s.wOpen = true) (he : s.sCode = some e) (hnew : dictAt s e.toNat ++ [c] ∉ s.dict) :
    exec (.lebyte c) s = outcomeOf (emitAndInsert e.toNat c (dictAt s e.toNat ++ [c]) (accepted s)) := by
  rw [exec_lebyte hfault hmode hopen,
    (encodeByte_of_match (s := accepted s) hinv.dict he (toNat_le_of_enc (hinv.enc hfault hmode) he) c).2 hnew]
  rfl

/-- Settles O43. -/
theorem lebyteEmitsOnAMiss : Obligations.LebyteEmitsOnAMiss := by
  intro s c e hinv hfault hmode hopen he hnew hcap hnf
  have hexec := exec_lebyte_of_miss hinv hfault hmode hopen he hnew
  obtain ⟨u, hu, heq⟩ := (emitAndInsert_eq e.toNat c (dictAt s e.toNat ++ [c]) (s := accepted s) (hinv.widthOk hfault hmode)
    hinv.writeBufOk).1 (SinkNeverFails.not_failsOn hnf _)
  rw [heq, if_neg (by exact Nat.ne_of_lt hcap)] at hexec
  refine ⟨_, hexec, .congr hu.toAppended.of_accepted rfl rfl rfl rfl, ?_⟩
  rw [show u = _ from hu.frame]

/-- The widths of the two codes at the cap (43_lzw.md rule R222). -/
theorem bitlen_cap : bitlen 4194303 = 22 ∧ bitlen 4194304 = 23 := by decide

theorem bitlen_maxcode_of_last {s : State} (h : s.maxcode.toNat + 1 = 4194304) : bitlen s.maxcode.toNat = 22 := by
  rw [show s.maxcode.toNat = 4194303 by omega]
  exact bitlen_cap.1

theorem codelen_inserted_of_last {s : State} (h : s.maxcode.toNat + 1 = 4194304) (e : Nat) (c : Byte) (t : List Byte) :
    (inserted e c t s).codelen = 23 := by
  change BitVec.ofNat 5 (bitlen (s.maxcode.toNat + 1)) = 23
  rw [h, bitlen_cap.2]
  rfl

/-- LEBYTE's insertion of the last code, once the match's code is written: the reset comes next. -/
theorem emitAndInsert_of_last (e : Nat) (c : Byte) (t : List Byte) {s : State} (h : WidthOk s) (hb : WriteBufOk s)
    (hlast : s.maxcode.toNat + 1 = 4194304) (hn : ¬ SinkFailsOn s 22) :
    ∃ u, Wrote s (bitsOfValue e 22) u ∧ (inserted e c t u).codelen = 23 ∧
      emitAndInsert e c t s = capReset c (inserted e c t u) := by
  have hmiss := (emitAndInsert_eq e c t h hb).1
  rw [bitlen_maxcode_of_last hlast] at hmiss
  obtain ⟨u, hu, heq⟩ := hmiss hn
  have hm : u.maxcode = s.maxcode := (congrArg State.maxcode hu.frame :)
  exact ⟨u, hu, codelen_inserted_of_last (by rw [hm]; exact hlast) e c t, heq.trans (if_pos hlast)⟩

/-- Settles O44. -/
theorem lebyteResetsAtTheCap : Obligations.LebyteResetsAtTheCap := by
  intro s c e hinv hfault hmode hopen he hnew hcap hnf
  have hexec := exec_lebyte_of_miss hinv hfault hmode hopen he hnew
  obtain ⟨u, hu, hcode, heq⟩ := emitAndInsert_of_last e.toNat c (dictAt s e.toNat ++ [c]) (s := accepted s)
    (hinv.widthOk hfault hmode) hinv.writeBufOk hcap (SinkNeverFails.not_failsOn hnf _)
  obtain ⟨v, hv, heq'⟩ := (capReset_eq c (s := inserted e.toNat c (dictAt s e.toNat ++ [c]) u) hu.bufOk).1
    (SinkNeverFails.not_failsOn (hu.toAppended.sinkNeverFails hnf) _)
  rw [hcode] at heq' hv
  rw [heq, heq'] at hexec
  refine ⟨_, hexec, .congr (hu.toAppended.of_accepted.trans (hv.toAppended.of_start rfl rfl rfl rfl)) rfl rfl rfl rfl, ?_⟩
  rw [show v = _ from hv.frame, show u = _ from hu.frame]
  rfl

/-! ### LEFIN -/

theorem exec_lefin {s : State} (hfault : s.fault = false) (hmode : s.lzMode = .enc) (hopen : s.wOpen = true) :
    exec .lefin s = outcomeOf (finishLzw (accepted s)) :=
  exec_performs hfault (by simp [badStateCondition, hmode, hopen]) (by simp [badOperandCondition])

theorem finishLzw_of_no_match {s : State} (h : s.sCode = none) :
    finishLzw s = .ok () { s with r0 := 0, sCode := none, lzMode := .idle } := by
  rw [finishLzw, h]

/-- LEFIN with a match, with both answers of the sink (43_lzw.md rule R227). -/
theorem finishLzw_of_match {s : State} {k : Code} (h : s.sCode = some k) (hb : WriteBufOk s) :
    (¬ SinkFailsOn s s.codelen.toNat → ∃ u, Wrote s (bitsOfValue k.toNat s.codelen.toNat) u ∧
      finishLzw s = .ok () { u with
        r0 := 1, r1 := BitVec.ofNat 32 k.toNat, r2 := BitVec.ofNat 32 s.codelen.toNat, sCode := none, lzMode := .idle }) ∧
    (SinkFailsOn s s.codelen.toNat → ∃ u, finishLzw s = .raised (recordFault .ioFailureSink u) ∧ WriteFrame s u ∧
      LostALoad s (bitsOfValue k.toNat s.codelen.toNat) u) := by
  have hw := putBits_ends k.toNat s.codelen.toNat s hb
  have heq : finishLzw s = andThen (putBits k.toNat s.codelen.toNat s) fun _ u =>
      .ok () { setCodes 1 k.toNat u.codelen.toNat u with sCode := none, lzMode := .idle } := by
    rw [finishLzw, h]
  refine ⟨fun hn => ?_, fun hf => ?_⟩
  · obtain ⟨u, hu, hwrote⟩ := hw.wrote (by rwa [length_bitsOfValue])
    have hcode : u.codelen = s.codelen := (congrArg State.codelen hwrote.frame :)
    refine ⟨u, hwrote, ?_⟩
    rw [heq, hu, ← hcode]
    rfl
  · obtain ⟨u, hu, hframe, hlost⟩ := hw.lost (by rwa [length_bitsOfValue])
    exact ⟨u, by rw [heq, hu, andThen_raised], hframe, hlost⟩

/-- Settles O45. -/
theorem lefinResult : Obligations.LefinResult := by
  intro s hw hfault hmode hopen
  have hexec := exec_lefin hfault hmode hopen
  refine ⟨fun hnone => ?_, fun k hk hnf => ?_⟩
  · rw [hexec, finishLzw_of_no_match (s := accepted s) hnone, hnone]
    rfl
  · obtain ⟨u, hu, heq⟩ := (finishLzw_of_match (s := accepted s) hk hw.bufOk).1 (SinkNeverFails.not_failsOn hnf _)
    rw [heq] at hexec
    refine ⟨_, hexec, .congr hu.toAppended.of_accepted rfl rfl rfl rfl, ?_⟩
    rw [show u = _ from hu.frame]

end Sys2Proof.Machine

/-!
PROOFS. The LZW decoder (43_lzw.md rules R222, R226, R228, R229). LDINIT and the reset step copy 8 bits from the read stream to
the write stream; LDSTEP reads one code, inserts one string and writes the code's bytes.
-/
namespace Sys2Proof.Machine

/-! ### Reading a code -/

/-- With bits enough the next `n` are read as a value (40_bit_channel.md rule R108). -/
theorem getBits_of_enough {s : State} {n : Nat} (hb : ReadBufOk s) (hn : n ≤ 32) (hnf : SourceNeverFails s)
    (hlen : n ≤ (unreadBits s).length) :
    ∃ t, getBits n s = .ok (some (valueOfBits ((unreadBits s).take n))) t ∧ ReadOn s n t := by
  obtain ⟨t, ht, hon⟩ := getBits_answers hb hn hnf
  rw [getBitsAnswer, if_pos hlen] at ht
  rw [getBitsTaken, if_pos hlen] at hon
  exact ⟨t, ht, hon⟩

/-- With fewer than `n` bits left none are read. -/
theorem getBits_of_short {s : State} {n : Nat} (hb : ReadBufOk s) (hn : n ≤ 32) (hnf : SourceNeverFails s)
    (hlen : (unreadBits s).length < n) : ∃ t, getBits n s = .ok none t ∧ ReadOn s 0 t := by
  obtain ⟨t, ht, hon⟩ := getBits_answers hb hn hnf
  rw [getBitsAnswer, if_neg (Nat.not_le.mpr hlen)] at ht
  rw [getBitsTaken, if_neg (Nat.not_le.mpr hlen)] at hon
  exact ⟨t, ht, hon⟩

/-- Whether the sink will fail does not depend on what is read. -/
theorem ReadFrame.sinkFailsOn {s t : State} (h : ReadFrame s t) (n : Nat) : SinkFailsOn t n ↔ SinkFailsOn s n := by
  rw [show t = _ from h]
  rfl

/-- `t` is `s` but for the two streams. -/
def StreamFrame (s t : State) : Prop :=
  t = { s with
    wBuf := t.wBuf, wAcc := t.wAcc, wNbits := t.wNbits, sink := t.sink
    rBuf := t.rBuf, rBitpos := t.rBitpos, rSrcEnd := t.rSrcEnd, source := t.source }

theorem ReadFrame.stream {s t u : State} (h : ReadFrame s t) (h' : WriteFrame t u) : StreamFrame s u := by
  unfold StreamFrame
  rw [show u = _ from h', show t = _ from h]

/-- What reading `n` bits and then writing `bits` leaves, with both answers of the sink. -/
def ReadsAndWrites (s : State) (n : Nat) (bits : List Bool) (r : Res Unit) : Prop :=
  (¬ SinkFailsOn s bits.length → ∃ u, r = .ok () u ∧ Took s n u ∧ Appended s bits u ∧ StreamFrame s u) ∧
  (SinkFailsOn s bits.length → ∃ u, r = .raised (recordFault .ioFailureSink u) ∧ Took s n u ∧ LostALoad s bits u ∧ StreamFrame s u)

theorem WriteEnds.after_read {s t : State} {n : Nat} {bits : List Bool} {r : Res Unit} (h : WriteEnds r t bits) (ht : ReadOn s n t) :
    ReadsAndWrites s n bits r := by
  have hf := ht.frame
  unfold ReadsAndWrites
  rw [← hf.sinkFailsOn]
  refine ⟨fun hs => ?_, fun hs => ?_⟩
  · obtain ⟨u, hu, hwrote⟩ := h.wrote hs
    have hwf := hwrote.frame
    exact ⟨u, hu, ht.toTook.congr (congrArg State.rBuf hwf :) (congrArg State.rBitpos hwf :) (congrArg State.rSrcEnd hwf :)
      (congrArg State.source hwf :), hwrote.toAppended.of_start (congrArg State.wBuf hf :) (congrArg State.wAcc hf :)
      (congrArg State.wNbits hf :) (congrArg State.sink hf :), hf.stream hwf⟩
  · obtain ⟨u, hu, hwf, hlost⟩ := h.lost hs
    exact ⟨u, hu, ht.toTook.congr (congrArg State.rBuf hwf :) (congrArg State.rBitpos hwf :) (congrArg State.rSrcEnd hwf :)
      (congrArg State.source hwf :), hlost.congr (congrArg State.wBuf hf :).symm (congrArg State.wAcc hf :).symm
      (congrArg State.wNbits hf :).symm (congrArg State.sink hf :).symm rfl rfl rfl rfl, hf.stream hwf⟩

theorem ReadFrame.writeBufOk {s t : State} (h : ReadFrame s t) (hs : WriteBufOk s) : WriteBufOk t := by
  rw [show t = _ from h]
  exact hs

/-- Writing the value just read copies its bits. -/
theorem putBits_copies {s t : State} {n : Nat} (hw : WriteBufOk s) (h : ReadOn s n t) (hlen : n ≤ (unreadBits s).length) :
    ReadsAndWrites s n ((unreadBits s).take n) (putBits (valueOfBits ((unreadBits s).take n)) n t) := by
  have hends := putBits_ends (valueOfBits ((unreadBits s).take n)) n t (h.frame.writeBufOk hw)
  rw [bitsOfValue_valueOfBits hlen] at hends
  exact hends.after_read h

/-! ### LDINIT -/

theorem exec_ldinit {s : State} (hfault : s.fault = false) (hr : s.rOpen = true) (hw : s.wOpen = true) :
    exec .ldinit s = outcomeOf (decodeFirstCode (accepted s)) :=
  exec_performs hfault (by simp [badStateCondition, hr, hw]) (by simp [badOperandCondition])

/-- The initial dictionary and no match: LDINIT's first step (43_lzw.md rule R228). -/
abbrev freshDict (s : State) : State := { s with dict := initialDict, maxcode := 255, codelen := 8, sCode := none }

theorem decodeFirstCode_of_code {s t : State} {v : Nat} (h : getBits 8 (freshDict s) = .ok (some v) t) :
    decodeFirstCode s =
      andThen (putBits v 8 t) fun _ u => .ok () { setCodes 1 v 8 u with prev := BitVec.ofNat 23 v, lzMode := .dec } := by
  change andThen (getBits 8 (freshDict s)) _ = _
  rw [h]
  rfl

theorem decodeFirstCode_of_end {s t : State} (h : getBits 8 (freshDict s) = .ok none t) :
    decodeFirstCode s = .ok () (endLzwDecode t) := by
  change andThen (getBits 8 (freshDict s)) _ = _
  rw [h]
  rfl

/-- LDINIT with bits enough, with both answers of the sink (43_lzw.md rule R228). -/
theorem decodeFirstCode_copies {s : State} (hr : ReadBufOk s) (hw : WriteBufOk s) (hnf : SourceNeverFails s)
    (hlen : 8 ≤ (unreadBits s).length) :
    ∃ r, ReadsAndWrites (freshDict s) 8 ((unreadBits s).take 8) r ∧
      decodeFirstCode s = andThen r fun _ u => .ok () { setCodes 1 (valueOfBits ((unreadBits s).take 8)) 8 u with
        prev := BitVec.ofNat 23 (valueOfBits ((unreadBits s).take 8)), lzMode := .dec } := by
  obtain ⟨t, ht, hon⟩ := getBits_of_enough (s := freshDict s) hr (by decide) hnf hlen
  exact ⟨_, putBits_copies (s := freshDict s) hw hon hlen, decodeFirstCode_of_code ht⟩

/-- Settles O46. -/
theorem ldinitResult : Obligations.LdinitResult := by
  intro s hr hw hfault hropen hwopen hsource hsink r
  have hexec := exec_ldinit hfault hropen hwopen
  refine ⟨fun hlen => ?_, fun hlen => ?_⟩
  · obtain ⟨p, hcopies, heq⟩ := decodeFirstCode_copies (s := accepted s) hr.bufOk hw.bufOk hsource hlen
    obtain ⟨u, hu, htook, happ, hf⟩ := hcopies.1 (SinkNeverFails.not_failsOn hsink _)
    rw [heq, hu] at hexec
    refine ⟨_, hexec, .congr (htook.of_start rfl rfl rfl rfl) rfl rfl rfl rfl, .congr (happ.of_start rfl rfl rfl rfl) rfl rfl rfl rfl, ?_⟩
    rw [show u = _ from hf]
    rfl
  · obtain ⟨t, ht, hon⟩ := getBits_of_short (s := freshDict (accepted s)) hr.bufOk (by decide) hsource hlen
    rw [decodeFirstCode_of_end ht] at hexec
    refine ⟨_, hexec, .congr (hon.toTook.of_start rfl rfl rfl rfl) rfl rfl rfl rfl, ?_⟩
    rw [show t = _ from hon.frame]
    rfl

/-! ### LDSTEP at the cap -/

theorem exec_ldstep {s : State} (hfault : s.fault = false) (hmode : s.lzMode = .dec) (hr : s.rOpen = true) (hw : s.wOpen = true) :
    exec .ldstep s = outcomeOf (decodeStep (accepted s)) :=
  exec_performs hfault (by simp [badStateCondition, hmode, hr, hw]) (by simp [badOperandCondition])

theorem decodeStep_of_cap {s : State} (h : s.maxcode.toNat = 4194304) : decodeStep s = resetStep s := if_pos h

theorem resetStep_of_code {s t : State} {v : Nat} (h : getBits 8 { s with codelen := 8 } = .ok (some v) t) :
    resetStep s =
      andThen (putBits v 8 t) fun _ u => .ok () (setCodes 1 v 8 { lzwReset u with prev := BitVec.ofNat 23 v }) := by
  rw [resetStep, h]
  rfl

theorem resetStep_of_end {s t : State} (h : getBits 8 { s with codelen := 8 } = .ok none t) :
    resetStep s = .ok () (endLzwDecode t) := by
  rw [resetStep, h]
  rfl

/-- The reset step with bits enough, with both answers of the sink (43_lzw.md rule R229). -/
theorem resetStep_copies {s : State} (hr : ReadBufOk s) (hw : WriteBufOk s) (hnf : SourceNeverFails s)
    (hlen : 8 ≤ (unreadBits s).length) :
    ∃ r, ReadsAndWrites { s with codelen := 8 } 8 ((unreadBits s).take 8) r ∧
      resetStep s = andThen r fun _ u => .ok () (setCodes 1 (valueOfBits ((unreadBits s).take 8)) 8
        { lzwReset u with prev := BitVec.ofNat 23 (valueOfBits ((unreadBits s).take 8)) }) := by
  obtain ⟨t, ht, hon⟩ := getBits_of_enough (s := { s with codelen := 8 }) hr (by decide) hnf hlen
  exact ⟨_, putBits_copies (s := { s with codelen := 8 }) hw hon hlen, resetStep_of_code ht⟩

/-- Settles O49. -/
theorem ldstepResetsAtTheCap : Obligations.LdstepResetsAtTheCap := by
  intro s hinv hfault hmode hropen hwopen hcap hsource hsink r
  have hexec := exec_ldstep hfault hmode hropen hwopen
  rw [decodeStep_of_cap (by exact hcap)] at hexec
  refine ⟨fun hlen => ?_, fun hlen => ?_⟩
  · obtain ⟨p, hcopies, heq⟩ := resetStep_copies (s := accepted s) hinv.readBufOk hinv.writeBufOk hsource hlen
    obtain ⟨u, hu, htook, happ, hf⟩ := hcopies.1 (SinkNeverFails.not_failsOn hsink _)
    rw [heq, hu] at hexec
    refine ⟨_, hexec, .congr (htook.of_start rfl rfl rfl rfl) rfl rfl rfl rfl, .congr (happ.of_start rfl rfl rfl rfl) rfl rfl rfl rfl, ?_⟩
    rw [show u = _ from hf]
    rfl
  · obtain ⟨t, ht, hon⟩ := getBits_of_short (s := { accepted s with codelen := 8 }) hinv.readBufOk (by decide) hsource hlen
    rw [resetStep_of_end ht] at hexec
    refine ⟨_, hexec, .congr (hon.toTook.of_start rfl rfl rfl rfl) rfl rfl rfl rfl, ?_⟩
    rw [show t = _ from hon.frame]
    rfl

/-! ### LDSTEP below the cap -/

/-- A decoder's state below the cap, as LDSTEP needs it (43_lzw.md rules R226, R229). -/
structure StepReady (s : State) : Prop where
  dict : DictOk s
  prev : s.prev.toNat ≤ s.maxcode.toNat
  width : s.codelen.toNat = bitlen s.maxcode.toNat
  below : s.maxcode.toNat < 4194304

theorem BlockInv.stepReady {s : State} (h : BlockInv s) (hfault : s.fault = false) (hmode : s.lzMode = .dec)
    (hm : s.maxcode.toNat < 4194304) : StepReady (accepted s) :=
  have ⟨hprev, hwidth⟩ := h.dec hfault hmode
  ⟨h.dict, hprev, hwidth, hm⟩

/-- The width of the code LDSTEP reads (43_lzw.md rule R229). -/
abbrev stepWidth (s : State) : Nat := bitlen (s.maxcode.toNat + 1)

/-- LDSTEP's first step: the width follows the code to come. -/
abbrev widened (s : State) : State := { s with codelen := BitVec.ofNat 5 (stepWidth s) }

theorem stepWidth_le {s : State} (h : s.maxcode.toNat < 4194304) : stepWidth s ≤ 23 := bitlen_le h

theorem toNat_stepWidth {s : State} (h : s.maxcode.toNat < 4194304) : (BitVec.ofNat 5 (stepWidth s)).toNat = stepWidth s := by
  have := stepWidth_le h
  rw [BitVec.toNat_ofNat, Nat.mod_eq_of_lt (by omega)]

/-- Below the cap LDSTEP widens, reads a code and works on it (43_lzw.md rule R229). -/
theorem decodeStep_of_room {s : State} (h : StepReady s) :
    decodeStep s = andThen (getBits (stepWidth s) (widened s)) fun r t =>
      match r with
      | none => .ok () (endLzwDecode t)
      | some v => decodeCode v t := by
  rw [decodeStep, if_neg (by exact Nat.ne_of_lt h.below), widenIfPow2_of_bitlen h.dict.one_le_maxcode h.below h.width]
  exact congrArg (fun n => andThen (getBits n (widened s)) _) (toNat_stepWidth h.below)

theorem decodeStep_of_code {s t : State} {v : Nat} (h : StepReady s) (ht : getBits (stepWidth s) (widened s) = .ok (some v) t) :
    decodeStep s = decodeCode v t := by
  rw [decodeStep_of_room h, ht]
  rfl

theorem decodeStep_of_end {s t : State} (h : StepReady s) (ht : getBits (stepWidth s) (widened s) = .ok none t) :
    decodeStep s = .ok () (endLzwDecode t) := by
  rw [decodeStep_of_room h, ht]
  rfl

theorem decodeCode_of_bad {s : State} {r : Nat} (h : s.maxcode.toNat + 1 < r) : decodeCode r s = raiseFault .lzwBadCode s := if_pos h

/-- Settles O48. -/
theorem ldstepEndsOrRejects : Obligations.LdstepEndsOrRejects := by
  intro s hinv hfault hmode hropen hwopen hm hsource w
  have hexec := exec_ldstep hfault hmode hropen hwopen
  have hready : StepReady (accepted s) := hinv.stepReady hfault hmode hm
  have hw : w ≤ 32 := le_trans (stepWidth_le hm) (by decide)
  refine ⟨fun hlen => ?_, fun hlen hbad => ?_⟩
  · obtain ⟨t, ht, hon⟩ := getBits_of_short (s := widened (accepted s)) hinv.readBufOk hw hsource hlen
    rw [decodeStep_of_end hready ht] at hexec
    refine ⟨_, hexec, .congr (hon.toTook.of_start rfl rfl rfl rfl) rfl rfl rfl rfl, ?_⟩
    rw [show t = _ from hon.frame]
    rfl
  · obtain ⟨t, ht, hon⟩ := getBits_of_enough (s := widened (accepted s)) hinv.readBufOk hw hsource hlen
    have hmax : t.maxcode = s.maxcode := (congrArg State.maxcode hon.frame :)
    rw [decodeStep_of_code hready ht, decodeCode_of_bad (by rw [hmax]; exact hbad)] at hexec
    refine ⟨_, hexec, .congr (hon.toTook.of_start rfl rfl rfl rfl) rfl rfl rfl rfl, ?_⟩
    rw [show t = _ from hon.frame]
    exact recordFault_other (by exact hfault) (by decide)

/-! ### The insertion and the code's bytes -/

/-- Every code up to the next one has a string (43_lzw.md rule R229). -/
theorem stringOfCode_ne_nil {s : State} (h : DictOk s) (hprev : s.prev.toNat ≤ s.maxcode.toNat) {r : Nat}
    (hr : r ≤ s.maxcode.toNat + 1) : stringOfCode r s ≠ [] := by
  unfold stringOfCode
  split
  · exact List.append_ne_nil_of_left_ne_nil (h.dictAt_ne_nil hprev) _
  · exact h.dictAt_ne_nil (by omega)

/-- LDSTEP's insertion: PREV's string with the first byte of the code's (43_lzw.md rule R229). -/
abbrev grown (r : Nat) (s : State) : State :=
  { s with
    dict := s.dict ++ [dictAt s s.prev.toNat ++ (stringOfCode r s).take 1], maxcode := s.maxcode + 1 }

theorem decodeCode_of_good {s : State} (h : DictOk s) (hprev : s.prev.toNat ≤ s.maxcode.toNat) {r : Nat}
    (hr : r ≤ s.maxcode.toNat + 1) :
    decodeCode r s = andThen (putBytes (stringOfCode r s) (grown r s)) fun _ u =>
      .ok () (setCodes (stringOfCode r s).length r u.codelen.toNat { u with prev := BitVec.ofNat 23 r }) := by
  have hcond : ¬ (dictAt s s.prev.toNat = [] ∨ stringOfCode r s = []) :=
    not_or.mpr ⟨h.dictAt_ne_nil hprev, stringOfCode_ne_nil h hprev hr⟩
  rw [decodeCode, if_neg (Nat.not_lt.mpr hr)]
  simp only [if_neg hcond]
  rw [insertNext_eq h, ofNat_toNat_succ]
  rfl

/-- The dictionary and PREV as LDSTEP finds them after the code is read. -/
theorem StepReady.after_read {s t : State} (h : StepReady s) (hf : ReadFrame (widened s) t) :
    DictOk t ∧ t.prev.toNat ≤ t.maxcode.toNat ∧ t.maxcode = s.maxcode := by
  rw [show t = _ from hf]
  exact ⟨h.dict, h.prev, rfl⟩

/-- LDSTEP on a good code, with both answers of the sink (43_lzw.md rule R229). -/
theorem decodeStep_writes {s : State} (h : StepReady s) (hrb : ReadBufOk s) (hwb : WriteBufOk s) (hnf : SourceNeverFails s)
    (hlen : stepWidth s ≤ (unreadBits s).length) {r : Nat} (hr : r = valueOfBits ((unreadBits s).take (stepWidth s)))
    (hgood : r ≤ s.maxcode.toNat + 1) :
    ∃ p, ReadsAndWrites (grown r (widened s)) (stepWidth s) (bitsOfBytes (stringOfCode r s)) p ∧
      decodeStep s = andThen p fun _ u =>
        .ok () (setCodes (stringOfCode r s).length r u.codelen.toNat { u with prev := BitVec.ofNat 23 r }) := by
  have hw : stepWidth s ≤ 32 := le_trans (stepWidth_le h.below) (by decide)
  obtain ⟨t, ht, hon⟩ := getBits_of_enough (s := widened s) hrb hw hnf hlen
  replace ht : getBits (stepWidth s) (widened s) = .ok (some r) t := hr ▸ ht
  have hf := hon.frame
  have hstring : stringOfCode r t = stringOfCode r s := by
    rw [show t = _ from hf]
    rfl
  have hgrown : ReadOn (grown r (widened s)) (stepWidth s) (grown r t) := by
    refine ⟨.congr (hon.toTook.of_start rfl rfl rfl rfl) rfl rfl rfl rfl, ?_⟩
    rw [show t = _ from hf]
    rfl
  obtain ⟨hdict, hprev, hmax⟩ := h.after_read hf
  refine ⟨_, (putBytes_ends _ (grown r t) (hgrown.frame.writeBufOk hwb)).after_read hgrown, ?_⟩
  rw [decodeStep_of_code h ht, decodeCode_of_good hdict hprev (by rw [hmax]; exact hgood), hstring]

/-- Settles O47. -/
theorem ldstepDecodesACode : Obligations.LdstepDecodesACode := by
  intro s hinv hfault hmode hropen hwopen hm hsource hsink w r old cur hlen hgood
  have hexec := exec_ldstep hfault hmode hropen hwopen
  have hready : StepReady (accepted s) := hinv.stepReady hfault hmode hm
  obtain ⟨p, hwrites, heq⟩ := decodeStep_writes hready hinv.readBufOk hinv.writeBufOk hsource hlen (r := r) rfl hgood
  obtain ⟨u, hu, htook, happ, hf⟩ := hwrites.1 (SinkNeverFails.not_failsOn hsink _)
  have hcode : u.codelen = BitVec.ofNat 5 w := (congrArg State.codelen hf :)
  rw [heq, hu, andThen_ok, hcode, show (BitVec.ofNat 5 w).toNat = w from toNat_stepWidth hm] at hexec
  refine ⟨_, hexec, .congr (htook.of_start rfl rfl rfl rfl) rfl rfl rfl rfl,
    stringOfCode_ne_nil hinv.dict (hinv.dec hfault hmode).1 hgood, .congr (happ.of_start rfl rfl rfl rfl) rfl rfl rfl rfl, ?_⟩
  rw [show u = _ from hf]
  rfl

end Sys2Proof.Machine

/-!
PROOFS. The width a code is written at is the width it is read at (43_lzw.md rules R226, R230): each side's width is the number
of bits of the highest code of the dictionary that the code belongs to.
-/
namespace Sys2Proof.Machine

/-- A command of the LZW encoder that wrote one code wrote it at the width of MAXCODE, unless it recorded a fault. -/
def WroteAtWidth (w : Nat) (t : State) : Prop := t.fault = true ∨ t.r0 ≠ 1 ∨ t.r2 = BitVec.ofNat 32 w

theorem finishLzw_width {s t : State} (hw : WriteBufOk s) (hwidth : s.codelen.toNat = bitlen s.maxcode.toNat)
    (h : outcomeOf (finishLzw s) = .next t) : WroteAtWidth (bitlen s.maxcode.toNat) t := by
  obtain hnone | ⟨k, hk⟩ := Option.eq_none_or_eq_some s.sCode
  · rw [finishLzw_of_no_match hnone] at h
    cases h
    exact .inr (.inl (by simp))
  · obtain ⟨hwrote, hlost⟩ := finishLzw_of_match hk hw
    by_cases hsink : SinkFailsOn s s.codelen.toNat
    · obtain ⟨u, heq, -, -⟩ := hlost hsink
      rw [heq] at h
      cases h
      exact .inl rfl
    · obtain ⟨u, -, heq⟩ := hwrote hsink
      rw [heq, hwidth] at h
      cases h
      exact .inr (.inr rfl)

theorem capReset_width {s t : State} (hw : WriteBufOk s) (c : Byte) (w : Nat) (h : outcomeOf (capReset c s) = .next t) :
    WroteAtWidth w t := by
  obtain ⟨hwrote, hlost⟩ := capReset_eq c hw
  by_cases hsink : SinkFailsOn s s.codelen.toNat
  · obtain ⟨u, heq, -, -⟩ := hlost hsink
    rw [heq] at h
    cases h
    exact .inl rfl
  · obtain ⟨u, -, heq⟩ := hwrote hsink
    rw [heq] at h
    cases h
    exact .inr (.inl (by simp))

theorem emitAndInsert_width {s t : State} (hs : WidthOk s) (hw : WriteBufOk s) (e : Nat) (c : Byte) (str : List Byte)
    (h : outcomeOf (emitAndInsert e c str s) = .next t) : WroteAtWidth (bitlen s.maxcode.toNat) t := by
  obtain ⟨hwrote, hlost⟩ := emitAndInsert_eq e c str hs hw
  by_cases hsink : SinkFailsOn s (bitlen s.maxcode.toNat)
  · obtain ⟨u, heq, -, -⟩ := hlost hsink
    rw [heq] at h
    cases h
    exact .inl rfl
  · obtain ⟨u, hu, heq⟩ := hwrote hsink
    have hm : u.maxcode = s.maxcode := (congrArg State.maxcode hu.frame :)
    rw [heq] at h
    split at h
    · exact capReset_width (s := inserted e c str u) hu.bufOk c _ h
    · cases h
      exact .inr (.inr (by rw [← hm]))

theorem encodeByte_width {s t : State} (hs : WidthOk s) (hcode : ∀ k, s.sCode = some k → k.toNat ≤ s.maxcode.toNat)
    (hw : WriteBufOk s) (c : Byte) (h : outcomeOf (encodeByte c s) = .next t) : WroteAtWidth (bitlen s.maxcode.toNat) t := by
  have hextend : ∀ k, outcomeOf (.ok () (extendMatch k s)) = .next t → WroteAtWidth (bitlen s.maxcode.toNat) t := fun k hk => by
    cases hk
    exact .inr (.inl (by simp))
  obtain hnone | ⟨e, he⟩ := Option.eq_none_or_eq_some s.sCode
  · rw [encodeByte_of_no_match hs.1 hnone] at h
    exact hextend _ h
  · obtain ⟨hfound, hmiss⟩ := encodeByte_of_match hs.1 he (hcode e he) c
    obtain hnone | ⟨k, hk⟩ := Option.eq_none_or_eq_some (codeOf (dictAt s e.toNat ++ [c]) s)
    · rw [hmiss ((codeOf_none hs.1).mp hnone)] at h
      exact emitAndInsert_width hs hw _ _ _ h
    · rw [hfound k hk] at h
      exact hextend _ h

/-- A code that the decoder has read, it has read at the width of MAXCODE + 1. -/
theorem decodeStep_width {s : State} (h : StepReady s) :
    Leaves (decodeStep s) (fun _ t => t.ended = true ∨ t.r2 = BitVec.ofNat 32 (stepWidth s)) (fun t => t.fault = true) := by
  rw [decodeStep_of_room h]
  have hread : Leaves (getBits (stepWidth s) (widened s)) (fun _ t => ReadFrame (widened s) t) (fun t => t.fault = true) :=
    (getBits_frame _ _).leaves.mono (fun _ _ h => h) fun t ⟨_, _, ht⟩ => ht ▸ rfl
  refine hread.andThen fun r t hf => ?_
  cases r with
  | none => exact .inl rfl
  | some v =>
    obtain ⟨hdict, hprev, -⟩ := h.after_read hf
    have hcode : t.codelen = BitVec.ofNat 5 (stepWidth s) := (congrArg State.codelen hf :)
    by_cases hbad : t.maxcode.toNat + 1 < v
    · change Leaves (decodeCode v t) _ _
      rw [decodeCode_of_bad hbad]
      exact rfl
    · change Leaves (decodeCode v t) _ _
      rw [decodeCode_of_good hdict hprev (Nat.le_of_not_lt hbad)]
      have hwrite : Leaves (putBytes (stringOfCode v t) (grown v t)) (fun _ u => WriteFrame (grown v t) u) (fun u => u.fault = true) :=
        (putBytes_frame _ _).leaves.mono (fun _ _ h => h) fun u ⟨_, _, hu⟩ => hu ▸ rfl
      refine hwrite.andThen fun _ u hwf => .inr ?_
      have hcode' : u.codelen = t.codelen := (congrArg State.codelen hwf :)
      rw [hcode', hcode, toNat_stepWidth h.below]
      rfl

/-- Settles O50. -/
theorem codeWidthsAlign : Obligations.CodeWidthsAlign := by
  intro e d e' d' i he hd hefault hdfault henc hdec hmax hi hexec he' hone hexec' hd' hended
  have hrun := outcomeOf_pseudocode_of_not_fault hefault hexec he'
  have hwritten : WroteAtWidth (bitlen e.maxcode.toNat) e' := by
    obtain rfl | ⟨c, rfl⟩ := hi
    · exact finishLzw_width (s := accepted e) he.writeBufOk (he.enc hefault henc).2.2.1 hrun
    · exact encodeByte_width (s := accepted e) (he.widthOk hefault henc) (he.enc hefault henc).2.1 he.writeBufOk c hrun
  have henc2 : e'.r2 = BitVec.ofNat 32 (bitlen e.maxcode.toNat) := by
    rcases hwritten with h | h | h
    · rw [he'] at h
      cases h
    · exact absurd hone h
    · exact h
  have hready : StepReady (accepted d) := hd.stepReady hdfault hdec (by have := (he.widthOk hefault henc).2.2; omega)
  have hdec2 : d'.r2 = BitVec.ofNat 32 (bitlen (d.maxcode.toNat + 1)) := by
    have hleaves := decodeStep_width hready
    rcases outcomeOf_eq_next.mp (outcomeOf_pseudocode_of_not_fault hdfault hexec' hd') with h | h <;>
      rw [show decodeStep (accepted d) = _ from h] at hleaves
    · exact hleaves.resolve_left (by rw [hended]; exact Bool.false_ne_true)
    · rw [show d'.fault = true from hleaves] at hd'
      cases hd'
  exact ⟨by rw [henc2, hdec2, hmax], henc2⟩

end Sys2Proof.Machine

/-!
PROOFS. Hosts that fail (40_bit_channel.md rules R105, R107; 60_exceptions.md rules R272, R273): the sink under the commands
that write bits. Each command's laws say in which state it records the failure; that state is the one before but for the fields
the rule has written.
-/
namespace Sys2Proof.Machine

/-! ### The recorded failure -/

section
variable {s u : State} {bits : List Bool}

/-- Recording a fault leaves the streams. -/
theorem LostALoad.recorded (h : LostALoad (accepted s) bits u) (k : FaultKind) : LostALoad s bits (recordFault k u) :=
  h.congr rfl rfl rfl rfl rfl rfl rfl rfl

theorem CountedUp.recorded {sym : Nat} (h : CountedUp sym s u) (k : FaultKind) : CountedUp sym s (recordFault k u) := h

/-- A command that had written nothing but the write stream when its sink failed. -/
theorem WriteFrame.sinkFaulted (h : WriteFrame (accepted s) u) (hfault : s.fault = false) :
    recordFault .ioFailureSink u = sinkFaulted s (recordFault .ioFailureSink u) := by
  rw [show u = _ from h]
  exact recordFault_ioFailureSink (by exact hfault)

end

/-! ### WBITS, AESYM and AEFIN -/

theorem wbits_sinkFails {s : State} {n : BitVec 6} (hb : WriteBufOk s) (hfault : s.fault = false) (hopen : s.wOpen = true)
    (h1 : 1 ≤ n.toNat) (h32 : n.toNat ≤ 32) (hf : SinkFailsOn s n.toNat) :
    ∃ t, exec (.wbits n) s = .next t ∧ LostALoad s (bitsOfValue s.data.toNat n.toNat) t ∧ t = sinkFaulted s t := by
  obtain ⟨u, hu, hframe, hlost⟩ := (putBits_ends s.data.toNat n.toNat (accepted s) hb).lost (by rw [length_bitsOfValue]; exact hf)
  exact ⟨_, by rw [exec_wbits hfault hopen h1 h32, hu]; rfl, hlost.recorded _, hframe.sinkFaulted hfault⟩

theorem aesym_sinkFails {s : State} {sym : BitVec 9} (hinv : BlockInv s) (hfault : s.fault = false) (hopen : s.wOpen = true)
    (hmode : s.acMode = .enc) (hsym : sym.toNat ≤ 256)
    (hroom : s.pending.toNat + leadingUnderflows (symbolCases s sym.toNat) ≤ 4294967295)
    (hf : SinkFailsOn s (bitPlusFollow (symbolCases s sym.toNat) s.pending.toNat).1.length) :
    ∃ t, exec (.aesym sym) s = .next t ∧ LostALoad s (bitPlusFollow (symbolCases s sym.toNat) s.pending.toNat).1 t ∧
      CountedUp sym.toNat s t ∧
      t = { sinkFaulted s t with
        r0 := BitVec.ofNat 32 (cumAt s sym.toNat), r1 := BitVec.ofNat 32 (cumAt s (sym.toNat + 1))
        r2 := BitVec.ofNat 32 (cumAt s 257), r3 := BitVec.ofNat 32 sym.toNat
        cum := t.cum, frozen := t.frozen, low := t.low, high := t.high, pending := t.pending } := by
  obtain ⟨hlow, hhigh, hle, hp⟩ := narrowTo_report (s := accepted s) hinv.model (hinv.coder hfault) hsym
  have happ := appended_narrowTo (s := accepted s) hinv.writeBufOk sym.toNat
  have hexec := exec_aesym hfault hmode hopen hsym
  rw [encodeSymbol_eq] at hexec
  have hframe := narrowTo_report_frame sym.toNat (accepted s)
  have hlost := encRenorm_lost 17 _ happ.bufOk hle (le_refl _) (by rw [hlow, hhigh, hp]; exact hroom)
    (by rw [hlow, hhigh, hp, hframe]; exact hf)
  rw [hlow, hhigh, hp] at hlost
  obtain ⟨u, hu, henc, hlost⟩ := hlost
  rw [hu] at hexec
  have hnarrow : EncFrame (reportAndUpdate sym.toNat (accepted s))
      (narrowTo sym.toNat (accepted s) (reportAndUpdate sym.toNat (accepted s))) := rfl
  have hreport := hnarrow.trans henc
  refine ⟨_, hexec, ?_, (hreport.countedUp hinv.model).recorded _, ?_⟩
  · exact hlost.congr (congrArg State.wBuf hframe :).symm (congrArg State.wAcc hframe :).symm (congrArg State.wNbits hframe :).symm
      (congrArg State.sink hframe :).symm rfl rfl rfl rfl
  · rw [encFrame_report_accepted hreport]
    exact recordFault_ioFailureSink (by exact hfault)

theorem aefin_sinkFails {s : State} (hb : WriteBufOk s) (hfault : s.fault = false) (hopen : s.wOpen = true)
    (hmode : s.acMode = .enc) (hp : s.pending ≠ 4294967295) (hf : SinkFailsOn s (s.pending.toNat + 2)) :
    ∃ t, exec .aefin s = .next t ∧
      LostALoad s (decide (32768 ≤ s.low.toNat) :: List.replicate (s.pending.toNat + 1) (!decide (32768 ≤ s.low.toNat))) t ∧
      t = { sinkFaulted s t with pending := t.pending } := by
  have hmax := toNat_pending_ne hp
  have hexec := exec_aefin hfault hmode hopen
  have hlost := emitBit_lost (decide (32768 ≤ s.low.toNat)) { accepted s with pending := s.pending + 1 } hb
    (by simp only [List.length_cons, List.length_replicate, pending_succ hmax]; exact hf)
  rw [pending_succ hmax] at hlost
  obtain ⟨u, hu, hframe, hlost⟩ := hlost
  rw [finishEncode_of_room (s := accepted s) hmax, hu] at hexec
  refine ⟨_, hexec, hlost.congr rfl rfl rfl rfl rfl rfl rfl rfl, ?_⟩
  rw [show u = _ from hframe]
  exact recordFault_ioFailureSink (by exact hfault)

/-! ### LEBYTE and LEFIN -/

theorem lebyte_sinkFails {s : State} {c : Byte} {e : Code} (hinv : BlockInv s) (hfault : s.fault = false) (hopen : s.wOpen = true)
    (hmode : s.lzMode = .enc) (he : s.sCode = some e) (hnew : dictAt s e.toNat ++ [c] ∉ s.dict)
    (hf : SinkFailsOn s (bitlen s.maxcode.toNat)) :
    ∃ t, exec (.lebyte c) s = .next t ∧ LostALoad s (bitsOfValue e.toNat (bitlen s.maxcode.toNat)) t ∧ t = sinkFaulted s t := by
  obtain ⟨u, hu, hframe, hlost⟩ := (emitAndInsert_eq e.toNat c (dictAt s e.toNat ++ [c]) (s := accepted s)
    (hinv.widthOk hfault hmode) hinv.writeBufOk).2 hf
  exact ⟨_, by rw [exec_lebyte_of_miss hinv hfault hmode hopen he hnew, hu]; rfl, hlost.recorded _, hframe.sinkFaulted hfault⟩

/-- At the cap, when the match's code is written and the byte's is not. -/
theorem lebyte_sinkFails_at_cap {s : State} {c : Byte} {e : Code} (hinv : BlockInv s) (hfault : s.fault = false)
    (hopen : s.wOpen = true) (hmode : s.lzMode = .enc) (he : s.sCode = some e) (hnew : dictAt s e.toNat ++ [c] ∉ s.dict)
    (hcap : s.maxcode.toNat + 1 = 4194304) (hn : ¬ SinkFailsOn s 22) (hf : SinkFailsOn s 45) :
    ∃ t, exec (.lebyte c) s = .next t ∧ LostALoad s (bitsOfValue e.toNat 22 ++ bitsOfValue c.toNat 23) t ∧
      t = { sinkFaulted s t with
        r0 := 1, r1 := BitVec.ofNat 32 e.toNat, r2 := 22
        dict := s.dict ++ [dictAt s e.toNat ++ [c]], maxcode := 4194304, codelen := 23
        sCode := some (c.setWidth 23) } := by
  have hexec := exec_lebyte_of_miss hinv hfault hmode hopen he hnew
  obtain ⟨u, hu, hcode, heq⟩ := emitAndInsert_of_last e.toNat c (dictAt s e.toNat ++ [c]) (s := accepted s)
    (hinv.widthOk hfault hmode) hinv.writeBufOk hcap hn
  have hcapLost := (capReset_eq c (s := inserted e.toNat c (dictAt s e.toNat ++ [c]) u) hu.bufOk).2
  rw [hcode] at hcapLost
  have hfails : SinkFailsOn u 23 := (sinkFailsOn_append hu.toAppended (by rw [length_bitsOfValue]; exact hn)).mp
    (by rw [length_bitsOfValue]; exact hf)
  obtain ⟨v, hv, hframe, hlost⟩ := hcapLost hfails
  rw [heq, hv] at hexec
  have hm : s.maxcode = 4194303 := BitVec.eq_of_toNat_eq (by rw [show s.maxcode.toNat = 4194303 by omega]; rfl)
  refine ⟨_, hexec, ?_, ?_⟩
  · exact (LostALoad.of_appended hu.toAppended (by rw [length_bitsOfValue]; exact hn)
      (hlost.congr rfl rfl rfl rfl rfl rfl rfl rfl)).recorded _
  · rw [show v = _ from hframe, show u = _ from hu.frame]
    refine (recordFault_ioFailureSink (by exact hfault)).trans ?_
    simp [sinkFaulted, hm, bitlen_cap]

theorem lefin_sinkFails {s : State} {k : Code} (hb : WriteBufOk s) (hfault : s.fault = false) (hopen : s.wOpen = true)
    (hmode : s.lzMode = .enc) (hk : s.sCode = some k) (hf : SinkFailsOn s s.codelen.toNat) :
    ∃ t, exec .lefin s = .next t ∧ LostALoad s (bitsOfValue k.toNat s.codelen.toNat) t ∧ t = sinkFaulted s t := by
  obtain ⟨u, hu, hframe, hlost⟩ := (finishLzw_of_match (s := accepted s) hk hb).2 hf
  exact ⟨_, by rw [exec_lefin hfault hmode hopen, hu]; rfl, hlost.recorded _, hframe.sinkFaulted hfault⟩

/-- Settles O58. -/
theorem sinkFailureFaultsTheWriters : Obligations.SinkFailureFaultsTheWriters := by
  intro s hinv hfault hopen
  have hb := hinv.writeBufOk
  exact ⟨fun n h1 h32 hf => wbits_sinkFails hb hfault hopen h1 h32 hf,
    fun sym hmode hsym hroom hf => aesym_sinkFails hinv hfault hopen hmode hsym hroom hf,
    fun hmode hp hf => aefin_sinkFails hb hfault hopen hmode hp hf,
    fun c e hmode he hnew => ⟨fun hf => lebyte_sinkFails hinv hfault hopen hmode he hnew hf,
      fun hcap hn hf => lebyte_sinkFails_at_cap hinv hfault hopen hmode he hnew hcap hn hf⟩,
    fun k hmode hk hf => lefin_sinkFails hb hfault hopen hmode hk hf⟩

end Sys2Proof.Machine

/-!
PROOFS. Hosts that fail (40_bit_channel.md rules R105, R107 to R110; 60_exceptions.md rules R272, R273): the sink under the
decoders, whose reads stand, and the source under every command that reads bits.
-/
namespace Sys2Proof.Machine

/-! ### The sink under the decoders -/

theorem adsym_sinkFails {s : State} {sym : Nat} (hinv : BlockInv s) (hfault : s.fault = false) (hr : s.rOpen = true)
    (hw : s.wOpen = true) (hmode : s.acMode = .dec) (hsym : sym ≤ 255) (hlo : cumAt s sym ≤ scaledOf s)
    (hhi : scaledOf s < cumAt s (sym + 1)) (hf : SinkFailsOn s 8) :
    ∃ t, exec .adsym s = .next t ∧ LostALoad s (bitsOfValue sym 8) t ∧ CountedUp sym s t ∧
      t = { sinkFaulted s t with
        r0 := BitVec.ofNat 32 (cumAt s sym), r1 := BitVec.ofNat 32 (cumAt s (sym + 1))
        r2 := BitVec.ofNat 32 (cumAt s 257), r3 := BitVec.ofNat 32 sym, cum := t.cum, frozen := t.frozen } := by
  have hexec := exec_adsym hfault hmode hr hw
  rw [decodeSymbol_of_byte (s := accepted s) (symbolSearch_of_interval hinv.model (by omega) hlo hhi) (by omega)] at hexec
  have hreport := reportAndUpdate_eq sym (accepted s)
  obtain ⟨u, hu, hframe, hlost⟩ := (putBits_ends sym 8 (reportAndUpdate sym (accepted s)) (by rw [hreport]; exact hinv.writeBufOk)).lost
    (by rw [length_bitsOfValue, hreport]; exact hf)
  have hdecoded : DecodedFrame sym (accepted s) u := hframe.decoded
  rw [hu] at hexec
  rw [hreport] at hframe hlost
  refine ⟨_, hexec, hlost.congr rfl rfl rfl rfl rfl rfl rfl rfl, (hdecoded.countedUp hinv.model).recorded _, ?_⟩
  rw [show u = _ from hframe]
  exact recordFault_ioFailureSink (by exact hfault)

theorem ldinit_sinkFails {s : State} (hinv : BlockInv s) (hfault : s.fault = false) (hr : s.rOpen = true) (hw : s.wOpen = true)
    (hsource : SourceNeverFails s) (hlen : 8 ≤ (unreadBits s).length) (hf : SinkFailsOn s 8) :
    ∃ t, exec .ldinit s = .next t ∧ Took s 8 t ∧ LostALoad s ((unreadBits s).take 8) t ∧
      t = { sinkFaulted s t with
        dict := (List.range 256).map fun c => [BitVec.ofNat 8 c], maxcode := 255, codelen := 8, sCode := none
        rBuf := t.rBuf, rBitpos := t.rBitpos, rSrcEnd := t.rSrcEnd, source := t.source } := by
  have hexec := exec_ldinit hfault hr hw
  obtain ⟨p, hcopies, heq⟩ := decodeFirstCode_copies (s := accepted s) hinv.readBufOk hinv.writeBufOk hsource hlen
  obtain ⟨u, hu, htook, hlost, hframe⟩ := hcopies.2 (by rw [List.length_take, Nat.min_eq_left (by exact hlen)]; exact hf)
  rw [heq, hu] at hexec
  refine ⟨_, hexec, .congr (htook.of_start rfl rfl rfl rfl) rfl rfl rfl rfl, hlost.congr rfl rfl rfl rfl rfl rfl rfl rfl, ?_⟩
  rw [show u = _ from hframe]
  exact recordFault_ioFailureSink (by exact hfault)

theorem ldstep_sinkFails {s : State} {r : Nat} (hinv : BlockInv s) (hfault : s.fault = false) (hropen : s.rOpen = true)
    (hwopen : s.wOpen = true) (hmode : s.lzMode = .dec) (hm : s.maxcode.toNat < 4194304) (hsource : SourceNeverFails s)
    (hlen : stepWidth s ≤ (unreadBits s).length) (hr : r = valueOfBits ((unreadBits s).take (stepWidth s)))
    (hgood : r ≤ s.maxcode.toNat + 1) (hf : SinkFailsOn s (8 * (stringOfCode r s).length)) :
    ∃ t, exec .ldstep s = .next t ∧ Took s (stepWidth s) t ∧ LostALoad s (bitsOfBytes (stringOfCode r s)) t ∧
      t = { sinkFaulted s t with
        dict := s.dict ++ [dictAt s s.prev.toNat ++ (stringOfCode r s).take 1], maxcode := s.maxcode + 1
        codelen := BitVec.ofNat 5 (stepWidth s)
        rBuf := t.rBuf, rBitpos := t.rBitpos, rSrcEnd := t.rSrcEnd, source := t.source } := by
  have hexec := exec_ldstep hfault hmode hropen hwopen
  obtain ⟨p, hwrites, heq⟩ := decodeStep_writes (s := accepted s) (hinv.stepReady hfault hmode hm) hinv.readBufOk hinv.writeBufOk hsource
    hlen hr hgood
  obtain ⟨u, hu, htook, hlost, hframe⟩ := hwrites.2 (by rw [length_bitsOfBytes]; exact hf)
  rw [heq, hu] at hexec
  refine ⟨_, hexec, .congr (htook.of_start rfl rfl rfl rfl) rfl rfl rfl rfl, hlost.congr rfl rfl rfl rfl rfl rfl rfl rfl, ?_⟩
  rw [show u = _ from hframe]
  exact recordFault_ioFailureSink (by exact hfault)

theorem ldstep_sinkFails_at_cap {s : State} (hinv : BlockInv s) (hfault : s.fault = false) (hr : s.rOpen = true) (hw : s.wOpen = true)
    (hmode : s.lzMode = .dec) (hm : s.maxcode.toNat = 4194304) (hsource : SourceNeverFails s)
    (hlen : 8 ≤ (unreadBits s).length) (hf : SinkFailsOn s 8) :
    ∃ t, exec .ldstep s = .next t ∧ Took s 8 t ∧ LostALoad s ((unreadBits s).take 8) t ∧
      t = { sinkFaulted s t with
        codelen := 8, rBuf := t.rBuf, rBitpos := t.rBitpos, rSrcEnd := t.rSrcEnd, source := t.source } := by
  have hexec := exec_ldstep hfault hmode hr hw
  rw [decodeStep_of_cap (by exact hm)] at hexec
  obtain ⟨p, hcopies, heq⟩ := resetStep_copies (s := accepted s) hinv.readBufOk hinv.writeBufOk hsource hlen
  obtain ⟨u, hu, htook, hlost, hframe⟩ := hcopies.2 (by rw [List.length_take, Nat.min_eq_left (by exact hlen)]; exact hf)
  rw [heq, hu] at hexec
  refine ⟨_, hexec, .congr (htook.of_start rfl rfl rfl rfl) rfl rfl rfl rfl, hlost.congr rfl rfl rfl rfl rfl rfl rfl rfl, ?_⟩
  rw [show u = _ from hframe]
  exact recordFault_ioFailureSink (by exact hfault)

/-- Settles O59. -/
theorem sinkFailureFaultsTheDecoders : Obligations.SinkFailureFaultsTheDecoders := by
  intro s hinv hfault hr hw
  exact ⟨fun sym hmode hsym hlo hhi hf => adsym_sinkFails hinv hfault hr hw hmode hsym hlo hhi hf,
    fun hsource hlen hf => ldinit_sinkFails hinv hfault hr hw hsource hlen hf,
    fun hmode hm hsource hlen hgood hf => ldstep_sinkFails hinv hfault hr hw hmode hm hsource hlen rfl hgood hf,
    fun hmode hm hsource hlen hf => ldstep_sinkFails_at_cap hinv hfault hr hw hmode hm hsource hlen hf⟩

/-! ### The source -/

/-- `t` is `v` with IoFailure(source) recorded and the read side changed (60_exceptions.md rules R272, R273). -/
def FaultedByTheSource (v t : State) : Prop :=
  t = { v with
    fault := true, fcode := 2, rBuf := t.rBuf, rBitpos := t.rBitpos, rSrcEnd := false, source := t.source }

/-- A field or a code that the source fails in the middle of is not read (40_bit_channel.md rule R108), whatever `f` would make of it. -/
theorem getBits_sourceFails {v : State} {m n : Nat} (f : Option Nat → State → Res Unit) (hb : ReadBufOk v) (hn : n ≤ 32)
    (hm : bitsBeforeFail v = some m) (hmn : m < n) (hfault : v.fault = false) :
    ∃ t, andThen (getBits n v) f = .raised t ∧ LostTheSource v 0 t ∧ FaultedByTheSource v t := by
  obtain ⟨u, hu, hframe, hlost⟩ := getBits_beforeFail hb hn hm hmn
  refine ⟨recordFault .ioFailureSource u, by rw [hu, andThen_raised], hlost.congr rfl rfl rfl rfl rfl rfl rfl rfl, ?_⟩
  have hend := hlost.srcEnd
  unfold FaultedByTheSource
  rw [show u = _ from hframe, hend]
  exact recordFault_other (by exact hfault) (by decide)

theorem rbits_sourceFails {s : State} {m : Nat} {n : BitVec 6} (hb : ReadBufOk s) (hfault : s.fault = false) (hr : s.rOpen = true)
    (hm : bitsBeforeFail s = some m) (h32 : n.toNat ≤ 32) (hmn : m < n.toNat) :
    ∃ t, exec (.rbits n) s = .next t ∧ LostTheSource s 0 t ∧ t = sourceFaulted s t := by
  obtain ⟨t, ht, hlost, hf⟩ := getBits_sourceFails (v := accepted s) _ hb h32 hm hmn hfault
  exact ⟨t, by rw [exec_rbits hfault hr (by omega) h32, readToR0, ht]; rfl, hlost.of_accepted, hf⟩

theorem ldinit_sourceFails {s : State} {m : Nat} (hb : ReadBufOk s) (hfault : s.fault = false) (hr : s.rOpen = true)
    (hw : s.wOpen = true) (hm : bitsBeforeFail s = some m) (hm8 : m < 8) :
    ∃ t, exec .ldinit s = .next t ∧ LostTheSource s 0 t ∧
      t = { sourceFaulted s t with
        dict := (List.range 256).map fun c => [BitVec.ofNat 8 c], maxcode := 255, codelen := 8, sCode := none } := by
  obtain ⟨t, ht, hlost, hf⟩ := getBits_sourceFails (v := freshDict (accepted s)) _ hb (by decide) hm hm8 hfault
  refine ⟨t, ?_, hlost.congr rfl rfl rfl rfl rfl rfl rfl rfl, hf⟩
  exact (exec_ldinit hfault hr hw).trans (congrArg outcomeOf ht)

theorem ldstep_sourceFails {s : State} {m : Nat} (hinv : BlockInv s) (hfault : s.fault = false) (hr : s.rOpen = true)
    (hw : s.wOpen = true) (hmode : s.lzMode = .dec) (hmax : s.maxcode.toNat < 4194304) (hm : bitsBeforeFail s = some m)
    (hmw : m < stepWidth s) :
    ∃ t, exec .ldstep s = .next t ∧ LostTheSource s 0 t ∧
      t = { sourceFaulted s t with codelen := BitVec.ofNat 5 (stepWidth s) } := by
  have h32 : stepWidth s ≤ 32 := le_trans (stepWidth_le hmax) (by decide)
  obtain ⟨t, ht, hlost, hf⟩ := getBits_sourceFails (v := widened (accepted s)) _ hinv.readBufOk h32 hm hmw hfault
  refine ⟨t, ?_, hlost.congr rfl rfl rfl rfl rfl rfl rfl rfl, hf⟩
  exact (exec_ldstep hfault hmode hr hw).trans (congrArg outcomeOf ((decodeStep_of_room (hinv.stepReady hfault hmode hmax)).trans ht))

theorem ldstep_sourceFails_at_cap {s : State} {m : Nat} (hb : ReadBufOk s) (hfault : s.fault = false) (hr : s.rOpen = true)
    (hw : s.wOpen = true) (hmode : s.lzMode = .dec) (hmax : s.maxcode.toNat = 4194304) (hm : bitsBeforeFail s = some m)
    (hm8 : m < 8) :
    ∃ t, exec .ldstep s = .next t ∧ LostTheSource s 0 t ∧ t = { sourceFaulted s t with codelen := 8 } := by
  obtain ⟨t, ht, hlost, hf⟩ := getBits_sourceFails (v := { accepted s with codelen := 8 }) _ hb (by decide) hm hm8 hfault
  refine ⟨t, ?_, hlost.congr rfl rfl rfl rfl rfl rfl rfl rfl, hf⟩
  exact (exec_ldstep hfault hmode hr hw).trans (congrArg outcomeOf ((decodeStep_of_cap (by exact hmax)).trans ht))

theorem adinit_sourceFails {s : State} {m : Nat} (hb : ReadBufOk s) (hfault : s.fault = false) (hr : s.rOpen = true)
    (hm : bitsBeforeFail s = some m) (hm17 : m < 17) :
    ∃ t, exec .adinit s = .next t ∧ LostTheSource s m t ∧ t.value.toNat = valueOfBits ((unreadBits s).take m) ∧
      t = { sourceFaulted s t with
        cum := List.range 258, frozen := false, low := 0, high := 131071, value := t.value, pending := 0 } := by
  have hexec := exec_adinit hfault hr
  rw [coderStart_eq] at hexec
  generalize List.range 258 = ramp at hexec ⊢
  obtain ⟨u, hu, hframe, hlost, hlow, hhigh, hvalue⟩ := loadValue_beforeFail 17 (s := { accepted s with
    cum := ramp, frozen := false, low := 0, high := 131071, value := 0, pending := 0 }) hb (by simp) (le_refl _) hm hm17
  rw [hu] at hexec
  have hend := hlost.srcEnd
  rw [firstBits_eq_take (by exact bitsBeforeFail_le hm)] at hvalue
  refine ⟨_, hexec, hlost.congr rfl rfl rfl rfl rfl rfl rfl rfl, hvalue, ?_⟩
  rw [show u = _ from hframe, hend, hlow, hhigh]
  exact recordFault_other (by exact hfault) (by decide)

theorem adsym_sourceFails {s : State} {m sym : Nat} (hinv : BlockInv s) (hfault : s.fault = false) (hr : s.rOpen = true)
    (hw : s.wOpen = true) (hmode : s.acMode = .dec) (hm : bitsBeforeFail s = some m) (hsym : sym ≤ 255)
    (hlo : cumAt s sym ≤ scaledOf s) (hhi : scaledOf s < cumAt s (sym + 1)) (hn : ¬ SinkFailsOn s 8)
    (hmc : m < (symbolCases s sym).length) :
    ∃ t, exec .adsym s = .next t ∧ LostTheSource s m t ∧ Appended s (bitsOfValue sym 8) t ∧ CountedUp sym s t ∧
      t = { sourceFaulted s t with
        r0 := BitVec.ofNat 32 (cumAt s sym), r1 := BitVec.ofNat 32 (cumAt s (sym + 1))
        r2 := BitVec.ofNat 32 (cumAt s 257), r3 := BitVec.ofNat 32 sym
        cum := t.cum, frozen := t.frozen, low := t.low, high := t.high, value := t.value
        wBuf := t.wBuf, wAcc := t.wAcc, wNbits := t.wNbits, sink := t.sink } := by
  have hexec := exec_adsym hfault hmode hr hw
  rw [decodeSymbol_of_byte (s := accepted s) (symbolSearch_of_interval hinv.model (by omega) hlo hhi) (by omega)] at hexec
  have hreport := reportAndUpdate_eq sym (accepted s)
  obtain ⟨u, hu, hwrote⟩ := (putBits_ends sym 8 (reportAndUpdate sym (accepted s)) (by rw [hreport]; exact hinv.writeBufOk)).wrote
    (by rw [length_bitsOfValue, hreport]; exact hn)
  rw [hu, andThen_ok] at hexec
  have happ : Appended (accepted s) (bitsOfValue sym 8) u := hwrote.toAppended.of_report
  have hn : Narrowed sym (accepted s) (narrowTo sym (accepted s) u) :=
    narrowed_after_write hinv.model (hinv.coder hfault) hmode (by omega) hlo hhi hwrote.frame
  obtain ⟨h1, h2, h3, h4⟩ := hn.readSide
  obtain ⟨v, hv, hframe, hlost⟩ := decRenorm_beforeFail 17 (s := narrowTo sym (accepted s) u) (hn.readBufOk hinv.readBufOk) hn.inside.1
    hn.inside.2 (le_refl _) (by rw [bitsBeforeFail, h1, h2, h3, h4]; exact hm) (by rw [hn.low, hn.high]; exact hmc)
  rw [hv] at hexec
  have hend := hlost.srcEnd
  have hvd : DecodedFrame sym (accepted s) v := hframe.decoded hwrote.frame
  refine ⟨_, hexec, hlost.congr h1.symm h2.symm h3.symm h4.symm rfl rfl rfl rfl, ?_, (hvd.countedUp hinv.model).recorded _, ?_⟩
  · exact .congr happ.of_accepted (congrArg State.wBuf hframe :) (congrArg State.wAcc hframe :) (congrArg State.wNbits hframe :)
      (congrArg State.sink hframe :)
  · rw [show v = _ from hvd, hend]
    exact recordFault_other (by exact hfault) (by decide)

/-- Settles O60. -/
theorem sourceFailureFaultsTheReaders : Obligations.SourceFailureFaultsTheReaders := by
  intro s m hinv hfault hr hm
  have hb := hinv.readBufOk
  exact ⟨fun n h32 hmn => rbits_sourceFails hb hfault hr hm h32 hmn,
    fun hm17 => adinit_sourceFails hb hfault hr hm hm17,
    fun sym hmode hw hsym hlo hhi hn hmc => adsym_sourceFails hinv hfault hr hw hmode hm hsym hlo hhi hn hmc,
    fun hw hm8 => ldinit_sourceFails hb hfault hr hw hm hm8,
    fun hmode hw hmax hmw => ldstep_sourceFails hinv hfault hr hw hmode hmax hm hmw,
    fun hmode hw hmax hm8 => ldstep_sourceFails_at_cap hb hfault hr hw hmode hmax hm hm8⟩

end Sys2Proof.Machine

/-!
PROOFS. The invariant of the whole block (10_state.md rules R28, R30, R31, R33, R36 to R38). What holds in every state,
`AlwaysOk`, is kept even by a command that records a fault, and what the coder and the LZW unit promise, `UnitsOk`, by a command
that records none. Every command's pseudocode, from a state with the invariant whose checks passed, ends in a state with it and
never stops the model.
-/
namespace Sys2Proof.Machine

/-! ### The two parts of the invariant -/

/-- What the streams, the table and the dictionary keep at all times. -/
def AlwaysOk (s : State) : Prop := WriteSideOk s ∧ ReadSideOk s ∧ ModelOk s ∧ DictOk s

/-- What the coder and the LZW unit keep while no fault is recorded. -/
def UnitsOk (s : State) : Prop := CoderOk s ∧ (s.lzMode = .enc → LzwEncOk s) ∧ (s.lzMode = .dec → LzwDecOk s)

theorem blockInv_iff {s : State} : BlockInv s ↔ AlwaysOk s ∧ (s.fault = false → UnitsOk s) := by
  unfold BlockInv AlwaysOk UnitsOk
  simp only [and_assoc]

theorem BlockInv.always {s : State} (h : BlockInv s) : AlwaysOk s := (blockInv_iff.mp h).1

theorem BlockInv.units {s : State} (h : BlockInv s) (hfault : s.fault = false) : UnitsOk s := (blockInv_iff.mp h).2 hfault

theorem AlwaysOk.block {s : State} (h : AlwaysOk s) (hu : UnitsOk s) : BlockInv s := blockInv_iff.mpr ⟨h, fun _ => hu⟩

/-- A recorded fault leaves nothing to promise for the units (60_exceptions.md rule R273). -/
theorem AlwaysOk.recorded {s : State} (h : AlwaysOk s) (k : FaultKind) : BlockInv (recordFault k s) :=
  blockInv_iff.mpr ⟨h, fun hf => by cases hf⟩

theorem WriteSideOk.of_open {s : State} (hb : WriteBufOk s) (hopen : s.wOpen = true) : WriteSideOk s :=
  ⟨hb.1, hb.2, fun h => by rw [hopen] at h; cases h⟩

theorem WriteSideOk.of_empty {s : State} (hbuf : s.wBuf = []) (hacc : s.wAcc = 0) (hn : s.wNbits = 0) : WriteSideOk s :=
  ⟨(WriteBufOk.of_empty hbuf hacc).1, (WriteBufOk.of_empty hbuf hacc).2, fun _ => ⟨hbuf, hacc, hn⟩⟩

theorem ReadSideOk.of_open {s : State} (hb : ReadBufOk s) (hopen : s.rOpen = true) : ReadSideOk s :=
  ⟨hb.1, hb.2, fun h => by rw [hopen] at h; cases h⟩

theorem ReadSideOk.of_empty {s : State} (hbuf : s.rBuf = []) (hpos : s.rBitpos = 0) (hend : s.rSrcEnd = false) : ReadSideOk s := by
  refine ⟨?_, ?_, fun _ => ⟨hbuf, hpos, hend⟩⟩
  · rw [hbuf]
    exact Nat.zero_le _
  · rw [hpos]
    exact Nat.zero_le _

/-! ### Reading and writing bits -/

section
variable {s t : State}

theorem AlwaysOk.writes (h : AlwaysOk s) (hopen : s.wOpen = true) (hf : WriteFrame s t) (hb : WriteBufOk t) : AlwaysOk t := by
  refine ⟨.of_open hb ((congrArg State.wOpen hf :).trans hopen), ?_⟩
  rw [show t = _ from hf]
  exact h.2

theorem AlwaysOk.reads (h : AlwaysOk s) (hopen : s.rOpen = true) (hf : ReadFrame s t) (hb : ReadBufOk t) : AlwaysOk t := by
  have hr : ReadSideOk t := .of_open hb ((congrArg State.rOpen hf :).trans hopen)
  obtain ⟨hw, -, hrest⟩ := h
  refine ⟨?_, hr, ?_⟩ <;> rw [show t = _ from hf]
  · exact hw
  · exact hrest

theorem UnitsOk.writes (h : UnitsOk s) (hf : WriteFrame s t) : UnitsOk t := by
  rw [show t = _ from hf]
  exact h

theorem UnitsOk.reads (h : UnitsOk s) (hf : ReadFrame s t) : UnitsOk t := by
  rw [show t = _ from hf]
  exact h

/-- Writing bits to an open stream keeps what always holds, and so does a sink that fails. -/
theorem AlwaysOk.wrote {r : Res Unit} {bits : List Bool} (h : AlwaysOk s) (hopen : s.wOpen = true) (hr : WriteEnds r s bits) :
    Ends r (fun _ t => AlwaysOk t ∧ WriteFrame s t) BlockInv := by
  refine hr.ends.mono (fun _ t ht => ⟨h.writes hopen ht.frame ht.bufOk, ht.frame⟩) ?_
  rintro t ⟨⟨u, hf, rfl⟩, hb, -⟩
  exact (h.writes hopen hf hb).recorded _

/-- Reading bits from an open stream keeps what always holds, and so does a source that fails. -/
theorem AlwaysOk.getBits (h : AlwaysOk s) (hopen : s.rOpen = true) {n : Nat} (hn : n ≤ 32) :
    Ends (getBits n s) (fun r t => r = getBitsAnswer n (unreadBits s) ∧ AlwaysOk t ∧ ReadFrame s t) BlockInv := by
  refine (getBits_spec n s h.2.1.bufOk hn).mono (fun r t ⟨hr, ht⟩ => ⟨hr, h.reads hopen ht.frame ht.bufOk, ht.frame⟩) ?_
  rintro t ⟨⟨u, hf, rfl⟩, hb, -⟩
  exact (h.reads hopen hf hb).recorded _

end

/-- A code read in `n` bits is below 2^n. -/
theorem getBitsAnswer_lt {n v : Nat} {bits : List Bool} (h : some v = getBitsAnswer n bits) : v < 2 ^ n := by
  unfold getBitsAnswer at h
  split at h
  case isTrue hlen =>
    cases h
    have := valueOfBits_lt (bits.take n)
    rwa [List.length_take, Nat.min_eq_left hlen] at this
  case isFalse => cases h

/-! ### The Bit Channel and the Frequency Model -/

/-- The ends of a command's pseudocode that keep the invariant. -/
abbrev Keeps (r : Res Unit) : Prop := Ends r (fun _ t => BlockInv t) BlockInv

theorem wbits_keeps {s : State} (h : BlockInv s) (hfault : s.fault = false) (hopen : s.wOpen = true) (v n : Nat) : Keeps (putBits v n s) :=
  (h.always.wrote hopen (putBits_ends v n s h.writeBufOk)).mono (fun _ _ ht => ht.1.block ((h.units hfault).writes ht.2)) fun _ ht => ht

theorem closedWrite_keeps {s : State} (h : BlockInv s) : BlockInv (closedWrite s) :=
  ⟨.of_empty rfl rfl rfl, h.2⟩

theorem wclose_keeps {s : State} (h : BlockInv s) : Keeps (closeWrite s) := by
  cases hopen : s.wOpen
  case false =>
    rw [closeWrite_of_closed hopen]
    exact h
  case true =>
    by_cases hheld : closingBytes s = [] ∨ s.ioSink = true
    · rw [closeWrite_of_nothing hopen hheld]
      exact closedWrite_keeps h
    · obtain ⟨hbytes, hsink⟩ := not_or.mp hheld
      rw [closeWrite_of_held hopen hbytes (Bool.not_eq_true _ ▸ hsink)]
      have hclosed := closedWrite_keeps h
      refine (deliver_spec (closingBytes s) (closedWrite s)).mono ?_ ?_
      · rintro - t ⟨rfl, -⟩
        exact hclosed
      · rintro t ⟨rfl, -⟩
        exact AlwaysOk.recorded (by exact hclosed.always) _

theorem rbits_keeps {s : State} (h : BlockInv s) (hfault : s.fault = false) (hopen : s.rOpen = true) {n : Nat} (hn : n ≤ 32) :
    Keeps (readToR0 n s) := by
  refine (h.always.getBits hopen hn).andThen fun r t ⟨_, ht, hf⟩ => ?_
  have hu := (h.units hfault).reads hf
  cases r with
  | none => exact ht.block hu
  | some v => exact ht.block hu

theorem rclose_keeps {s : State} (h : BlockInv s) : BlockInv (closeRead s) := by
  cases hopen : s.rOpen
  case false =>
    rw [closeRead_of_closed hopen]
    exact h
  case true =>
    rw [closeRead_of_open hopen]
    exact ⟨h.1, .of_empty rfl rfl rfl, h.2.2⟩

theorem modelReset_keeps {s : State} (h : BlockInv s) : BlockInv (modelReset s) :=
  ⟨h.1, h.2.1, .of_ramp rfl rfl, h.2.2.2⟩

theorem reportAndUpdate_keeps {s : State} (h : BlockInv s) {sym : Nat} (hsym : sym ≤ 256) : BlockInv (reportAndUpdate sym s) := by
  have hm : ModelOk (freqUpdate sym s) := h.model.freqUpdate hsym
  rw [reportAndUpdate_eq]
  exact ⟨h.1, h.2.1, hm.congr rfl rfl, h.2.2.2⟩

theorem fmsym_keeps {s : State} (h : BlockInv s) (v : Nat) : Keeps (searchAndUpdate v s) := by
  by_cases hv : v < cumAt s 257
  · obtain ⟨sym, hfound, hsym, -⟩ := symbolSearch_spec h.model hv
    rw [searchAndUpdate_of_found hfound]
    exact reportAndUpdate_keeps h hsym
  · rw [searchAndUpdate_of_not_found (symbolSearch_none h.model (Nat.le_of_not_lt hv))]
    exact h.always.recorded _

/-! ### The Arithmetic Coder -/

/-- The whole code range is renormalized (42_arith_coder.md rule R176). -/
theorem renormalized_start : Renormalized 0 131071 := by
  unfold Renormalized
  decide

theorem coderStart_always {s : State} (h : AlwaysOk s) : AlwaysOk (coderStart s) := ⟨h.1, h.2.1, .of_ramp rfl rfl, h.2.2.2⟩

theorem aeinit_keeps {s : State} (h : BlockInv s) (hfault : s.fault = false) :
    BlockInv { coderStart s with acMode := .enc } := by
  obtain ⟨-, hlzw⟩ := h.units hfault
  have hc : CoderOk { coderStart s with acMode := .enc } := ⟨Nat.zero_le _, renormalized_start, fun h => by cases h⟩
  have ha := coderStart_always h.always
  exact AlwaysOk.block (by exact ha) ⟨hc, hlzw⟩

theorem aesym_keeps {s : State} (h : BlockInv s) (hfault : s.fault = false) (hmode : s.acMode = .enc) (hopen : s.wOpen = true)
    {sym : Nat} (hsym : sym ≤ 256) : Keeps (encodeSymbol sym s) := by
  have hm := (reportAndUpdate_keeps h hsym).model
  have halways : ∀ {t}, EncFrame (reportAndUpdate sym s) t → WriteBufOk t → AlwaysOk t := fun {t} hf hb => by
    have hmt : ModelOk t := hm.congr (congrArg State.cum hf :) (congrArg State.frozen hf :)
    rw [reportAndUpdate_eq] at hf
    refine ⟨.of_open hb ((congrArg State.wOpen hf :).trans hopen), ?_, hmt, ?_⟩ <;> rw [show t = _ from hf]
    · exact h.2.1
    · exact h.dict
  refine (encodeSymbol_spec h.writeBufOk h.model (h.coder hfault) hsym).mono (fun _ t ht => ?_) ?_
  · have hf := ht.frame
    refine (halways hf ht.appended.bufOk).block ⟨⟨ht.ordered, ht.renormalized, fun hdec => ?_⟩, ?_⟩
    · rw [reportAndUpdate_eq] at hf
      rw [(congrArg State.acMode hf :), hmode] at hdec
      cases hdec
    · rw [reportAndUpdate_eq] at hf
      rw [show t = _ from hf]
      exact (h.units hfault).2
  · rintro t ⟨u, hf, hb, ⟨rfl, -⟩ | ⟨rfl, -⟩⟩ <;> exact (halways hf hb).recorded _

theorem EmitFrame.always {s t : State} (h : AlwaysOk s) (hopen : s.wOpen = true) (hf : EmitFrame s t) (hb : WriteBufOk t) :
    AlwaysOk t := by
  refine ⟨.of_open hb ((congrArg State.wOpen hf :).trans hopen), ?_⟩
  rw [show t = _ from hf]
  exact h.2

theorem DecFrame.always {s t : State} (h : AlwaysOk s) (hopen : s.rOpen = true) (hf : DecFrame s t) (hb : ReadBufOk t) :
    AlwaysOk t := by
  have hr : ReadSideOk t := .of_open hb ((congrArg State.rOpen hf :).trans hopen)
  obtain ⟨hw, -, hrest⟩ := h
  refine ⟨?_, hr, ?_⟩ <;> rw [show t = _ from hf]
  · exact hw
  · exact hrest

theorem DecodedFrame.always {s t : State} {sym : Nat} (h : AlwaysOk s) (hwopen : s.wOpen = true) (hropen : s.rOpen = true)
    (hsym : sym ≤ 256) (hf : DecodedFrame sym s t) (hwb : WriteBufOk t) (hrb : ReadBufOk t) : AlwaysOk t :=
  ⟨.of_open hwb ((congrArg State.wOpen hf :).trans hwopen), .of_open hrb ((congrArg State.rOpen hf :).trans hropen),
    (h.2.2.1.freqUpdate hsym).congr (congrArg State.cum hf :) (congrArg State.frozen hf :),
    h.2.2.2.congr (congrArg State.dict hf :) (congrArg State.maxcode hf :)⟩

theorem aefin_keeps {s : State} (h : BlockInv s) (hfault : s.fault = false) (hopen : s.wOpen = true) : Keeps (finishEncode s) := by
  by_cases hp : s.pending.toNat = Config.pendingMax
  · rw [finishEncode_of_full (pending_full hp)]
    exact h.always.recorded _
  · rw [finishEncode_of_room hp]
    obtain ⟨⟨hle, hrenorm, -⟩, hlzw⟩ := h.units hfault
    have halways : AlwaysOk { s with pending := s.pending + 1 } := h.always
    refine ((emitBit_spec _ { s with pending := s.pending + 1 } h.writeBufOk).mono (fun _ _ ht => ht) ?_).andThen ?_
    · rintro t ⟨⟨u, hf, rfl⟩, hb, -⟩
      exact (halways.writes hopen hf hb).recorded _
    · rintro - t ⟨happ, hf, -⟩
      have ht := hf.always halways hopen happ.bufOk
      refine AlwaysOk.block (by exact ht) ?_
      rw [show t = _ from hf]
      exact ⟨⟨hle, hrenorm, fun hdec => by cases hdec⟩, hlzw⟩

theorem adinit_keeps {s : State} (h : BlockInv s) (hfault : s.fault = false) (hopen : s.rOpen = true) :
    Keeps (andThen (loadValue 17 (coderStart s)) fun _ t => .ok () { t with acMode := .dec }) := by
  have halways := coderStart_always h.always
  have hvalue : (coderStart s).value.toNat * 2 ^ 17 + 2 ^ 17 ≤ 131072 := by
    change (0#17).toNat * 2 ^ 17 + 2 ^ 17 ≤ 131072
    decide
  refine ((loadValue_spec 17 (coderStart s) h.readBufOk hvalue).mono (fun _ _ ht => ht) ?_).andThen ?_
  · rintro t ⟨u, hf, hb, rfl, -⟩
    exact (hf.always halways hopen hb).recorded _
  · rintro - t ⟨htook, hf, hlow, hhigh, -⟩
    have ht := hf.always halways hopen htook.bufOk
    refine AlwaysOk.block (by exact ht) ⟨?_, ?_⟩
    · have hl : t.low.toNat = 0 := congrArg BitVec.toNat hlow
      have hh : t.high.toNat = 131071 := congrArg BitVec.toNat hhigh
      unfold CoderOk
      simp only [hl, hh]
      exact ⟨Nat.zero_le _, renormalized_start, fun _ => ⟨Nat.zero_le _, Nat.le_of_lt_succ t.value.isLt⟩⟩
    · rw [show t = _ from hf]
      exact (h.units hfault).2

theorem adsym_keeps {s : State} (h : BlockInv s) (hfault : s.fault = false) (hmode : s.acMode = .dec) (hr : s.rOpen = true)
    (hw : s.wOpen = true) : Keeps (decodeSymbol s) := by
  obtain ⟨hc, hlzw⟩ := h.units hfault
  obtain ⟨h1, h2⟩ := hc.2.2 hmode
  obtain ⟨sym, hfound, hsym, hlo, hhi⟩ := symbolSearch_spec h.model
    (scaledValue_lt h1 h2 (by have := h.model.total; omega) : scaledValue s < cumAt s 257)
  by_cases heof : sym = 256
  · rw [heof] at hfound
    rw [decodeSymbol_of_eof hfound]
    have ht := (reportAndUpdate_keeps h (le_refl 256)).always
    refine AlwaysOk.block (by exact ht) ?_
    rw [reportAndUpdate_eq]
    exact ⟨⟨hc.1, hc.2.1, fun hdec => by cases hdec⟩, hlzw⟩
  · refine (decodeSymbol_spec h.writeBufOk h.readBufOk h.model hc hmode (by omega) hlo hhi).mono (fun _ t ht => ?_) ?_
    · refine (ht.frame.always h.always hw hr hsym ht.appended.bufOk ht.took.bufOk).block ⟨?_, ?_⟩
      · exact ⟨ht.inside.1.trans ht.inside.2, ht.renormalized, fun _ => ht.inside⟩
      · rw [show t = _ from ht.frame]
        exact hlzw
    · rintro t ⟨u, k, hu, rfl⟩
      exact (hu.frame.always h.always hw hr hsym hu.bufsOk.1 hu.bufsOk.2).recorded _

/-! ### The LZW Transform -/

/-- The initial dictionary, whatever code width or match goes with it. -/
theorem freshDict_always {s : State} (h : AlwaysOk s) : AlwaysOk (freshDict s) := ⟨h.1, h.2.1, h.2.2.1, .of_initial rfl rfl⟩

theorem lzwEncOk_fresh {s : State} (hd : s.dict = initialDict) (hm : s.maxcode = 255) (hc : s.codelen = 8) (hs : s.sCode = none) :
    LzwEncOk s := by
  refine ⟨hd ▸ initialDict_nodup, fun k hk => ?_, ?_, ?_⟩
  · rw [hs] at hk
    cases hk
  · rw [hm, hc]
    decide
  · rw [hm]
    decide

theorem lzwDecOk_fresh {s : State} (hm : s.maxcode = 255) (hc : s.codelen = 8) (hp : s.prev.toNat ≤ 255) : LzwDecOk s := by
  refine ⟨?_, ?_⟩
  · rw [hm]
    exact hp
  · rw [hm, hc]
    decide

theorem leinit_keeps {s : State} (h : BlockInv s) (hfault : s.fault = false) :
    BlockInv { lzwReset s with sCode := none, prev := 0, lzMode := .enc } := by
  have ha := freshDict_always h.always
  exact AlwaysOk.block (by exact ha) ⟨(h.units hfault).1, fun _ => lzwEncOk_fresh rfl rfl rfl rfl, fun hdec => by cases hdec⟩

theorem toNat_code {n : Nat} (h : n < 8388608) : (BitVec.ofNat 23 n).toNat = n := by
  rw [BitVec.toNat_ofNat]
  exact Nat.mod_eq_of_lt h

theorem extendMatch_keeps {s : State} (h : BlockInv s) (hfault : s.fault = false) (hmode : s.lzMode = .enc) {k : Nat}
    (hk : k ≤ s.maxcode.toNat) : BlockInv (extendMatch k s) := by
  obtain ⟨hnodup, -, hcode, hcap⟩ := h.enc hfault hmode
  refine AlwaysOk.block (by exact h.always) ⟨(h.units hfault).1, fun _ => ⟨hnodup, fun j hj => ?_, hcode, hcap⟩, fun hdec => ?_⟩
  · cases hj
    rw [toNat_code (lt_of_le_of_lt hk s.maxcode.isLt)]
    exact hk
  · rw [show s.lzMode = .dec from hdec] at hmode
    cases hmode

theorem inserted_always {s : State} (h : AlwaysOk s) (hw : WidthOk s) {t : List Byte} (ht : 2 ≤ t.length) (e : Nat) (c : Byte) :
    AlwaysOk (inserted e c t s) := by
  have hd := hw.1.insertNext ht hw.2.2
  rw [insertNext_eq hw.1, ofNat_toNat_succ] at hd
  exact ⟨h.1, h.2.1, h.2.2.1, hd.congr rfl rfl⟩

end Sys2Proof.Machine

/-!
PROOFS. The invariant of the block over the LZW commands, and over every step: a command runs its pseudocode, which keeps the
invariant, or is refused or fails a check, which changes STATUS alone.
-/
namespace Sys2Proof.Machine

theorem UnitsOk.of_enc {s : State} (hc : CoderOk s) (hmode : s.lzMode = .enc) (h : LzwEncOk s) : UnitsOk s :=
  ⟨hc, fun _ => h, fun hdec => by rw [hmode] at hdec; cases hdec⟩

theorem UnitsOk.of_dec {s : State} (hc : CoderOk s) (hmode : s.lzMode = .dec) (h : LzwDecOk s) : UnitsOk s :=
  ⟨hc, fun henc => by (rw [hmode] at henc; cases henc), fun _ => h⟩

theorem UnitsOk.of_idle {s : State} (hc : CoderOk s) (hmode : s.lzMode = .idle) : UnitsOk s :=
  ⟨hc, fun henc => by (rw [hmode] at henc; cases henc), fun hdec => by rw [hmode] at hdec; cases hdec⟩

theorem WriteFrame.coderOk {s t : State} (h : WriteFrame s t) (hc : CoderOk s) : CoderOk t := by
  rw [show t = _ from h]
  exact hc

theorem ReadFrame.coderOk {s t : State} (h : ReadFrame s t) (hc : CoderOk s) : CoderOk t := by
  rw [show t = _ from h]
  exact hc

/-! ### The encoder -/

theorem DictOk.byte_le {s : State} (h : DictOk s) (c : Byte) : c.toNat ≤ s.maxcode.toNat := le_trans (Nat.le_of_lt_succ c.isLt) h.2.1

theorem LostALoad.bufOk {s u : State} {bits : List Bool} (h : LostALoad s bits u) : WriteBufOk u :=
  .of_empty h.buffer.1 h.buffer.2.1

theorem capReset_keeps {s : State} (h : AlwaysOk s) (hc : CoderOk s) (hmode : s.lzMode = .enc) (hopen : s.wOpen = true) (c : Byte) :
    Keeps (capReset c s) := by
  refine (h.wrote hopen (putBits_ends c.toNat s.codelen.toNat s h.1.bufOk)).andThen fun _ u ⟨hu, hf⟩ => ?_
  have ha := freshDict_always hu
  refine AlwaysOk.block (by exact ha) (.of_enc (by exact hf.coderOk hc) ((congrArg State.lzMode hf :).trans hmode) ?_)
  exact lzwEncOk_fresh rfl rfl rfl rfl

theorem emitAndInsert_keeps {s : State} (h : BlockInv s) (hfault : s.fault = false) (hmode : s.lzMode = .enc) (hopen : s.wOpen = true)
    (e : Nat) (c : Byte) {t : List Byte} (ht : 2 ≤ t.length) (hnew : t ∉ s.dict) : Keeps (emitAndInsert e c t s) := by
  have hw := h.widthOk hfault hmode
  have hc := h.coder hfault
  obtain ⟨hnodup, -⟩ := h.enc hfault hmode
  obtain ⟨hwrote, hlost⟩ := emitAndInsert_eq e c t hw h.writeBufOk
  by_cases hsink : SinkFailsOn s (bitlen s.maxcode.toNat)
  · obtain ⟨u, hu, hf, hl⟩ := hlost hsink
    rw [hu]
    exact (h.always.writes hopen hf hl.bufOk).recorded _
  · obtain ⟨u, hu, heq⟩ := hwrote hsink
    have hf := hu.frame
    have hm : u.maxcode = s.maxcode := (congrArg State.maxcode hf :)
    have ha := inserted_always (h.always.writes hopen hf hu.bufOk) (hf.widthOk hw) ht e c
    have hcu : CoderOk (inserted e c t u) := hf.coderOk hc
    have hmode' : u.lzMode = .enc := (congrArg State.lzMode hf :).trans hmode
    rw [heq]
    split
    case isTrue => exact capReset_keeps ha hcu hmode' ((congrArg State.wOpen hf :).trans hopen) c
    case isFalse hcap =>
      have hnext : (u.maxcode + 1).toNat = s.maxcode.toNat + 1 := by rw [hm, toNat_maxcode_succ hw.2.2]
      refine ha.block (.of_enc hcu hmode' ⟨?_, ?_, ?_, ?_⟩)
      · have hn := nodup_insertNext hw.1 hnodup ((codeOf_none hw.1).mpr hnew)
        rw [insertNext_eq hw.1] at hn
        rw [show u = _ from hf]
        exact hn
      · intro k hk
        cases hk
        change (c.setWidth 23).toNat ≤ (u.maxcode + 1).toNat
        rw [hnext, BitVec.toNat_setWidth_of_le (by decide)]
        have := hw.1.byte_le c
        omega
      · change (BitVec.ofNat 5 (bitlen (u.maxcode.toNat + 1))).toNat = bitlen (u.maxcode + 1).toNat
        rw [hnext, hm]
        exact toNat_stepWidth hw.2.2
      · change (u.maxcode + 1).toNat < 4194304
        rw [hnext]
        have := hw.2.2
        omega

theorem lebyte_keeps {s : State} (h : BlockInv s) (hfault : s.fault = false) (hmode : s.lzMode = .enc) (hopen : s.wOpen = true)
    (c : Byte) : Keeps (encodeByte c s) := by
  have henc := h.enc hfault hmode
  obtain hnone | ⟨e, he⟩ := Option.eq_none_or_eq_some s.sCode
  · rw [encodeByte_of_no_match h.dict hnone]
    exact extendMatch_keeps h hfault hmode (h.dict.byte_le c)
  · have hle := toNat_le_of_enc henc he
    obtain ⟨hfound, hmiss⟩ := encodeByte_of_match h.dict he hle c
    obtain hnone | ⟨k, hk⟩ := Option.eq_none_or_eq_some (codeOf (dictAt s e.toNat ++ [c]) s)
    · have hnew := (codeOf_none h.dict).mp hnone
      rw [hmiss hnew]
      have hlen := List.length_pos_iff.mpr (h.dict.dictAt_ne_nil hle)
      exact emitAndInsert_keeps h hfault hmode hopen _ _ (by rw [List.length_append, List.length_singleton]; omega) hnew
    · rw [hfound k hk]
      exact extendMatch_keeps h hfault hmode (codeOf_some h.dict hk).1

theorem lefin_keeps {s : State} (h : BlockInv s) (hfault : s.fault = false) (hopen : s.wOpen = true) : Keeps (finishLzw s) := by
  have hc := h.coder hfault
  obtain hnone | ⟨k, hk⟩ := Option.eq_none_or_eq_some s.sCode
  · rw [finishLzw_of_no_match hnone]
    exact AlwaysOk.block (by exact h.always) (.of_idle (by exact hc) rfl)
  · obtain ⟨hwrote, hlost⟩ := finishLzw_of_match hk h.writeBufOk
    by_cases hsink : SinkFailsOn s s.codelen.toNat
    · obtain ⟨u, hu, hf, hl⟩ := hlost hsink
      rw [hu]
      exact (h.always.writes hopen hf hl.bufOk).recorded _
    · obtain ⟨u, hu, heq⟩ := hwrote hsink
      have ha := h.always.writes hopen hu.frame hu.bufOk
      rw [heq]
      exact AlwaysOk.block (by exact ha) (.of_idle (by exact hu.frame.coderOk hc) rfl)

/-! ### The decoder -/

theorem endLzwDecode_keeps {s : State} (h : AlwaysOk s) (hc : CoderOk s) : BlockInv (endLzwDecode s) :=
  AlwaysOk.block (by exact h) (.of_idle (by exact hc) rfl)

theorem ldinit_keeps {s : State} (h : BlockInv s) (hfault : s.fault = false) (hr : s.rOpen = true) (hw : s.wOpen = true) :
    Keeps (decodeFirstCode s) := by
  have hc := h.coder hfault
  refine ((freshDict_always h.always).getBits (s := freshDict s) hr (n := 8) (by decide)).andThen fun r t ⟨hans, ht, hf⟩ => ?_
  have hct : CoderOk t := hf.coderOk (s := freshDict s) hc
  cases r with
  | none => exact endLzwDecode_keeps ht hct
  | some v =>
    have hv : v < 256 := getBitsAnswer_lt hans
    refine (ht.wrote ((congrArg State.wOpen hf :).trans hw) (putBits_ends v 8 t ht.1.bufOk)).andThen fun _ u ⟨hu, hfu⟩ => ?_
    have hmax : u.maxcode = t.maxcode := (congrArg State.maxcode hfu :)
    have hcode : u.codelen = t.codelen := (congrArg State.codelen hfu :)
    have hprev : (BitVec.ofNat 23 v).toNat ≤ 255 := by
      rw [toNat_code (by omega)]
      omega
    refine AlwaysOk.block (by exact hu) (.of_dec (by exact hfu.coderOk hct) rfl (lzwDecOk_fresh ?_ ?_ hprev))
    · exact hmax.trans (congrArg State.maxcode hf :)
    · exact hcode.trans (congrArg State.codelen hf :)

theorem resetStep_keeps {s : State} (h : BlockInv s) (hfault : s.fault = false) (hmode : s.lzMode = .dec) (hr : s.rOpen = true)
    (hw : s.wOpen = true) : Keeps (resetStep s) := by
  have hc := h.coder hfault
  have ha : AlwaysOk { s with codelen := 8 } := h.always
  refine (ha.getBits hr (n := 8) (by decide)).andThen fun r t ⟨hans, ht, hf⟩ => ?_
  have hct : CoderOk t := hf.coderOk (s := { s with codelen := 8 }) hc
  cases r with
  | none => exact endLzwDecode_keeps ht hct
  | some v =>
    have hv : v < 256 := getBitsAnswer_lt hans
    refine (ht.wrote ((congrArg State.wOpen hf :).trans hw) (putBits_ends v 8 t ht.1.bufOk)).andThen fun _ u ⟨hu, hfu⟩ => ?_
    have hmode' : u.lzMode = t.lzMode := (congrArg State.lzMode hfu :)
    have hprev : (BitVec.ofNat 23 v).toNat ≤ 255 := by
      rw [toNat_code (by omega)]
      omega
    have hfresh := freshDict_always hu
    exact AlwaysOk.block (by exact hfresh) (.of_dec (by exact hfu.coderOk hct)
      ((hmode'.trans (congrArg State.lzMode hf :)).trans hmode) (lzwDecOk_fresh rfl rfl hprev))

theorem grown_always {s : State} (h : AlwaysOk s) (hprev : s.prev.toNat ≤ s.maxcode.toNat) (hm : s.maxcode.toNat < 4194304) {r : Nat}
    (hr : r ≤ s.maxcode.toNat + 1) : AlwaysOk (grown r s) := by
  have hdict := h.2.2.2
  have h1 := List.length_pos_iff.mpr (hdict.dictAt_ne_nil hprev)
  have h2 := List.length_pos_iff.mpr (stringOfCode_ne_nil hdict hprev hr)
  have hd := hdict.insertNext (t := dictAt s s.prev.toNat ++ (stringOfCode r s).take 1)
    (by rw [List.length_append, List.length_take]; omega) hm
  rw [insertNext_eq hdict, ofNat_toNat_succ] at hd
  exact ⟨h.1, h.2.1, h.2.2.1, hd.congr rfl rfl⟩

/-- LDSTEP's work on a code, in the state `t` after the code is read. -/
theorem decodeCode_keeps {s t : State} (h : StepReady s) (hf : ReadFrame (widened s) t) (hc : CoderOk t) (ht : AlwaysOk t)
    (hmode : s.lzMode = .dec) (hw : s.wOpen = true) (v : Nat) : Keeps (decodeCode v t) := by
  obtain ⟨hdict, hprev, hmax⟩ := h.after_read hf
  by_cases hbad : t.maxcode.toNat + 1 < v
  · rw [decodeCode_of_bad hbad]
    exact ht.recorded _
  · have hgood := Nat.le_of_not_lt hbad
    have hm : t.maxcode.toNat < 4194304 := by
      rw [hmax]
      exact h.below
    have hg := grown_always ht hprev hm hgood
    rw [decodeCode_of_good hdict hprev hgood]
    refine (hg.wrote ((congrArg State.wOpen hf :).trans hw) (putBytes_ends _ _ hg.1.bufOk)).andThen fun _ u ⟨hu, hfu⟩ => ?_
    have hmode' : u.lzMode = t.lzMode := (congrArg State.lzMode hfu :)
    have hcode : u.codelen = t.codelen := (congrArg State.codelen hfu :)
    have hcode' : t.codelen = BitVec.ofNat 5 (stepWidth s) := (congrArg State.codelen hf :)
    have hmaxu : u.maxcode.toNat = t.maxcode.toNat + 1 := by
      rw [← toNat_maxcode_succ hm]
      exact congrArg BitVec.toNat (congrArg State.maxcode hfu :)
    have hcu : CoderOk u := hfu.coderOk (s := grown v t) hc
    refine AlwaysOk.block (by exact hu) (.of_dec (by exact hcu) ((hmode'.trans (congrArg State.lzMode hf :)).trans hmode) ⟨?_, ?_⟩)
    · change (BitVec.ofNat 23 v).toNat ≤ u.maxcode.toNat
      rw [toNat_code (by omega), hmaxu]
      exact hgood
    · change u.codelen.toNat = bitlen u.maxcode.toNat
      rw [hcode, hcode', hmaxu, hmax]
      exact toNat_stepWidth h.below

theorem ldstep_keeps {s : State} (h : BlockInv s) (hfault : s.fault = false) (hmode : s.lzMode = .dec) (hr : s.rOpen = true)
    (hw : s.wOpen = true) : Keeps (decodeStep s) := by
  have hc := h.coder hfault
  by_cases hcap : s.maxcode.toNat = 4194304
  · rw [decodeStep_of_cap hcap]
    exact resetStep_keeps h hfault hmode hr hw
  · have hm : s.maxcode.toNat < 4194304 := lt_of_le_of_ne h.dict.2.2.1 hcap
    obtain ⟨hprev, hwidth⟩ := h.dec hfault hmode
    have hready : StepReady s := ⟨h.dict, hprev, hwidth, hm⟩
    rw [decodeStep_of_room hready]
    have ha : AlwaysOk (widened s) := h.always
    refine (ha.getBits hr (le_trans (stepWidth_le hm) (by decide))).andThen fun r t ⟨hans, ht, hf⟩ => ?_
    have hct : CoderOk t := hf.coderOk (s := widened s) hc
    cases r with
    | none => exact endLzwDecode_keeps ht hct
    | some v => exact decodeCode_keeps hready hf hct ht hmode hw v

/-! ### Every command -/

/-- Settles O51. -/
theorem blockInvAtReset : Obligations.BlockInvAtReset :=
  AlwaysOk.block ⟨.of_empty rfl rfl rfl, .of_empty rfl rfl rfl, .of_ramp rfl rfl, .of_initial rfl rfl⟩
    (.of_idle ⟨Nat.zero_le _, renormalized_start, fun h => by cases h⟩ rfl)

/-- The invariant does not speak of CMD, of the host's actions, or of the bindings. -/
theorem resetAll_keeps (s : State) : BlockInv (resetAll s) := blockInvAtReset

/-- Every command that passes its checks keeps the invariant, and none of them stops the model. -/
theorem pseudocode_keeps {i : Instr} {s : State} (h : BlockInv s) (hrun : s.fault = false ∨ acceptedWhileFaulted i = true)
    (hstate : ¬ badStateCondition s i) (hoperand : ¬ badOperandCondition i) : Keeps (pseudocode i s) := by
  have hfault : acceptedWhileFaulted i = false → s.fault = false := fun hi => hrun.resolve_right (by rw [hi]; exact Bool.false_ne_true)
  cases i with
  | wopen => exact ⟨.of_empty rfl rfl rfl, h.2⟩
  | wbits n => exact wbits_keeps h (hfault rfl) (eq_true_of_ne_false hstate) _ _
  | wclose => exact wclose_keeps h
  | ropen => exact ⟨h.1, .of_empty rfl rfl rfl, h.2.2⟩
  | rbits n => exact rbits_keeps h (hfault rfl) (eq_true_of_ne_false hstate) (Nat.le_of_not_lt (not_or.mp hoperand).2)
  | rclose => exact rclose_keeps h
  | fmrst => exact modelReset_keeps h
  | fmprob sym => exact reportAndUpdate_keeps h (Nat.le_of_not_lt hoperand)
  | fmsym v => exact fmsym_keeps h _
  | fmtot => exact h
  | aeinit => exact aeinit_keeps h (hfault rfl)
  | aesym sym =>
    obtain ⟨hmode, hopen⟩ := not_or.mp hstate
    exact aesym_keeps h (hfault rfl) (not_not.mp hmode) (eq_true_of_ne_false hopen) (Nat.le_of_not_lt hoperand)
  | aefin => exact aefin_keeps h (hfault rfl) (eq_true_of_ne_false (not_or.mp hstate).2)
  | adinit => exact adinit_keeps h (hfault rfl) (eq_true_of_ne_false hstate)
  | adsym =>
    obtain ⟨hmode, hopen⟩ := not_or.mp hstate
    obtain ⟨hr, hw⟩ := not_or.mp hopen
    exact adsym_keeps h (hfault rfl) (not_not.mp hmode) (eq_true_of_ne_false hr) (eq_true_of_ne_false hw)
  | leinit => exact leinit_keeps h (hfault rfl)
  | lebyte c =>
    obtain ⟨hmode, hopen⟩ := not_or.mp hstate
    exact lebyte_keeps h (hfault rfl) (not_not.mp hmode) (eq_true_of_ne_false hopen) _
  | lefin => exact lefin_keeps h (hfault rfl) (eq_true_of_ne_false (not_or.mp hstate).2)
  | ldinit =>
    obtain ⟨hr, hw⟩ := not_or.mp hstate
    exact ldinit_keeps h (hfault rfl) (eq_true_of_ne_false hr) (eq_true_of_ne_false hw)
  | ldstep =>
    obtain ⟨hmode, hopen⟩ := not_or.mp hstate
    obtain ⟨hr, hw⟩ := not_or.mp hopen
    exact ldstep_keeps h (hfault rfl) (not_not.mp hmode) (eq_true_of_ne_false hr) (eq_true_of_ne_false hw)
  | srst => exact resetAll_keeps s

/-! ### Every step -/

/-- The BadState check does not read END and FCODE. -/
theorem stateCheck_clearConditions (s : State) (i : Instr) : stateCheck (clearConditions s) i = stateCheck s i := by
  cases i <;> rfl

theorem exec_keeps {i : Instr} {s : State} (h : BlockInv s) : ∃ t, exec i s = .next t ∧ BlockInv t := by
  have hclear : BlockInv (clearConditions s) := h
  rw [exec_eq_dispatchCommand]
  rcases dispatchCommand_cases (acceptedWhileFaulted i) (stateCheck s i) (operandCheck i) (pseudocode i) s with
    ⟨-, -, heq⟩ | ⟨-, -, heq⟩ | ⟨-, -, -, heq⟩ | ⟨hrun, hstate, hoperand, heq⟩ <;> rw [heq]
  · exact ⟨s, rfl, h⟩
  · exact ⟨_, rfl, hclear.always.recorded _⟩
  · exact ⟨_, rfl, hclear.always.recorded _⟩
  · have hstate' : ¬ badStateCondition (clearConditions s) i := by
      rw [← stateCheck_eq_true_iff, stateCheck_clearConditions, hstate]
      exact Bool.false_ne_true
    have hoperand' : ¬ badOperandCondition i := by
      rw [← operandCheck_eq_true_iff, hoperand]
      exact Bool.false_ne_true
    obtain ⟨t, ht, hinv | hinv⟩ := (pseudocode_keeps hclear hrun hstate' hoperand').outcome <;> exact ⟨t, ht, hinv⟩

theorem illegalCommand_keeps {s : State} (h : BlockInv s) : BlockInv (illegalCommand s) := by
  cases hfault : s.fault
  case true =>
    rw [illegalCommand_of_fault hfault]
    exact h
  case false =>
    rw [illegalCommand_of_not_fault hfault]
    exact blockInv_iff.mpr ⟨h.always, fun hf => by cases hf⟩

theorem hostAction_keeps {s : State} (h : BlockInv s) (a : HostAction) : BlockInv (hostAction a s) := by
  cases a with
  | writeCmd w => exact h
  | writeData v => exact h
  | bindSource source => exact h
  | bindSink sink => exact h
  | powerOn => exact resetAll_keeps s

/-- From a state with the invariant a step gives a next state, and that has the invariant. -/
theorem step_keeps {s : State} (h : BlockInv s) : ∃ t, step s = .next t ∧ BlockInv t := by
  obtain ⟨w, i, -, -, heq⟩ | ⟨w, -, -, heq⟩ | ⟨a, rest, -, -, heq⟩ | ⟨-, -, heq⟩ := step_cases s <;> rw [heq]
  · exact exec_keeps (by exact h)
  · exact ⟨_, rfl, illegalCommand_keeps (by exact h)⟩
  · exact ⟨_, rfl, hostAction_keeps (by exact h) a⟩
  · exact ⟨s, rfl, h⟩

/-- Settles O52. -/
theorem everyStepKeepsBlockInv : Obligations.EveryStepKeepsBlockInv := by
  intro s t h ht
  obtain ⟨u, hu, hinv⟩ := step_keeps h
  rw [ht] at hu
  cases hu
  exact hinv

/-- Settles O53. -/
theorem goodStatesNeverStop : Obligations.GoodStatesNeverStop := fun _ h =>
  have ⟨t, ht, _⟩ := step_keeps h
  ⟨t, ht⟩

end Sys2Proof.Machine
